-- ==== Sys2Proof/Word.lean ====
section
/-! DEFINITION. The word types of the engine: bytes, the 32-bit command word and the 64-bit operand and result
registers (rules R7, R21, R22, R100), and a cipher block of 8 bytes (rules R6, R13). -/

namespace Sys2Proof

/-- A byte is 8 bits (rule R7). -/
abbrev Byte := BitVec 8

/-- The width of the command word `W` (rule R100) and of the values of the bit fields and integers. -/
abbrev Word32 := BitVec 32

/-- The width of the operand registers `A`, `B`, `C` (rule R21) and of the result register `R` (rule R22). -/
abbrev Word64 := BitVec 64

/-- A cipher block, or a cipher key: exactly 8 bytes in stream order (`BLOCK = KEYLEN = 8`, rules R6, R13, R74). -/
abbrev Block := { l : List Byte // l.length = 8 }

end Sys2Proof
end

