-- ==== Sys2Proof/Config.lean ====
section
/-! DEFINITION. What one launch fixes (rule R6): the capacities, the topology, and the cipher, which stays opaque. -/

namespace Sys2Proof

/-- The downstream of `BR` (parameter `BR_SRC`, rules R5, R6). -/
inductive BrSource where
  | raw
  | cra
deriving DecidableEq, Repr

/-- The downstream of `BW` (parameter `BW_DST`, rules R5, R6). -/
inductive BwDest where
  | raw
  | cwa
deriving DecidableEq, Repr

/-- The implementation parameters of rule R6 that are sizes or topology. They are fixed for a launch (rules R5, R350):
no step writes them. Their values are OPEN in the spec, so every statement takes them as an argument (log 2). -/
structure Config where
  /-- `C_R`, capacity of the `BR` buffer in bytes -/
  cR : Nat
  /-- `C_W`, capacity of the `BW` buffer in bytes -/
  cW : Nat
  /-- `C_CW`, capacity of the `CWA` write buffer in bytes -/
  cCW : Nat
  /-- `MARK_DEPTH`, the most entries on each unit's mark stack -/
  markDepth : Nat
  /-- `BR_SRC` -/
  brSrc : BrSource
  /-- `BW_DST` -/
  bwDst : BwDest
deriving DecidableEq, Repr

/-- The constraints rule R6 puts on the sizes. -/
abbrev Config.wf (c : Config) : Prop :=
  8 ≤ c.cR ∧ 8 ≤ c.cW ∧ 8 ≤ c.cCW ∧ c.cCW % 8 = 0 ∧ 1 ≤ c.markDepth

/-- `POS_MAX`, the largest legal stream position (rule R6). -/
def Config.posMax : Nat := 2 ^ 63 - 1

/-- `BLOCK`, the cipher block size in bytes (rule R6). -/
def Config.blockLen : Nat := 8

/-- `NMAX`, the largest bit count of a bit read (rule R6). -/
def Config.nMax : Nat := 32

/-- The opaque primitive `CIPHER` (rules R6, R13, R75): for each 8-byte key, what encryption under it does to a block.
DEDUCED, safe (log 7): rule R75 makes decryption a left inverse of encryption on the finite set of blocks, so
encryption under a key is a permutation of the blocks and decryption is its inverse; nothing else is assumed. -/
opaque Config.cipher : Block → Equiv.Perm Block

end Sys2Proof
end

