-- ==== Sys2Proof/Syntax.lean ====
section
/-! DEFINITION. The command record (rule R100) and the 51 commands of the opcode map (rule R104), each with the operands
rule R103 forms for it. -/

namespace Sys2Proof

/-- The command record `(W, A, B, C, P)` (rule R100). -/
structure Command where
  /-- the command word `W` -/
  w : Word32
  /-- the operand `A` -/
  a : Word64
  /-- the operand `B` -/
  b : Word64
  /-- the operand `C` -/
  c : Word64
  /-- the payload `P` -/
  p : List Byte
deriving DecidableEq, Repr

/-- The four units (rule R2). -/
inductive UnitId where
  | br
  | bw
  | cra
  | cwa
deriving DecidableEq, Repr

/-- The origin of CRA.SEEK, the field `M` of its word (rule R101). -/
inductive Origin where
  /-- `SEEK_SET`, `M = 0` -/
  | seekSet
  /-- `SEEK_CUR`, `M = 1` -/
  | seekCur
  /-- `SEEK_END`, `M = 2` -/
  | seekEnd
deriving DecidableEq, Repr

/-- A decoded command: one constructor per row of the opcode map (rule R104). `n` is the bit count, `cnt` a byte or bit
count `A[31:0]`, `expected` and `off` the operand `A` (read as signed by the meaning), `v` the value, `p` the payload,
`key` the operand `A` that packs the key, `req` the operand `B`, `start` the operand `C`, `own` the bit `M[0]` (R103). -/
inductive Instr where
  | brInit
  | brRelease
  | brGetError
  | brReadUbits (n : BitVec 6)
  | brReadSbits (n : BitVec 6)
  | brScanUbits (n : BitVec 6)
  | brScanSbits (n : BitVec 6)
  | brReadU8
  | brReadS8
  | brReadU16
  | brReadS16
  | brReadU32
  | brReadS32
  | brAlign
  | brSkip (cnt : BitVec 32)
  | brSkipBits (cnt : BitVec 32)
  | brMark
  | brUnmark
  | brReset
  | brCheck (expected : Word64)
  | brBytesRead
  | brReadBytes (cnt : BitVec 32)
  | brReadStrFixed (cnt : BitVec 32)
  | brReadStrNul
  | bwInit
  | bwRelease
  | bwGetError
  | bwWriteBits (n : BitVec 6) (v : Word32)
  | bwWriteByte (v : Byte)
  | bwWriteShort (v : BitVec 16)
  | bwWriteInt (v : Word32)
  | bwWriteBytes (p : List Byte)
  | bwWriteString (p : List Byte)
  | bwAlign
  | bwFlush
  | bwMark
  | bwUnmark
  | bwCheck (expected : Word64)
  | craInit (own : Bool) (key : Word64) (req : Word64) (start : Word64)
  | craRelease
  | craGetError
  | craRead (cnt : BitVec 32)
  | craSeek (origin : Origin) (off : Word64)
  | craTell
  | craEof
  | cwaInit (own : Bool) (key : Word64)
  | cwaRelease
  | cwaGetError
  | cwaWrite (p : List Byte)
  | cwaFlush
  | cwaSeal
deriving DecidableEq, Repr

/-- How the command cycle treats a command (rules R131, R133): INIT, RELEASE and GET_ERROR are exempt from the
short-circuit, INIT alone needs a unit that is not live. -/
inductive CommandClass where
  | init
  | release
  | getError
  | ordinary
deriving DecidableEq, Repr

/-- The unit a command belongs to, the field `UNIT` of its word (rule R101). -/
def Instr.unit : Instr → UnitId
  | .brInit | .brRelease | .brGetError | .brReadUbits _ | .brReadSbits _ | .brScanUbits _ | .brScanSbits _
  | .brReadU8 | .brReadS8 | .brReadU16 | .brReadS16 | .brReadU32 | .brReadS32 | .brAlign | .brSkip _
  | .brSkipBits _ | .brMark | .brUnmark | .brReset | .brCheck _ | .brBytesRead | .brReadBytes _
  | .brReadStrFixed _ | .brReadStrNul => .br
  | .bwInit | .bwRelease | .bwGetError | .bwWriteBits _ _ | .bwWriteByte _ | .bwWriteShort _ | .bwWriteInt _
  | .bwWriteBytes _ | .bwWriteString _ | .bwAlign | .bwFlush | .bwMark | .bwUnmark | .bwCheck _ => .bw
  | .craInit _ _ _ _ | .craRelease | .craGetError | .craRead _ | .craSeek _ _ | .craTell | .craEof => .cra
  | .cwaInit _ _ | .cwaRelease | .cwaGetError | .cwaWrite _ | .cwaFlush | .cwaSeal => .cwa

/-- The class of a command in the command cycle (rules R131, R133). -/
def Instr.cls : Instr → CommandClass
  | .brInit | .bwInit | .craInit _ _ _ _ | .cwaInit _ _ => .init
  | .brRelease | .bwRelease | .craRelease | .cwaRelease => .release
  | .brGetError | .bwGetError | .craGetError | .cwaGetError => .getError
  | .brReadUbits _ | .brReadSbits _ | .brScanUbits _ | .brScanSbits _ | .brReadU8 | .brReadS8 | .brReadU16
  | .brReadS16 | .brReadU32 | .brReadS32 | .brAlign | .brSkip _ | .brSkipBits _ | .brMark | .brUnmark | .brReset
  | .brCheck _ | .brBytesRead | .brReadBytes _ | .brReadStrFixed _ | .brReadStrNul | .bwWriteBits _ _
  | .bwWriteByte _ | .bwWriteShort _ | .bwWriteInt _ | .bwWriteBytes _ | .bwWriteString _ | .bwAlign | .bwFlush
  | .bwMark | .bwUnmark | .bwCheck _ | .craRead _ | .craSeek _ _ | .craTell | .craEof | .cwaWrite _ | .cwaFlush
  | .cwaSeal => .ordinary

end Sys2Proof
end

