-- ==== Sys2Proof/Machine/State.lean ====
section
/-! DEFINITION. The state of the engine (rules R20 to R28, R43, R48, R76, R77, R80), all of it as plain data, and the
state after hardware reset (rules R52, R350). -/

namespace Sys2Proof.Machine

/-- The sticky error codes (rules R25, R321), in the order of their values 0 to 9. -/
inductive Err where
  | noError
  | badArguments
  | arrayIndexOutOfBounds
  | reachedEndOfFile
  /-- in the taxonomy, raised by no rule (rule R321) -/
  | invalidFile
  /-- in the taxonomy, raised by no rule (rule R321) -/
  | failedToOpen
  | failedToRead
  | failedToWrite
  | streamIsClosed
  | invalidData
deriving DecidableEq, Repr

/-- The values of the result register `STATUS` (rule R22): `OK = 0`, `ILLEGAL = 1`, `LIFECYCLE = 2`. -/
inductive Status where
  | ok
  | illegal
  | lifecycle
deriving DecidableEq, Repr

/-- The direction of a key schedule (rule R13). -/
inductive Dir where
  | enc
  | dec
deriving DecidableEq, Repr

/-- What `CIPHER.derive(key, dir)` returns, held as the operands it was derived from (rules R13, R43, R48).
DESIGN CHOICE, safe (log 7): a schedule is used by `transform` alone, which is a function of these operands (rule R75). -/
structure Schedule where
  key : Block
  dir : Dir
deriving DecidableEq, Repr

/-- The streams named in events (rule R80). -/
inductive Stream where
  | rawIn
  | rawOut
  | cra
  | cwa
deriving DecidableEq, Repr

/-- An event of the log: one downstream call, recorded when it returns (rule R80). -/
inductive Event where
  /-- `seek(stream, off)` -/
  | seek (stream : Stream) (off : Nat)
  /-- `read(stream, n, k)`: `n` bytes asked, `k` returned -/
  | read (stream : Stream) (n k : Nat)
  /-- `write(stream, L)` -/
  | write (stream : Stream) (bytes : List Byte)
  /-- `flush(stream)` -/
  | flush (stream : Stream)
  /-- `release(stream)` -/
  | release (stream : Stream)
deriving DecidableEq, Repr

/-- A raw byte stream (rules R70, R76, R77) as cells: the byte at offset `j` of the stream is the cell of address `j`.
An unlisted address holds no byte: it lies at or beyond the end of the stream, which is how rules R76 and R81 read it
(log 8). -/
abbrev Memory := List Host.Cell

/-- The canonical form of a raw stream: its cells are the offsets `0 .. L-1`, in rising order, none missing (R70). -/
abbrev Memory.wf (m : Memory) : Prop := m.map Prod.fst = List.range m.length

/-- An entry of a mark stack: the byte position and the bit offset it was pushed at (rules R26, R180). -/
structure Mark where
  mbyte : Nat
  mbit : Fin 8
deriving DecidableEq, Repr

/-- The fields of `BR` (rule R26). -/
structure Br where
  live : Bool
  err : Err
  /-- stream byte offset of `buf[0]` -/
  pos : Nat
  /-- next unread byte of the buffer -/
  idx : Nat
  /-- bits of `buf[idx]` already consumed, counted from the most significant bit -/
  bit : Fin 8
  /-- count of valid bytes in the buffer -/
  fill : Nat
  buf : List Byte
  /-- the mark stack, its top the last entry -/
  marks : List Mark
deriving DecidableEq, Repr

/-- The fields of `BW` (rule R28). -/
structure Bw where
  live : Bool
  err : Err
  /-- logical byte position of `buf[0]` -/
  pos : Nat
  /-- the next byte of the buffer to complete -/
  idx : Nat
  /-- bits of `buf[idx]` already written, counted from the most significant bit -/
  bit : Fin 8
  buf : List Byte
  /-- the mark stack, its top the last entry -/
  marks : List Mark
deriving DecidableEq, Repr

/-- The fields of `CRA` (rule R43). -/
structure Cra where
  live : Bool
  err : Err
  /-- owns `RAW_IN` -/
  own : Bool
  /-- key schedule, decrypt direction -/
  sched : Schedule
  /-- `RAW_IN` offset of plaintext byte 0 -/
  start : Nat
  length : Nat
  /-- plaintext position -/
  pos : Nat
  /-- index of the cached block -/
  blk : Nat
  dirty : Bool
  /-- the decrypted cached block -/
  pt : Block
deriving DecidableEq, Repr

/-- The fields of `CWA` (rule R48). -/
structure Cwa where
  live : Bool
  err : Err
  /-- owns `RAW_OUT` -/
  own : Bool
  /-- key schedule, encrypt direction -/
  sched : Schedule
  sealed : Bool
  /-- unsent plaintext -/
  wbuf : List Byte
  /-- count of unsent bytes -/
  nbuf : Nat
deriving DecidableEq, Repr

/-- The whole state: the launch's inputs, which no step writes (`cfg`, `rawIn`, `cmds`), the host's index `pc`, and the
five parts of rule R20. The operand registers of rule R21 hold no value between commands: they are the fields of the
record `cmds[pc]` and stand nowhere else. -/
structure State where
  /-- the parameters of rule R6, fixed for the launch -/
  cfg : Config
  /-- `RAW_IN`, immutable for the launch (rule R76) -/
  rawIn : Memory
  /-- the host's list of command records (rule R130) -/
  cmds : List Command
  /-- the host's index into `cmds` (rules R12, R24, R130) -/
  pc : Nat
  /-- result register `R` (rule R22) -/
  r : Word64
  /-- result register `STATUS` (rule R22) -/
  status : Status
  /-- result register `DATA_OUT` (rule R22) -/
  dataOut : List Byte
  br : Br
  bw : Bw
  cra : Cra
  cwa : Cwa
  /-- the cursor of `RAW_IN` (rule R76) -/
  rc : Nat
  /-- `RAW_OUT` (rule R77) -/
  rawOut : Memory
  /-- the event log, oldest event first (rule R80) -/
  log : List Event
deriving DecidableEq, Repr

/-- Why a step can stop with a fault. -/
inductive Fault where
  /-- Raised by `step` alone, when `pc = K`: the host's list is exhausted and the launch has ended (rule R145). Safe: the
  engine has no further command to run and no pending operation (log 1). -/
  | launchEnded
deriving DecidableEq, Repr

/-- Why a step can refuse. -/
inductive Refusal where
  /-- Raised by an arm of `exec` that has no meaning yet; safe. Every arm of this model has its meaning, so none
  raises it. -/
  | notModelled (mnemonic : String)
deriving DecidableEq, Repr

/-- The block of 8 zero bytes. -/
def zeroBlock : Block := ⟨List.replicate 8 0, rfl⟩

/-- `BR` after hardware reset: not live (rule R52). DESIGN CHOICE, unsafe (log 5): its other fields, which hold no value,
are the values INIT gives (rule R26). -/
def resetBr (c : Config) : Br :=
  { live := false, err := .noError, pos := 0, idx := 0, bit := 0, fill := 0, buf := List.replicate c.cR 0, marks := [] }

/-- `BW` after hardware reset, as `resetBr` (rules R28, R52; log 5). -/
def resetBw (c : Config) : Bw :=
  { live := false, err := .noError, pos := 0, idx := 0, bit := 0, buf := List.replicate c.cW 0, marks := [] }

/-- `CRA` after hardware reset, as `resetBr` (rules R43, R52; log 5): the operands an INIT would name are 0. -/
def resetCra : Cra :=
  { live := false, err := .noError, own := false, sched := ⟨zeroBlock, .dec⟩, start := 0, length := 0, pos := 0,
    blk := 0, dirty := true, pt := zeroBlock }

/-- `CWA` after hardware reset, as `resetBr` (rules R48, R52; log 5). -/
def resetCwa (c : Config) : Cwa :=
  { live := false, err := .noError, own := false, sched := ⟨zeroBlock, .enc⟩, sealed := false,
    wbuf := List.replicate c.cCW 0, nbuf := 0 }

/-- Hardware reset of a launch with the parameters `c`, the input `input` and the command list `cmds` (rule R350).
DESIGN CHOICE, unsafe (log 4): the result registers, which have no value until the first command, are 0, OK and
empty. -/
def State.resetWith (c : Config) (input : Memory) (cmds : List Command) : State :=
  { cfg := c, rawIn := input, cmds := cmds, pc := 0, r := 0, status := .ok, dataOut := [], br := resetBr c,
    bw := resetBw c, cra := resetCra, cwa := resetCwa c, rc := 0, rawOut := [], log := [] }

/-- The launch parameters of `State.reset`. DESIGN CHOICE, unsafe (log 2): rule R6 leaves them OPEN, and these are the
values section 0 of 95_test_vectors.md uses for its vectors. -/
def resetConfig : Config :=
  { cR := 8, cW := 8, cCW := 8, markDepth := 16, brSrc := .raw, bwDst := .raw }

/-- The machine right after hardware reset (rule R350), with nothing placed: no input (log 3) and no command (log 1). -/
def State.reset : State := State.resetWith resetConfig [] []

end Sys2Proof.Machine
end

