-- ==== Sys2Proof/Machine/Flags.lean ====
section
/-! DEFINITION. The one-bit flags of rule R50 and the tests on them: liveness, the sticky error, the cache-hit test, end of
file; and the numeric codes of `STATUS` and of the sticky errors (rules R22, R25). -/

namespace Sys2Proof.Machine

/-- The 4-bit value of an error code (rule R25, table of rule R321). -/
def Err.code : Err → BitVec 4
  | .noError => 0
  | .badArguments => 1
  | .arrayIndexOutOfBounds => 2
  | .reachedEndOfFile => 3
  | .invalidFile => 4
  | .failedToOpen => 5
  | .failedToRead => 6
  | .failedToWrite => 7
  | .streamIsClosed => 8
  | .invalidData => 9

/-- The 2-bit value of `STATUS` (rule R22). -/
def Status.code : Status → BitVec 2
  | .ok => 0
  | .illegal => 1
  | .lifecycle => 2

/-- `U.live` (rule R25). -/
def State.liveOf (s : State) : UnitId → Bool
  | .br => s.br.live
  | .bw => s.bw.live
  | .cra => s.cra.live
  | .cwa => s.cwa.live

/-- `U.err` (rule R25). -/
def State.errOf (s : State) : UnitId → Err
  | .br => s.br.err
  | .bw => s.bw.err
  | .cra => s.cra.err
  | .cwa => s.cwa.err

/-- The latch of rule R11: the first error wins. -/
def latch (old code : Err) : Err := if old = .noError then code else old

/-- The lifecycle refusal of rule R131: INIT needs a unit that is not live, every other command one that is. -/
def lifecycleRefuses (cls : CommandClass) (live : Bool) : Bool :=
  if cls = .init then live else !live

/-- The short-circuit of rules R131 and R132: INIT, RELEASE and GET_ERROR are exempt (rule R133). -/
def shortCircuits (cls : CommandClass) (err : Err) : Bool :=
  cls = .ordinary && err ≠ .noError

/-- The hit test of rule R44: the cached block may be used for block `b`. -/
def Cra.hit (c : Cra) (b : Nat) : Bool := !c.dirty && c.blk = b

/-- The derived block states of `CRA` (rule R47). -/
inductive BlockState where
  | cached
  | clockedOut
deriving DecidableEq, Repr

/-- The block state of rule R47, derived from the fields. -/
def Cra.blockState (c : Cra) : BlockState := if c.hit (c.pos >>> 3) then .cached else .clockedOut

/-- End of file (rule R265): "true once `position ≥ length`". -/
def Cra.atEnd (c : Cra) : Bool := c.length ≤ c.pos

/-- 1 when a byte is partly written or read, else 0: the term `(1 if bit != 0 else 0)` of rules R220, R225 and R238. -/
def partialByte (bit : Fin 8) : Nat := if bit = 0 then 0 else 1

end Sys2Proof.Machine
end

