-- ==== Sys2Proof/Machine/Operands.lean ====
section
/-! DEFINITION. How operands are formed and results placed (rules R8, R103), and the bit and byte assembly of bit fields,
little-endian integers, keys and blocks (rules R71, R72, R74). -/

namespace Sys2Proof.Machine

/-! ## Operands (rule R103) and results (rules R8, R22) -/

/-- `exp` of CHECK and `off` of SEEK: `A` as a 64-bit two's-complement integer (rule R103). -/
def signedOperand (a : Word64) : Int := a.toInt

/-- Key byte `i` is `A[8i+7:8i]` (rule R103). -/
def keyBytes (a : Word64) : Block := ⟨(List.range 8).map fun i => a.extractLsb' (8 * i) 8, rfl⟩

/-- A 32-bit result in `R`, with `R[63:32] = 0` (D5). -/
def result32 (v : Word32) : Word64 := v.setWidth 64

/-- A numeric result in `R`, modulo `2^64` (rule R8). -/
def resultInt (v : Int) : Word64 := BitVec.ofInt 64 v

/-- A count or position in `R`, modulo `2^64` (rule R8). -/
def resultNat (v : Nat) : Word64 := BitVec.ofNat 64 v

/-- `sext_n(v)` as a 32-bit pattern (rules R8, R168): the low `n` bits of `v` read as two's complement. -/
def sextTo32 (n v : Nat) : Word32 := (BitVec.ofNat n v).signExtend 32

/-! ## Bit fields (rule R71) and little-endian integers (rule R72) -/

/-- The number whose base-256 digits are the bytes, first byte most significant: `Wd` of rule R163. -/
def beNat (l : List Byte) : Nat := l.foldl (fun acc b => acc * 256 + b.toNat) 0

/-- The number whose base-256 digits are the bytes, first byte least significant (rule R72). -/
def leNat : List Byte → Nat
  | [] => 0
  | b :: rest => b.toNat + 256 * leNat rest

/-- The `n` bits that start `bit` bit offsets into the bytes, most significant first (rules R71, R163). -/
def fieldBits (l : List Byte) (bit n : Nat) : Nat := (beNat l >>> (8 * l.length - bit - n)) &&& (2 ^ n - 1)

/-- The number of bytes a field of `n` bits touches when it starts at bit offset `bit` (rules R163, R221). -/
def bytesTouched (bit : Fin 8) (n : Nat) : Nat := (bit.val + n + 7) >>> 3

/-- The `k` low bytes of a value, least significant first (rules R72, R238): byte `j` is `v[8j+7:8j]`. -/
def leBytes {w : Nat} (k : Nat) (v : BitVec w) : List Byte := (List.range k).map fun j => v.extractLsb' (8 * j) 8

/-! ## Buffers (rule R9) -/

/-- `buf[a .. a+n)`. -/
def sliceBytes (buf : List Byte) (a n : Nat) : List Byte := (buf.drop a).take n

/-- `buf[i+j] <- l[j]` for every `j < |l|` (`MemWrite` of rule R10). -/
def putBytes (buf : List Byte) (i : Nat) : List Byte → List Byte
  | [] => buf
  | b :: rest => putBytes (buf.set i b) (i + 1) rest

/-- `buf[i]`; the rules read only indices inside the buffer. -/
def byteAt (buf : List Byte) (i : Nat) : Byte := buf.getD i 0

/-- A byte list as a cipher block, padded at the end with zero bytes when it is shorter (rules R74, R290). -/
def blockOfList (l : List Byte) : Block := ⟨(l ++ List.replicate 8 0).take 8, by simp⟩

/-- Byte `p & 7` of a block (rules R74, R261). -/
def blockByte (b : Block) (p : Nat) : Byte := byteAt b.val (p % 8)

/-! ## Raw streams as memories (rules R70, R76, R77) -/

/-- The byte at offset `a` of a stream; none at or beyond its end (rules R76, R81). -/
def Memory.read? (m : Memory) (a : Nat) : Option Byte := m.lookup a

/-- The bytes of a stream in stream order. -/
def Memory.bytes (m : Memory) : List Byte := m.map Prod.snd

/-- `m[a .. a+k)` with `k` the count of bytes before the end of the stream, at most `n` (rule R76). -/
def Memory.slice (m : Memory) (a : Nat) : Nat → List Byte
  | 0 => []
  | n + 1 =>
    match m.read? a with
    | some b => b :: Memory.slice m (a + 1) n
    | none => []

/-- The cells of a byte list laid down from address `a`. -/
def cellsFrom (a : Nat) : List Byte → Memory
  | [] => []
  | b :: rest => (a, b) :: cellsFrom (a + 1) rest

/-- The stream that holds a byte list, for the input of a launch (rules R76, R88). -/
def Memory.ofBytes (l : List Byte) : Memory := cellsFrom 0 l

/-- A stream with a byte list appended at its end (rule R77). -/
def Memory.append (m : Memory) (l : List Byte) : Memory := m ++ cellsFrom m.length l

end Sys2Proof.Machine
end

