-- ==== Sys2Proof/Machine/Ops.lean ====
section
/-! DEFINITION. The named operations every command is built from: the updates of the state, the error latch (rules R11,
R320), the raw streams (rules R76, R77), the cipher (rules R13, R75), the mark stacks, and the command cycle (rule R131). -/

namespace Sys2Proof.Machine

/-! ## Updates of the state -/

def State.setBr (s : State) (u : Br) : State := { s with br := u }

def State.setBw (s : State) (u : Bw) : State := { s with bw := u }

def State.setCra (s : State) (u : Cra) : State := { s with cra := u }

def State.setCwa (s : State) (u : Cwa) : State := { s with cwa := u }

/-- Moves the cursor of `RAW_IN` (rule R76). -/
def State.setRc (s : State) (n : Nat) : State := { s with rc := n }

/-- Appends to `RAW_OUT` (rule R77). -/
def State.appendOut (s : State) (l : List Byte) : State := { s with rawOut := s.rawOut.append l }

/-- Records an event at the end of the log (rule R80). -/
def State.addEvent (s : State) (e : Event) : State := { s with log := s.log ++ [e] }

/-- `R <- v` (rule R22). -/
def State.setR (s : State) (v : Word64) : State := { s with r := v }

/-- `DATA_OUT <- L; R <- |L|`, the result of a command that delivers bytes (rules R185 to R187, R262). -/
def State.deliver (s : State) (l : List Byte) : State := { s with dataOut := l, r := resultNat l.length }

/-- The start of the command cycle: `R <- 0; DATA_OUT <- []` and `STATUS` (rule R131). -/
def State.begin (s : State) (st : Status) : State := { s with r := 0, dataOut := [], status := st }

/-- The end of the command cycle: `pc <- pc + 1` (rules R130, R131). -/
def State.retire (s : State) : State := { s with pc := s.pc + 1 }

/-! ## The error mechanism -/

/-- `raise Err(U, code)` (rules R11, R320): the first error of a unit is latched, a later one changes nothing. This is the
engine's one error mechanism: it has no traps, so nothing else is saved and no control moves (rules R322, R325). -/
def raise (u : UnitId) (code : Err) (s : State) : State :=
  match u with
  | .br => s.setBr { s.br with err := latch s.br.err code }
  | .bw => s.setBw { s.bw with err := latch s.bw.err code }
  | .cra => s.setCra { s.cra with err := latch s.cra.err code }
  | .cwa => s.setCwa { s.cwa with err := latch s.cwa.err code }

/-! ## The raw streams -/

/-- `RAW_IN.seek(off, SET)`: sets the cursor and returns 0, success (rule R76). -/
def rawInSeek (off : Nat) (s : State) : Nat × State := (0, (s.setRc off).addEvent (.seek .rawIn off))

/-- `RAW_IN.read(n)`: the bytes from the cursor on, as many as the stream has, at most `n` (rule R76). -/
def rawInRead (n : Nat) (s : State) : List Byte × State :=
  let l := s.rawIn.slice s.rc n
  (l, (s.setRc (s.rc + l.length)).addEvent (.read .rawIn n l.length))

/-- `RAW_OUT.write(L)`: appends all of `L` and returns `|L|` (rule R77). -/
def rawOutWrite (l : List Byte) (s : State) : Nat × State := (l.length, (s.appendOut l).addEvent (.write .rawOut l))

/-- `RAW_OUT.flush()`: changes no byte (rule R77). -/
def rawOutFlush (s : State) : State := s.addEvent (.flush .rawOut)

/-! ## The cipher -/

/-- `CIPHER.derive(key, dir)` (rule R13). -/
def derive (key : Block) (dir : Dir) : Schedule := ⟨key, dir⟩

/-- `CIPHER.transform(schedule, block)` (rules R13, R75). -/
def transform (k : Schedule) (x : Block) : Block :=
  match k.dir with
  | .enc => Config.cipher k.key x
  | .dec => (Config.cipher k.key).symm x

/-- The first `n` blocks of a byte list, each transformed, in block order (rules R74, R290). -/
def transformBlocks (k : Schedule) : Nat → List Byte → List Byte
  | 0, _ => []
  | n + 1, l => (transform k (blockOfList (l.take 8))).val ++ transformBlocks k n (l.drop 8)

/-! ## The mark stacks of `BR` and `BW` -/

/-- The top entry of a mark stack, its last (rules R26, R28). -/
def topMark (marks : List Mark) : Option Mark := marks.getLast?

/-! ## The command cycle -/

/-- The command cycle around the body of a legal command of unit `u` (rule R131), in the rule's order: the results are
cleared, a lifecycle refusal, the short-circuit, else the body runs; `pc` advances in every case. -/
def command (u : UnitId) (cls : CommandClass) (body : State → State) (s : State) : State :=
  if lifecycleRefuses cls (s.liveOf u) then (s.begin .lifecycle).retire
  else if shortCircuits cls (s.errOf u) then (s.begin .ok).retire
  else (body (s.begin .ok)).retire

/-- The command cycle of an illegal record (rules R106, R131): `STATUS <- ILLEGAL`, and no other state changes. -/
def illegalCommand (s : State) : State := (s.begin .illegal).retire

end Sys2Proof.Machine
end

