-- ==== Sys2Proof/Machine/CipherRead.lean ====
section
/-! DEFINITION. The commands of `CRA`, the block-cipher read adapter (rules R138, R260 to R266), and the internal forms of
READ and SEEK that `BR` calls (rule R140). -/

namespace Sys2Proof.Machine

/-! ## Internal primitives -/

/-- The miss of rule R261: one seek and one read of 8 bytes on `RAW_IN`. Fewer than 8 bytes raise `InvalidData` and leave
the cache dirty; else the block is decrypted and cached. The flag says whether the block is there. -/
def craFetch (b : Nat) (s : State) : Bool × State :=
  let sk := rawInSeek (s.cra.start + 8 * b) s
  let rd := rawInRead 8 sk.2
  if sk.1 ≠ 0 ∨ rd.1.length < 8 then
    let s1 := raise .cra .invalidData rd.2
    (false, s1.setCra { s1.cra with dirty := true })
  else
    (true, rd.2.setCra
      { rd.2.cra with pt := transform rd.2.cra.sched (blockOfList rd.1), blk := b, dirty := false })

/-- Makes block `b` the cached block: nothing on a hit (rule R44), a fetch on a miss (rule R261). -/
def craLoad (b : Nat) (s : State) : Bool × State := if s.cra.hit b then (true, s) else craFetch b s

/-- `ReadCore(n)` (rule R261): up to `n` bytes, stopping at `CRA.length` or at a block that is not whole. -/
def craReadCore : Nat → State → List Byte × State
  | 0, s => ([], s)
  | n + 1, s =>
    if s.cra.pos < s.cra.length then
      let ld := craLoad (s.cra.pos >>> 3) s
      if ld.1 then
        let b := blockByte ld.2.cra.pt ld.2.cra.pos
        let rest := craReadCore n (ld.2.setCra { ld.2.cra with pos := ld.2.cra.pos + 1 })
        (b :: rest.1, rest.2)
      else ([], ld.2)
    else ([], s)

/-- The base a seek origin names (rule R263). -/
def Cra.seekBase (c : Cra) : Origin → Int
  | .seekSet => 0
  | .seekCur => c.pos
  | .seekEnd => c.length

/-- The body of SEEK (rule R263): the status, 0 for success and 1 for a target that is no legal position. -/
def craSeekCore (origin : Origin) (off : Int) (s : State) : Nat × State :=
  let t := s.cra.seekBase origin + off
  if t < 0 ∨ (Config.posMax : Int) < t then (1, raise .cra .badArguments s)
  else (0, s.setCra { s.cra with pos := t.toNat })

/-! ## The bodies -/

/-- CRA.INIT (rule R260). -/
def craInit (own : Bool) (key req start : Word64) (s : State) : State :=
  s.setCra
    { live := true, err := .noError, own := own, sched := derive (keyBytes key) .dec, start := start.toNat,
      length := min req.toNat (s.rawIn.length - start.toNat), pos := 0, blk := 0, dirty := true, pt := zeroBlock }

/-- CRA.RELEASE (rule R266). -/
def craRelease (s : State) : State :=
  let s1 := if s.cra.own then s.addEvent (.release .rawIn) else s
  s1.setCra { s1.cra with live := false }

/-- CRA.GET_ERROR (rule R138). -/
def craGetError (s : State) : State := s.setR (s.cra.err.code.setWidth 64)

/-- CRA.READ, host form (rule R262). -/
def craRead (cnt : BitVec 32) (s : State) : State :=
  let rd := craReadCore cnt.toNat s
  rd.2.deliver rd.1

/-- CRA.SEEK, host form (rule R263). -/
def craSeek (origin : Origin) (off : Word64) (s : State) : State :=
  let sk := craSeekCore origin (signedOperand off) s
  sk.2.setR (resultNat sk.1)

/-- CRA.TELL (rule R264). -/
def craTell (s : State) : State := s.setR (resultNat s.cra.pos)

/-- CRA.EOF (rule R265). -/
def craEof (s : State) : State := s.setR (if s.cra.atEnd then 1 else 0)

/-! ## The meanings -/

/-- CRA.INIT (rules R131, R260). -/
def execCraInit (own : Bool) (key req start : Word64) (s : State) : Host.Outcome State Fault Refusal :=
  .next (command .cra .init (craInit own key req start) s)

/-- CRA.RELEASE (rules R131, R266). -/
def execCraRelease (s : State) : Host.Outcome State Fault Refusal := .next (command .cra .release craRelease s)

/-- CRA.GET_ERROR (rules R131, R138). -/
def execCraGetError (s : State) : Host.Outcome State Fault Refusal := .next (command .cra .getError craGetError s)

/-- CRA.READ (rules R131, R262). -/
def execCraRead (cnt : BitVec 32) (s : State) : Host.Outcome State Fault Refusal :=
  .next (command .cra .ordinary (craRead cnt) s)

/-- CRA.SEEK (rules R131, R263). -/
def execCraSeek (origin : Origin) (off : Word64) (s : State) : Host.Outcome State Fault Refusal :=
  .next (command .cra .ordinary (craSeek origin off) s)

/-- CRA.TELL (rules R131, R264). -/
def execCraTell (s : State) : Host.Outcome State Fault Refusal := .next (command .cra .ordinary craTell s)

/-- CRA.EOF (rules R131, R265). -/
def execCraEof (s : State) : Host.Outcome State Fault Refusal := .next (command .cra .ordinary craEof s)

end Sys2Proof.Machine
end

