-- ==== Sys2Proof/Machine/CipherWrite.lean ====
section
/-! DEFINITION. The commands of `CWA`, the block-cipher write adapter (rules R139, R290 to R295), and the internal forms of
WRITE and FLUSH that `BW` calls (rule R141). -/

namespace Sys2Proof.Machine

/-! ## Internal primitives -/

/-- The ciphertext of a flush (rule R290): the whole blocks of the unsent plaintext, and in a final flush the zero-padded
remainder too. -/
def Cwa.cipherText (c : Cwa) (final : Bool) : List Byte :=
  let m := c.nbuf - c.nbuf % 8
  let r := c.nbuf - m
  transformBlocks c.sched (m / 8) c.wbuf ++
    (if final ∧ 0 < r then (transform c.sched (blockOfList (sliceBytes c.wbuf m r))).val else [])

/-- The buffer after a flush that was accepted (rule R290): empty after a final one, else the remainder at its front. -/
def Cwa.flushed (c : Cwa) (final : Bool) : Cwa :=
  let m := c.nbuf - c.nbuf % 8
  let r := c.nbuf - m
  if final then { c with nbuf := 0 }
  else { c with wbuf := putBytes c.wbuf 0 (sliceBytes c.wbuf m r), nbuf := r }

/-- The part of `FlushCore` after the write (rule R290). -/
def cwaFlushEnd (final : Bool) (s : State) : State :=
  let s1 := rawOutFlush s
  s1.setCwa (s1.cwa.flushed final)

/-- `FlushCore(final)` (rule R290). A write that accepts fewer bytes than given raises `FailedToWrite`; the contract of
`RAW_OUT` excludes it (rule R77, log 14). -/
def cwaFlushCore (final : Bool) (s : State) : State :=
  let ct := s.cwa.cipherText final
  if ct.length = 0 then cwaFlushEnd final s
  else
    let wr := rawOutWrite ct s
    if wr.1 < ct.length then raise .cwa .failedToWrite wr.2 else cwaFlushEnd final wr.2

/-- The loop of rule R291: appends the bytes in order, flushing whenever the buffer is full, and stops when a flush has
left an error. The number is `acc`, the count of bytes appended. -/
def cwaPutBytes : List Byte → State → Nat × State
  | [], s => (0, s)
  | c :: rest, s =>
    let s1 := s.setCwa { s.cwa with wbuf := s.cwa.wbuf.set s.cwa.nbuf c, nbuf := s.cwa.nbuf + 1 }
    if s1.cwa.nbuf = s1.cfg.cCW then
      let s2 := cwaFlushCore false s1
      if s2.cwa.err ≠ .noError then (1, s2)
      else
        let k := cwaPutBytes rest s2
        (k.1 + 1, k.2)
    else
      let k := cwaPutBytes rest s1
      (k.1 + 1, k.2)

/-- The body of WRITE (rule R291): the count of bytes accepted, 0 after SEAL. -/
def cwaWriteCore (l : List Byte) (s : State) : Nat × State :=
  if s.cwa.sealed then (0, raise .cwa .streamIsClosed s) else cwaPutBytes l s

/-- The body of the non-final FLUSH (rule R292): nothing after SEAL. -/
def cwaFlushBody (s : State) : State := if s.cwa.sealed then s else cwaFlushCore false s

/-- `Seal()` (rule R293): idempotent; `sealed` is set even when the final flush failed. -/
def cwaSealBody (s : State) : State :=
  if s.cwa.sealed then s
  else
    let s1 := cwaFlushCore true s
    s1.setCwa { s1.cwa with sealed := true }

/-! ## The bodies -/

/-- CWA.INIT (rule R294). -/
def cwaInit (own : Bool) (key : Word64) (s : State) : State :=
  s.setCwa
    { live := true, err := .noError, own := own, sched := derive (keyBytes key) .enc, sealed := false,
      wbuf := List.replicate s.cfg.cCW 0, nbuf := 0 }

/-- CWA.RELEASE (rule R295): the automatic seal obeys the sticky error (C4). -/
def cwaRelease (s : State) : State :=
  let s1 := if s.cwa.err = .noError ∧ s.cwa.sealed = false then cwaSealBody s else s
  let s2 := if s1.cwa.own then s1.addEvent (.release .rawOut) else s1
  s2.setCwa { s2.cwa with live := false }

/-- CWA.GET_ERROR (rule R139). -/
def cwaGetError (s : State) : State := s.setR (s.cwa.err.code.setWidth 64)

/-- CWA.WRITE, host form (rule R291). -/
def cwaWrite (p : List Byte) (s : State) : State :=
  let wr := cwaWriteCore p s
  wr.2.setR (resultNat wr.1)

/-! ## The meanings -/

/-- CWA.INIT (rules R131, R294). -/
def execCwaInit (own : Bool) (key : Word64) (s : State) : Host.Outcome State Fault Refusal :=
  .next (command .cwa .init (cwaInit own key) s)

/-- CWA.RELEASE (rules R131, R295). -/
def execCwaRelease (s : State) : Host.Outcome State Fault Refusal := .next (command .cwa .release cwaRelease s)

/-- CWA.GET_ERROR (rules R131, R139). -/
def execCwaGetError (s : State) : Host.Outcome State Fault Refusal := .next (command .cwa .getError cwaGetError s)

/-- CWA.WRITE (rules R131, R291). -/
def execCwaWrite (p : List Byte) (s : State) : Host.Outcome State Fault Refusal :=
  .next (command .cwa .ordinary (cwaWrite p) s)

/-- CWA.FLUSH (rules R131, R292). -/
def execCwaFlush (s : State) : Host.Outcome State Fault Refusal := .next (command .cwa .ordinary cwaFlushBody s)

/-- CWA.SEAL (rules R131, R293). -/
def execCwaSeal (s : State) : Host.Outcome State Fault Refusal := .next (command .cwa .ordinary cwaSealBody s)

end Sys2Proof.Machine
end

