-- ==== Sys2Proof/Machine/Ports.lean ====
section
/-! DEFINITION. The internal stream ports: `DS_R` from `BR` (rule R140) and `DS_W` from `BW` (rule R141), with the results
an adapter that is not live, or that holds an error, gives (rule R142), and the events of the calls (rule R80). -/

namespace Sys2Proof.Machine

/-- The results of an internal call that the adapter's lifecycle check or short-circuit turns away: nothing changes and no
event is recorded (rule R142). -/
inductive Gate where
  | notLive
  | errored
  | accepts
deriving DecidableEq, Repr

/-- How an adapter answers an internal call (rule R142). -/
def gate (live : Bool) (err : Err) : Gate :=
  if live then (if err = .noError then .accepts else .errored) else .notLive

/-- `DS_R.seek(off, SET)` (rules R140, R142): the status, 0 for success. -/
def dsrSeek (off : Nat) (s : State) : Nat × State :=
  match s.cfg.brSrc with
  | .raw => rawInSeek off s
  | .cra =>
    match gate s.cra.live s.cra.err with
    | .notLive => (1, s)
    | .errored => (0, s)
    | .accepts =>
      let sk := craSeekCore .seekSet off s
      (sk.1, sk.2.addEvent (.seek .cra off))

/-- `DS_R.read(n)` (rules R140, R142). -/
def dsrRead (n : Nat) (s : State) : List Byte × State :=
  match s.cfg.brSrc with
  | .raw => rawInRead n s
  | .cra =>
    match gate s.cra.live s.cra.err with
    | .notLive => ([], s)
    | .errored => ([], s)
    | .accepts =>
      let rd := craReadCore n s
      (rd.1, rd.2.addEvent (.read .cra n rd.1.length))

/-- `DS_W.write(L)` (rules R141, R142): the count of bytes accepted. -/
def dswWrite (l : List Byte) (s : State) : Nat × State :=
  match s.cfg.bwDst with
  | .raw => rawOutWrite l s
  | .cwa =>
    match gate s.cwa.live s.cwa.err with
    | .notLive => (0, s)
    | .errored => (0, s)
    | .accepts =>
      let wr := cwaWriteCore l s
      (wr.1, wr.2.addEvent (.write .cwa l))

/-- `DS_W.flush()` (rules R141, R142). -/
def dswFlush (s : State) : State :=
  match s.cfg.bwDst with
  | .raw => rawOutFlush s
  | .cwa =>
    match gate s.cwa.live s.cwa.err with
    | .notLive => s
    | .errored => s
    | .accepts => (cwaFlushBody s).addEvent (.flush .cwa)

/-- `L_DS`, the length of the downstream of `BR` (rule R27): an upper bound of the bytes one command can still read. -/
def State.downstreamLength (s : State) : Nat :=
  match s.cfg.brSrc with
  | .raw => s.rawIn.length
  | .cra => s.cra.length

end Sys2Proof.Machine
end

