-- ==== Sys2Proof/Machine/BitReader.lean ====
section
/-! DEFINITION. The commands of `BR`, the bit reader (rules R136, R160 to R191). -/

namespace Sys2Proof.Machine

/-! ## Internal primitives (rules R160 to R166, R191) -/

/-- `Cur(BR)`, the logical byte position (rules R26, R160). -/
def Br.cur (u : Br) : Nat := u.pos + u.idx

/-- The loop of `Fill` (rule R161): reads until the buffer is full or a read gives no byte. Every other read gives at
least one, so as many rounds as there are free bytes suffice (rule R371, log 11). -/
def brFillLoop : Nat → State → State
  | 0, s => s
  | fuel + 1, s =>
    if s.br.fill = s.cfg.cR then s
    else
      let rd := dsrRead (s.cfg.cR - s.br.fill) s
      if rd.1.length = 0 then rd.2
      else
        brFillLoop fuel (rd.2.setBr
          { rd.2.br with buf := putBytes rd.2.br.buf rd.2.br.fill rd.1, fill := rd.2.br.fill + rd.1.length })

/-- The buffer after the first lines of `Fill` (rule R161): the residue at its front, the bytes before it consumed. -/
def Br.shifted (u : Br) : Br :=
  let res := u.fill - u.idx
  { u with buf := putBytes u.buf 0 (sliceBytes u.buf u.idx res), pos := u.pos + u.idx, idx := 0, fill := res }

/-- `Fill()` (rule R161). -/
def brFill (s : State) : State :=
  let s1 := s.setBr s.br.shifted
  let sk := dsrSeek (s1.br.pos + s1.br.fill) s1
  if sk.1 ≠ 0 then raise .br .failedToRead sk.2
  else brFillLoop (sk.2.cfg.cR - sk.2.br.fill) sk.2

/-- `Ensure(nb)` (rule R162): whether `nb` bytes from `idx` on are in the buffer, after a `Fill` if they were not. -/
def brEnsure (nb : Nat) (s : State) : Bool × State :=
  let s1 := if s.br.fill < s.br.idx + nb then brFill s else s
  (s1.br.idx + nb ≤ s1.br.fill, s1)

/-- `PeekBits(n)` (rule R163): the next `n` bits, the cursor not moved; none when the stream is too short. -/
def brPeekBits (n : Nat) (s : State) : Option Nat × State :=
  let nb := bytesTouched s.br.bit n
  let en := brEnsure nb s
  if en.1 then (some (fieldBits (sliceBytes en.2.br.buf en.2.br.idx nb) en.2.br.bit n), en.2)
  else (none, raise .br .arrayIndexOutOfBounds en.2)

/-- `AdvanceBits(n)` (rule R164), through the combined bit pointer. -/
def Br.advanceBits (u : Br) (n : Nat) : Br :=
  let bp := 8 * u.idx + u.bit.val + n
  { u with idx := bp >>> 3, bit := Fin.ofNat 8 (bp % 8) }

/-- `Reposition(tb, tbit)` (rule R165). -/
def brReposition (tb : Nat) (tbit : Fin 8) (s : State) : State :=
  if Config.posMax < tb then raise .br .badArguments s
  else if s.br.pos ≤ tb ∧ tb ≤ s.br.pos + s.br.fill then
    s.setBr { s.br with idx := tb - s.br.pos, bit := tbit }
  else
    brFill (s.setBr { s.br with pos := tb, idx := 0, fill := 0, bit := tbit })

/-- The refill in the loops of rules R166 and R187: `Fill` when the buffer holds no unread byte. -/
def brRefill (s : State) : State := if s.br.fill ≤ s.br.idx then brFill s else s

/-- The loop of `ReadBytesCore` (rule R166). A round that does not end the loop copies at least one byte, so `want` rounds
suffice (rule R371, log 11). -/
def brReadLoop : Nat → Nat → State → List Byte × State
  | 0, _, s => ([], s)
  | fuel + 1, want, s =>
    if want = 0 then ([], s)
    else
      let s1 := brRefill s
      if s1.br.fill ≤ s1.br.idx then ([], s1)
      else
        let m := min (s1.br.fill - s1.br.idx) want
        let l := sliceBytes s1.br.buf s1.br.idx m
        let rest := brReadLoop fuel (want - m) (s1.setBr { s1.br with idx := s1.br.idx + m })
        (l ++ rest.1, rest.2)

/-- `ReadBytesCore(want)` (rule R166). -/
def brReadBytesCore (want : Nat) (s : State) : List Byte × State :=
  let rd := brReadLoop want want s
  if rd.1.length < want then (rd.1, raise .br .reachedEndOfFile rd.2) else rd

/-- The loop of READ_STR_NUL (rule R187): the bytes before the first NUL, which is consumed, or all bytes up to the end of
the stream. -/
def brStrLoop : Nat → State → List Byte × State
  | 0, s => ([], s)
  | fuel + 1, s =>
    let s1 := brRefill s
    if s1.br.fill ≤ s1.br.idx then ([], s1)
    else
      let c := byteAt s1.br.buf s1.br.idx
      let s2 := s1.setBr { s1.br with idx := s1.br.idx + 1 }
      if c = 0 then ([], s2)
      else
        let rest := brStrLoop fuel s2
        (c :: rest.1, rest.2)

/-- The rounds READ_STR_NUL can take: the unread bytes of the buffer, the bytes of the downstream, and the last round,
which finds none ("by the stream length", rule R371, log 11). -/
def State.strRounds (s : State) : Nat := (s.br.fill - s.br.idx) + s.downstreamLength + 1

/-- `ReadLE(k)` (rule R191). -/
def brReadLE (k : Nat) (s : State) : Option Nat × State :=
  let en := brEnsure k s
  if en.1 then
    (some (leNat (sliceBytes en.2.br.buf en.2.br.idx k)), en.2.setBr { en.2.br with idx := en.2.br.idx + k })
  else (none, raise .br .arrayIndexOutOfBounds en.2)

/-- The end of an integer or bit read: nothing on FAIL, so that `R` stays 0, else `R <- f v` (rules R167 to R176). -/
def finishRead (f : Nat → Word64) (rd : Option Nat × State) : State :=
  match rd.1 with
  | none => rd.2
  | some v => rd.2.setR (f v)

/-- A bit read that moves the cursor (rules R167, R168). -/
def brReadBits (n : Nat) (f : Nat → Word64) (s : State) : State :=
  let pk := brPeekBits n s
  match pk.1 with
  | none => pk.2
  | some v => (pk.2.setBr (pk.2.br.advanceBits n)).setR (f v)

/-! ## The bodies -/

/-- BR.INIT (rule R189). -/
def brInit (s : State) : State :=
  s.setBr
    { live := true, err := .noError, pos := 0, idx := 0, bit := 0, fill := 0, buf := List.replicate s.cfg.cR 0,
      marks := [] }

/-- BR.RELEASE (rule R190). -/
def brRelease (s : State) : State := s.setBr { s.br with live := false }

/-- BR.GET_ERROR (rule R136). -/
def brGetError (s : State) : State := s.setR (s.br.err.code.setWidth 64)

/-- The result of an unsigned bit read (rule R167): `zext_32(v)`. -/
def unsignedResult (v : Nat) : Word64 := result32 (BitVec.ofNat 32 v)

/-- The result of a signed read of `n` bits (rules R168, R172, R174): `zext_32(sext_n(v))`. -/
def signedResult (n v : Nat) : Word64 := result32 (sextTo32 n v)

/-- BR.READ_UBITS (rule R167). -/
def brReadUbits (n : BitVec 6) (s : State) : State := brReadBits n.toNat unsignedResult s

/-- BR.READ_SBITS (rule R168). -/
def brReadSbits (n : BitVec 6) (s : State) : State := brReadBits n.toNat (signedResult n.toNat) s

/-- BR.SCAN_UBITS (rule R169). -/
def brScanUbits (n : BitVec 6) (s : State) : State := finishRead unsignedResult (brPeekBits n.toNat s)

/-- BR.SCAN_SBITS (rule R170). -/
def brScanSbits (n : BitVec 6) (s : State) : State := finishRead (signedResult n.toNat) (brPeekBits n.toNat s)

/-- BR.READ_U8 (rule R171). -/
def brReadU8 (s : State) : State := finishRead resultNat (brReadLE 1 s)

/-- BR.READ_S8 (rule R172). -/
def brReadS8 (s : State) : State := finishRead (signedResult 8) (brReadLE 1 s)

/-- BR.READ_U16 (rule R173). -/
def brReadU16 (s : State) : State := finishRead resultNat (brReadLE 2 s)

/-- BR.READ_S16 (rule R174). -/
def brReadS16 (s : State) : State := finishRead (signedResult 16) (brReadLE 2 s)

/-- BR.READ_U32 (rule R175). -/
def brReadU32 (s : State) : State := finishRead unsignedResult (brReadLE 4 s)

/-- BR.READ_S32 (rule R176): the 32-bit pattern is already the two's-complement value. -/
def brReadS32 (s : State) : State := finishRead unsignedResult (brReadLE 4 s)

/-- BR.ALIGN (rule R177). -/
def brAlign (s : State) : State := if s.br.bit = 0 then s else brReposition (s.br.cur + 1) 0 s

/-- BR.SKIP (rule R178). -/
def brSkip (cnt : BitVec 32) (s : State) : State := brReposition (s.br.cur + cnt.toNat) s.br.bit s

/-- BR.SKIP_BITS (rule R179). -/
def brSkipBits (cnt : BitVec 32) (s : State) : State :=
  let t := 8 * s.br.cur + s.br.bit.val + cnt.toNat
  brReposition (t >>> 3) (Fin.ofNat 8 (t % 8)) s

/-- BR.MARK (rule R180). -/
def brMark (s : State) : State :=
  if s.br.marks.length = s.cfg.markDepth then raise .br .badArguments s
  else s.setBr { s.br with marks := s.br.marks ++ [⟨s.br.cur, s.br.bit⟩] }

/-- BR.UNMARK (rule R181). -/
def brUnmark (s : State) : State :=
  if s.br.marks.length = 0 then raise .br .badArguments s
  else s.setBr { s.br with marks := s.br.marks.dropLast }

/-- BR.RESET (rule R182). -/
def brReset (s : State) : State :=
  match topMark s.br.marks with
  | none => brReposition 0 0 s
  | some e => brReposition e.mbyte e.mbit s

/-- BR.CHECK (rule R183). -/
def brCheck (expected : Word64) (s : State) : State :=
  match topMark s.br.marks with
  | none => raise .br .badArguments s
  | some e => s.setR (resultInt (((s.br.cur : Int) - e.mbyte) - signedOperand expected))

/-- BR.BYTES_READ (rule R184). -/
def brBytesRead (s : State) : State :=
  match topMark s.br.marks with
  | none => raise .br .badArguments s
  | some e => s.setR (resultInt ((s.br.cur : Int) - e.mbyte))

/-- BR.READ_BYTES (rule R185). -/
def brReadBytes (cnt : BitVec 32) (s : State) : State :=
  let rd := brReadBytesCore cnt.toNat s
  rd.2.deliver rd.1

/-- A final NUL dropped, the empty list left alone (rule R186). -/
def dropFinalNul (l : List Byte) : List Byte := if l.getLast? = some 0 then l.dropLast else l

/-- BR.READ_STR_FIXED (rule R186). -/
def brReadStrFixed (cnt : BitVec 32) (s : State) : State :=
  let rd := brReadBytesCore cnt.toNat s
  rd.2.deliver (dropFinalNul rd.1)

/-- BR.READ_STR_NUL (rule R187). -/
def brReadStrNul (s : State) : State :=
  let rd := brStrLoop s.strRounds s
  rd.2.deliver rd.1

/-! ## The meanings -/

/-- BR.INIT (rules R131, R189). -/
def execBrInit (s : State) : Host.Outcome State Fault Refusal := .next (command .br .init brInit s)

/-- BR.RELEASE (rules R131, R190). -/
def execBrRelease (s : State) : Host.Outcome State Fault Refusal := .next (command .br .release brRelease s)

/-- BR.GET_ERROR (rules R131, R136). -/
def execBrGetError (s : State) : Host.Outcome State Fault Refusal := .next (command .br .getError brGetError s)

/-- BR.READ_UBITS (rules R131, R167). -/
def execBrReadUbits (n : BitVec 6) (s : State) : Host.Outcome State Fault Refusal :=
  .next (command .br .ordinary (brReadUbits n) s)

/-- BR.READ_SBITS (rules R131, R168). -/
def execBrReadSbits (n : BitVec 6) (s : State) : Host.Outcome State Fault Refusal :=
  .next (command .br .ordinary (brReadSbits n) s)

/-- BR.SCAN_UBITS (rules R131, R169). -/
def execBrScanUbits (n : BitVec 6) (s : State) : Host.Outcome State Fault Refusal :=
  .next (command .br .ordinary (brScanUbits n) s)

/-- BR.SCAN_SBITS (rules R131, R170). -/
def execBrScanSbits (n : BitVec 6) (s : State) : Host.Outcome State Fault Refusal :=
  .next (command .br .ordinary (brScanSbits n) s)

/-- BR.READ_U8 (rules R131, R171). -/
def execBrReadU8 (s : State) : Host.Outcome State Fault Refusal := .next (command .br .ordinary brReadU8 s)

/-- BR.READ_S8 (rules R131, R172). -/
def execBrReadS8 (s : State) : Host.Outcome State Fault Refusal := .next (command .br .ordinary brReadS8 s)

/-- BR.READ_U16 (rules R131, R173). -/
def execBrReadU16 (s : State) : Host.Outcome State Fault Refusal := .next (command .br .ordinary brReadU16 s)

/-- BR.READ_S16 (rules R131, R174). -/
def execBrReadS16 (s : State) : Host.Outcome State Fault Refusal := .next (command .br .ordinary brReadS16 s)

/-- BR.READ_U32 (rules R131, R175). -/
def execBrReadU32 (s : State) : Host.Outcome State Fault Refusal := .next (command .br .ordinary brReadU32 s)

/-- BR.READ_S32 (rules R131, R176). -/
def execBrReadS32 (s : State) : Host.Outcome State Fault Refusal := .next (command .br .ordinary brReadS32 s)

/-- BR.ALIGN (rules R131, R177). -/
def execBrAlign (s : State) : Host.Outcome State Fault Refusal := .next (command .br .ordinary brAlign s)

/-- BR.SKIP (rules R131, R178). -/
def execBrSkip (cnt : BitVec 32) (s : State) : Host.Outcome State Fault Refusal :=
  .next (command .br .ordinary (brSkip cnt) s)

/-- BR.SKIP_BITS (rules R131, R179). -/
def execBrSkipBits (cnt : BitVec 32) (s : State) : Host.Outcome State Fault Refusal :=
  .next (command .br .ordinary (brSkipBits cnt) s)

/-- BR.MARK (rules R131, R180). -/
def execBrMark (s : State) : Host.Outcome State Fault Refusal := .next (command .br .ordinary brMark s)

/-- BR.UNMARK (rules R131, R181). -/
def execBrUnmark (s : State) : Host.Outcome State Fault Refusal := .next (command .br .ordinary brUnmark s)

/-- BR.RESET (rules R131, R182). -/
def execBrReset (s : State) : Host.Outcome State Fault Refusal := .next (command .br .ordinary brReset s)

/-- BR.CHECK (rules R131, R183). -/
def execBrCheck (expected : Word64) (s : State) : Host.Outcome State Fault Refusal :=
  .next (command .br .ordinary (brCheck expected) s)

/-- BR.BYTES_READ (rules R131, R184). -/
def execBrBytesRead (s : State) : Host.Outcome State Fault Refusal := .next (command .br .ordinary brBytesRead s)

/-- BR.READ_BYTES (rules R131, R185). -/
def execBrReadBytes (cnt : BitVec 32) (s : State) : Host.Outcome State Fault Refusal :=
  .next (command .br .ordinary (brReadBytes cnt) s)

/-- BR.READ_STR_FIXED (rules R131, R186). -/
def execBrReadStrFixed (cnt : BitVec 32) (s : State) : Host.Outcome State Fault Refusal :=
  .next (command .br .ordinary (brReadStrFixed cnt) s)

/-- BR.READ_STR_NUL (rules R131, R187). -/
def execBrReadStrNul (s : State) : Host.Outcome State Fault Refusal := .next (command .br .ordinary brReadStrNul s)

end Sys2Proof.Machine
end

