-- ==== Sys2Proof/Machine/BitWriter.lean ====
section
/-! DEFINITION. The commands of `BW`, the bit writer (rules R137, R220 to R238). -/

namespace Sys2Proof.Machine

/-! ## Internal primitives (rules R220, R225, R238) -/

/-- `Cur(BW)`, the logical byte position (rule R28, D13). -/
def Bw.cur (u : Bw) : Nat := u.pos + u.idx

/-- The bytes a flush sends (rule R220): the completed ones, and the partial one when a bit offset is pending. -/
def Bw.pending (u : Bw) : List Byte := sliceBytes u.buf 0 (u.idx + partialByte u.bit)

/-- The buffer after an accepted flush (rule R220): the partial byte carried to index 0, the rest zero. -/
def Bw.flushed (u : Bw) (cW : Nat) : Bw :=
  let carry := if u.bit = 0 then 0 else byteAt u.buf u.idx
  { u with pos := u.pos + u.idx, buf := (List.replicate cW 0).set 0 carry, idx := 0 }

/-- The part of `Flush` after the write (rule R220). -/
def bwFlushEnd (s : State) : State :=
  let s1 := dswFlush s
  s1.setBw (s1.bw.flushed s1.cfg.cW)

/-- `Flush()` (rule R220): one downstream write of the pending bytes, if there are any, then the downstream flush. -/
def bwFlush (s : State) : State :=
  let cnt := s.bw.idx + partialByte s.bw.bit
  if cnt = 0 then bwFlushEnd s
  else
    let wr := dswWrite s.bw.pending s
    if wr.1 < cnt then raise .bw .failedToWrite wr.2 else bwFlushEnd wr.2

/-- One bit stored at the cursor, and the cursor moved past it (rule R221). -/
def Bw.putBit (u : Bw) (b : Bool) : Bw :=
  let buf := u.buf.set u.idx (byteAt u.buf u.idx ||| (if b then (1#8 <<< (7 - u.bit.val)) else 0))
  if u.bit.val + 1 = 8 then { u with buf := buf, bit := 0, idx := u.idx + 1 }
  else { u with buf := buf, bit := u.bit + 1 }

/-- The loop of rule R221: bits `n-1` down to 0 of `v`. -/
def Bw.putBits (u : Bw) (v : Word32) : Nat → Bw
  | 0 => u
  | j + 1 => (u.putBit (v.getLsbD j)).putBits v j

/-- Bytes stored from `idx` on, overwriting, and `idx` moved past them (rules R225, R238). -/
def Bw.putRun (u : Bw) (l : List Byte) : Bw := { u with buf := putBytes u.buf u.idx l, idx := u.idx + l.length }

/-- The triggered flush of rules R221 and R238, when a write needs `need` bytes from `idx` on. -/
def bwMakeRoom (need : Nat) (s : State) : State := if s.cfg.cW < s.bw.idx + need then bwFlush s else s

/-- A write into the buffer after room was made: nothing when the flush has left an error (rules R221, R238). -/
def bwStore (need : Nat) (put : Bw → Bw) (s : State) : State :=
  let s1 := bwMakeRoom need s
  if s1.bw.err ≠ .noError then s1 else s1.setBw (put s1.bw)

/-- `WriteLE(k, v)` (rule R238); the trigger reserves the byte a kept bit offset points into. -/
def bwWriteLE {w : Nat} (k : Nat) (v : BitVec w) (s : State) : State :=
  bwStore (k + partialByte s.bw.bit) (fun u => u.putRun (leBytes k v)) s

/-- `WriteBytesCore(L)` (rule R225): buffered when it fits, else a flush and one direct downstream write. -/
def bwWriteBytesCore (l : List Byte) (s : State) : State :=
  if s.bw.idx + l.length + partialByte s.bw.bit ≤ s.cfg.cW then s.setBw (s.bw.putRun l)
  else
    let s1 := bwFlush s
    if s1.bw.err ≠ .noError then s1
    else
      let wr := dswWrite l s1
      if wr.1 < l.length then raise .bw .failedToWrite wr.2
      else wr.2.setBw { wr.2.bw with pos := wr.2.bw.pos + l.length }

/-! ## The bodies -/

/-- BW.INIT (rule R235). -/
def bwInit (s : State) : State :=
  s.setBw
    { live := true, err := .noError, pos := 0, idx := 0, bit := 0, buf := List.replicate s.cfg.cW 0, marks := [] }

/-- BW.RELEASE (rule R236): the buffered bytes are discarded. -/
def bwRelease (s : State) : State := s.setBw { s.bw with live := false }

/-- BW.GET_ERROR (rule R137). -/
def bwGetError (s : State) : State := s.setR (s.bw.err.code.setWidth 64)

/-- BW.WRITE_BITS (rule R221). -/
def bwWriteBits (n : BitVec 6) (v : Word32) (s : State) : State :=
  if n.toNat = 0 then s else bwStore (bytesTouched s.bw.bit n.toNat) (fun u => u.putBits v n.toNat) s

/-- BW.WRITE_BYTE (rule R222). -/
def bwWriteByte (v : Byte) (s : State) : State := bwWriteLE 1 v s

/-- BW.WRITE_SHORT (rule R223). -/
def bwWriteShort (v : BitVec 16) (s : State) : State := bwWriteLE 2 v s

/-- BW.WRITE_INT (rule R224). -/
def bwWriteInt (v : Word32) (s : State) : State := bwWriteLE 4 v s

/-- BW.WRITE_BYTES (rule R226). -/
def bwWriteBytes (p : List Byte) (s : State) : State := bwWriteBytesCore p s

/-- BW.WRITE_STRING (rule R227): the bytes, then the NUL terminator through the buffer. -/
def bwWriteString (p : List Byte) (s : State) : State :=
  let s1 := bwWriteBytesCore p s
  if s1.bw.err ≠ .noError then s1 else bwWriteLE 1 0#8 s1

/-- BW.ALIGN (rule R228). -/
def bwAlign (s : State) : State :=
  if s.bw.bit = 0 then s else s.setBw { s.bw with idx := s.bw.idx + 1, bit := 0 }

/-- BW.MARK (rule R230). -/
def bwMark (s : State) : State :=
  if s.bw.marks.length = s.cfg.markDepth then raise .bw .badArguments s
  else s.setBw { s.bw with marks := s.bw.marks ++ [⟨s.bw.cur, s.bw.bit⟩] }

/-- BW.UNMARK (rule R231). -/
def bwUnmark (s : State) : State :=
  if s.bw.marks.length = 0 then raise .bw .badArguments s
  else s.setBw { s.bw with marks := s.bw.marks.dropLast }

/-- BW.CHECK (rule R232). -/
def bwCheck (expected : Word64) (s : State) : State :=
  match topMark s.bw.marks with
  | none => raise .bw .badArguments s
  | some e => s.setR (resultInt (((s.bw.cur : Int) - e.mbyte) - signedOperand expected))

/-! ## The meanings -/

/-- BW.INIT (rules R131, R235). -/
def execBwInit (s : State) : Host.Outcome State Fault Refusal := .next (command .bw .init bwInit s)

/-- BW.RELEASE (rules R131, R236). -/
def execBwRelease (s : State) : Host.Outcome State Fault Refusal := .next (command .bw .release bwRelease s)

/-- BW.GET_ERROR (rules R131, R137). -/
def execBwGetError (s : State) : Host.Outcome State Fault Refusal := .next (command .bw .getError bwGetError s)

/-- BW.WRITE_BITS (rules R131, R221). -/
def execBwWriteBits (n : BitVec 6) (v : Word32) (s : State) : Host.Outcome State Fault Refusal :=
  .next (command .bw .ordinary (bwWriteBits n v) s)

/-- BW.WRITE_BYTE (rules R131, R222). -/
def execBwWriteByte (v : Byte) (s : State) : Host.Outcome State Fault Refusal :=
  .next (command .bw .ordinary (bwWriteByte v) s)

/-- BW.WRITE_SHORT (rules R131, R223). -/
def execBwWriteShort (v : BitVec 16) (s : State) : Host.Outcome State Fault Refusal :=
  .next (command .bw .ordinary (bwWriteShort v) s)

/-- BW.WRITE_INT (rules R131, R224). -/
def execBwWriteInt (v : Word32) (s : State) : Host.Outcome State Fault Refusal :=
  .next (command .bw .ordinary (bwWriteInt v) s)

/-- BW.WRITE_BYTES (rules R131, R226). -/
def execBwWriteBytes (p : List Byte) (s : State) : Host.Outcome State Fault Refusal :=
  .next (command .bw .ordinary (bwWriteBytes p) s)

/-- BW.WRITE_STRING (rules R131, R227). -/
def execBwWriteString (p : List Byte) (s : State) : Host.Outcome State Fault Refusal :=
  .next (command .bw .ordinary (bwWriteString p) s)

/-- BW.ALIGN (rules R131, R228). -/
def execBwAlign (s : State) : Host.Outcome State Fault Refusal := .next (command .bw .ordinary bwAlign s)

/-- BW.FLUSH (rules R131, R229). -/
def execBwFlush (s : State) : Host.Outcome State Fault Refusal := .next (command .bw .ordinary bwFlush s)

/-- BW.MARK (rules R131, R230). -/
def execBwMark (s : State) : Host.Outcome State Fault Refusal := .next (command .bw .ordinary bwMark s)

/-- BW.UNMARK (rules R131, R231). -/
def execBwUnmark (s : State) : Host.Outcome State Fault Refusal := .next (command .bw .ordinary bwUnmark s)

/-- BW.CHECK (rules R131, R232). -/
def execBwCheck (expected : Word64) (s : State) : Host.Outcome State Fault Refusal :=
  .next (command .bw .ordinary (bwCheck expected) s)

end Sys2Proof.Machine
end

