-- ==== Sys2Proof/Machine/Dispatch.lean ====
section
/-! DEFINITION. One arm per command of the opcode map (rule R104), each one call of that command's meaning. -/

namespace Sys2Proof.Machine

def exec (i : Instr) (s : State) : Host.Outcome State Fault Refusal :=
  match i with
  | .brInit => Sys2Proof.Machine.execBrInit s
  | .brRelease => Sys2Proof.Machine.execBrRelease s
  | .brGetError => Sys2Proof.Machine.execBrGetError s
  | .brReadUbits n => Sys2Proof.Machine.execBrReadUbits n s
  | .brReadSbits n => Sys2Proof.Machine.execBrReadSbits n s
  | .brScanUbits n => Sys2Proof.Machine.execBrScanUbits n s
  | .brScanSbits n => Sys2Proof.Machine.execBrScanSbits n s
  | .brReadU8 => Sys2Proof.Machine.execBrReadU8 s
  | .brReadS8 => Sys2Proof.Machine.execBrReadS8 s
  | .brReadU16 => Sys2Proof.Machine.execBrReadU16 s
  | .brReadS16 => Sys2Proof.Machine.execBrReadS16 s
  | .brReadU32 => Sys2Proof.Machine.execBrReadU32 s
  | .brReadS32 => Sys2Proof.Machine.execBrReadS32 s
  | .brAlign => Sys2Proof.Machine.execBrAlign s
  | .brSkip cnt => Sys2Proof.Machine.execBrSkip cnt s
  | .brSkipBits cnt => Sys2Proof.Machine.execBrSkipBits cnt s
  | .brMark => Sys2Proof.Machine.execBrMark s
  | .brUnmark => Sys2Proof.Machine.execBrUnmark s
  | .brReset => Sys2Proof.Machine.execBrReset s
  | .brCheck expected => Sys2Proof.Machine.execBrCheck expected s
  | .brBytesRead => Sys2Proof.Machine.execBrBytesRead s
  | .brReadBytes cnt => Sys2Proof.Machine.execBrReadBytes cnt s
  | .brReadStrFixed cnt => Sys2Proof.Machine.execBrReadStrFixed cnt s
  | .brReadStrNul => Sys2Proof.Machine.execBrReadStrNul s
  | .bwInit => Sys2Proof.Machine.execBwInit s
  | .bwRelease => Sys2Proof.Machine.execBwRelease s
  | .bwGetError => Sys2Proof.Machine.execBwGetError s
  | .bwWriteBits n v => Sys2Proof.Machine.execBwWriteBits n v s
  | .bwWriteByte v => Sys2Proof.Machine.execBwWriteByte v s
  | .bwWriteShort v => Sys2Proof.Machine.execBwWriteShort v s
  | .bwWriteInt v => Sys2Proof.Machine.execBwWriteInt v s
  | .bwWriteBytes p => Sys2Proof.Machine.execBwWriteBytes p s
  | .bwWriteString p => Sys2Proof.Machine.execBwWriteString p s
  | .bwAlign => Sys2Proof.Machine.execBwAlign s
  | .bwFlush => Sys2Proof.Machine.execBwFlush s
  | .bwMark => Sys2Proof.Machine.execBwMark s
  | .bwUnmark => Sys2Proof.Machine.execBwUnmark s
  | .bwCheck expected => Sys2Proof.Machine.execBwCheck expected s
  | .craInit own key req start => Sys2Proof.Machine.execCraInit own key req start s
  | .craRelease => Sys2Proof.Machine.execCraRelease s
  | .craGetError => Sys2Proof.Machine.execCraGetError s
  | .craRead cnt => Sys2Proof.Machine.execCraRead cnt s
  | .craSeek origin off => Sys2Proof.Machine.execCraSeek origin off s
  | .craTell => Sys2Proof.Machine.execCraTell s
  | .craEof => Sys2Proof.Machine.execCraEof s
  | .cwaInit own key => Sys2Proof.Machine.execCwaInit own key s
  | .cwaRelease => Sys2Proof.Machine.execCwaRelease s
  | .cwaGetError => Sys2Proof.Machine.execCwaGetError s
  | .cwaWrite p => Sys2Proof.Machine.execCwaWrite p s
  | .cwaFlush => Sys2Proof.Machine.execCwaFlush s
  | .cwaSeal => Sys2Proof.Machine.execCwaSeal s

end Sys2Proof.Machine
end

