-- ==== Sys2Proof/WellFormed.lean ====
section
/-! DEFINITION. The operand ranges that make a decoded command legal (rule R106 (c), (e), (f)). -/

namespace Sys2Proof

/-- The legal bit counts of the four `BR` bit commands, `1..32` (rule R106 (c)). -/
abbrev legalReadCount (n : BitVec 6) : Prop := 1 ≤ n.toNat ∧ n.toNat ≤ Config.nMax

/-- The legal bit counts of BW.WRITE_BITS, `0..32` (rule R106 (c)). -/
abbrev legalWriteCount (n : BitVec 6) : Prop := n.toNat ≤ Config.nMax

/-- A payload whose length fits the count `A[31:0]` (rule R106 (e)). -/
abbrev legalPayload (p : List Byte) : Prop := p.length < 2 ^ 32

/-- A start offset that is a legal stream position (rule R106 (f)). -/
abbrev legalStart (start : Word64) : Prop := start.toNat ≤ Config.posMax

/-- A command whose operands a legal record can carry (rule R106). -/
abbrev Instr.WellFormed (i : Instr) : Prop :=
  match i with
  | .brReadUbits n | .brReadSbits n | .brScanUbits n | .brScanSbits n => legalReadCount n
  | .bwWriteBits n _ => legalWriteCount n
  | .bwWriteBytes p | .bwWriteString p | .cwaWrite p => legalPayload p
  | .craInit _ _ _ start => legalStart start
  | .brInit | .brRelease | .brGetError | .brReadU8 | .brReadS8 | .brReadU16 | .brReadS16 | .brReadU32 | .brReadS32
  | .brAlign | .brSkip _ | .brSkipBits _ | .brMark | .brUnmark | .brReset | .brCheck _ | .brBytesRead
  | .brReadBytes _ | .brReadStrFixed _ | .brReadStrNul | .bwInit | .bwRelease | .bwGetError | .bwWriteByte _
  | .bwWriteShort _ | .bwWriteInt _ | .bwAlign | .bwFlush | .bwMark | .bwUnmark | .bwCheck _ | .craRelease
  | .craGetError | .craRead _ | .craSeek _ _ | .craTell | .craEof | .cwaInit _ _ | .cwaRelease | .cwaGetError
  | .cwaFlush | .cwaSeal => True

end Sys2Proof
end

