-- ==== Sys2Proof/Decode.lean ====
section
/-! DEFINITION. The fields of the command word (rule R101), the decoder (rules R104 to R106, R109), and after it the
encoder, both written from the opcode map of rule R104. -/

namespace Sys2Proof

/-! ## Fields of the command word (rule R101) -/

/-- `UNIT = W[31:30]`. -/
def Command.unitField (c : Command) : BitVec 2 := c.w.extractLsb' 30 2

/-- `OP = W[29:24]`. -/
def Command.opField (c : Command) : BitVec 6 := c.w.extractLsb' 24 6

/-- `N = W[23:18]`. -/
def Command.nField (c : Command) : BitVec 6 := c.w.extractLsb' 18 6

/-- `M = W[17:16]`. -/
def Command.mField (c : Command) : BitVec 2 := c.w.extractLsb' 16 2

/-- `RSV = W[15:0]`. -/
def Command.rsvField (c : Command) : BitVec 16 := c.w.extractLsb' 0 16

/-- `A[31:0]`, the count of a command that has one (rule R103). -/
def Command.count (c : Command) : BitVec 32 := c.a.setWidth 32

/-! ## The decoder -/

/-- Why a record is illegal, one name for each item of rule R106. The host sees only `STATUS = ILLEGAL` (rule R131). -/
inductive DecodeError where
  /-- R106 (a): `(UNIT, OP)` is reserved (rule R105) -/
  | reservedOpcode
  /-- R106 (b): `RSV != 0` -/
  | reservedBits
  /-- R106 (c): `N` outside its row's range -/
  | bitCount
  /-- R106 (d): `M` outside its row's range -/
  | modeField
  /-- R106 (e): `|P| != A[31:0]` -/
  | payloadLength
  /-- R106 (f): CRA.INIT with `C > POS_MAX` -/
  | startOffset
deriving DecidableEq, Repr

/-- The check of `N` and `M` against a row's legal ranges (rule R106 (c), (d)), then the row's command. -/
def Command.row (c : Command) (nMin nMax mMax : Nat) (i : Instr) : Except DecodeError Instr :=
  if c.nField.toNat < nMin ∨ nMax < c.nField.toNat then .error .bitCount
  else if mMax < c.mField.toNat then .error .modeField
  else .ok i

/-- A row of format `F0`: `N` and `M` are 0 (rule R102). -/
def Command.rowF0 (c : Command) (i : Instr) : Except DecodeError Instr := c.row 0 0 0 i

/-- A row of format `F0` with a payload, whose length is `A[31:0]` (rule R106 (e)). -/
def Command.rowPayload (c : Command) (i : Instr) : Except DecodeError Instr :=
  match c.rowF0 i with
  | .error e => .error e
  | .ok i => if c.p.length = c.count.toNat then .ok i else .error .payloadLength

/-- A row of format `FN`: `N` in a range, `M` is 0 (rule R102). -/
def Command.rowFN (c : Command) (nMin nMax : Nat) (i : Instr) : Except DecodeError Instr := c.row nMin nMax 0 i

/-- A row of format `FM`: `M` in a range, `N` is 0 (rule R102). -/
def Command.rowFM (c : Command) (mMax : Nat) (i : Instr) : Except DecodeError Instr := c.row 0 0 mMax i

/-- CRA.INIT, whose start offset must be a legal position (rule R106 (f)). -/
def Command.rowCraInit (c : Command) : Except DecodeError Instr :=
  match c.rowFM 1 (.craInit (c.mField.getLsbD 0) c.a c.b c.c) with
  | .error e => .error e
  | .ok i => if c.c.toNat ≤ Config.posMax then .ok i else .error .startOffset

/-- The origin a legal `M` of CRA.SEEK names (rule R101). -/
def originOf (m : BitVec 2) : Origin :=
  if m = 0 then .seekSet else if m = 1 then .seekCur else .seekEnd

/-- The rows of `BR` (rule R104, `UNIT = 0`). -/
def decodeBr (c : Command) : Except DecodeError Instr :=
  match c.opField.toNat with
  | 0x01 => c.rowF0 .brInit
  | 0x02 => c.rowF0 .brRelease
  | 0x03 => c.rowF0 .brGetError
  | 0x04 => c.rowFN 1 32 (.brReadUbits c.nField)
  | 0x05 => c.rowFN 1 32 (.brReadSbits c.nField)
  | 0x06 => c.rowFN 1 32 (.brScanUbits c.nField)
  | 0x07 => c.rowFN 1 32 (.brScanSbits c.nField)
  | 0x08 => c.rowF0 .brReadU8
  | 0x09 => c.rowF0 .brReadS8
  | 0x0A => c.rowF0 .brReadU16
  | 0x0B => c.rowF0 .brReadS16
  | 0x0C => c.rowF0 .brReadU32
  | 0x0D => c.rowF0 .brReadS32
  | 0x0E => c.rowF0 .brAlign
  | 0x0F => c.rowF0 (.brSkip c.count)
  | 0x10 => c.rowF0 (.brSkipBits c.count)
  | 0x11 => c.rowF0 .brMark
  | 0x12 => c.rowF0 .brUnmark
  | 0x13 => c.rowF0 .brReset
  | 0x14 => c.rowF0 (.brCheck c.a)
  | 0x15 => c.rowF0 .brBytesRead
  | 0x16 => c.rowF0 (.brReadBytes c.count)
  | 0x17 => c.rowF0 (.brReadStrFixed c.count)
  | 0x18 => c.rowF0 .brReadStrNul
  | _ => .error .reservedOpcode

/-- The rows of `BW` (rule R104, `UNIT = 1`). -/
def decodeBw (c : Command) : Except DecodeError Instr :=
  match c.opField.toNat with
  | 0x01 => c.rowF0 .bwInit
  | 0x02 => c.rowF0 .bwRelease
  | 0x03 => c.rowF0 .bwGetError
  | 0x04 => c.rowFN 0 32 (.bwWriteBits c.nField (c.a.setWidth 32))
  | 0x05 => c.rowF0 (.bwWriteByte (c.a.setWidth 8))
  | 0x06 => c.rowF0 (.bwWriteShort (c.a.setWidth 16))
  | 0x07 => c.rowF0 (.bwWriteInt (c.a.setWidth 32))
  | 0x08 => c.rowPayload (.bwWriteBytes c.p)
  | 0x09 => c.rowPayload (.bwWriteString c.p)
  | 0x0A => c.rowF0 .bwAlign
  | 0x0B => c.rowF0 .bwFlush
  | 0x0C => c.rowF0 .bwMark
  | 0x0D => c.rowF0 .bwUnmark
  | 0x0E => c.rowF0 (.bwCheck c.a)
  | _ => .error .reservedOpcode

/-- The rows of `CRA` (rule R104, `UNIT = 2`). -/
def decodeCra (c : Command) : Except DecodeError Instr :=
  match c.opField.toNat with
  | 0x01 => c.rowCraInit
  | 0x02 => c.rowF0 .craRelease
  | 0x03 => c.rowF0 .craGetError
  | 0x04 => c.rowF0 (.craRead c.count)
  | 0x05 => c.rowFM 2 (.craSeek (originOf c.mField) c.a)
  | 0x06 => c.rowF0 .craTell
  | 0x07 => c.rowF0 .craEof
  | _ => .error .reservedOpcode

/-- The rows of `CWA` (rule R104, `UNIT = 3`). -/
def decodeCwa (c : Command) : Except DecodeError Instr :=
  match c.opField.toNat with
  | 0x01 => c.rowFM 1 (.cwaInit (c.mField.getLsbD 0) c.a)
  | 0x02 => c.rowF0 .cwaRelease
  | 0x03 => c.rowF0 .cwaGetError
  | 0x04 => c.rowPayload (.cwaWrite c.p)
  | 0x05 => c.rowF0 .cwaFlush
  | 0x06 => c.rowF0 .cwaSeal
  | _ => .error .reservedOpcode

/-- `Decode` (rule R109): total on every record, in the rule's order of checks. -/
def decode (c : Command) : Except DecodeError Instr :=
  if c.rsvField ≠ 0 then .error .reservedBits
  else match c.unitField.toNat with
    | 0 => decodeBr c
    | 1 => decodeBw c
    | 2 => decodeCra c
    | _ => decodeCwa c

/-! ## The encoder -/

/-- `W = UNIT<<30 | OP<<24 | N<<18 | M<<16` with `RSV = 0` (rule R101). -/
def packWord (unit : BitVec 2) (op : BitVec 6) (n : BitVec 6) (m : BitVec 2) : Word32 :=
  unit ++ op ++ n ++ m ++ 0#16

/-- The record of a command of format `F0` with the operand `A`. -/
def recordA (unit : BitVec 2) (op : BitVec 6) (a : Word64) : Command :=
  ⟨packWord unit op 0 0, a, 0, 0, []⟩

/-- The record of a command of format `F0` with a payload, `A[31:0] = |P|` (rule R107). -/
def recordP (unit : BitVec 2) (op : BitVec 6) (p : List Byte) : Command :=
  ⟨packWord unit op 0 0, BitVec.ofNat 64 p.length, 0, 0, p⟩

/-- The record of a command of format `FN` with the operand `A`. -/
def recordN (unit : BitVec 2) (op : BitVec 6) (n : BitVec 6) (a : Word64) : Command :=
  ⟨packWord unit op n 0, a, 0, 0, []⟩

/-- The record of a command of format `FM`. -/
def recordM (unit : BitVec 2) (op : BitVec 6) (m : BitVec 2) (a b c : Word64) : Command :=
  ⟨packWord unit op 0 m, a, b, c, []⟩

/-- The field `M` of CRA.SEEK (rule R101). -/
def Origin.field : Origin → BitVec 2
  | .seekSet => 0
  | .seekCur => 1
  | .seekEnd => 2

/-- The ownership bit `M[0]` of CRA.INIT and CWA.INIT (rule R101). -/
def ownField (own : Bool) : BitVec 2 := if own then 1 else 0

/-- The record that carries a command (rule R104). DESIGN CHOICE (log 13): operand bits and operands the command's rule
ignores (rules R21, R103) are written as 0. -/
def encode (i : Instr) : Command :=
  match i with
  | .brInit => recordA 0 0x01 0
  | .brRelease => recordA 0 0x02 0
  | .brGetError => recordA 0 0x03 0
  | .brReadUbits n => recordN 0 0x04 n 0
  | .brReadSbits n => recordN 0 0x05 n 0
  | .brScanUbits n => recordN 0 0x06 n 0
  | .brScanSbits n => recordN 0 0x07 n 0
  | .brReadU8 => recordA 0 0x08 0
  | .brReadS8 => recordA 0 0x09 0
  | .brReadU16 => recordA 0 0x0A 0
  | .brReadS16 => recordA 0 0x0B 0
  | .brReadU32 => recordA 0 0x0C 0
  | .brReadS32 => recordA 0 0x0D 0
  | .brAlign => recordA 0 0x0E 0
  | .brSkip cnt => recordA 0 0x0F (cnt.setWidth 64)
  | .brSkipBits cnt => recordA 0 0x10 (cnt.setWidth 64)
  | .brMark => recordA 0 0x11 0
  | .brUnmark => recordA 0 0x12 0
  | .brReset => recordA 0 0x13 0
  | .brCheck expected => recordA 0 0x14 expected
  | .brBytesRead => recordA 0 0x15 0
  | .brReadBytes cnt => recordA 0 0x16 (cnt.setWidth 64)
  | .brReadStrFixed cnt => recordA 0 0x17 (cnt.setWidth 64)
  | .brReadStrNul => recordA 0 0x18 0
  | .bwInit => recordA 1 0x01 0
  | .bwRelease => recordA 1 0x02 0
  | .bwGetError => recordA 1 0x03 0
  | .bwWriteBits n v => recordN 1 0x04 n (v.setWidth 64)
  | .bwWriteByte v => recordA 1 0x05 (v.setWidth 64)
  | .bwWriteShort v => recordA 1 0x06 (v.setWidth 64)
  | .bwWriteInt v => recordA 1 0x07 (v.setWidth 64)
  | .bwWriteBytes p => recordP 1 0x08 p
  | .bwWriteString p => recordP 1 0x09 p
  | .bwAlign => recordA 1 0x0A 0
  | .bwFlush => recordA 1 0x0B 0
  | .bwMark => recordA 1 0x0C 0
  | .bwUnmark => recordA 1 0x0D 0
  | .bwCheck expected => recordA 1 0x0E expected
  | .craInit own key req start => recordM 2 0x01 (ownField own) key req start
  | .craRelease => recordA 2 0x02 0
  | .craGetError => recordA 2 0x03 0
  | .craRead cnt => recordA 2 0x04 (cnt.setWidth 64)
  | .craSeek origin off => recordM 2 0x05 origin.field off 0 0
  | .craTell => recordA 2 0x06 0
  | .craEof => recordA 2 0x07 0
  | .cwaInit own key => recordM 3 0x01 (ownField own) key 0 0
  | .cwaRelease => recordA 3 0x02 0
  | .cwaGetError => recordA 3 0x03 0
  | .cwaWrite p => recordP 3 0x04 p
  | .cwaFlush => recordA 3 0x05 0
  | .cwaSeal => recordA 3 0x06 0

/-! ## The table's numbering -/

/-- The record whose bits are `v`, `W` first: `W` is bits 31..0, then `A` is bits 95..32, `B` 159..96, `C` 223..160; the
payload is empty. DESIGN CHOICE (log 12): the table numbers only the 32 bits of `W`. -/
def Command.ofBits (v : Nat) : Command :=
  ⟨BitVec.ofNat 32 v, BitVec.ofNat 64 (v >>> 32), BitVec.ofNat 64 (v >>> 96), BitVec.ofNat 64 (v >>> 160), []⟩

/-- The command the decoder reads from the `nbits` bits `w`, every bit above them being 0. -/
def decodeTableWord (nbits w : Nat) : Option Instr :=
  match decode (Command.ofBits (w % 2 ^ nbits)) with
  | .ok i => some i
  | .error _ => none

end Sys2Proof
end

