-- ==== Sys2Proof/Machine/Fetch.lean ====
section
/-! DEFINITION. How a step gets its command: the host's list is read at the host's index (rule R130). -/

namespace Sys2Proof.Machine

/-- The record `cmds[pc]`; none when `pc = K`, the end of the launch (rules R130, R145). -/
def State.fetch (s : State) : Option Command := s.cmds[s.pc]?

/-- `s` with the record `c` at the host's index; a list that is too short is first filled with illegal records. -/
def State.withNextCommand (s : State) (c : Command) : State :=
  { s with cmds :=
      s.cmds.take s.pc ++ List.replicate (s.pc - s.cmds.length) (Command.ofBits 0) ++ c :: s.cmds.drop (s.pc + 1) }

end Sys2Proof.Machine
end

