-- ==== Sys2Proof/Machine/Step.lean ====
section
/-! DEFINITION. One step of the engine (rules R130, R131): the host's next record is taken, decoded, and run to
completion. -/

namespace Sys2Proof.Machine

/-- `Step` (rules R130, R131, R145): the record `cmds[pc]` runs, an illegal one is answered with `STATUS = ILLEGAL`; when
`pc = K` the launch has ended and there is no step. -/
def step (s : State) : Host.Outcome State Fault Refusal :=
  match s.fetch with
  | none => .fault .launchEnded
  | some c =>
    match decode c with
    | .error _ => .next (illegalCommand s)
    | .ok i => exec i s

/-- `s` with the record whose bits are `w` as the host's next one: the model's stand-in for loading a program from outside
the machine (log 1). Nothing but the list of records changes. -/
def State.withFetchWord (s : State) (nbits w : Nat) : State := s.withNextCommand (Command.ofBits (w % 2 ^ nbits))

end Sys2Proof.Machine
end

