-- ==== Sys2Proof/Safety.lean ====
section
/-! DEFINITION. The terms the statements are written in: the invariants the spec gives the state (rules R27, R29, R43 to
R45, R49, R321), the byte streams the units see (rules R70, R74), what a channel may touch (rule R88), and the observation
of a launch (rule R145). -/

namespace Sys2Proof.Machine

/-! ## Streams as the units see them -/

/-- The bytes `f` gives at `p, p+1, …`, at most `n`, stopping at the first position that has none. -/
def takeBytes (f : Nat → Option Byte) (p : Nat) : Nat → List Byte
  | 0 => []
  | n + 1 =>
    match f p with
    | some b => b :: takeBytes f (p + 1) n
    | none => []

/-- Byte `p` of the `CRA` plaintext stream (rules R70, R74, R267): a byte of a decrypted block, for a position below
`CRA.length` whose ciphertext block has all its 8 bytes in `RAW_IN`. -/
def State.craByte (s : State) (p : Nat) : Option Byte :=
  let block := s.rawIn.slice (s.cra.start + 8 * (p >>> 3)) 8
  if p < s.cra.length ∧ block.length = 8 then some (blockByte (transform s.cra.sched (blockOfList block)) p) else none

/-- Byte `p` of the downstream of `BR` (rules R5, R70, R140, R142): none from an adapter that answers no read. -/
def State.srcByte (s : State) (p : Nat) : Option Byte :=
  match s.cfg.brSrc with
  | .raw => s.rawIn.read? p
  | .cra => if gate s.cra.live s.cra.err = .accepts then s.craByte p else none

/-- Byte `p` as `BR` will deliver it: from its buffer where the buffer holds that position, else from its downstream. -/
def State.brByte (s : State) (p : Nat) : Option Byte :=
  if s.br.pos ≤ p ∧ p < s.br.pos + s.br.fill then s.br.buf[p - s.br.pos]? else s.srcByte p

/-- The next bytes `BR` will deliver from its cursor on, at most `n` (rule R188 (b)). -/
def State.unread (s : State) (n : Nat) : List Byte := takeBytes s.brByte s.br.cur n

/-- The downstream of `BR` accepts a seek (rules R140, R142): a raw stream, or a `CRA` that is live. -/
abbrev State.sourceSeeks (s : State) : Prop := s.cfg.brSrc = .raw ∨ s.cra.live = true

/-- The downstream of `BW` accepts writes (rules R141, R142, R291): a raw stream, or a `CWA` that is live, has no error and
is not sealed. -/
abbrev State.sinkAccepts (s : State) : Prop :=
  s.cfg.bwDst = .raw ∨ (s.cwa.live = true ∧ s.cwa.err = .noError ∧ s.cwa.sealed = false)

/-- The plaintext `CWA` holds unsent (rule R48): `wbuf[0 .. nbuf)`. -/
def Cwa.unsent (c : Cwa) : List Byte := sliceBytes c.wbuf 0 c.nbuf

/-- The zero-padded ECB encryption of a byte list (rule R89): `ceil(|Q|/8)` blocks. -/
def ecb (k : Schedule) (q : List Byte) : List Byte := transformBlocks k ((q.length + 7) / 8) q

/-! ## Bits (rule R71) -/

/-- The bits of a byte in cursor order: bit offset 0 is the most significant bit (rule R71). -/
def bitsOfByte (b : Byte) : List Bool := (List.range 8).map fun i => b.getLsbD (7 - i)

/-- The bits of a byte list in cursor order (rule R71). -/
def bitsOf (l : List Byte) : List Bool := l.flatMap bitsOfByte

/-- The low `n` bits of a value, most significant first, as a bit field carries them (rule R71). -/
def fieldOf {w : Nat} (n : Nat) (v : BitVec w) : List Bool := (List.range n).map fun i => v.getLsbD (n - 1 - i)

/-- The bits `BW` holds in its buffer, those written so far (rule R28). -/
def Bw.bits (u : Bw) : List Bool := (bitsOf u.buf).take (8 * u.idx + u.bit.val)

/-! ## What a downstream took -/

/-- The downstream of `BW` in `t` is that of `s` after it took the bytes `l`: `RAW_OUT` has them at its end (rule R77), or
`CWA` has sent whole blocks of its unsent bytes and `l`, and holds the others unsent (rules R290, R291). -/
structure SinkTook (s t : State) (l : List Byte) : Prop where
  raw : s.cfg.bwDst = .raw → t.rawOut = s.rawOut.append l
  cwa : s.cfg.bwDst = .cwa → ∃ m, 8 * m ≤ (s.cwa.unsent ++ l).length ∧
    t.rawOut = s.rawOut.append (transformBlocks s.cwa.sched m (s.cwa.unsent ++ l)) ∧
    t.cwa.unsent = (s.cwa.unsent ++ l).drop (8 * m)

/-! ## When a command runs its own rule -/

/-- A command of unit `u` that is not INIT, RELEASE or GET_ERROR reaches its own rule (rule R131): the unit is live and
holds no error. -/
abbrev State.ready (s : State) (u : UnitId) : Prop := s.liveOf u = true ∧ s.errOf u = .noError

/-! ## The invariants -/

/-- What every launch is given (rules R6, R76) and the streams' canonical form. The bound on `L_IN` is DEDUCED (log 9):
every stream position lies in `0 .. POS_MAX`. -/
structure LaunchInv (s : State) : Prop where
  cfg_wf : s.cfg.wf
  rawIn_wf : s.rawIn.wf
  rawOut_wf : s.rawOut.wf
  rawIn_length : s.rawIn.length ≤ Config.posMax
  pc_le : s.pc ≤ s.cmds.length

/-- The mark stack of a unit whose logical position is `cur` (rules R26 to R28, R180): at most `MARK_DEPTH` entries, in
non-decreasing byte order, none beyond the position. -/
structure MarksInv (marks : List Mark) (depth cur : Nat) : Prop where
  depth_le : marks.length ≤ depth
  le_cur : ∀ e ∈ marks, e.mbyte ≤ cur
  sorted : marks.Pairwise fun a b => a.mbyte ≤ b.mbyte

/-- The third item of rule R27, for either downstream: `BR.pos + BR.fill <= max(BR.pos, L_DS)`. With `BR_SRC = CRA` every
command keeps it but an INIT of `CRA` that is accepted while `BR` holds bytes (CC8, log 15). -/
abbrev State.withinSource (s : State) : Prop := s.br.pos + s.br.fill ≤ max s.br.pos s.downstreamLength

/-- The `BR` invariants (rules R26, R27) that every command keeps. `raw_length` is the third item of rule R27, and
`raw_coherent` the coherence of the buffer with the stream (rule R362), for `BR_SRC = RAW`; with `BR_SRC = CRA` an INIT of
`CRA` under a live `BR` breaks both (CC8, log 15), so the third item stands there beside the invariant, as
`State.withinSource`. -/
structure BrInv (s : State) : Prop where
  buf_length : s.br.buf.length = s.cfg.cR
  idx_le_fill : s.br.idx ≤ s.br.fill
  fill_le_cap : s.br.fill ≤ s.cfg.cR
  reach : s.br.pos + s.br.fill ≤ Config.posMax
  marks : MarksInv s.br.marks s.cfg.markDepth s.br.cur
  raw_length : s.cfg.brSrc = .raw → s.br.pos + s.br.fill ≤ max s.br.pos s.rawIn.length
  raw_coherent : s.cfg.brSrc = .raw → sliceBytes s.br.buf 0 s.br.fill = s.rawIn.slice s.br.pos s.br.fill

/-- The `BW` invariants (rules R28, R29). -/
structure BwInv (s : State) : Prop where
  buf_length : s.bw.buf.length = s.cfg.cW
  idx_le_cap : s.bw.idx ≤ s.cfg.cW
  partial_room : s.bw.bit ≠ 0 → s.bw.idx < s.cfg.cW
  zero_after : ∀ j, s.bw.idx < j → byteAt s.bw.buf j = 0
  zero_bits : ∀ j, j + s.bw.bit.val < 8 → (byteAt s.bw.buf s.bw.idx).getLsbD j = false
  marks : MarksInv s.bw.marks s.cfg.markDepth s.bw.cur

/-- The content of the block cache (rule R45): while it is not dirty, it holds the decryption of a whole block. -/
def State.cacheOk (s : State) : Prop :=
  s.cra.dirty = false →
    (s.rawIn.slice (s.cra.start + 8 * s.cra.blk) 8).length = 8 ∧
      s.cra.pt = transform s.cra.sched (blockOfList (s.rawIn.slice (s.cra.start + 8 * s.cra.blk) 8))

/-- The `CRA` invariants (rules R43, R45, R260). -/
structure CraInv (s : State) : Prop where
  direction : s.cra.sched.dir = .dec
  start_le : s.cra.start ≤ Config.posMax
  length_le : s.cra.length ≤ s.rawIn.length - s.cra.start
  pos_le : s.cra.pos ≤ Config.posMax
  blk_le : s.cra.blk ≤ Config.posMax >>> 3
  cache : s.cacheOk

/-- The `CWA` invariants (rules R48, R49). -/
structure CwaInv (s : State) : Prop where
  direction : s.cwa.sched.dir = .enc
  wbuf_length : s.cwa.wbuf.length = s.cfg.cCW
  nbuf_le : s.cwa.nbuf ≤ s.cfg.cCW
  between_flushes : s.cwa.err = .noError → s.cwa.nbuf < s.cfg.cCW
  sealed_empty : s.cwa.err = .noError → s.cwa.sealed = true → s.cwa.nbuf = 0

/-- The codes a rule of unit `u` raises, and `NoError` (the table of rule R321). -/
def producible : UnitId → List Err
  | .br => [.noError, .badArguments, .arrayIndexOutOfBounds, .reachedEndOfFile, .failedToRead]
  | .bw => [.noError, .badArguments, .failedToWrite]
  | .cra => [.noError, .badArguments, .invalidData]
  | .cwa => [.noError, .failedToWrite, .streamIsClosed]

/-- Every latch holds a code that a rule of its unit raises (rule R321, U7). -/
abbrev ErrorsInv (s : State) : Prop := ∀ u, s.errOf u ∈ producible u

/-- The invariant of the machine. -/
structure Inv (s : State) : Prop where
  launch : LaunchInv s
  br : BrInv s
  bw : BwInv s
  cra : CraInv s
  cwa : CwaInv s
  errors : ErrorsInv s

/-! ## Frames -/

/-- What no command ever writes: the launch's inputs (rules R6, R76, R130). -/
structure SameLaunch (s t : State) : Prop where
  cfg : t.cfg = s.cfg
  rawIn : t.rawIn = s.rawIn
  cmds : t.cmds = s.cmds

/-- What no command of the read channel writes (rule R88). -/
structure SameWriteSide (s t : State) : Prop where
  bw : t.bw = s.bw
  cwa : t.cwa = s.cwa
  rawOut : t.rawOut = s.rawOut

/-- What no command of the write channel writes (rule R88). -/
structure SameReadSide (s t : State) : Prop where
  br : t.br = s.br
  cra : t.cra = s.cra
  rc : t.rc = s.rc

/-- Every byte of both raw streams reads as before. -/
structure SameMemory (s t : State) : Prop where
  input : ∀ a, t.rawIn.read? a = s.rawIn.read? a
  output : ∀ a, t.rawOut.read? a = s.rawOut.read? a

/-- `RAW_OUT` took exactly the bytes `l`, at the addresses that follow its last byte; every other byte of both raw streams
reads as before (rule R77). -/
structure Stored (s t : State) (l : List Byte) : Prop where
  input : ∀ a, t.rawIn.read? a = s.rawIn.read? a
  within : ∀ j, j < l.length → t.rawOut.read? (s.rawOut.length + j) = l[j]?
  outside : ∀ a, a < s.rawOut.length ∨ s.rawOut.length + l.length ≤ a → t.rawOut.read? a = s.rawOut.read? a

/-- No unit, stream or event changed: only the host's result registers and its index may have. -/
structure Untouched (s t : State) : Prop where
  launch : SameLaunch s t
  readSide : SameReadSide s t
  writeSide : SameWriteSide s t
  memory : SameMemory s t
  log : t.log = s.log

/-- Only the fields of unit `u` changed, beside the host's result registers and its index: no downstream call was made. -/
structure OnlyUnit (u : UnitId) (s t : State) : Prop where
  launch : SameLaunch s t
  br : u ≠ .br → t.br = s.br
  bw : u ≠ .bw → t.bw = s.bw
  cra : u ≠ .cra → t.cra = s.cra
  cwa : u ≠ .cwa → t.cwa = s.cwa
  rc : t.rc = s.rc
  rawOut : t.rawOut = s.rawOut
  memory : SameMemory s t
  log : t.log = s.log

/-- What a command of `BR` leaves alone beside its cursor, its buffer and its error (rules R26, R140, R142): the launch, the
write side, the mark stack, both raw streams, and the fields of `CRA` that reading it does not write. -/
structure SameForReader (s t : State) : Prop where
  launch : SameLaunch s t
  writeSide : SameWriteSide s t
  memory : SameMemory s t
  live : t.br.live = s.br.live
  marks : t.br.marks = s.br.marks
  craLive : t.cra.live = s.cra.live
  craOwn : t.cra.own = s.cra.own
  craSched : t.cra.sched = s.cra.sched
  craStart : t.cra.start = s.cra.start
  craLength : t.cra.length = s.cra.length
  craRaw : s.cfg.brSrc = .raw → t.cra = s.cra
  log : s.log <+: t.log

/-- What a command of `BW` leaves alone beside its cursor, its buffer, its error and what it sends (rules R28, R141, R142). -/
structure SameForWriter (s t : State) : Prop where
  launch : SameLaunch s t
  readSide : SameReadSide s t
  live : t.bw.live = s.bw.live
  marks : t.bw.marks = s.bw.marks
  cwaLive : t.cwa.live = s.cwa.live
  cwaOwn : t.cwa.own = s.cwa.own
  cwaSched : t.cwa.sched = s.cwa.sched
  cwaSealed : t.cwa.sealed = s.cwa.sealed
  cwaRaw : s.cfg.bwDst = .raw → t.cwa = s.cwa
  output : ∀ a, a < s.rawOut.length ∨ t.rawOut.length ≤ a → t.rawOut.read? a = s.rawOut.read? a
  log : s.log <+: t.log

/-- What a command of `CRA` leaves alone beside its position, its cache, its error and the cursor of `RAW_IN` (rule R43). -/
structure SameForCra (s t : State) : Prop where
  launch : SameLaunch s t
  writeSide : SameWriteSide s t
  memory : SameMemory s t
  br : t.br = s.br
  live : t.cra.live = s.cra.live
  own : t.cra.own = s.cra.own
  sched : t.cra.sched = s.cra.sched
  start : t.cra.start = s.cra.start
  length : t.cra.length = s.cra.length
  log : s.log <+: t.log

/-- What a command of `CWA` leaves alone beside its buffer, its flags, its error and what it sends (rule R48). -/
structure SameForCwa (s t : State) : Prop where
  launch : SameLaunch s t
  readSide : SameReadSide s t
  bw : t.bw = s.bw
  own : t.cwa.own = s.cwa.own
  sched : t.cwa.sched = s.cwa.sched
  log : s.log <+: t.log

/-- The host's registers after a command that completed (rules R22, R130, R131). -/
structure Completed (s t : State) (st : Status) (r : Word64) (data : List Byte) : Prop where
  pc : t.pc = s.pc + 1
  status : t.status = st
  result : t.r = r
  dataOut : t.dataOut = data

/-! ## Illegal records -/

/-- The reserved pairs of rule R105. -/
def reservedPair (unit : BitVec 2) (op : BitVec 6) : Prop :=
  op = 0 ∨ (unit = 0 ∧ 0x19 ≤ op.toNat) ∨ (unit = 1 ∧ 0x0F ≤ op.toNat) ∨ (unit = 2 ∧ 0x08 ≤ op.toNat) ∨
    (unit = 3 ∧ 0x07 ≤ op.toNat)

/-- The legal bit counts of a pair (rule R106 (c)): `1..32` for the four `BR` bit commands, `0..32` for BW.WRITE_BITS, and
exactly 0 for every other command. -/
def legalN (unit : BitVec 2) (op : BitVec 6) (n : Nat) : Prop :=
  if unit = 0 ∧ 4 ≤ op.toNat ∧ op.toNat ≤ 7 then 1 ≤ n ∧ n ≤ 32
  else if unit = 1 ∧ op = 4 then n ≤ 32
  else n = 0

/-- The legal modes of a pair (rule R106 (d)). -/
def legalM (unit : BitVec 2) (op : BitVec 6) (m : Nat) : Prop :=
  if unit = 2 ∧ op = 5 then m ≤ 2
  else if (unit = 2 ∨ unit = 3) ∧ op = 1 then m ≤ 1
  else m = 0

/-- The three commands that carry a payload (rule R106 (e)). -/
def payloadPair (unit : BitVec 2) (op : BitVec 6) : Prop :=
  (unit = 1 ∧ (op = 8 ∨ op = 9)) ∨ (unit = 3 ∧ op = 4)

/-- A record is illegal when one of the items (a) to (f) of rule R106 holds. -/
def IllegalRecord (c : Command) : Prop :=
  reservedPair c.unitField c.opField ∨ c.rsvField ≠ 0 ∨ ¬legalN c.unitField c.opField c.nField.toNat ∨
    ¬legalM c.unitField c.opField c.mField.toNat ∨
    (payloadPair c.unitField c.opField ∧ c.p.length ≠ c.count.toNat) ∨
    (c.unitField = 2 ∧ c.opField = 1 ∧ Config.posMax < c.c.toNat)

/-! ## The terms of the statements about `BR` -/

/-- `v - 2^n` when the top bit of the `n`-bit value `v` is set, as a 32-bit pattern; else `v` (rule R168). -/
def signedPattern (n v : Nat) : Nat := if v < 2 ^ (n - 1) then v else 2 ^ 32 + v - 2 ^ n

/-- The four bit commands of `BR` (rules R167 to R170): the bit count, whether the cursor moves, and the result as a
function of the field's value. -/
def bitRead : Instr → Option (BitVec 6 × Bool × (Nat → Nat))
  | .brReadUbits n => some (n, true, id)
  | .brReadSbits n => some (n, true, signedPattern n.toNat)
  | .brScanUbits n => some (n, false, id)
  | .brScanSbits n => some (n, false, signedPattern n.toNat)
  | _ => none

/-- The six integer reads of `BR` (rules R171 to R176): the number of bytes, and the result as a function of their
little-endian value. -/
def integerRead : Instr → Option (Nat × (Nat → Nat))
  | .brReadU8 => some (1, id)
  | .brReadS8 => some (1, signedPattern 8)
  | .brReadU16 => some (2, id)
  | .brReadS16 => some (2, signedPattern 16)
  | .brReadU32 => some (4, id)
  | .brReadS32 => some (4, id)
  | _ => none

/-- The bytes a NUL-terminated read consumes: the string, and the NUL when there is one (rule R187). -/
def strLength (l : List Byte) : Nat := (l.takeWhile (· ≠ 0)).length + (if 0 ∈ l then 1 else 0)

/-- `BR` has read on by `k` bytes, its bit offset now `bit`: what follows is to come, and its error is as before. -/
structure ReaderMoved (s t : State) (k : Nat) (bit : Fin 8) : Prop where
  cur : t.br.cur = s.br.cur + k
  bit : t.br.bit = bit
  unread : ∀ n, t.unread n = (s.unread (k + n)).drop k
  err : t.br.err = s.br.err

/-- A read that found too few bytes: `code` is raised, or `FailedToRead` when the downstream refused the seek (rule R323
(a)); the cursor and the bytes to come are as before. -/
structure ReaderFailed (s t : State) (code : Err) : Prop where
  cur : t.br.cur = s.br.cur
  bit : t.br.bit = s.br.bit
  unread : ∀ n, t.unread n = s.unread n
  err : t.br.err = if s.sourceSeeks then code else .failedToRead

/-- A position inside the buffer of `BR` (rule R165). -/
abbrev State.buffered (s : State) (tb : Nat) : Prop := s.br.pos ≤ tb ∧ tb ≤ s.br.pos + s.br.fill

/-- `BR` stands at byte `tb` and bit offset `tbit` (rule R165): inside the buffer no downstream call was made; outside it the
buffer was discarded, and what is to come is what the downstream holds there. -/
structure ReaderAt (s t : State) (tb : Nat) (tbit : Fin 8) : Prop where
  cur : t.br.cur = tb
  bit : t.br.bit = tbit
  err : t.br.err = if s.buffered tb ∨ s.sourceSeeks then .noError else .failedToRead
  unread : ∀ n, t.unread n = if s.buffered tb then takeBytes s.brByte tb n else takeBytes s.srcByte tb n
  quiet : s.buffered tb → OnlyUnit .br s t ∧ t.br.buf = s.br.buf ∧ t.br.pos = s.br.pos ∧ t.br.fill = s.br.fill

/-- A reposition to `tb` and `tbit` (rule R165), or the refusal of a target beyond `POS_MAX`. -/
def Repositioned (s t : State) (tb : Nat) (tbit : Fin 8) : Prop :=
  if Config.posMax < tb then OnlyUnit .br s t ∧ t.br = { s.br with err := .badArguments } else ReaderAt s t tb tbit

/-! ## The terms of the statements about `BW` -/

/-- The three integer writes of `BW` (rules R222 to R224): the bytes they store, the least significant first. -/
def integerWrite : Instr → Option (List Byte)
  | .bwWriteByte v => some [v]
  | .bwWriteShort v => some [v.extractLsb' 0 8, v.extractLsb' 8 8]
  | .bwWriteInt v => some [v.extractLsb' 0 8, v.extractLsb' 8 8, v.extractLsb' 16 8, v.extractLsb' 24 8]
  | _ => none

/-- The bytes a byte-aligned command of `BW` adds to the stream of an unbuffered writer (rule R234); none for a command that
writes no whole byte. -/
def streamBytes : Instr → Option (List Byte)
  | .bwWriteByte v => some [v]
  | .bwWriteShort v => some [v.extractLsb' 0 8, v.extractLsb' 8 8]
  | .bwWriteInt v => some [v.extractLsb' 0 8, v.extractLsb' 8 8, v.extractLsb' 16 8, v.extractLsb' 24 8]
  | .bwWriteBytes p => some p
  | .bwWriteString p => some (p ++ [0])
  | .bwAlign => some []
  | .bwFlush => some []
  | _ => none

/-- The plaintext a command gives to `CWA` (rules R291, R292); none for another command. -/
def plaintextOf : Instr → Option (List Byte)
  | .cwaWrite p => some p
  | .cwaFlush => some []
  | _ => none

/-- A write whose triggered flush failed, or a flush that failed (rules R220, R321): `FailedToWrite`, the cursor and the
output as before. -/
structure WriterFailed (s t : State) : Prop where
  err : t.bw.err = .failedToWrite
  cur : t.bw.cur = s.bw.cur
  bit : t.bw.bit = s.bw.bit
  bits : t.bw.bits = s.bw.bits
  rawOut : t.rawOut = s.rawOut

/-- The bits of the partial byte that a flush carries (rule R220). -/
def Bw.carried (u : Bw) : List Bool := u.bits.drop (8 * u.idx)

/-! ## Commands in a row -/

/-- The commands of a list, one after another, from `s` on: the state after the last, or the first stop. -/
def execAll : List Instr → State → Host.Outcome State Fault Refusal
  | [], s => .next s
  | i :: rest, s =>
    match exec i s with
    | .next t => execAll rest t
    | .fault f => .fault f
    | .refused r => .refused r

/-- The results in `R` of the commands of a list, in order, as far as they complete. -/
def resultsOf : List Instr → State → List Word64
  | [], _ => []
  | i :: rest, s =>
    match exec i s with
    | .next t => t.r :: resultsOf rest t
    | .fault _ => []
    | .refused _ => []

/-! ## The observation of a launch (rule R145) -/

/-- The results one command leaves: `(STATUS, R, DATA_OUT)`. -/
abbrev Results := Status × Word64 × List Byte

/-- The results of the steps from `s` on, in order, for at most `k` steps. -/
def observeResults : Nat → State → List Results
  | 0, _ => []
  | k + 1, s =>
    match step s with
    | .next t => (t.status, t.r, t.dataOut) :: observeResults k t
    | .fault _ => []
    | .refused _ => []

/-- The observation of a launch: the results of every command, the final `live` and `err` of every unit, the bytes of
`RAW_OUT`, and the event log. -/
structure Observation where
  results : List Results
  /-- `(live, err)` of `BR`, `BW`, `CRA`, `CWA` -/
  units : List (Bool × Err)
  output : List Byte
  log : List Event
deriving DecidableEq, Repr

/-- What a run from `s` that ended in `t` shows (rule R145); the end of a launch flushes, seals and releases nothing.
DESIGN CHOICE, unsafe (log 20): rule R145 shows the `err` of every unit, and rules R52 and R135 give that of a unit that is
not live no value; the model shows there what its latch holds, the reset value of log 5 or the one kept at RELEASE of
log 6. -/
def observation (s t : State) : Observation :=
  { results := observeResults (s.cmds.length - s.pc) s,
    units := [UnitId.br, .bw, .cra, .cwa].map fun u => (t.liveOf u, t.errOf u), output := t.rawOut.bytes, log := t.log }

end Sys2Proof.Machine
end

