-- ==== Sys2Proof/Certificates/Slice0/Obligations.lean ====
section
/-! DEFINITION. The statements for the provers. They speak of the bytes `BR` has not read yet (`State.unread`), of the bits
`BW` holds (`Bw.bits`) and of what a downstream took (`SinkTook`), so that no statement depends on the split between a buffer
and its downstream unless its rule does. -/

open Sys2Proof Sys2Proof.Machine

/-! ## Encoding and decoding -/

/-- Rules R101 to R104, R109: every well-formed command, with every operand value, decodes back from its encoding. -/
def Obligations.DecodeEncodeRoundTrip : Prop :=
  ∀ i : Instr, i.WellFormed → decode (encode i) = .ok i

/-- Rule R106: a record that decodes has the operands of a legal command. -/
def Obligations.DecodedCommandIsWellFormed : Prop :=
  ∀ (c : Command) (i : Instr), decode c = .ok i → i.WellFormed

/-- Rules R101, R102, R104: a legal word has no free bit. The word of a record that decodes is the word its command encodes
to. -/
def Obligations.LegalWordHasNoFreeBit : Prop :=
  ∀ (c : Command) (i : Instr), decode c = .ok i → c.w = (encode i).w

/-- Rule R106: exactly the records its items (a) to (f) name are illegal, and such a record changes nothing but the results
and the host's index. -/
def Obligations.IllegalRecordsAreRefused : Prop :=
  ∀ (s : State) (c : Command), s.fetch = some c →
    (IllegalRecord c → ∃ t, step s = .next t ∧ Completed s t .illegal 0 [] ∧ Untouched s t) ∧
    (¬IllegalRecord c → ∃ i, decode c = .ok i)

/-- Rule R107: the words of its examples, and one word of each unit, bit by bit. -/
def Obligations.ExampleWordsDecode : Prop :=
  decode ⟨0b00000100000100000000000000000000#32, 0, 0, 0, []⟩ = .ok (.brReadUbits 4) ∧
  decode ⟨0b01000100000100000000000000000000#32, 7, 0, 0, []⟩ = .ok (.bwWriteBits 4 7) ∧
  decode ⟨0b10000101000000010000000000000000#32, 0xFFFFFFFFFFFFFFF8, 0, 0, []⟩ =
    .ok (.craSeek .seekCur 0xFFFFFFFFFFFFFFF8) ∧
  decode ⟨0b10000001000000000000000000000000#32, 0x6867666564636261, 0xFFFFFFFFFFFFFFFF, 0, []⟩ =
    .ok (.craInit false 0x6867666564636261 0xFFFFFFFFFFFFFFFF 0) ∧
  decode ⟨0b11000110000000000000000000000000#32, 0, 0, 0, []⟩ = .ok .cwaSeal

/-! ## The command cycle -/

/-- Rules R130, R131: a step at a state whose next record decodes to `i` is `exec i` at that state, and nothing else. -/
def Obligations.StepRunsTheDecodedCommand : Prop :=
  ∀ (s : State) (c : Command) (i : Instr), s.fetch = some c → decode c = .ok i → step s = exec i s

/-- Rules R12, R24, R130, R145: below the end of the list a step always completes, advances the host's index by one and
writes no launch input; at the end there is no step (log 1). -/
def Obligations.StepAdvancesTheHostIndex : Prop :=
  ∀ s : State,
    (s.pc < s.cmds.length → ∃ t, step s = .next t ∧ t.pc = s.pc + 1 ∧ SameLaunch s t) ∧
    (s.cmds.length ≤ s.pc → step s = .fault .launchEnded)

/-- Rule R371: every launch of `K` commands ends after `K` steps, whatever the commands are. -/
def Obligations.LaunchEndsAfterItsCommands : Prop :=
  ∀ (c : Config) (input : Memory) (cmds : List Command),
    ∃ t, Host.Core.run core cmds.length (State.resetWith c input cmds) = .next t ∧ t.pc = cmds.length ∧
      step t = .fault .launchEnded

/-- Rule R131: INIT of a live unit, and any other command of a unit that is not live, is answered with LIFECYCLE and changes
nothing else. -/
def Obligations.LifecycleRefusalChangesNothing : Prop :=
  ∀ (i : Instr) (s : State), (i.cls = .init ↔ s.liveOf i.unit = true) →
    ∃ t, exec i s = .next t ∧ Completed s t .lifecycle 0 [] ∧ Untouched s t

/-- Rule R132: the short-circuit. -/
def Obligations.ErroredUnitShortCircuits : Prop :=
  ∀ (i : Instr) (s : State), i.cls = .ordinary → s.liveOf i.unit = true → s.errOf i.unit ≠ .noError →
    ∃ t, exec i s = .next t ∧ Completed s t .ok 0 [] ∧ Untouched s t

/-! ## Reset and invariants -/

/-- Rules R52, R350: after hardware reset no unit is live, the host stands at its first command, the cursor of `RAW_IN` is
0, and `RAW_OUT` and the event log are empty. -/
def Obligations.HardwareResetState : Prop :=
  ∀ (c : Config) (input : Memory) (cmds : List Command),
    (∀ u, (State.resetWith c input cmds).liveOf u = false) ∧ (State.resetWith c input cmds).pc = 0 ∧
    (State.resetWith c input cmds).rc = 0 ∧ (State.resetWith c input cmds).rawOut = [] ∧
    (State.resetWith c input cmds).log = [] ∧ (State.resetWith c input cmds).cfg = c ∧
    (State.resetWith c input cmds).rawIn = input ∧ (State.resetWith c input cmds).cmds = cmds ∧
    State.reset = State.resetWith resetConfig [] []

/-- The invariant and the third item of rule R27 hold after the hardware reset of every launch whose parameters rule R6
admits, and of `State.reset`. They rest on the model's own reset values of the unit fields (log 5). -/
def Obligations.ResetHasInvariant : Prop :=
  (∀ (c : Config) (input : Memory) (cmds : List Command), c.wf → input.wf → input.length ≤ Config.posMax →
    Inv (State.resetWith c input cmds) ∧ (State.resetWith c input cmds).withinSource) ∧
  Inv State.reset ∧ State.reset.withinSource

/-- Rules R27, R29, R43, R45, R49, R321: every step keeps the invariant, from every state that has it; and every command
keeps the third item of rule R27 for either downstream, but an INIT of `CRA` that is accepted while a `BR` over it holds
bytes (CC8, log 15). The model's choices: what `Inv` says of the fields of a unit that is not live rests on the values the
model keeps there (log 6; log 5 before the first INIT), since rules R52 and R135 give them none; and `Inv` bounds the input
by `POS_MAX` and leaves `BW.pos` without the bound of rule R28 (log 9). -/
def Obligations.StepKeepsInvariant : Prop :=
  (∀ s t : State, Inv s → step s = .next t → Inv t) ∧
  (∀ (i : Instr) (s t : State), Inv s → s.withinSource → exec i s = .next t →
    (s.cfg.brSrc = .cra → i.unit = .cra → i.cls = .init → s.cra.live = true ∨ s.br.fill = 0) → t.withinSource)

/-! ## Errors -/

/-- Rules R11, R25, R134, R320: an error once latched stays, whatever command runs, until INIT of its unit, which only a
unit that is not live accepts. For RELEASE, and while a unit is not live, that its error stays is the model's choice (log 6):
rule R135 gives it no value there. -/
def Obligations.StickyErrorIsNeverCleared : Prop :=
  ∀ (i : Instr) (s t : State) (u : UnitId), exec i s = .next t → s.errOf u ≠ .noError →
    (i.cls = .init ∧ i.unit = u ∧ s.liveOf u = false) ∨ t.errOf u = s.errOf u

/-- Rule R321: the latch of a unit only ever holds `NoError` or a code that a rule of that unit raises; the codes 4 and 5 are
never produced. What the latch of a unit that is not live holds is the model's choice (logs 5 and 6): rules R52 and R135 give
it no value. -/
def Obligations.OnlyListedErrorsAreRaised : Prop :=
  ∀ (i : Instr) (s t : State), exec i s = .next t → ErrorsInv s → ErrorsInv t

/-! ## The two channels -/

/-- Rule R88: no command of `BR` or `CRA` writes anything of the write channel. -/
def Obligations.ReadChannelKeepsWriteSide : Prop :=
  ∀ (i : Instr) (s t : State), i.unit = .br ∨ i.unit = .cra → exec i s = .next t →
    SameWriteSide s t ∧ SameLaunch s t ∧ SameMemory s t

/-- Rule R88: no command of `BW` or `CWA` writes anything of the read channel. -/
def Obligations.WriteChannelKeepsReadSide : Prop :=
  ∀ (i : Instr) (s t : State), i.unit = .bw ∨ i.unit = .cwa → exec i s = .next t → SameReadSide s t ∧ SameLaunch s t

/-- Rule R88: two states that agree on the parameters, `RAW_IN` and the read channel give every command of the read channel
the same results and the same read channel, whatever their write channels hold. -/
def Obligations.ReadChannelDoesNotSeeWriteSide : Prop :=
  ∀ (i : Instr) (s t s' t' : State), i.unit = .br ∨ i.unit = .cra → s'.cfg = s.cfg → s'.rawIn = s.rawIn →
    s'.br = s.br → s'.cra = s.cra → s'.rc = s.rc → exec i s = .next t → exec i s' = .next t' →
    t'.br = t.br ∧ t'.cra = t.cra ∧ t'.rc = t.rc ∧ t'.r = t.r ∧ t'.status = t.status ∧ t'.dataOut = t.dataOut

/-- Rule R88: two states that agree on the parameters and the write channel give every command of the write channel the same
results, the same write channel and the same bytes of `RAW_OUT`, whatever `RAW_IN` and their read channels hold. -/
def Obligations.WriteChannelDoesNotSeeReadSide : Prop :=
  ∀ (i : Instr) (s t s' t' : State), i.unit = .bw ∨ i.unit = .cwa → s'.cfg = s.cfg → s'.bw = s.bw → s'.cwa = s.cwa →
    s'.rawOut = s.rawOut → exec i s = .next t → exec i s' = .next t' →
    t'.bw = t.bw ∧ t'.cwa = t.cwa ∧ t'.rawOut = t.rawOut ∧ t'.r = t.r ∧ t'.status = t.status ∧ t'.dataOut = t.dataOut

/-- Rules R70, R77, R80: no command takes a byte out of `RAW_OUT` or an event out of the log; both only grow at their ends,
and every byte that was in `RAW_OUT` reads as before. -/
def Obligations.OutputAndLogOnlyGrow : Prop :=
  ∀ (i : Instr) (s t : State), exec i s = .next t → s.rawOut.wf →
    (∃ l, t.rawOut = s.rawOut.append l ∧ Stored s t l) ∧ s.log <+: t.log

/-- Rule R237: `Cur(BW)` never decreases, but by INIT. That it stays at RELEASE, and while `BW` is not live, is the model's
choice (log 6): rule R135 gives `BW.pos` and `BW.idx` no value there. -/
def Obligations.WriterPositionIsMonotone : Prop :=
  ∀ (i : Instr) (s t : State), i ≠ .bwInit → exec i s = .next t → s.bw.cur ≤ t.bw.cur

/-! ## GET_ERROR, INIT and RELEASE -/

/-- Rules R136 to R139: GET_ERROR gives the code of its unit, whether or not it is an error. -/
def Obligations.GetErrorReportsTheLatch : Prop :=
  (∀ (s : State) (i : Instr), i.cls = .getError →
    (s.liveOf i.unit = true →
      ∃ t, exec i s = .next t ∧ Completed s t .ok ((s.errOf i.unit).code.setWidth 64) [] ∧ Untouched s t) ∧
    (s.liveOf i.unit = false → ∃ t, exec i s = .next t ∧ Completed s t .lifecycle 0 [] ∧ Untouched s t)) ∧
  (encode .brGetError).w = 0x03000000 ∧ (encode .bwGetError).w = 0x43000000 ∧ (encode .craGetError).w = 0x83000000 ∧
  (encode .cwaGetError).w = 0xC3000000

/-- Rules R189, R235: INIT of `BR` and of `BW` gives every field its value, and is refused on a live unit. -/
def Obligations.BitEnginesInit : Prop :=
  ∀ s : State,
    (s.br.live = false → ∃ t, exec .brInit s = .next t ∧ Completed s t .ok 0 [] ∧ OnlyUnit .br s t ∧ t.br.live = true ∧
      t.br.err = .noError ∧ t.br.pos = 0 ∧ t.br.idx = 0 ∧ t.br.bit = 0 ∧ t.br.fill = 0 ∧
      t.br.buf = List.replicate s.cfg.cR 0 ∧ t.br.marks = []) ∧
    (s.bw.live = false → ∃ t, exec .bwInit s = .next t ∧ Completed s t .ok 0 [] ∧ OnlyUnit .bw s t ∧ t.bw.live = true ∧
      t.bw.err = .noError ∧ t.bw.pos = 0 ∧ t.bw.idx = 0 ∧ t.bw.bit = 0 ∧ t.bw.buf = List.replicate s.cfg.cW 0 ∧
      t.bw.marks = []) ∧
    (encode .brInit).w = 0x01000000 ∧ (encode .bwInit).w = 0x41000000 ∧
    (s.br.live = true → ∃ t, exec .brInit s = .next t ∧ Completed s t .lifecycle 0 [] ∧ Untouched s t) ∧
    (s.bw.live = true → ∃ t, exec .bwInit s = .next t ∧ Completed s t .lifecycle 0 [] ∧ Untouched s t)

/-- Rules R103, R260, R294: INIT of the adapters. Key byte `i` is `A[8i+7:8i]`. -/
def Obligations.CipherAdaptersInit : Prop :=
  ∀ (s : State) (own : Bool) (key req start : Word64),
    (s.cra.live = false → ∃ t, exec (.craInit own key req start) s = .next t ∧ Completed s t .ok 0 [] ∧
      OnlyUnit .cra s t ∧ t.cra.live = true ∧ t.cra.err = .noError ∧ t.cra.own = own ∧ t.cra.sched.dir = .dec ∧
      (∀ j < 8, t.cra.sched.key.val[j]? = some (key.extractLsb' (8 * j) 8)) ∧ t.cra.start = start.toNat ∧
      t.cra.length = min req.toNat (s.rawIn.length - start.toNat) ∧ t.cra.pos = 0 ∧ t.cra.blk = 0 ∧ t.cra.dirty = true ∧
      t.cra.pt.val = List.replicate 8 0) ∧
    (s.cwa.live = false → ∃ t, exec (.cwaInit own key) s = .next t ∧ Completed s t .ok 0 [] ∧ OnlyUnit .cwa s t ∧
      t.cwa.live = true ∧ t.cwa.err = .noError ∧ t.cwa.own = own ∧ t.cwa.sched.dir = .enc ∧
      (∀ j < 8, t.cwa.sched.key.val[j]? = some (key.extractLsb' (8 * j) 8)) ∧ t.cwa.sealed = false ∧
      t.cwa.wbuf = List.replicate s.cfg.cCW 0 ∧ t.cwa.nbuf = 0) ∧
    (s.cra.live = true → ∃ t, exec (.craInit own key req start) s = .next t ∧ Completed s t .lifecycle 0 [] ∧
      Untouched s t) ∧
    (s.cwa.live = true → ∃ t, exec (.cwaInit own key) s = .next t ∧ Completed s t .lifecycle 0 [] ∧ Untouched s t)

/-- Rules R190, R236: RELEASE of `BR` and of `BW` ends the unit whatever its error, and makes no downstream call, so that
`BW` discards what it holds. -/
def Obligations.BitEnginesRelease : Prop :=
  (encode .brRelease).w = 0x02000000 ∧ (encode .bwRelease).w = 0x42000000 ∧ ∀ s : State,
    (s.br.live = true → ∃ t, exec .brRelease s = .next t ∧ Completed s t .ok 0 [] ∧ OnlyUnit .br s t ∧
      t.br.live = false) ∧
    (s.bw.live = true → ∃ t, exec .bwRelease s = .next t ∧ Completed s t .ok 0 [] ∧ OnlyUnit .bw s t ∧
      t.bw.live = false)

/-- Rule R266: RELEASE of `CRA` records the release of `RAW_IN` exactly when it owns it. -/
def Obligations.CraReleaseRecordsOwnership : Prop :=
  (encode .craRelease).w = 0x82000000 ∧ ∀ s : State, s.cra.live = true →
    ∃ t, exec .craRelease s = .next t ∧ Completed s t .ok 0 [] ∧ SameLaunch s t ∧ SameWriteSide s t ∧ SameMemory s t ∧
      t.br = s.br ∧ t.rc = s.rc ∧ t.cra.live = false ∧
      t.log = s.log ++ (if s.cra.own = true then [.release .rawIn] else [])

/-- Rule R295: RELEASE of `CWA` first seals it when it has no error and is not sealed, which sends the zero-padded
encryption of the unsent plaintext; an errored one discards it. That `own` and `sched` of the released unit stay
(`SameForCwa`) is the model's choice (log 6): rule R135 gives them no value. -/
def Obligations.CwaReleaseSealsFirst : Prop :=
  ∀ s : State, Inv s → s.cwa.live = true →
    ∃ t, exec .cwaRelease s = .next t ∧ Completed s t .ok 0 [] ∧ SameForCwa s t ∧ t.cwa.live = false ∧
      let sent := if s.cwa.err = .noError ∧ s.cwa.sealed = false then ecb s.cwa.sched s.cwa.unsent else []
      t.rawOut = s.rawOut.append sent ∧ Stored s t sent ∧
      t.log = s.log ++
        (if s.cwa.err = .noError ∧ s.cwa.sealed = false then
          (if sent = [] then [] else [.write .rawOut sent]) ++ [.flush .rawOut] else []) ++
        (if s.cwa.own = true then [.release .rawOut] else [])

/-! ## `BR`: bit fields and integers -/

/-- Rules R163, R164, R167 to R170: READ_UBITS, READ_SBITS, SCAN_UBITS and SCAN_SBITS. With the bytes the field touches to
come, `R` is the field, zero- or sign-extended, and a read moves the cursor by `n` bits; else `ArrayIndexOutOfBounds` (or
`FailedToRead`) is raised, `R` is 0 and the cursor does not move. -/
def Obligations.BitReadsAndScans : Prop :=
  ∀ (s : State) (i : Instr) (n : BitVec 6) (moves : Bool) (f : Nat → Nat), bitRead i = some (n, moves, f) → Inv s →
    s.ready .br → legalReadCount n →
    ∃ t, exec i s = .next t ∧ SameForReader s t ∧
      if (s.unread (bytesTouched s.br.bit n.toNat)).length = bytesTouched s.br.bit n.toNat then
        Completed s t .ok
          (BitVec.ofNat 64 (f (fieldBits (s.unread (bytesTouched s.br.bit n.toNat)) s.br.bit n.toNat))) [] ∧
        (if moves then
          ReaderMoved s t ((s.br.bit.val + n.toNat) / 8) (Fin.ofNat 8 ((s.br.bit.val + n.toNat) % 8))
        else ReaderMoved s t 0 s.br.bit)
      else Completed s t .ok 0 [] ∧ ReaderFailed s t .arrayIndexOutOfBounds

/-- Rules R71, R163: the value of a field has its most significant bit at the cursor and the bits of lower weight after it,
across byte boundaries: it is the number whose `n` bits, most significant first, are the bits of the stream at the cursor. -/
def Obligations.FieldIsMostSignificantBitFirst : Prop :=
  ∀ (l : List Byte) (bit n : Nat), bit + n ≤ 8 * l.length →
    fieldBits l bit n < 2 ^ n ∧ ∀ j < n, (fieldBits l bit n).testBit (n - 1 - j) = ((bitsOf l)[bit + j]?).getD false

/-- Rules R72, R171 to R176, R191: the six integer reads. With their bytes to come, `R` is the little-endian value, zero- or
sign-extended, and the cursor moves past the bytes, its bit offset kept; else `ArrayIndexOutOfBounds` (or `FailedToRead`) is
raised, `R` is 0 and nothing is consumed. -/
def Obligations.IntegerReadsAreLittleEndian : Prop :=
  ∀ (s : State) (i : Instr) (k : Nat) (f : Nat → Nat), integerRead i = some (k, f) → Inv s → s.ready .br →
    ∃ t, exec i s = .next t ∧ SameForReader s t ∧
      if (s.unread k).length = k then
        Completed s t .ok (BitVec.ofNat 64 (f (leNat (s.unread k)))) [] ∧ ReaderMoved s t k s.br.bit
      else Completed s t .ok 0 [] ∧ ReaderFailed s t .arrayIndexOutOfBounds

/-! ## `BR`: the cursor -/

/-- Rules R165, R178, R179: SKIP and SKIP_BITS. -/
def Obligations.SkipsMoveTheReader : Prop :=
  ∀ (s : State) (cnt : BitVec 32), Inv s → s.ready .br →
    (∃ t, exec (.brSkip cnt) s = .next t ∧ Completed s t .ok 0 [] ∧ SameForReader s t ∧
      Repositioned s t (s.br.cur + cnt.toNat) s.br.bit) ∧
    (∃ t, exec (.brSkipBits cnt) s = .next t ∧ Completed s t .ok 0 [] ∧ SameForReader s t ∧
      Repositioned s t ((8 * s.br.cur + s.br.bit.val + cnt.toNat) / 8)
        (Fin.ofNat 8 ((8 * s.br.cur + s.br.bit.val + cnt.toNat) % 8)))

/-- Rules R165, R177: ALIGN of `BR` moves to the next byte boundary, and does nothing at one. -/
def Obligations.ReaderAlignMovesToTheNextByte : Prop :=
  ∀ s : State, Inv s → s.ready .br →
    ∃ t, exec .brAlign s = .next t ∧ Completed s t .ok 0 [] ∧ SameForReader s t ∧
      if s.br.bit = 0 then Untouched s t else Repositioned s t (s.br.cur + 1) 0

/-- Rules R165, R182: RESET goes back to the top mark, or to the start of the stream when there is none, and pops nothing; it
never raises `BadArguments`. -/
def Obligations.ResetReturnsToTheTopMark : Prop :=
  ∀ s : State, Inv s → s.ready .br →
    ∃ t, exec .brReset s = .next t ∧ Completed s t .ok 0 [] ∧ SameForReader s t ∧
      (s.br.marks = [] → ReaderAt s t 0 0) ∧
      (∀ rest e, s.br.marks = rest ++ [e] → ReaderAt s t e.mbyte e.mbit)

/-- Rules R180, R181: MARK pushes the cursor and UNMARK pops the top entry; a full or an empty stack raises
`BadArguments`. -/
def Obligations.ReaderMarkAndUnmark : Prop :=
  (encode .brMark).w = 0x11000000 ∧ (encode .brUnmark).w = 0x12000000 ∧ ∀ s : State, s.ready .br →
    (∃ t, exec .brMark s = .next t ∧ Completed s t .ok 0 [] ∧ OnlyUnit .br s t ∧
      t.br = if s.br.marks.length = s.cfg.markDepth then { s.br with err := .badArguments }
        else { s.br with marks := s.br.marks ++ [⟨s.br.cur, s.br.bit⟩] }) ∧
    (∃ t, exec .brUnmark s = .next t ∧ Completed s t .ok 0 [] ∧ OnlyUnit .br s t ∧
      (s.br.marks = [] → t.br = { s.br with err := .badArguments }) ∧
      (∀ rest e, s.br.marks = rest ++ [e] → t.br = { s.br with marks := rest }))

/-- Rules R183, R184: CHECK and BYTES_READ count whole bytes from the top mark, in two's complement; under the invariant the
count of BYTES_READ is never negative; an empty stack raises `BadArguments` and gives 0. -/
def Obligations.ReaderCheckAndBytesRead : Prop :=
  ∀ (s : State) (expected : Word64), s.ready .br →
    (encode (.brCheck expected)).w = 0x14000000 ∧ (encode (.brCheck expected)).a = expected ∧
    (encode .brBytesRead).w = 0x15000000 ∧
    (s.br.marks = [] →
      (∃ t, exec (.brCheck expected) s = .next t ∧ Completed s t .ok 0 [] ∧ OnlyUnit .br s t ∧
        t.br = { s.br with err := .badArguments }) ∧
      (∃ t, exec .brBytesRead s = .next t ∧ Completed s t .ok 0 [] ∧ OnlyUnit .br s t ∧
        t.br = { s.br with err := .badArguments })) ∧
    (∀ rest e, s.br.marks = rest ++ [e] →
      (∃ t, exec (.brCheck expected) s = .next t ∧
        Completed s t .ok (BitVec.ofInt 64 (((s.br.cur : Int) - e.mbyte) - expected.toInt)) [] ∧ Untouched s t) ∧
      (∃ t, exec .brBytesRead s = .next t ∧ Completed s t .ok (BitVec.ofInt 64 ((s.br.cur : Int) - e.mbyte)) [] ∧
        Untouched s t) ∧
      (Inv s → 0 ≤ (s.br.cur : Int) - e.mbyte))

/-! ## `BR`: byte blocks and strings -/

/-- Rules R166, R185: READ_BYTES delivers the next bytes, as many as there are, and raises `ReachedEndOfFile` when they are
fewer than asked (`FailedToRead` when the downstream refused the seek). -/
def Obligations.ReadBytesDeliversTheStream : Prop :=
  ∀ (s : State) (cnt : BitVec 32), Inv s → s.ready .br →
    ∃ t, exec (.brReadBytes cnt) s = .next t ∧ SameForReader s t ∧
      Completed s t .ok (BitVec.ofNat 64 (s.unread cnt.toNat).length) (s.unread cnt.toNat) ∧
      t.br.cur = s.br.cur + (s.unread cnt.toNat).length ∧ t.br.bit = s.br.bit ∧
      (∀ n, t.unread n = (s.unread ((s.unread cnt.toNat).length + n)).drop (s.unread cnt.toNat).length) ∧
      t.br.err = if (s.unread cnt.toNat).length = cnt.toNat then .noError
        else if s.sourceSeeks then .reachedEndOfFile else .failedToRead

/-- Rule R186: READ_STR_FIXED reads as READ_BYTES does, and drops a final NUL of what it delivers, not of what it consumes. -/
def Obligations.FixedStringDropsFinalNul : Prop :=
  ∀ (s : State) (cnt : BitVec 32), Inv s → s.ready .br →
    ∃ t data, exec (.brReadStrFixed cnt) s = .next t ∧ SameForReader s t ∧
      Completed s t .ok (BitVec.ofNat 64 data.length) data ∧
      (∀ front, s.unread cnt.toNat = front ++ [0] → data = front) ∧
      ((s.unread cnt.toNat).getLast? ≠ some 0 → data = s.unread cnt.toNat) ∧
      t.br.cur = s.br.cur + (s.unread cnt.toNat).length ∧ t.br.bit = s.br.bit ∧
      (∀ n, t.unread n = (s.unread ((s.unread cnt.toNat).length + n)).drop (s.unread cnt.toNat).length) ∧
      t.br.err = if (s.unread cnt.toNat).length = cnt.toNat then .noError
        else if s.sourceSeeks then .reachedEndOfFile else .failedToRead

/-- Rule R187: READ_STR_NUL delivers the bytes before the first NUL and consumes the NUL too; a stream that ends without one
gives all its bytes and no error. `N` is any number of bytes greater than what the stream still holds. -/
def Obligations.NulStringStopsAtFirstNul : Prop :=
  ∀ (s : State) (N : Nat), Inv s → s.ready .br → (s.unread N).length < N →
    ∃ t data, exec .brReadStrNul s = .next t ∧ SameForReader s t ∧
      data = (s.unread N).takeWhile (· ≠ 0) ∧ Completed s t .ok (BitVec.ofNat 64 data.length) data ∧
      t.br.cur = s.br.cur + strLength (s.unread N) ∧ t.br.bit = s.br.bit ∧
      (∀ n, t.unread n = (s.unread (strLength (s.unread N) + n)).drop (strLength (s.unread N))) ∧
      t.br.err = if 0 ∈ s.unread N ∨ s.sourceSeeks then .noError else .failedToRead

/-! ## `BR`: laws -/

/-- Rule R188 (a): SCAN_UBITS `n` followed by READ_UBITS `n` returns the same `R` twice, on success and on failure. -/
def Obligations.ScanThenReadAgree : Prop :=
  ∀ (s : State) (n : BitVec 6), Inv s → s.ready .br → legalReadCount n →
    ∃ t u, exec (.brScanUbits n) s = .next t ∧ exec (.brReadUbits n) t = .next u ∧ u.r = t.r ∧ u.status = t.status

/-- Rule R188 (d): MARK then RESET returns the cursor to where it was, with the same bytes to come. -/
def Obligations.MarkThenResetReturns : Prop :=
  ∀ s : State, Inv s → s.ready .br → s.br.marks.length < s.cfg.markDepth →
    ∃ t u, exec .brMark s = .next t ∧ exec .brReset t = .next u ∧ u.br.cur = s.br.cur ∧ u.br.bit = s.br.bit ∧
      u.br.err = .noError ∧ ∀ n, u.unread n = s.unread n

/-- Rule R188 (c): MARK, then commands that move the cursor forward by exactly `K` bytes and leave that mark on top, then
CHECK `K` gives 0. -/
def Obligations.MarkThenCheckCountsBytes : Prop :=
  ∀ (s t u : State) (cmds : List Instr) (K : Nat), s.ready .br → s.br.marks.length < s.cfg.markDepth →
    exec .brMark s = .next t → execAll cmds t = .next u → u.ready .br → u.br.marks = t.br.marks →
    u.br.cur = s.br.cur + K → K < 2 ^ 63 →
    ∃ v, exec (.brCheck (BitVec.ofNat 64 K)) u = .next v ∧ v.r = 0 ∧ v.br.err = .noError

/-- Rule R188 (b), for `BR_SRC = RAW`: two readers of the same `RAW_IN` at the same cursor with the same marks and error,
whatever their capacities and buffers, answer every command alike and stay alike. With `BR_SRC = CRA` a re-INIT of `CRA`
breaks it (CC8, log 15). -/
def Obligations.ReaderBufferIsInvisible : Prop :=
  ∀ (i : Instr) (s t s' t' : State), i.unit = .br → Inv s → Inv s' → s.cfg.brSrc = .raw → s'.cfg.brSrc = .raw →
    s'.cfg.markDepth = s.cfg.markDepth → s'.rawIn = s.rawIn → s'.br.live = s.br.live → s'.br.err = s.br.err →
    s'.br.cur = s.br.cur → s'.br.bit = s.br.bit → s'.br.marks = s.br.marks → exec i s = .next t → exec i s' = .next t' →
    t'.r = t.r ∧ t'.status = t.status ∧ t'.dataOut = t.dataOut ∧ t'.br.live = t.br.live ∧
    (t.br.live = true → t'.br.err = t.br.err ∧ t'.br.cur = t.br.cur ∧ t'.br.bit = t.br.bit ∧ t'.br.marks = t.br.marks)

/-! ## `BW` -/

/-- Rules R71, R220, R221: WRITE_BITS puts the low `n` bits of the value behind the bits written before, the most significant
first; without room it first sends the pending bytes and carries the partial one; a downstream that refuses them makes it
fail. -/
def Obligations.WriteBitsPacksTheField : Prop :=
  ∀ (s : State) (n : BitVec 6) (v : Word32), Inv s → s.ready .bw → legalWriteCount n →
    ∃ t, exec (.bwWriteBits n v) s = .next t ∧ Completed s t .ok 0 [] ∧ SameForWriter s t ∧
      (n = 0 → Untouched s t) ∧
      (n ≠ 0 → s.bw.idx + bytesTouched s.bw.bit n.toNat ≤ s.cfg.cW →
        OnlyUnit .bw s t ∧ t.bw.err = .noError ∧ t.bw.pos = s.bw.pos ∧ t.bw.bits = s.bw.bits ++ fieldOf n.toNat v ∧
        8 * t.bw.cur + t.bw.bit.val = 8 * s.bw.cur + s.bw.bit.val + n.toNat) ∧
      (n ≠ 0 → s.cfg.cW < s.bw.idx + bytesTouched s.bw.bit n.toNat → s.sinkAccepts →
        SinkTook s t s.bw.pending ∧ t.bw.err = .noError ∧ t.bw.pos = s.bw.cur ∧
        t.bw.bits = s.bw.carried ++ fieldOf n.toNat v ∧
        8 * t.bw.cur + t.bw.bit.val = 8 * s.bw.cur + s.bw.bit.val + n.toNat) ∧
      (n ≠ 0 → s.cfg.cW < s.bw.idx + bytesTouched s.bw.bit n.toNat → ¬s.sinkAccepts → WriterFailed s t)

/-- Rules R72, R220, R222 to R224, R238: the three integer writes store their bytes at the byte of the cursor, the least
significant first, and keep the bit offset; they flush and fail as WRITE_BITS does. -/
def Obligations.IntegerWritesAreLittleEndian : Prop :=
  ∀ (s : State) (i : Instr) (l : List Byte), integerWrite i = some l → Inv s → s.ready .bw →
    ∃ t, exec i s = .next t ∧ Completed s t .ok 0 [] ∧ SameForWriter s t ∧
      (s.bw.idx + (l.length + partialByte s.bw.bit) ≤ s.cfg.cW →
        OnlyUnit .bw s t ∧ t.bw.err = .noError ∧ t.bw.pos = s.bw.pos ∧ t.bw.idx = s.bw.idx + l.length ∧
        t.bw.bit = s.bw.bit ∧ sliceBytes t.bw.buf 0 t.bw.idx = sliceBytes s.bw.buf 0 s.bw.idx ++ l) ∧
      (s.cfg.cW < s.bw.idx + (l.length + partialByte s.bw.bit) → s.sinkAccepts →
        SinkTook s t s.bw.pending ∧ t.bw.err = .noError ∧ t.bw.pos = s.bw.cur ∧ t.bw.idx = l.length ∧
        t.bw.bit = s.bw.bit ∧ sliceBytes t.bw.buf 0 t.bw.idx = l) ∧
      (s.cfg.cW < s.bw.idx + (l.length + partialByte s.bw.bit) → ¬s.sinkAccepts → WriterFailed s t)

/-- Rules R225, R226: WRITE_BYTES stores what fits; else the pending bytes and then the payload go straight to the
downstream, in this order. -/
def Obligations.WriteBytesBufferedOrDirect : Prop :=
  ∀ (s : State) (p : List Byte), Inv s → s.ready .bw →
    ∃ t, exec (.bwWriteBytes p) s = .next t ∧ Completed s t .ok 0 [] ∧ SameForWriter s t ∧
      (s.bw.idx + p.length + partialByte s.bw.bit ≤ s.cfg.cW →
        OnlyUnit .bw s t ∧ t.bw.err = .noError ∧ t.bw.pos = s.bw.pos ∧ t.bw.idx = s.bw.idx + p.length ∧
        t.bw.bit = s.bw.bit ∧ sliceBytes t.bw.buf 0 t.bw.idx = sliceBytes s.bw.buf 0 s.bw.idx ++ p) ∧
      (s.cfg.cW < s.bw.idx + p.length + partialByte s.bw.bit → s.sinkAccepts →
        SinkTook s t (s.bw.pending ++ p) ∧ t.bw.err = .noError ∧ t.bw.pos = s.bw.cur + p.length ∧ t.bw.idx = 0 ∧
        t.bw.bit = s.bw.bit ∧ t.bw.bits = s.bw.carried) ∧
      (s.cfg.cW < s.bw.idx + p.length + partialByte s.bw.bit → ¬s.sinkAccepts → WriterFailed s t)

/-- Rule R227: WRITE_STRING leaves what WRITE_BYTES of the string and then, unless that failed, WRITE_BYTE of a NUL would
leave; where both fit, the string and its NUL stand in the buffer. -/
def Obligations.WriteStringAppendsNul : Prop :=
  ∀ (s : State) (p : List Byte), Inv s → s.ready .bw →
    ∃ t u, exec (.bwWriteString p) s = .next t ∧ Completed s t .ok 0 [] ∧ SameForWriter s t ∧
      exec (.bwWriteBytes p) s = .next u ∧
      (u.bw.err ≠ .noError → t = u) ∧
      (u.bw.err = .noError → ∃ v, exec (.bwWriteByte 0) u = .next v ∧ t = { v with pc := s.pc + 1 }) ∧
      (s.bw.idx + p.length + 1 + partialByte s.bw.bit ≤ s.cfg.cW →
        OnlyUnit .bw s t ∧ t.bw.err = .noError ∧ t.bw.pos = s.bw.pos ∧ t.bw.idx = s.bw.idx + p.length + 1 ∧
        t.bw.bit = s.bw.bit ∧ sliceBytes t.bw.buf 0 t.bw.idx = sliceBytes s.bw.buf 0 s.bw.idx ++ p ++ [0])

/-- Rule R228: ALIGN of `BW` completes the partial byte with zero bits, and does nothing at a byte boundary. -/
def Obligations.WriterAlignPadsWithZeros : Prop :=
  ∀ s : State, Inv s → s.ready .bw →
    ∃ t, exec .bwAlign s = .next t ∧ Completed s t .ok 0 [] ∧ OnlyUnit .bw s t ∧
      (s.bw.bit = 0 → t.bw = s.bw) ∧
      (s.bw.bit ≠ 0 → t.bw = { s.bw with idx := s.bw.idx + 1, bit := 0 } ∧
        t.bw.bits = s.bw.bits ++ List.replicate (8 - s.bw.bit.val) false)

/-- Rules R220, R229, R323 (b): FLUSH of `BW` sends the completed bytes and the partial one and carries the latter, `Cur` and
the bit offset unchanged; with something to send and a downstream that refuses, it fails, and a sealed `CWA` raises
`StreamIsClosed`. -/
def Obligations.WriterFlushSendsPendingBytes : Prop :=
  ∀ s : State, Inv s → s.ready .bw →
    ∃ t, exec .bwFlush s = .next t ∧ Completed s t .ok 0 [] ∧ SameForWriter s t ∧
      (s.sinkAccepts ∨ s.bw.idx + partialByte s.bw.bit = 0 →
        SinkTook s t s.bw.pending ∧ t.bw.err = .noError ∧ t.bw.pos = s.bw.cur ∧ t.bw.idx = 0 ∧ t.bw.bit = s.bw.bit ∧
        t.bw.bits = s.bw.carried ∧ t.cwa.err = s.cwa.err ∧
        (s.cfg.bwDst = .cwa → s.sinkAccepts → t.cwa.unsent.length < 8)) ∧
      (s.cfg.bwDst = .raw →
        t.log = s.log ++ (if s.bw.pending = [] then [] else [.write .rawOut s.bw.pending]) ++ [.flush .rawOut]) ∧
      (¬s.sinkAccepts → s.bw.idx + partialByte s.bw.bit ≠ 0 → WriterFailed s t ∧ t.bw.pos = s.bw.pos ∧
        t.cwa.err = if s.cwa.live = true ∧ s.cwa.err = .noError then .streamIsClosed else s.cwa.err)

/-- Rules R230 to R232: MARK, UNMARK and CHECK of `BW`. -/
def Obligations.WriterMarkUnmarkAndCheck : Prop :=
  ∀ (s : State) (expected : Word64), s.ready .bw →
    (encode .bwMark).w = 0x4C000000 ∧ (encode .bwUnmark).w = 0x4D000000 ∧
    (encode (.bwCheck expected)).w = 0x4E000000 ∧ (encode (.bwCheck expected)).a = expected ∧
    (∃ t, exec .bwMark s = .next t ∧ Completed s t .ok 0 [] ∧ OnlyUnit .bw s t ∧
      t.bw = if s.bw.marks.length = s.cfg.markDepth then { s.bw with err := .badArguments }
        else { s.bw with marks := s.bw.marks ++ [⟨s.bw.cur, s.bw.bit⟩] }) ∧
    (∃ t, exec .bwUnmark s = .next t ∧ Completed s t .ok 0 [] ∧ OnlyUnit .bw s t ∧
      (s.bw.marks = [] → t.bw = { s.bw with err := .badArguments }) ∧
      (∀ rest e, s.bw.marks = rest ++ [e] → t.bw = { s.bw with marks := rest })) ∧
    (s.bw.marks = [] → ∃ t, exec (.bwCheck expected) s = .next t ∧ Completed s t .ok 0 [] ∧ OnlyUnit .bw s t ∧
      t.bw = { s.bw with err := .badArguments }) ∧
    (∀ rest e, s.bw.marks = rest ++ [e] → ∃ t, exec (.bwCheck expected) s = .next t ∧
      Completed s t .ok (BitVec.ofInt 64 (((s.bw.cur : Int) - e.mbyte) - expected.toInt)) [] ∧ Untouched s t)

/-- Rule R233: a flush at a bit offset that is not 0 sends the partial byte, and the next flush sends that byte again with
the bits written since, in place of the first version. -/
def Obligations.PartialByteIsSentAgain : Prop :=
  ∀ (s : State) (n : BitVec 6) (v : Word32), Inv s → s.ready .bw → s.cfg.bwDst = .raw → s.bw.bit ≠ 0 →
    s.bw.bit.val + n.toNat ≤ 8 →
    ∃ t u w x y, exec .bwFlush s = .next t ∧ exec (.bwWriteBits n v) t = .next u ∧ exec .bwFlush u = .next w ∧
      w.rawOut = s.rawOut.append (sliceBytes s.bw.buf 0 s.bw.idx ++ [x] ++ [y]) ∧
      (bitsOfByte x).take s.bw.bit.val = s.bw.carried ∧
      (bitsOfByte y).take (s.bw.bit.val + n.toNat) = s.bw.carried ++ fieldOf n.toNat v

/-- Rule R234: for byte-aligned commands the downstream gets exactly the bytes an unbuffered writer would give it, but for
those still in the buffer, whatever the capacity. -/
def Obligations.AlignedWritesIgnoreCapacity : Prop :=
  ∀ (cmds : List Instr) (s : State) (bytes : List (List Byte)), Inv s → s.ready .bw → s.bw.bit = 0 → s.sinkAccepts →
    cmds.map streamBytes = bytes.map some →
    ∃ t sent, execAll cmds s = .next t ∧ SinkTook s t sent ∧ s.bw.pending ++ bytes.flatten = sent ++ t.bw.pending ∧
      t.bw.cur = s.bw.cur + bytes.flatten.length ∧ t.bw.bit = 0 ∧ t.bw.err = .noError ∧ t.sinkAccepts

/-! ## `CRA` -/

/-- Rules R74, R261, R262: CRA.READ delivers the decrypted bytes from the position on, stops at `length` without an error,
and raises `InvalidData` at a block that `RAW_IN` does not hold whole. -/
def Obligations.CraReadDeliversPlaintext : Prop :=
  ∀ (s : State) (cnt : BitVec 32), Inv s → s.ready .cra →
    ∃ t data, exec (.craRead cnt) s = .next t ∧ SameForCra s t ∧ data = takeBytes s.craByte s.cra.pos cnt.toNat ∧
      Completed s t .ok (BitVec.ofNat 64 data.length) data ∧ t.cra.pos = s.cra.pos + data.length ∧ t.cacheOk ∧
      t.cra.err = if data.length < cnt.toNat ∧ s.cra.pos + data.length < s.cra.length then .invalidData else .noError

/-- Rules R46, R263: CRA.SEEK writes the position alone, or refuses a target that is no legal position with `R = 1`. -/
def Obligations.CraSeekMovesOnlyThePosition : Prop :=
  ∀ (s : State) (origin : Origin) (off : Word64) (target : Int), s.ready .cra →
    target = (match origin with | .seekSet => (0 : Int) | .seekCur => s.cra.pos | .seekEnd => s.cra.length) + off.toInt →
    ∃ t, exec (.craSeek origin off) s = .next t ∧ OnlyUnit .cra s t ∧
      (0 ≤ target → target ≤ Config.posMax →
        Completed s t .ok 0 [] ∧ t.cra = { s.cra with pos := target.toNat }) ∧
      (target < 0 ∨ (Config.posMax : Int) < target →
        Completed s t .ok 1 [] ∧ t.cra = { s.cra with err := .badArguments })

/-- Rules R264, R265: CRA.TELL and CRA.EOF read the position and change nothing. -/
def Obligations.CraTellAndEof : Prop :=
  ∀ s : State, s.ready .cra →
    (∃ t, exec .craTell s = .next t ∧ Completed s t .ok (BitVec.ofNat 64 s.cra.pos) [] ∧ Untouched s t) ∧
    (∃ t, exec .craEof s = .next t ∧ Completed s t .ok (if s.cra.length ≤ s.cra.pos then 1 else 0) [] ∧ Untouched s t)

/-- Rules R45, R267: after any SEEK and READ commands, a SEEK to `p` and a READ of `n` bytes deliver the decrypted bytes of
the stream at `p`, none missing below `length`: neither the earlier commands nor the cache matter. -/
def Obligations.CraReadsAreRandomAccess : Prop :=
  ∀ (s : State) (cmds : List Instr) (t : State) (p : Word64) (n : BitVec 32), Inv s → s.ready .cra →
    (∀ j < s.cra.length, (s.rawIn.slice (s.cra.start + 8 * (j / 8)) 8).length = 8) →
    (∀ i ∈ cmds, (∃ o off, i = .craSeek o off) ∨ ∃ cnt, i = .craRead cnt) → execAll cmds s = .next t → t.ready .cra →
    p.toNat ≤ Config.posMax →
    ∃ u v, exec (.craSeek .seekSet p) t = .next u ∧ exec (.craRead n) u = .next v ∧
      v.dataOut.length = min n.toNat (s.cra.length - p.toNat) ∧ v.cra.err = .noError ∧
      ∀ j < v.dataOut.length, v.dataOut[j]? = some (blockByte (transform s.cra.sched
        (blockOfList (s.rawIn.slice (s.cra.start + 8 * ((p.toNat + j) / 8)) 8))) (p.toNat + j))

/-! ## `CWA` -/

/-- Rules R291, R296 (b): CWA.WRITE accepts every byte, sends the buffer encrypted whenever it is full, and keeps the rest;
after SEAL it accepts none and raises `StreamIsClosed`. -/
def Obligations.CwaWriteEncryptsFullBuffers : Prop :=
  ∀ (s : State) (p : List Byte), Inv s → s.ready .cwa →
    ∃ t, exec (.cwaWrite p) s = .next t ∧ SameForCwa s t ∧ t.cwa.live = true ∧ t.cwa.sealed = s.cwa.sealed ∧
      (s.cwa.sealed = true → Completed s t .ok 0 [] ∧ OnlyUnit .cwa s t ∧ t.cwa = { s.cwa with err := .streamIsClosed }) ∧
      (s.cwa.sealed = false → Completed s t .ok (BitVec.ofNat 64 p.length) [] ∧ t.cwa.err = .noError ∧
        let all := s.cwa.unsent ++ p
        let full := all.length / s.cfg.cCW
        let sent := transformBlocks s.cwa.sched (s.cfg.cCW / 8 * full) all
        t.rawOut = s.rawOut.append sent ∧ Stored s t sent ∧ t.cwa.unsent = all.drop (s.cfg.cCW * full))

/-- Rules R290, R292, R293, R296 (b): CWA.FLUSH sends the whole blocks of the unsent plaintext; CWA.SEAL sends it all,
zero-padded, and closes the stream; after SEAL both do nothing. -/
def Obligations.CwaFlushAndSeal : Prop :=
  ∀ s : State, Inv s → s.ready .cwa →
    (s.cwa.sealed = true →
      (∃ t, exec .cwaFlush s = .next t ∧ Completed s t .ok 0 [] ∧ Untouched s t) ∧
      (∃ t, exec .cwaSeal s = .next t ∧ Completed s t .ok 0 [] ∧ Untouched s t)) ∧
    (s.cwa.sealed = false →
      (∃ t sent, exec .cwaFlush s = .next t ∧ Completed s t .ok 0 [] ∧ SameForCwa s t ∧
        sent = transformBlocks s.cwa.sched (s.cwa.unsent.length / 8) s.cwa.unsent ∧
        t.rawOut = s.rawOut.append sent ∧ Stored s t sent ∧
        t.cwa.unsent = s.cwa.unsent.drop (8 * (s.cwa.unsent.length / 8)) ∧ t.cwa.live = true ∧ t.cwa.err = .noError ∧
        t.cwa.sealed = false ∧
        t.log = s.log ++ (if sent = [] then [] else [.write .rawOut sent]) ++ [.flush .rawOut]) ∧
      (∃ t sent, exec .cwaSeal s = .next t ∧ Completed s t .ok 0 [] ∧ SameForCwa s t ∧
        sent = ecb s.cwa.sched s.cwa.unsent ∧ t.rawOut = s.rawOut.append sent ∧ Stored s t sent ∧ t.cwa.nbuf = 0 ∧
        t.cwa.live = true ∧ t.cwa.err = .noError ∧ t.cwa.sealed = true ∧
        t.log = s.log ++ (if sent = [] then [] else [.write .rawOut sent]) ++ [.flush .rawOut]))

/-- Rules R89, R296 (a): however the plaintext is split into WRITE commands, whatever the capacity, and wherever FLUSH is
issued, after SEAL `RAW_OUT` has gained the zero-padded ECB encryption of the bytes accepted. -/
def Obligations.SplitIndependentEncryption : Prop :=
  ∀ (s : State) (cmds : List Instr) (plain : List (List Byte)), Inv s → s.ready .cwa → s.cwa.sealed = false →
    cmds.map plaintextOf = plain.map some →
    ∃ t, execAll (cmds ++ [.cwaSeal]) s = .next t ∧
      t.rawOut = s.rawOut.append (ecb s.cwa.sched (s.cwa.unsent ++ plain.flatten)) ∧ t.cwa.sealed = true ∧
      t.cwa.err = .noError

/-! ## Round trips -/

/-- Rule R296 (c), for every length: what a fresh `CWA` seals into an empty `RAW_OUT`, a fresh `CRA` with the same key and
the plaintext's length reads back, when that output is its launch's `RAW_IN`. -/
def Obligations.CipherRoundTrip : Prop :=
  ∀ (w r : State) (ownW ownR : Bool) (key : Word64) (q : List Byte), Inv w → Inv r → w.cwa.live = false → w.rawOut = [] →
    r.cra.live = false → q.length < 2 ^ 32 →
    ∃ t, execAll [.cwaInit ownW key, .cwaWrite q, .cwaSeal] w = .next t ∧
      (r.rawIn = t.rawOut →
        ∃ u, execAll [.craInit ownR key (BitVec.ofNat 64 q.length) 0, .craRead (BitVec.ofNat 32 q.length)] r = .next u ∧
          u.dataOut = q ∧ u.cra.err = .noError)

/-- The source's bit round-trip property (E1 of 95_test_vectors.md, rules R71, R163, R221): fields written from an empty
buffer that holds them all, then aligned and flushed, are read back by a reader of that output with the same counts. -/
def Obligations.BitFieldRoundTrip : Prop :=
  ∀ (w r : State) (fields : List (BitVec 6 × Word32)), Inv w → Inv r → w.ready .bw → r.ready .br →
    w.cfg.bwDst = .raw → r.cfg.brSrc = .raw → w.bw.idx = 0 → w.bw.bit = 0 → w.rawOut = [] → r.br.cur = 0 → r.br.bit = 0 →
    (∀ e ∈ fields, legalReadCount e.1) → (fields.map fun e => e.1.toNat).sum ≤ 8 * w.cfg.cW →
    ∃ t, execAll ((fields.map fun e => Instr.bwWriteBits e.1 e.2) ++ [.bwAlign, .bwFlush]) w = .next t ∧
      (r.rawIn = t.rawOut →
        resultsOf (fields.map fun e => Instr.brReadUbits e.1) r =
          fields.map fun e => BitVec.ofNat 64 (e.2.toNat % 2 ^ e.1.toNat))
end

