-- ==== Sys2Proof/Laws/State.lean ====
section
/-! SUPPORT. One lemma per field per update of the state, all true by `rfl`, so that no later proof unfolds an update. -/

namespace Sys2Proof.Machine

variable (s : State)

/-! ## `State.setBr` -/

@[simp] theorem State.setBr_cfg (u : Br) : (s.setBr u).cfg = s.cfg := rfl

@[simp] theorem State.setBr_rawIn (u : Br) : (s.setBr u).rawIn = s.rawIn := rfl

@[simp] theorem State.setBr_cmds (u : Br) : (s.setBr u).cmds = s.cmds := rfl

@[simp] theorem State.setBr_pc (u : Br) : (s.setBr u).pc = s.pc := rfl

@[simp] theorem State.setBr_r (u : Br) : (s.setBr u).r = s.r := rfl

@[simp] theorem State.setBr_status (u : Br) : (s.setBr u).status = s.status := rfl

@[simp] theorem State.setBr_dataOut (u : Br) : (s.setBr u).dataOut = s.dataOut := rfl

@[simp] theorem State.setBr_br (u : Br) : (s.setBr u).br = u := rfl

@[simp] theorem State.setBr_bw (u : Br) : (s.setBr u).bw = s.bw := rfl

@[simp] theorem State.setBr_cra (u : Br) : (s.setBr u).cra = s.cra := rfl

@[simp] theorem State.setBr_cwa (u : Br) : (s.setBr u).cwa = s.cwa := rfl

@[simp] theorem State.setBr_rc (u : Br) : (s.setBr u).rc = s.rc := rfl

@[simp] theorem State.setBr_rawOut (u : Br) : (s.setBr u).rawOut = s.rawOut := rfl

@[simp] theorem State.setBr_log (u : Br) : (s.setBr u).log = s.log := rfl

/-! ## `State.setBw` -/

@[simp] theorem State.setBw_cfg (u : Bw) : (s.setBw u).cfg = s.cfg := rfl

@[simp] theorem State.setBw_rawIn (u : Bw) : (s.setBw u).rawIn = s.rawIn := rfl

@[simp] theorem State.setBw_cmds (u : Bw) : (s.setBw u).cmds = s.cmds := rfl

@[simp] theorem State.setBw_pc (u : Bw) : (s.setBw u).pc = s.pc := rfl

@[simp] theorem State.setBw_r (u : Bw) : (s.setBw u).r = s.r := rfl

@[simp] theorem State.setBw_status (u : Bw) : (s.setBw u).status = s.status := rfl

@[simp] theorem State.setBw_dataOut (u : Bw) : (s.setBw u).dataOut = s.dataOut := rfl

@[simp] theorem State.setBw_br (u : Bw) : (s.setBw u).br = s.br := rfl

@[simp] theorem State.setBw_bw (u : Bw) : (s.setBw u).bw = u := rfl

@[simp] theorem State.setBw_cra (u : Bw) : (s.setBw u).cra = s.cra := rfl

@[simp] theorem State.setBw_cwa (u : Bw) : (s.setBw u).cwa = s.cwa := rfl

@[simp] theorem State.setBw_rc (u : Bw) : (s.setBw u).rc = s.rc := rfl

@[simp] theorem State.setBw_rawOut (u : Bw) : (s.setBw u).rawOut = s.rawOut := rfl

@[simp] theorem State.setBw_log (u : Bw) : (s.setBw u).log = s.log := rfl

/-! ## `State.setCra` -/

@[simp] theorem State.setCra_cfg (u : Cra) : (s.setCra u).cfg = s.cfg := rfl

@[simp] theorem State.setCra_rawIn (u : Cra) : (s.setCra u).rawIn = s.rawIn := rfl

@[simp] theorem State.setCra_cmds (u : Cra) : (s.setCra u).cmds = s.cmds := rfl

@[simp] theorem State.setCra_pc (u : Cra) : (s.setCra u).pc = s.pc := rfl

@[simp] theorem State.setCra_r (u : Cra) : (s.setCra u).r = s.r := rfl

@[simp] theorem State.setCra_status (u : Cra) : (s.setCra u).status = s.status := rfl

@[simp] theorem State.setCra_dataOut (u : Cra) : (s.setCra u).dataOut = s.dataOut := rfl

@[simp] theorem State.setCra_br (u : Cra) : (s.setCra u).br = s.br := rfl

@[simp] theorem State.setCra_bw (u : Cra) : (s.setCra u).bw = s.bw := rfl

@[simp] theorem State.setCra_cra (u : Cra) : (s.setCra u).cra = u := rfl

@[simp] theorem State.setCra_cwa (u : Cra) : (s.setCra u).cwa = s.cwa := rfl

@[simp] theorem State.setCra_rc (u : Cra) : (s.setCra u).rc = s.rc := rfl

@[simp] theorem State.setCra_rawOut (u : Cra) : (s.setCra u).rawOut = s.rawOut := rfl

@[simp] theorem State.setCra_log (u : Cra) : (s.setCra u).log = s.log := rfl

/-! ## `State.setCwa` -/

@[simp] theorem State.setCwa_cfg (u : Cwa) : (s.setCwa u).cfg = s.cfg := rfl

@[simp] theorem State.setCwa_rawIn (u : Cwa) : (s.setCwa u).rawIn = s.rawIn := rfl

@[simp] theorem State.setCwa_cmds (u : Cwa) : (s.setCwa u).cmds = s.cmds := rfl

@[simp] theorem State.setCwa_pc (u : Cwa) : (s.setCwa u).pc = s.pc := rfl

@[simp] theorem State.setCwa_r (u : Cwa) : (s.setCwa u).r = s.r := rfl

@[simp] theorem State.setCwa_status (u : Cwa) : (s.setCwa u).status = s.status := rfl

@[simp] theorem State.setCwa_dataOut (u : Cwa) : (s.setCwa u).dataOut = s.dataOut := rfl

@[simp] theorem State.setCwa_br (u : Cwa) : (s.setCwa u).br = s.br := rfl

@[simp] theorem State.setCwa_bw (u : Cwa) : (s.setCwa u).bw = s.bw := rfl

@[simp] theorem State.setCwa_cra (u : Cwa) : (s.setCwa u).cra = s.cra := rfl

@[simp] theorem State.setCwa_cwa (u : Cwa) : (s.setCwa u).cwa = u := rfl

@[simp] theorem State.setCwa_rc (u : Cwa) : (s.setCwa u).rc = s.rc := rfl

@[simp] theorem State.setCwa_rawOut (u : Cwa) : (s.setCwa u).rawOut = s.rawOut := rfl

@[simp] theorem State.setCwa_log (u : Cwa) : (s.setCwa u).log = s.log := rfl

/-! ## `State.setRc` -/

@[simp] theorem State.setRc_cfg (n : Nat) : (s.setRc n).cfg = s.cfg := rfl

@[simp] theorem State.setRc_rawIn (n : Nat) : (s.setRc n).rawIn = s.rawIn := rfl

@[simp] theorem State.setRc_cmds (n : Nat) : (s.setRc n).cmds = s.cmds := rfl

@[simp] theorem State.setRc_pc (n : Nat) : (s.setRc n).pc = s.pc := rfl

@[simp] theorem State.setRc_r (n : Nat) : (s.setRc n).r = s.r := rfl

@[simp] theorem State.setRc_status (n : Nat) : (s.setRc n).status = s.status := rfl

@[simp] theorem State.setRc_dataOut (n : Nat) : (s.setRc n).dataOut = s.dataOut := rfl

@[simp] theorem State.setRc_br (n : Nat) : (s.setRc n).br = s.br := rfl

@[simp] theorem State.setRc_bw (n : Nat) : (s.setRc n).bw = s.bw := rfl

@[simp] theorem State.setRc_cra (n : Nat) : (s.setRc n).cra = s.cra := rfl

@[simp] theorem State.setRc_cwa (n : Nat) : (s.setRc n).cwa = s.cwa := rfl

@[simp] theorem State.setRc_rc (n : Nat) : (s.setRc n).rc = n := rfl

@[simp] theorem State.setRc_rawOut (n : Nat) : (s.setRc n).rawOut = s.rawOut := rfl

@[simp] theorem State.setRc_log (n : Nat) : (s.setRc n).log = s.log := rfl

/-! ## `State.appendOut` -/

@[simp] theorem State.appendOut_cfg (l : List Byte) : (s.appendOut l).cfg = s.cfg := rfl

@[simp] theorem State.appendOut_rawIn (l : List Byte) : (s.appendOut l).rawIn = s.rawIn := rfl

@[simp] theorem State.appendOut_cmds (l : List Byte) : (s.appendOut l).cmds = s.cmds := rfl

@[simp] theorem State.appendOut_pc (l : List Byte) : (s.appendOut l).pc = s.pc := rfl

@[simp] theorem State.appendOut_r (l : List Byte) : (s.appendOut l).r = s.r := rfl

@[simp] theorem State.appendOut_status (l : List Byte) : (s.appendOut l).status = s.status := rfl

@[simp] theorem State.appendOut_dataOut (l : List Byte) : (s.appendOut l).dataOut = s.dataOut := rfl

@[simp] theorem State.appendOut_br (l : List Byte) : (s.appendOut l).br = s.br := rfl

@[simp] theorem State.appendOut_bw (l : List Byte) : (s.appendOut l).bw = s.bw := rfl

@[simp] theorem State.appendOut_cra (l : List Byte) : (s.appendOut l).cra = s.cra := rfl

@[simp] theorem State.appendOut_cwa (l : List Byte) : (s.appendOut l).cwa = s.cwa := rfl

@[simp] theorem State.appendOut_rc (l : List Byte) : (s.appendOut l).rc = s.rc := rfl

@[simp] theorem State.appendOut_rawOut (l : List Byte) : (s.appendOut l).rawOut = s.rawOut.append l := rfl

@[simp] theorem State.appendOut_log (l : List Byte) : (s.appendOut l).log = s.log := rfl

/-! ## `State.addEvent` -/

@[simp] theorem State.addEvent_cfg (e : Event) : (s.addEvent e).cfg = s.cfg := rfl

@[simp] theorem State.addEvent_rawIn (e : Event) : (s.addEvent e).rawIn = s.rawIn := rfl

@[simp] theorem State.addEvent_cmds (e : Event) : (s.addEvent e).cmds = s.cmds := rfl

@[simp] theorem State.addEvent_pc (e : Event) : (s.addEvent e).pc = s.pc := rfl

@[simp] theorem State.addEvent_r (e : Event) : (s.addEvent e).r = s.r := rfl

@[simp] theorem State.addEvent_status (e : Event) : (s.addEvent e).status = s.status := rfl

@[simp] theorem State.addEvent_dataOut (e : Event) : (s.addEvent e).dataOut = s.dataOut := rfl

@[simp] theorem State.addEvent_br (e : Event) : (s.addEvent e).br = s.br := rfl

@[simp] theorem State.addEvent_bw (e : Event) : (s.addEvent e).bw = s.bw := rfl

@[simp] theorem State.addEvent_cra (e : Event) : (s.addEvent e).cra = s.cra := rfl

@[simp] theorem State.addEvent_cwa (e : Event) : (s.addEvent e).cwa = s.cwa := rfl

@[simp] theorem State.addEvent_rc (e : Event) : (s.addEvent e).rc = s.rc := rfl

@[simp] theorem State.addEvent_rawOut (e : Event) : (s.addEvent e).rawOut = s.rawOut := rfl

@[simp] theorem State.addEvent_log (e : Event) : (s.addEvent e).log = s.log ++ [e] := rfl

/-! ## `State.setR` -/

@[simp] theorem State.setR_cfg (v : Word64) : (s.setR v).cfg = s.cfg := rfl

@[simp] theorem State.setR_rawIn (v : Word64) : (s.setR v).rawIn = s.rawIn := rfl

@[simp] theorem State.setR_cmds (v : Word64) : (s.setR v).cmds = s.cmds := rfl

@[simp] theorem State.setR_pc (v : Word64) : (s.setR v).pc = s.pc := rfl

@[simp] theorem State.setR_r (v : Word64) : (s.setR v).r = v := rfl

@[simp] theorem State.setR_status (v : Word64) : (s.setR v).status = s.status := rfl

@[simp] theorem State.setR_dataOut (v : Word64) : (s.setR v).dataOut = s.dataOut := rfl

@[simp] theorem State.setR_br (v : Word64) : (s.setR v).br = s.br := rfl

@[simp] theorem State.setR_bw (v : Word64) : (s.setR v).bw = s.bw := rfl

@[simp] theorem State.setR_cra (v : Word64) : (s.setR v).cra = s.cra := rfl

@[simp] theorem State.setR_cwa (v : Word64) : (s.setR v).cwa = s.cwa := rfl

@[simp] theorem State.setR_rc (v : Word64) : (s.setR v).rc = s.rc := rfl

@[simp] theorem State.setR_rawOut (v : Word64) : (s.setR v).rawOut = s.rawOut := rfl

@[simp] theorem State.setR_log (v : Word64) : (s.setR v).log = s.log := rfl

/-! ## `State.deliver` -/

@[simp] theorem State.deliver_cfg (l : List Byte) : (s.deliver l).cfg = s.cfg := rfl

@[simp] theorem State.deliver_rawIn (l : List Byte) : (s.deliver l).rawIn = s.rawIn := rfl

@[simp] theorem State.deliver_cmds (l : List Byte) : (s.deliver l).cmds = s.cmds := rfl

@[simp] theorem State.deliver_pc (l : List Byte) : (s.deliver l).pc = s.pc := rfl

@[simp] theorem State.deliver_r (l : List Byte) : (s.deliver l).r = resultNat l.length := rfl

@[simp] theorem State.deliver_status (l : List Byte) : (s.deliver l).status = s.status := rfl

@[simp] theorem State.deliver_dataOut (l : List Byte) : (s.deliver l).dataOut = l := rfl

@[simp] theorem State.deliver_br (l : List Byte) : (s.deliver l).br = s.br := rfl

@[simp] theorem State.deliver_bw (l : List Byte) : (s.deliver l).bw = s.bw := rfl

@[simp] theorem State.deliver_cra (l : List Byte) : (s.deliver l).cra = s.cra := rfl

@[simp] theorem State.deliver_cwa (l : List Byte) : (s.deliver l).cwa = s.cwa := rfl

@[simp] theorem State.deliver_rc (l : List Byte) : (s.deliver l).rc = s.rc := rfl

@[simp] theorem State.deliver_rawOut (l : List Byte) : (s.deliver l).rawOut = s.rawOut := rfl

@[simp] theorem State.deliver_log (l : List Byte) : (s.deliver l).log = s.log := rfl

/-! ## `State.begin` -/

@[simp] theorem State.begin_cfg (st : Status) : (s.begin st).cfg = s.cfg := rfl

@[simp] theorem State.begin_rawIn (st : Status) : (s.begin st).rawIn = s.rawIn := rfl

@[simp] theorem State.begin_cmds (st : Status) : (s.begin st).cmds = s.cmds := rfl

@[simp] theorem State.begin_pc (st : Status) : (s.begin st).pc = s.pc := rfl

@[simp] theorem State.begin_r (st : Status) : (s.begin st).r = 0 := rfl

@[simp] theorem State.begin_status (st : Status) : (s.begin st).status = st := rfl

@[simp] theorem State.begin_dataOut (st : Status) : (s.begin st).dataOut = [] := rfl

@[simp] theorem State.begin_br (st : Status) : (s.begin st).br = s.br := rfl

@[simp] theorem State.begin_bw (st : Status) : (s.begin st).bw = s.bw := rfl

@[simp] theorem State.begin_cra (st : Status) : (s.begin st).cra = s.cra := rfl

@[simp] theorem State.begin_cwa (st : Status) : (s.begin st).cwa = s.cwa := rfl

@[simp] theorem State.begin_rc (st : Status) : (s.begin st).rc = s.rc := rfl

@[simp] theorem State.begin_rawOut (st : Status) : (s.begin st).rawOut = s.rawOut := rfl

@[simp] theorem State.begin_log (st : Status) : (s.begin st).log = s.log := rfl

/-! ## `State.retire` -/

@[simp] theorem State.retire_cfg : (s.retire).cfg = s.cfg := rfl

@[simp] theorem State.retire_rawIn : (s.retire).rawIn = s.rawIn := rfl

@[simp] theorem State.retire_cmds : (s.retire).cmds = s.cmds := rfl

@[simp] theorem State.retire_pc : (s.retire).pc = s.pc + 1 := rfl

@[simp] theorem State.retire_r : (s.retire).r = s.r := rfl

@[simp] theorem State.retire_status : (s.retire).status = s.status := rfl

@[simp] theorem State.retire_dataOut : (s.retire).dataOut = s.dataOut := rfl

@[simp] theorem State.retire_br : (s.retire).br = s.br := rfl

@[simp] theorem State.retire_bw : (s.retire).bw = s.bw := rfl

@[simp] theorem State.retire_cra : (s.retire).cra = s.cra := rfl

@[simp] theorem State.retire_cwa : (s.retire).cwa = s.cwa := rfl

@[simp] theorem State.retire_rc : (s.retire).rc = s.rc := rfl

@[simp] theorem State.retire_rawOut : (s.retire).rawOut = s.rawOut := rfl

@[simp] theorem State.retire_log : (s.retire).log = s.log := rfl

/-! ## The error latch (rule R11) -/

@[simp] theorem raise_br (e : Err) : raise .br e s = s.setBr { s.br with err := latch s.br.err e } := rfl

@[simp] theorem raise_bw (e : Err) : raise .bw e s = s.setBw { s.bw with err := latch s.bw.err e } := rfl

@[simp] theorem raise_cra (e : Err) : raise .cra e s = s.setCra { s.cra with err := latch s.cra.err e } := rfl

@[simp] theorem raise_cwa (e : Err) : raise .cwa e s = s.setCwa { s.cwa with err := latch s.cwa.err e } := rfl

@[simp] theorem latch_noError (e : Err) : latch .noError e = e := rfl

/-- A latch that holds an error keeps it: the first error wins (rule R11). -/
theorem latch_of_ne {old : Err} (h : old ≠ .noError) (e : Err) : latch old e = old := if_neg h

/-! ## A unit's fields, by the unit's name -/

@[simp] theorem State.liveOf_br : s.liveOf .br = s.br.live := rfl

@[simp] theorem State.liveOf_bw : s.liveOf .bw = s.bw.live := rfl

@[simp] theorem State.liveOf_cra : s.liveOf .cra = s.cra.live := rfl

@[simp] theorem State.liveOf_cwa : s.liveOf .cwa = s.cwa.live := rfl

@[simp] theorem State.errOf_br : s.errOf .br = s.br.err := rfl

@[simp] theorem State.errOf_bw : s.errOf .bw = s.bw.err := rfl

@[simp] theorem State.errOf_cra : s.errOf .cra = s.cra.err := rfl

@[simp] theorem State.errOf_cwa : s.errOf .cwa = s.cwa.err := rfl

/-! ## The command cycle (rule R131) -/

/-- A command that the lifecycle check lets pass and that does not short-circuit runs its body. -/
theorem command_runs {u : UnitId} {cls : CommandClass} {body : State → State} {s : State}
    (hl : lifecycleRefuses cls (s.liveOf u) = false) (hc : shortCircuits cls (s.errOf u) = false) :
    command u cls body s = (body (s.begin .ok)).retire := by
  simp [command, hl, hc]

/-- An ordinary command of a live unit without an error runs its body. -/
theorem command_ordinary {u : UnitId} {body : State → State} {s : State} (h : s.ready u) :
    command u .ordinary body s = (body (s.begin .ok)).retire :=
  command_runs (by simp [lifecycleRefuses, h.1]) (by simp [shortCircuits, h.2])

/-- RELEASE of a live unit runs its body, whatever the unit's error (rule R133). -/
theorem command_release {u : UnitId} {body : State → State} {s : State} (h : s.liveOf u = true) :
    command u .release body s = (body (s.begin .ok)).retire :=
  command_runs (by simp [lifecycleRefuses, h]) (by simp [shortCircuits])

/-- GET_ERROR of a live unit runs its body, whatever the unit's error (rule R133). -/
theorem command_getError {u : UnitId} {body : State → State} {s : State} (h : s.liveOf u = true) :
    command u .getError body s = (body (s.begin .ok)).retire :=
  command_runs (by simp [lifecycleRefuses, h]) (by simp [shortCircuits])

/-- INIT of a unit that is not live runs its body (rule R133). -/
theorem command_init {u : UnitId} {body : State → State} {s : State} (h : s.liveOf u = false) :
    command u .init body s = (body (s.begin .ok)).retire :=
  command_runs (by simp [lifecycleRefuses, h]) (by simp [shortCircuits])

/-- Everything a command can do (rule R131): a lifecycle refusal, the short-circuit, or its body between the start and the
end of the cycle. -/
theorem command_cases (u : UnitId) (cls : CommandClass) (body : State → State) (s : State) :
    (lifecycleRefuses cls (s.liveOf u) = true ∧ command u cls body s = (s.begin .lifecycle).retire) ∨
    (lifecycleRefuses cls (s.liveOf u) = false ∧ shortCircuits cls (s.errOf u) = true ∧
      command u cls body s = (s.begin .ok).retire) ∨
    (lifecycleRefuses cls (s.liveOf u) = false ∧ shortCircuits cls (s.errOf u) = false ∧
      command u cls body s = (body (s.begin .ok)).retire) := by
  unfold command
  cases lifecycleRefuses cls (s.liveOf u) <;> cases shortCircuits cls (s.errOf u) <;> simp

end Sys2Proof.Machine
end

