-- ==== Sys2Proof/Laws/Bytes.lean ====
section
/-! SUPPORT. The laws of buffers, of streams as bytes, and of raw streams as memories: what a write into a buffer leaves,
what a read of a stream takes, and that the stream operations keep the canonical form. -/

namespace Sys2Proof.Machine

/-! ## Buffers -/

@[simp] theorem putBytes_length (buf : List Byte) (i : Nat) (l : List Byte) : (putBytes buf i l).length = buf.length := by
  induction l generalizing buf i with
  | nil => rfl
  | cons b l ih => simp [putBytes, ih]

@[simp] theorem putBytes_nil (buf : List Byte) (i : Nat) : putBytes buf i [] = buf := rfl

/-- A run of bytes that fits replaces exactly its own range. -/
theorem putBytes_eq (buf : List Byte) (i : Nat) (l : List Byte) (h : i + l.length ≤ buf.length) :
    putBytes buf i l = buf.take i ++ l ++ buf.drop (i + l.length) := by
  induction l generalizing buf i with
  | nil => simp
  | cons b l ih =>
    simp only [List.length_cons] at h
    have hi : i < buf.length := by omega
    rw [putBytes, ih (buf.set i b) (i + 1) (by simp; omega)]
    have h1 : (buf.set i b).take (i + 1) = buf.take i ++ [b] := by
      rw [List.take_add_one, List.take_set_of_le (Nat.le_refl i)]
      simp [hi]
    rw [h1, List.drop_set_of_lt (by omega), List.length_cons, Nat.add_assoc, Nat.add_comm 1]
    simp

/-- Bytes before a run keep their value. -/
theorem byteAt_putBytes_of_lt (buf : List Byte) (i : Nat) (l : List Byte) {j : Nat} (h : j < i) :
    byteAt (putBytes buf i l) j = byteAt buf j := by
  induction l generalizing buf i with
  | nil => rfl
  | cons b l ih =>
    rw [putBytes, ih _ _ (by omega)]
    simp [byteAt, List.getElem?_set_ne (show i ≠ j by omega)]

/-- Bytes from the end of a run on keep their value. -/
theorem byteAt_putBytes_of_le (buf : List Byte) (i : Nat) (l : List Byte) {j : Nat} (h : i + l.length ≤ j) :
    byteAt (putBytes buf i l) j = byteAt buf j := by
  induction l generalizing buf i with
  | nil => rfl
  | cons b l ih =>
    simp only [List.length_cons] at h
    rw [putBytes, ih _ _ (by omega)]
    simp [byteAt, List.getElem?_set_ne (show i ≠ j by omega)]

/-- The run itself is what was stored. -/
theorem sliceBytes_putBytes (buf : List Byte) (i : Nat) (l : List Byte) (h : i + l.length ≤ buf.length) :
    sliceBytes (putBytes buf i l) i l.length = l := by
  rw [putBytes_eq buf i l h, sliceBytes, List.append_assoc, List.drop_append_of_le_length (by simp; omega)]
  have : (buf.take i).drop i = [] := by simp
  simp [this]

/-- The bytes up to the end of a run: what was there before it, then the run. -/
theorem sliceBytes_zero_putBytes (buf : List Byte) (i : Nat) (l : List Byte) (h : i + l.length ≤ buf.length) :
    sliceBytes (putBytes buf i l) 0 (i + l.length) = sliceBytes buf 0 i ++ l := by
  rw [putBytes_eq buf i l h]
  have h1 : (buf.take i ++ l).length = i + l.length := by simp; omega
  simp only [sliceBytes, List.drop_zero]
  rw [List.take_append_of_le_length (by omega), List.take_of_length_le (by omega)]

theorem sliceBytes_length (buf : List Byte) (a n : Nat) (h : a + n ≤ buf.length) : (sliceBytes buf a n).length = n := by
  simp [sliceBytes]
  omega

theorem sliceBytes_getElem? (buf : List Byte) (a n : Nat) {j : Nat} (h : j < n) :
    (sliceBytes buf a n)[j]? = buf[a + j]? := by
  simp [sliceBytes, h]

theorem sliceBytes_add (buf : List Byte) (a m n : Nat) :
    sliceBytes buf a (m + n) = sliceBytes buf a m ++ sliceBytes buf (a + m) n := by
  simp [sliceBytes, List.take_add, List.drop_drop]

/-! ## Taking bytes from a stream -/

theorem takeBytes_some {f : Nat → Option Byte} {p : Nat} {b : Byte} (h : f p = some b) (n : Nat) :
    takeBytes f p (n + 1) = b :: takeBytes f (p + 1) n := by simp [takeBytes, h]

theorem takeBytes_none {f : Nat → Option Byte} {p : Nat} (h : f p = none) (n : Nat) : takeBytes f p n = [] := by
  cases n <;> simp [takeBytes, h]

theorem takeBytes_length_le (f : Nat → Option Byte) (p n : Nat) : (takeBytes f p n).length ≤ n := by
  induction n generalizing p with
  | zero => simp [takeBytes]
  | succ n ih =>
    cases h : f p with
    | none => simp [takeBytes_none h]
    | some b => simpa [takeBytes_some h] using ih (p + 1)

theorem takeBytes_congr {f g : Nat → Option Byte} {p n : Nat} (h : ∀ q, p ≤ q → q < p + n → f q = g q) :
    takeBytes f p n = takeBytes g p n := by
  induction n generalizing p with
  | zero => rfl
  | succ n ih =>
    rw [takeBytes, takeBytes, h p (Nat.le_refl p) (by omega), ih fun q hq hq' => h q (by omega) (by omega)]

/-- Byte `j` of what was taken is byte `p + j` of the stream. -/
theorem takeBytes_getElem? (f : Nat → Option Byte) (p n : Nat) {j : Nat} (h : j < (takeBytes f p n).length) :
    (takeBytes f p n)[j]? = f (p + j) := by
  induction n generalizing p j with
  | zero => simp [takeBytes] at h
  | succ n ih =>
    cases hb : f p with
    | none => simp [takeBytes_none hb] at h
    | some b =>
      rw [takeBytes_some hb] at h ⊢
      cases j with
      | zero => simp [hb]
      | succ j => simpa [Nat.add_assoc, Nat.add_comm 1 j] using ih (p + 1) (j := j) (by simpa using h)

/-- A stream that gave fewer bytes than asked has none at the next position. -/
theorem takeBytes_none_of_lt (f : Nat → Option Byte) (p n : Nat) (h : (takeBytes f p n).length < n) :
    f (p + (takeBytes f p n).length) = none := by
  induction n generalizing p with
  | zero => simp at h
  | succ n ih =>
    cases hb : f p with
    | none => simpa [takeBytes_none hb] using hb
    | some b =>
      rw [takeBytes_some hb] at h ⊢
      simpa [Nat.add_assoc, Nat.add_comm 1] using ih (p + 1) (by simpa using h)

/-- The bytes taken are the only list with these properties. -/
theorem takeBytes_eq_of {f : Nat → Option Byte} {p n : Nat} {l : List Byte} (hle : l.length ≤ n)
    (hget : ∀ j, j < l.length → f (p + j) = l[j]?) (hend : l.length < n → f (p + l.length) = none) :
    takeBytes f p n = l := by
  induction n generalizing p l with
  | zero => simp [takeBytes, List.length_eq_zero_iff.1 (Nat.le_zero.1 hle)]
  | succ n ih =>
    cases l with
    | nil => exact takeBytes_none (by simpa using hend (by simp)) _
    | cons b l =>
      rw [takeBytes_some (by simpa using hget 0 (by simp) : f p = some b)]
      simp only [List.cons.injEq, true_and]
      refine ih (by simpa using hle) (fun j hj => ?_) (fun hl => ?_)
      · simpa [Nat.add_assoc, Nat.add_comm 1 j] using hget (j + 1) (by simpa using hj)
      · simpa [Nat.add_assoc, Nat.add_comm 1] using hend (by simpa using hl)

/-- Asking for fewer bytes takes a prefix. -/
theorem takeBytes_take (f : Nat → Option Byte) (p : Nat) {m n : Nat} (h : m ≤ n) :
    (takeBytes f p n).take m = takeBytes f p m := by
  induction n generalizing p m with
  | zero => simp [takeBytes, Nat.le_zero.1 h]
  | succ n ih =>
    cases m with
    | zero => simp [takeBytes]
    | succ m =>
      cases hb : f p with
      | none => simp [takeBytes_none hb]
      | some b => simp [takeBytes_some hb, ih (p + 1) (by omega : m ≤ n)]

/-- What is asked in two parts is taken in two parts, the second only when the first was complete. -/
theorem takeBytes_add (f : Nat → Option Byte) (p m n : Nat) :
    takeBytes f p (m + n) =
      takeBytes f p m ++ (if (takeBytes f p m).length = m then takeBytes f (p + m) n else []) := by
  induction m generalizing p with
  | zero => simp [takeBytes]
  | succ m ih =>
    rw [show m + 1 + n = (m + n) + 1 by omega]
    cases hb : f p with
    | none => simp [takeBytes_none hb]
    | some b =>
      rw [takeBytes_some hb, takeBytes_some hb, ih (p + 1), show p + (m + 1) = p + 1 + m by omega]
      simp

/-! ## Raw streams as memories -/

theorem Memory.slice_eq_takeBytes (m : Memory) (a n : Nat) : m.slice a n = takeBytes m.read? a n := by
  induction n generalizing a with
  | zero => rfl
  | succ n ih =>
    cases hb : m.read? a with
    | none => simp [Memory.slice, takeBytes_none hb, hb]
    | some b => simp [Memory.slice, takeBytes_some hb, hb, ih]

@[simp] theorem cellsFrom_length (a : Nat) (l : List Byte) : (cellsFrom a l).length = l.length := by
  induction l generalizing a with
  | nil => rfl
  | cons b l ih => simp [cellsFrom, ih]

@[simp] theorem cellsFrom_bytes (a : Nat) (l : List Byte) : (cellsFrom a l).map Prod.snd = l := by
  induction l generalizing a with
  | nil => rfl
  | cons b l ih => simp [cellsFrom, ih]

theorem cellsFrom_addresses (a : Nat) (l : List Byte) : (cellsFrom a l).map Prod.fst = List.range' a l.length := by
  induction l generalizing a with
  | nil => rfl
  | cons b l ih => simp [cellsFrom, ih, List.range'_succ]

@[simp] theorem Memory.append_length (m : Memory) (l : List Byte) : (m.append l).length = m.length + l.length := by
  simp [Memory.append]

@[simp] theorem Memory.append_bytes (m : Memory) (l : List Byte) : (m.append l).bytes = m.bytes ++ l := by
  simp [Memory.append, Memory.bytes]

@[simp] theorem Memory.append_nil (m : Memory) : m.append [] = m := by simp [Memory.append, cellsFrom]

theorem cellsFrom_append (a : Nat) (l k : List Byte) :
    cellsFrom a (l ++ k) = cellsFrom a l ++ cellsFrom (a + l.length) k := by
  induction l generalizing a with
  | nil => simp [cellsFrom]
  | cons b l ih => simp [cellsFrom, ih, Nat.add_assoc, Nat.add_comm 1]

theorem Memory.append_append (m : Memory) (l k : List Byte) : (m.append l).append k = m.append (l ++ k) := by
  simp [Memory.append, cellsFrom_append]

@[simp] theorem Memory.bytes_length (m : Memory) : m.bytes.length = m.length := by simp [Memory.bytes]

@[simp] theorem Memory.bytes_ofBytes (l : List Byte) : (Memory.ofBytes l).bytes = l := by
  simp [Memory.ofBytes, Memory.bytes]

@[simp] theorem Memory.ofBytes_length (l : List Byte) : (Memory.ofBytes l).length = l.length := by simp [Memory.ofBytes]

/-- The one operation that writes a raw stream keeps its canonical form (rule R77). -/
theorem Memory.append_wf {m : Memory} (h : m.wf) (l : List Byte) : (m.append l).wf := by
  have h' : List.map Prod.fst m = List.range m.length := h
  rw [Memory.wf, Memory.append, List.map_append, cellsFrom_addresses, h', List.length_append, cellsFrom_length,
    List.range_eq_range', List.range_eq_range']
  simpa using (List.range'_append (s := 0) (m := m.length) (n := l.length) (step := 1))

theorem Memory.ofBytes_wf (l : List Byte) : (Memory.ofBytes l).wf := by
  simpa [Memory.append, Memory.ofBytes] using Memory.append_wf (m := []) rfl l

theorem Memory.nil_wf : Memory.wf [] := rfl

theorem lookup_cellsFrom (a : Nat) (l : List Byte) (p : Nat) :
    (cellsFrom a l).lookup p = if a ≤ p then l[p - a]? else none := by
  induction l generalizing a with
  | nil => simp [cellsFrom]
  | cons b l ih =>
    by_cases h : p = a
    · subst h
      simp [cellsFrom]
    · rw [cellsFrom, List.lookup_cons, beq_false_of_ne h, ih]
      by_cases h2 : a ≤ p
      · rw [if_pos (by omega), if_pos h2, show p - a = (p - (a + 1)) + 1 by omega]
        simp
      · rw [if_neg (by omega), if_neg h2]

/-- Cells with the same addresses and the same bytes are the same. -/
theorem cells_ext {m k : Memory} (h1 : m.map Prod.fst = k.map Prod.fst) (h2 : m.map Prod.snd = k.map Prod.snd) : m = k := by
  induction m generalizing k with
  | nil => exact (List.map_eq_nil_iff.1 h1.symm).symm
  | cons c m ih =>
    cases k with
    | nil => simp at h1
    | cons d k =>
      simp only [List.map_cons, List.cons.injEq] at h1 h2
      rw [ih h1.2 h2.2, Prod.ext h1.1 h2.1]

/-- A memory in canonical form is its bytes laid down from address 0. -/
theorem Memory.eq_ofBytes {m : Memory} (h : m.wf) : m = Memory.ofBytes m.bytes := by
  have h1 : List.map Prod.fst m = List.range m.length := h
  refine cells_ext ?_ (by simp [Memory.ofBytes, Memory.bytes])
  rw [h1, Memory.ofBytes, cellsFrom_addresses, List.range_eq_range', Memory.bytes_length]

/-- In canonical form the byte at an address is the byte at that offset of the stream; none beyond its end. -/
theorem Memory.read?_eq {m : Memory} (h : m.wf) (a : Nat) : m.read? a = m.bytes[a]? := by
  conv_lhs => rw [Memory.eq_ofBytes h]
  simp [Memory.read?, Memory.ofBytes, lookup_cellsFrom]

/-- In canonical form a read takes the bytes of the stream from its offset on (rule R76). -/
theorem Memory.slice_eq {m : Memory} (h : m.wf) (a n : Nat) : m.slice a n = sliceBytes m.bytes a n := by
  rw [Memory.slice_eq_takeBytes]
  refine takeBytes_eq_of (by simp [sliceBytes]) (fun j hj => ?_) (fun hl => ?_)
  · have hj' : j < n := by simp [sliceBytes] at hj; omega
    rw [Memory.read?_eq h, sliceBytes_getElem? _ _ _ hj']
  · rw [Memory.read?_eq h]
    simp [sliceBytes] at hl ⊢
    omega

/-- A read gives as many bytes as the stream has from its offset on, at most as many as asked (rule R76). -/
theorem Memory.slice_length {m : Memory} (h : m.wf) (a n : Nat) : (m.slice a n).length = min n (m.length - a) := by
  rw [Memory.slice_eq h]
  simp [sliceBytes]

/-- An append leaves the bytes that were there as they read before (rule R77). -/
theorem Memory.read?_append_of_lt {m : Memory} (h : m.wf) (l : List Byte) {a : Nat} (ha : a < m.length) :
    (m.append l).read? a = m.read? a := by
  rw [Memory.read?_eq (Memory.append_wf h l), Memory.read?_eq h, Memory.append_bytes]
  exact List.getElem?_append_left (by simpa using ha)

end Sys2Proof.Machine
end

