-- ==== Sys2Proof/Laws/Frames.lean ====
section
/-! SUPPORT. The frame of every shared operation, field by field: what it leaves as it was. -/

namespace Sys2Proof.Machine

/-! ## `CRA` -/

@[simp] theorem rawInSeek_frame (off : Nat) (s : State) :
    (rawInSeek off s).2.cfg = s.cfg ∧ (rawInSeek off s).2.rawIn = s.rawIn ∧ (rawInSeek off s).2.cmds = s.cmds ∧
    (rawInSeek off s).2.pc = s.pc ∧ (rawInSeek off s).2.r = s.r ∧ (rawInSeek off s).2.status = s.status ∧
    (rawInSeek off s).2.dataOut = s.dataOut ∧ (rawInSeek off s).2.br = s.br ∧ (rawInSeek off s).2.bw = s.bw ∧
    (rawInSeek off s).2.cra = s.cra ∧ (rawInSeek off s).2.cwa = s.cwa ∧ (rawInSeek off s).2.rawOut = s.rawOut := by
  exact ⟨rfl, rfl, rfl, rfl, rfl, rfl, rfl, rfl, rfl, rfl, rfl, rfl⟩

@[simp] theorem rawInRead_frame (n : Nat) (s : State) :
    (rawInRead n s).2.cfg = s.cfg ∧ (rawInRead n s).2.rawIn = s.rawIn ∧ (rawInRead n s).2.cmds = s.cmds ∧
    (rawInRead n s).2.pc = s.pc ∧ (rawInRead n s).2.r = s.r ∧ (rawInRead n s).2.status = s.status ∧
    (rawInRead n s).2.dataOut = s.dataOut ∧ (rawInRead n s).2.br = s.br ∧ (rawInRead n s).2.bw = s.bw ∧
    (rawInRead n s).2.cra = s.cra ∧ (rawInRead n s).2.cwa = s.cwa ∧ (rawInRead n s).2.rawOut = s.rawOut := by
  exact ⟨rfl, rfl, rfl, rfl, rfl, rfl, rfl, rfl, rfl, rfl, rfl, rfl⟩

@[simp] theorem craFetch_frame (b : Nat) (s : State) :
    (craFetch b s).2.cfg = s.cfg ∧ (craFetch b s).2.rawIn = s.rawIn ∧ (craFetch b s).2.cmds = s.cmds ∧
    (craFetch b s).2.pc = s.pc ∧ (craFetch b s).2.r = s.r ∧ (craFetch b s).2.status = s.status ∧
    (craFetch b s).2.dataOut = s.dataOut ∧ (craFetch b s).2.br = s.br ∧ (craFetch b s).2.bw = s.bw ∧
    (craFetch b s).2.cwa = s.cwa ∧ (craFetch b s).2.rawOut = s.rawOut ∧ (craFetch b s).2.cra.live = s.cra.live ∧
    (craFetch b s).2.cra.own = s.cra.own ∧ (craFetch b s).2.cra.sched = s.cra.sched ∧
    (craFetch b s).2.cra.start = s.cra.start ∧ (craFetch b s).2.cra.length = s.cra.length := by
  unfold craFetch; dsimp only; split <;> simp

@[simp] theorem craLoad_frame (b : Nat) (s : State) :
    (craLoad b s).2.cfg = s.cfg ∧ (craLoad b s).2.rawIn = s.rawIn ∧ (craLoad b s).2.cmds = s.cmds ∧
    (craLoad b s).2.pc = s.pc ∧ (craLoad b s).2.r = s.r ∧ (craLoad b s).2.status = s.status ∧
    (craLoad b s).2.dataOut = s.dataOut ∧ (craLoad b s).2.br = s.br ∧ (craLoad b s).2.bw = s.bw ∧
    (craLoad b s).2.cwa = s.cwa ∧ (craLoad b s).2.rawOut = s.rawOut ∧ (craLoad b s).2.cra.live = s.cra.live ∧
    (craLoad b s).2.cra.own = s.cra.own ∧ (craLoad b s).2.cra.sched = s.cra.sched ∧
    (craLoad b s).2.cra.start = s.cra.start ∧ (craLoad b s).2.cra.length = s.cra.length := by
  unfold craLoad; split <;> simp

@[simp] theorem craLoad_cra_pos (b : Nat) (s : State) :
    (craLoad b s).2.cra.pos = s.cra.pos := by
  unfold craLoad craFetch; split
  · rfl
  · dsimp only; split <;> simp

@[simp] theorem craReadCore_frame (n : Nat) (s : State) :
    (craReadCore n s).2.cfg = s.cfg ∧ (craReadCore n s).2.rawIn = s.rawIn ∧ (craReadCore n s).2.cmds = s.cmds ∧
    (craReadCore n s).2.pc = s.pc ∧ (craReadCore n s).2.r = s.r ∧ (craReadCore n s).2.status = s.status ∧
    (craReadCore n s).2.dataOut = s.dataOut ∧ (craReadCore n s).2.br = s.br ∧ (craReadCore n s).2.bw = s.bw ∧
    (craReadCore n s).2.cwa = s.cwa ∧ (craReadCore n s).2.rawOut = s.rawOut ∧
    (craReadCore n s).2.cra.live = s.cra.live ∧ (craReadCore n s).2.cra.own = s.cra.own ∧
    (craReadCore n s).2.cra.sched = s.cra.sched ∧ (craReadCore n s).2.cra.start = s.cra.start ∧
    (craReadCore n s).2.cra.length = s.cra.length := by
  induction n generalizing s with
  | zero => simp [craReadCore]
  | succ n ih =>
    unfold craReadCore
    split
    · dsimp only
      split
      · simp [ih]
      · simp
    · simp

@[simp] theorem craSeekCore_frame (o : Origin) (off : Int) (s : State) :
    (craSeekCore o off s).2.cfg = s.cfg ∧ (craSeekCore o off s).2.rawIn = s.rawIn ∧
    (craSeekCore o off s).2.cmds = s.cmds ∧ (craSeekCore o off s).2.pc = s.pc ∧ (craSeekCore o off s).2.r = s.r ∧
    (craSeekCore o off s).2.status = s.status ∧ (craSeekCore o off s).2.dataOut = s.dataOut ∧
    (craSeekCore o off s).2.br = s.br ∧ (craSeekCore o off s).2.bw = s.bw ∧ (craSeekCore o off s).2.cwa = s.cwa ∧
    (craSeekCore o off s).2.rc = s.rc ∧ (craSeekCore o off s).2.rawOut = s.rawOut ∧
    (craSeekCore o off s).2.log = s.log ∧ (craSeekCore o off s).2.cra.live = s.cra.live ∧
    (craSeekCore o off s).2.cra.own = s.cra.own ∧ (craSeekCore o off s).2.cra.sched = s.cra.sched ∧
    (craSeekCore o off s).2.cra.start = s.cra.start ∧ (craSeekCore o off s).2.cra.length = s.cra.length ∧
    (craSeekCore o off s).2.cra.blk = s.cra.blk ∧ (craSeekCore o off s).2.cra.dirty = s.cra.dirty ∧
    (craSeekCore o off s).2.cra.pt = s.cra.pt := by
  unfold craSeekCore; dsimp only; split <;> simp

/-! ## `DS_R` -/

@[simp] theorem dsrSeek_frame (off : Nat) (s : State) :
    (dsrSeek off s).2.cfg = s.cfg ∧ (dsrSeek off s).2.rawIn = s.rawIn ∧ (dsrSeek off s).2.cmds = s.cmds ∧
    (dsrSeek off s).2.pc = s.pc ∧ (dsrSeek off s).2.r = s.r ∧ (dsrSeek off s).2.status = s.status ∧
    (dsrSeek off s).2.dataOut = s.dataOut ∧ (dsrSeek off s).2.br = s.br ∧ (dsrSeek off s).2.bw = s.bw ∧
    (dsrSeek off s).2.cwa = s.cwa ∧ (dsrSeek off s).2.rawOut = s.rawOut ∧ (dsrSeek off s).2.cra.live = s.cra.live ∧
    (dsrSeek off s).2.cra.own = s.cra.own ∧ (dsrSeek off s).2.cra.sched = s.cra.sched ∧
    (dsrSeek off s).2.cra.start = s.cra.start ∧ (dsrSeek off s).2.cra.length = s.cra.length := by
  unfold dsrSeek; split
  · simp
  · split <;> simp

@[simp] theorem dsrRead_frame (n : Nat) (s : State) :
    (dsrRead n s).2.cfg = s.cfg ∧ (dsrRead n s).2.rawIn = s.rawIn ∧ (dsrRead n s).2.cmds = s.cmds ∧
    (dsrRead n s).2.pc = s.pc ∧ (dsrRead n s).2.r = s.r ∧ (dsrRead n s).2.status = s.status ∧
    (dsrRead n s).2.dataOut = s.dataOut ∧ (dsrRead n s).2.br = s.br ∧ (dsrRead n s).2.bw = s.bw ∧
    (dsrRead n s).2.cwa = s.cwa ∧ (dsrRead n s).2.rawOut = s.rawOut ∧ (dsrRead n s).2.cra.live = s.cra.live ∧
    (dsrRead n s).2.cra.own = s.cra.own ∧ (dsrRead n s).2.cra.sched = s.cra.sched ∧
    (dsrRead n s).2.cra.start = s.cra.start ∧ (dsrRead n s).2.cra.length = s.cra.length := by
  unfold dsrRead; split
  · simp
  · split <;> simp

/-! ## `BR` -/

@[simp] theorem brFillLoop_frame (n : Nat) (s : State) :
    (brFillLoop n s).cfg = s.cfg ∧ (brFillLoop n s).rawIn = s.rawIn ∧ (brFillLoop n s).cmds = s.cmds ∧
    (brFillLoop n s).pc = s.pc ∧ (brFillLoop n s).r = s.r ∧ (brFillLoop n s).status = s.status ∧
    (brFillLoop n s).dataOut = s.dataOut ∧ (brFillLoop n s).bw = s.bw ∧ (brFillLoop n s).cwa = s.cwa ∧
    (brFillLoop n s).rawOut = s.rawOut ∧ (brFillLoop n s).br.live = s.br.live ∧
    (brFillLoop n s).br.marks = s.br.marks ∧ (brFillLoop n s).cra.live = s.cra.live ∧
    (brFillLoop n s).cra.own = s.cra.own ∧ (brFillLoop n s).cra.sched = s.cra.sched ∧
    (brFillLoop n s).cra.start = s.cra.start ∧ (brFillLoop n s).cra.length = s.cra.length ∧
    (brFillLoop n s).br.err = s.br.err ∧ (brFillLoop n s).br.bit = s.br.bit ∧ (brFillLoop n s).br.pos = s.br.pos ∧
    (brFillLoop n s).br.idx = s.br.idx := by
  induction n generalizing s with
  | zero => simp [brFillLoop]
  | succ n ih =>
    unfold brFillLoop
    split
    · simp
    · dsimp only
      split
      · simp
      · simp [ih]

@[simp] theorem brFill_frame (s : State) :
    (brFill s).cfg = s.cfg ∧ (brFill s).rawIn = s.rawIn ∧ (brFill s).cmds = s.cmds ∧ (brFill s).pc = s.pc ∧
    (brFill s).r = s.r ∧ (brFill s).status = s.status ∧ (brFill s).dataOut = s.dataOut ∧ (brFill s).bw = s.bw ∧
    (brFill s).cwa = s.cwa ∧ (brFill s).rawOut = s.rawOut ∧ (brFill s).br.live = s.br.live ∧
    (brFill s).br.marks = s.br.marks ∧ (brFill s).cra.live = s.cra.live ∧ (brFill s).cra.own = s.cra.own ∧
    (brFill s).cra.sched = s.cra.sched ∧ (brFill s).cra.start = s.cra.start ∧ (brFill s).cra.length = s.cra.length ∧
    (brFill s).br.bit = s.br.bit := by
  unfold brFill; dsimp only; split <;> simp [Br.shifted]

@[simp] theorem brEnsure_frame (n : Nat) (s : State) :
    (brEnsure n s).2.cfg = s.cfg ∧ (brEnsure n s).2.rawIn = s.rawIn ∧ (brEnsure n s).2.cmds = s.cmds ∧
    (brEnsure n s).2.pc = s.pc ∧ (brEnsure n s).2.r = s.r ∧ (brEnsure n s).2.status = s.status ∧
    (brEnsure n s).2.dataOut = s.dataOut ∧ (brEnsure n s).2.bw = s.bw ∧ (brEnsure n s).2.cwa = s.cwa ∧
    (brEnsure n s).2.rawOut = s.rawOut ∧ (brEnsure n s).2.br.live = s.br.live ∧
    (brEnsure n s).2.br.marks = s.br.marks ∧ (brEnsure n s).2.cra.live = s.cra.live ∧
    (brEnsure n s).2.cra.own = s.cra.own ∧ (brEnsure n s).2.cra.sched = s.cra.sched ∧
    (brEnsure n s).2.cra.start = s.cra.start ∧ (brEnsure n s).2.cra.length = s.cra.length ∧
    (brEnsure n s).2.br.bit = s.br.bit := by
  unfold brEnsure; dsimp only; split <;> simp

@[simp] theorem brPeekBits_frame (n : Nat) (s : State) :
    (brPeekBits n s).2.cfg = s.cfg ∧ (brPeekBits n s).2.rawIn = s.rawIn ∧ (brPeekBits n s).2.cmds = s.cmds ∧
    (brPeekBits n s).2.pc = s.pc ∧ (brPeekBits n s).2.r = s.r ∧ (brPeekBits n s).2.status = s.status ∧
    (brPeekBits n s).2.dataOut = s.dataOut ∧ (brPeekBits n s).2.bw = s.bw ∧ (brPeekBits n s).2.cwa = s.cwa ∧
    (brPeekBits n s).2.rawOut = s.rawOut ∧ (brPeekBits n s).2.br.live = s.br.live ∧
    (brPeekBits n s).2.br.marks = s.br.marks ∧ (brPeekBits n s).2.cra.live = s.cra.live ∧
    (brPeekBits n s).2.cra.own = s.cra.own ∧ (brPeekBits n s).2.cra.sched = s.cra.sched ∧
    (brPeekBits n s).2.cra.start = s.cra.start ∧ (brPeekBits n s).2.cra.length = s.cra.length ∧
    (brPeekBits n s).2.br.bit = s.br.bit := by
  unfold brPeekBits; dsimp only; split <;> simp

@[simp] theorem brReposition_frame (tb : Nat) (tbit : Fin 8) (s : State) :
    (brReposition tb tbit s).cfg = s.cfg ∧ (brReposition tb tbit s).rawIn = s.rawIn ∧
    (brReposition tb tbit s).cmds = s.cmds ∧ (brReposition tb tbit s).pc = s.pc ∧ (brReposition tb tbit s).r = s.r ∧
    (brReposition tb tbit s).status = s.status ∧ (brReposition tb tbit s).dataOut = s.dataOut ∧
    (brReposition tb tbit s).bw = s.bw ∧ (brReposition tb tbit s).cwa = s.cwa ∧
    (brReposition tb tbit s).rawOut = s.rawOut ∧ (brReposition tb tbit s).br.live = s.br.live ∧
    (brReposition tb tbit s).br.marks = s.br.marks ∧ (brReposition tb tbit s).cra.live = s.cra.live ∧
    (brReposition tb tbit s).cra.own = s.cra.own ∧ (brReposition tb tbit s).cra.sched = s.cra.sched ∧
    (brReposition tb tbit s).cra.start = s.cra.start ∧ (brReposition tb tbit s).cra.length = s.cra.length := by
  unfold brReposition; split
  · simp
  · split <;> simp

@[simp] theorem brRefill_frame (s : State) :
    (brRefill s).cfg = s.cfg ∧ (brRefill s).rawIn = s.rawIn ∧ (brRefill s).cmds = s.cmds ∧ (brRefill s).pc = s.pc ∧
    (brRefill s).r = s.r ∧ (brRefill s).status = s.status ∧ (brRefill s).dataOut = s.dataOut ∧
    (brRefill s).bw = s.bw ∧ (brRefill s).cwa = s.cwa ∧ (brRefill s).rawOut = s.rawOut ∧
    (brRefill s).br.live = s.br.live ∧ (brRefill s).br.marks = s.br.marks ∧ (brRefill s).cra.live = s.cra.live ∧
    (brRefill s).cra.own = s.cra.own ∧ (brRefill s).cra.sched = s.cra.sched ∧ (brRefill s).cra.start = s.cra.start ∧
    (brRefill s).cra.length = s.cra.length ∧ (brRefill s).br.bit = s.br.bit := by
  unfold brRefill; split <;> simp

@[simp] theorem brReadLoop_frame (n : Nat) (w : Nat) (s : State) :
    (brReadLoop n w s).2.cfg = s.cfg ∧ (brReadLoop n w s).2.rawIn = s.rawIn ∧ (brReadLoop n w s).2.cmds = s.cmds ∧
    (brReadLoop n w s).2.pc = s.pc ∧ (brReadLoop n w s).2.r = s.r ∧ (brReadLoop n w s).2.status = s.status ∧
    (brReadLoop n w s).2.dataOut = s.dataOut ∧ (brReadLoop n w s).2.bw = s.bw ∧ (brReadLoop n w s).2.cwa = s.cwa ∧
    (brReadLoop n w s).2.rawOut = s.rawOut ∧ (brReadLoop n w s).2.br.live = s.br.live ∧
    (brReadLoop n w s).2.br.marks = s.br.marks ∧ (brReadLoop n w s).2.cra.live = s.cra.live ∧
    (brReadLoop n w s).2.cra.own = s.cra.own ∧ (brReadLoop n w s).2.cra.sched = s.cra.sched ∧
    (brReadLoop n w s).2.cra.start = s.cra.start ∧ (brReadLoop n w s).2.cra.length = s.cra.length ∧
    (brReadLoop n w s).2.br.bit = s.br.bit := by
  induction n generalizing w s with
  | zero => simp [brReadLoop]
  | succ n ih =>
    unfold brReadLoop
    split
    · simp
    · dsimp only
      split
      · simp
      · simp [ih]

@[simp] theorem brReadBytesCore_frame (n : Nat) (s : State) :
    (brReadBytesCore n s).2.cfg = s.cfg ∧ (brReadBytesCore n s).2.rawIn = s.rawIn ∧
    (brReadBytesCore n s).2.cmds = s.cmds ∧ (brReadBytesCore n s).2.pc = s.pc ∧ (brReadBytesCore n s).2.r = s.r ∧
    (brReadBytesCore n s).2.status = s.status ∧ (brReadBytesCore n s).2.dataOut = s.dataOut ∧
    (brReadBytesCore n s).2.bw = s.bw ∧ (brReadBytesCore n s).2.cwa = s.cwa ∧
    (brReadBytesCore n s).2.rawOut = s.rawOut ∧ (brReadBytesCore n s).2.br.live = s.br.live ∧
    (brReadBytesCore n s).2.br.marks = s.br.marks ∧ (brReadBytesCore n s).2.cra.live = s.cra.live ∧
    (brReadBytesCore n s).2.cra.own = s.cra.own ∧ (brReadBytesCore n s).2.cra.sched = s.cra.sched ∧
    (brReadBytesCore n s).2.cra.start = s.cra.start ∧ (brReadBytesCore n s).2.cra.length = s.cra.length ∧
    (brReadBytesCore n s).2.br.bit = s.br.bit := by
  unfold brReadBytesCore; dsimp only; split <;> simp

@[simp] theorem brStrLoop_frame (n : Nat) (s : State) :
    (brStrLoop n s).2.cfg = s.cfg ∧ (brStrLoop n s).2.rawIn = s.rawIn ∧ (brStrLoop n s).2.cmds = s.cmds ∧
    (brStrLoop n s).2.pc = s.pc ∧ (brStrLoop n s).2.r = s.r ∧ (brStrLoop n s).2.status = s.status ∧
    (brStrLoop n s).2.dataOut = s.dataOut ∧ (brStrLoop n s).2.bw = s.bw ∧ (brStrLoop n s).2.cwa = s.cwa ∧
    (brStrLoop n s).2.rawOut = s.rawOut ∧ (brStrLoop n s).2.br.live = s.br.live ∧
    (brStrLoop n s).2.br.marks = s.br.marks ∧ (brStrLoop n s).2.cra.live = s.cra.live ∧
    (brStrLoop n s).2.cra.own = s.cra.own ∧ (brStrLoop n s).2.cra.sched = s.cra.sched ∧
    (brStrLoop n s).2.cra.start = s.cra.start ∧ (brStrLoop n s).2.cra.length = s.cra.length ∧
    (brStrLoop n s).2.br.bit = s.br.bit := by
  induction n generalizing s with
  | zero => simp [brStrLoop]
  | succ n ih =>
    unfold brStrLoop
    dsimp only
    split
    · simp
    · split
      · simp
      · simp [ih]

@[simp] theorem brReadLE_frame (n : Nat) (s : State) :
    (brReadLE n s).2.cfg = s.cfg ∧ (brReadLE n s).2.rawIn = s.rawIn ∧ (brReadLE n s).2.cmds = s.cmds ∧
    (brReadLE n s).2.pc = s.pc ∧ (brReadLE n s).2.r = s.r ∧ (brReadLE n s).2.status = s.status ∧
    (brReadLE n s).2.dataOut = s.dataOut ∧ (brReadLE n s).2.bw = s.bw ∧ (brReadLE n s).2.cwa = s.cwa ∧
    (brReadLE n s).2.rawOut = s.rawOut ∧ (brReadLE n s).2.br.live = s.br.live ∧
    (brReadLE n s).2.br.marks = s.br.marks ∧ (brReadLE n s).2.cra.live = s.cra.live ∧
    (brReadLE n s).2.cra.own = s.cra.own ∧ (brReadLE n s).2.cra.sched = s.cra.sched ∧
    (brReadLE n s).2.cra.start = s.cra.start ∧ (brReadLE n s).2.cra.length = s.cra.length ∧
    (brReadLE n s).2.br.bit = s.br.bit := by
  unfold brReadLE; dsimp only; split <;> simp

/-! ## `CWA` -/

@[simp] theorem rawOutWrite_frame (l : List Byte) (s : State) :
    (rawOutWrite l s).2.cfg = s.cfg ∧ (rawOutWrite l s).2.rawIn = s.rawIn ∧ (rawOutWrite l s).2.cmds = s.cmds ∧
    (rawOutWrite l s).2.pc = s.pc ∧ (rawOutWrite l s).2.r = s.r ∧ (rawOutWrite l s).2.status = s.status ∧
    (rawOutWrite l s).2.dataOut = s.dataOut ∧ (rawOutWrite l s).2.br = s.br ∧ (rawOutWrite l s).2.bw = s.bw ∧
    (rawOutWrite l s).2.cra = s.cra ∧ (rawOutWrite l s).2.cwa = s.cwa ∧ (rawOutWrite l s).2.rc = s.rc := by
  exact ⟨rfl, rfl, rfl, rfl, rfl, rfl, rfl, rfl, rfl, rfl, rfl, rfl⟩

@[simp] theorem rawOutFlush_frame (s : State) :
    (rawOutFlush s).cfg = s.cfg ∧ (rawOutFlush s).rawIn = s.rawIn ∧ (rawOutFlush s).cmds = s.cmds ∧
    (rawOutFlush s).pc = s.pc ∧ (rawOutFlush s).r = s.r ∧ (rawOutFlush s).status = s.status ∧
    (rawOutFlush s).dataOut = s.dataOut ∧ (rawOutFlush s).br = s.br ∧ (rawOutFlush s).bw = s.bw ∧
    (rawOutFlush s).cra = s.cra ∧ (rawOutFlush s).cwa = s.cwa ∧ (rawOutFlush s).rc = s.rc ∧
    (rawOutFlush s).rawOut = s.rawOut := by
  simp [rawOutFlush]

@[simp] theorem cwaFlushEnd_frame (f : Bool) (s : State) :
    (cwaFlushEnd f s).cfg = s.cfg ∧ (cwaFlushEnd f s).rawIn = s.rawIn ∧ (cwaFlushEnd f s).cmds = s.cmds ∧
    (cwaFlushEnd f s).pc = s.pc ∧ (cwaFlushEnd f s).r = s.r ∧ (cwaFlushEnd f s).status = s.status ∧
    (cwaFlushEnd f s).dataOut = s.dataOut ∧ (cwaFlushEnd f s).br = s.br ∧ (cwaFlushEnd f s).bw = s.bw ∧
    (cwaFlushEnd f s).cra = s.cra ∧ (cwaFlushEnd f s).rc = s.rc ∧ (cwaFlushEnd f s).rawOut = s.rawOut ∧
    (cwaFlushEnd f s).cwa.live = s.cwa.live ∧ (cwaFlushEnd f s).cwa.own = s.cwa.own ∧
    (cwaFlushEnd f s).cwa.sched = s.cwa.sched ∧ (cwaFlushEnd f s).cwa.err = s.cwa.err ∧
    (cwaFlushEnd f s).cwa.sealed = s.cwa.sealed := by
  unfold cwaFlushEnd Cwa.flushed; cases f <;> simp

@[simp] theorem cwaFlushCore_frame (f : Bool) (s : State) :
    (cwaFlushCore f s).cfg = s.cfg ∧ (cwaFlushCore f s).rawIn = s.rawIn ∧ (cwaFlushCore f s).cmds = s.cmds ∧
    (cwaFlushCore f s).pc = s.pc ∧ (cwaFlushCore f s).r = s.r ∧ (cwaFlushCore f s).status = s.status ∧
    (cwaFlushCore f s).dataOut = s.dataOut ∧ (cwaFlushCore f s).br = s.br ∧ (cwaFlushCore f s).bw = s.bw ∧
    (cwaFlushCore f s).cra = s.cra ∧ (cwaFlushCore f s).rc = s.rc ∧ (cwaFlushCore f s).cwa.live = s.cwa.live ∧
    (cwaFlushCore f s).cwa.own = s.cwa.own ∧ (cwaFlushCore f s).cwa.sched = s.cwa.sched ∧
    (cwaFlushCore f s).cwa.sealed = s.cwa.sealed := by
  unfold cwaFlushCore; dsimp only; split
  · simp
  · split <;> simp

@[simp] theorem cwaPutBytes_frame (l : List Byte) (s : State) :
    (cwaPutBytes l s).2.cfg = s.cfg ∧ (cwaPutBytes l s).2.rawIn = s.rawIn ∧ (cwaPutBytes l s).2.cmds = s.cmds ∧
    (cwaPutBytes l s).2.pc = s.pc ∧ (cwaPutBytes l s).2.r = s.r ∧ (cwaPutBytes l s).2.status = s.status ∧
    (cwaPutBytes l s).2.dataOut = s.dataOut ∧ (cwaPutBytes l s).2.br = s.br ∧ (cwaPutBytes l s).2.bw = s.bw ∧
    (cwaPutBytes l s).2.cra = s.cra ∧ (cwaPutBytes l s).2.rc = s.rc ∧ (cwaPutBytes l s).2.cwa.live = s.cwa.live ∧
    (cwaPutBytes l s).2.cwa.own = s.cwa.own ∧ (cwaPutBytes l s).2.cwa.sched = s.cwa.sched ∧
    (cwaPutBytes l s).2.cwa.sealed = s.cwa.sealed := by
  induction l generalizing s with
  | nil => simp [cwaPutBytes]
  | cons c l ih =>
    unfold cwaPutBytes
    dsimp only
    split
    · split <;> simp [ih]
    · simp [ih]

@[simp] theorem cwaWriteCore_frame (l : List Byte) (s : State) :
    (cwaWriteCore l s).2.cfg = s.cfg ∧ (cwaWriteCore l s).2.rawIn = s.rawIn ∧ (cwaWriteCore l s).2.cmds = s.cmds ∧
    (cwaWriteCore l s).2.pc = s.pc ∧ (cwaWriteCore l s).2.r = s.r ∧ (cwaWriteCore l s).2.status = s.status ∧
    (cwaWriteCore l s).2.dataOut = s.dataOut ∧ (cwaWriteCore l s).2.br = s.br ∧ (cwaWriteCore l s).2.bw = s.bw ∧
    (cwaWriteCore l s).2.cra = s.cra ∧ (cwaWriteCore l s).2.rc = s.rc ∧ (cwaWriteCore l s).2.cwa.live = s.cwa.live ∧
    (cwaWriteCore l s).2.cwa.own = s.cwa.own ∧ (cwaWriteCore l s).2.cwa.sched = s.cwa.sched ∧
    (cwaWriteCore l s).2.cwa.sealed = s.cwa.sealed := by
  unfold cwaWriteCore; split <;> simp

@[simp] theorem cwaFlushBody_frame (s : State) :
    (cwaFlushBody s).cfg = s.cfg ∧ (cwaFlushBody s).rawIn = s.rawIn ∧ (cwaFlushBody s).cmds = s.cmds ∧
    (cwaFlushBody s).pc = s.pc ∧ (cwaFlushBody s).r = s.r ∧ (cwaFlushBody s).status = s.status ∧
    (cwaFlushBody s).dataOut = s.dataOut ∧ (cwaFlushBody s).br = s.br ∧ (cwaFlushBody s).bw = s.bw ∧
    (cwaFlushBody s).cra = s.cra ∧ (cwaFlushBody s).rc = s.rc ∧ (cwaFlushBody s).cwa.live = s.cwa.live ∧
    (cwaFlushBody s).cwa.own = s.cwa.own ∧ (cwaFlushBody s).cwa.sched = s.cwa.sched ∧
    (cwaFlushBody s).cwa.sealed = s.cwa.sealed := by
  unfold cwaFlushBody; split <;> simp

@[simp] theorem cwaSealBody_frame (s : State) :
    (cwaSealBody s).cfg = s.cfg ∧ (cwaSealBody s).rawIn = s.rawIn ∧ (cwaSealBody s).cmds = s.cmds ∧
    (cwaSealBody s).pc = s.pc ∧ (cwaSealBody s).r = s.r ∧ (cwaSealBody s).status = s.status ∧
    (cwaSealBody s).dataOut = s.dataOut ∧ (cwaSealBody s).br = s.br ∧ (cwaSealBody s).bw = s.bw ∧
    (cwaSealBody s).cra = s.cra ∧ (cwaSealBody s).rc = s.rc ∧ (cwaSealBody s).cwa.live = s.cwa.live ∧
    (cwaSealBody s).cwa.own = s.cwa.own ∧ (cwaSealBody s).cwa.sched = s.cwa.sched := by
  unfold cwaSealBody; dsimp only; split <;> simp

/-! ## `DS_W` -/

@[simp] theorem dswWrite_frame (l : List Byte) (s : State) :
    (dswWrite l s).2.cfg = s.cfg ∧ (dswWrite l s).2.rawIn = s.rawIn ∧ (dswWrite l s).2.cmds = s.cmds ∧
    (dswWrite l s).2.pc = s.pc ∧ (dswWrite l s).2.r = s.r ∧ (dswWrite l s).2.status = s.status ∧
    (dswWrite l s).2.dataOut = s.dataOut ∧ (dswWrite l s).2.br = s.br ∧ (dswWrite l s).2.bw = s.bw ∧
    (dswWrite l s).2.cra = s.cra ∧ (dswWrite l s).2.rc = s.rc ∧ (dswWrite l s).2.cwa.live = s.cwa.live ∧
    (dswWrite l s).2.cwa.own = s.cwa.own ∧ (dswWrite l s).2.cwa.sched = s.cwa.sched ∧
    (dswWrite l s).2.cwa.sealed = s.cwa.sealed := by
  unfold dswWrite; split
  · simp
  · split <;> simp

@[simp] theorem dswFlush_frame (s : State) :
    (dswFlush s).cfg = s.cfg ∧ (dswFlush s).rawIn = s.rawIn ∧ (dswFlush s).cmds = s.cmds ∧ (dswFlush s).pc = s.pc ∧
    (dswFlush s).r = s.r ∧ (dswFlush s).status = s.status ∧ (dswFlush s).dataOut = s.dataOut ∧
    (dswFlush s).br = s.br ∧ (dswFlush s).bw = s.bw ∧ (dswFlush s).cra = s.cra ∧ (dswFlush s).rc = s.rc ∧
    (dswFlush s).cwa.live = s.cwa.live ∧ (dswFlush s).cwa.own = s.cwa.own ∧ (dswFlush s).cwa.sched = s.cwa.sched ∧
    (dswFlush s).cwa.sealed = s.cwa.sealed := by
  unfold dswFlush; split
  · simp
  · split <;> simp

/-! ## `BW` -/

@[simp] theorem bwFlushEnd_frame (s : State) :
    (bwFlushEnd s).cfg = s.cfg ∧ (bwFlushEnd s).rawIn = s.rawIn ∧ (bwFlushEnd s).cmds = s.cmds ∧
    (bwFlushEnd s).pc = s.pc ∧ (bwFlushEnd s).r = s.r ∧ (bwFlushEnd s).status = s.status ∧
    (bwFlushEnd s).dataOut = s.dataOut ∧ (bwFlushEnd s).br = s.br ∧ (bwFlushEnd s).cra = s.cra ∧
    (bwFlushEnd s).rc = s.rc ∧ (bwFlushEnd s).bw.live = s.bw.live ∧ (bwFlushEnd s).bw.marks = s.bw.marks ∧
    (bwFlushEnd s).cwa.live = s.cwa.live ∧ (bwFlushEnd s).cwa.own = s.cwa.own ∧
    (bwFlushEnd s).cwa.sched = s.cwa.sched ∧ (bwFlushEnd s).cwa.sealed = s.cwa.sealed ∧
    (bwFlushEnd s).bw.bit = s.bw.bit ∧ (bwFlushEnd s).bw.err = s.bw.err := by
  simp [bwFlushEnd, Bw.flushed]

@[simp] theorem bwFlush_frame (s : State) :
    (bwFlush s).cfg = s.cfg ∧ (bwFlush s).rawIn = s.rawIn ∧ (bwFlush s).cmds = s.cmds ∧ (bwFlush s).pc = s.pc ∧
    (bwFlush s).r = s.r ∧ (bwFlush s).status = s.status ∧ (bwFlush s).dataOut = s.dataOut ∧ (bwFlush s).br = s.br ∧
    (bwFlush s).cra = s.cra ∧ (bwFlush s).rc = s.rc ∧ (bwFlush s).bw.live = s.bw.live ∧
    (bwFlush s).bw.marks = s.bw.marks ∧ (bwFlush s).cwa.live = s.cwa.live ∧ (bwFlush s).cwa.own = s.cwa.own ∧
    (bwFlush s).cwa.sched = s.cwa.sched ∧ (bwFlush s).cwa.sealed = s.cwa.sealed ∧ (bwFlush s).bw.bit = s.bw.bit := by
  unfold bwFlush; dsimp only; split
  · simp
  · split <;> simp

@[simp] theorem bwMakeRoom_frame (k : Nat) (s : State) :
    (bwMakeRoom k s).cfg = s.cfg ∧ (bwMakeRoom k s).rawIn = s.rawIn ∧ (bwMakeRoom k s).cmds = s.cmds ∧
    (bwMakeRoom k s).pc = s.pc ∧ (bwMakeRoom k s).r = s.r ∧ (bwMakeRoom k s).status = s.status ∧
    (bwMakeRoom k s).dataOut = s.dataOut ∧ (bwMakeRoom k s).br = s.br ∧ (bwMakeRoom k s).cra = s.cra ∧
    (bwMakeRoom k s).rc = s.rc ∧ (bwMakeRoom k s).bw.live = s.bw.live ∧ (bwMakeRoom k s).bw.marks = s.bw.marks ∧
    (bwMakeRoom k s).cwa.live = s.cwa.live ∧ (bwMakeRoom k s).cwa.own = s.cwa.own ∧
    (bwMakeRoom k s).cwa.sched = s.cwa.sched ∧ (bwMakeRoom k s).cwa.sealed = s.cwa.sealed ∧
    (bwMakeRoom k s).bw.bit = s.bw.bit := by
  unfold bwMakeRoom; split <;> simp

/-! ## With a raw downstream the adapters are not touched (rules R140, R141) -/

theorem dsrSeek_cra_of_raw {off : Nat} {s : State} (h : s.cfg.brSrc = .raw) : (dsrSeek off s).2.cra = s.cra := by
  simp [dsrSeek, h]

theorem dsrRead_cra_of_raw {n : Nat} {s : State} (h : s.cfg.brSrc = .raw) : (dsrRead n s).2.cra = s.cra := by
  simp [dsrRead, h]

theorem brFillLoop_cra_of_raw {n : Nat} {s : State} (h : s.cfg.brSrc = .raw) : (brFillLoop n s).cra = s.cra := by
  induction n generalizing s with
  | zero => simp [brFillLoop]
  | succ n ih =>
    unfold brFillLoop
    split
    · rfl
    · dsimp only
      split
      · exact dsrRead_cra_of_raw h
      · rw [ih (by simpa using h)]
        simp [dsrRead_cra_of_raw h]

theorem brFill_cra_of_raw {s : State} (h : s.cfg.brSrc = .raw) : (brFill s).cra = s.cra := by
  unfold brFill
  dsimp only
  have h' : (s.setBr s.br.shifted).cfg.brSrc = .raw := by simpa using h
  split
  · simpa using dsrSeek_cra_of_raw h'
  · rw [brFillLoop_cra_of_raw (by simpa using h'), dsrSeek_cra_of_raw h']
    simp

theorem dswWrite_cwa_of_raw {l : List Byte} {s : State} (h : s.cfg.bwDst = .raw) : (dswWrite l s).2.cwa = s.cwa := by
  simp [dswWrite, h]

theorem dswFlush_cwa_of_raw {s : State} (h : s.cfg.bwDst = .raw) : (dswFlush s).cwa = s.cwa := by
  simp [dswFlush, h]

/-! ## The event log only grows (rule R80) -/

theorem rawInSeek_log (off : Nat) (s : State) : s.log <+: (rawInSeek off s).2.log := by simp [rawInSeek]

theorem rawInRead_log (n : Nat) (s : State) : s.log <+: (rawInRead n s).2.log := by simp [rawInRead]

theorem craFetch_log (b : Nat) (s : State) : s.log <+: (craFetch b s).2.log := by
  have h := (rawInSeek_log (s.cra.start + 8 * b) s).trans (rawInRead_log 8 _)
  unfold craFetch
  dsimp only
  split <;> simpa using h

theorem craLoad_log (b : Nat) (s : State) : s.log <+: (craLoad b s).2.log := by
  unfold craLoad
  split
  · exact List.prefix_refl _
  · exact craFetch_log b s

theorem craReadCore_log (n : Nat) (s : State) : s.log <+: (craReadCore n s).2.log := by
  induction n generalizing s with
  | zero => exact List.prefix_refl _
  | succ n ih =>
    unfold craReadCore
    split
    · dsimp only
      split
      · exact List.IsPrefix.trans (by simpa using craLoad_log _ s) (ih _)
      · exact craLoad_log _ s
    · exact List.prefix_refl _

theorem craSeekCore_log (o : Origin) (off : Int) (s : State) : s.log <+: (craSeekCore o off s).2.log := by simp

theorem dsrSeek_log (off : Nat) (s : State) : s.log <+: (dsrSeek off s).2.log := by
  unfold dsrSeek
  split
  · exact rawInSeek_log off s
  · split <;> simp

theorem dsrRead_log (n : Nat) (s : State) : s.log <+: (dsrRead n s).2.log := by
  unfold dsrRead
  split
  · exact rawInRead_log n s
  · split
    · exact List.prefix_refl _
    · exact List.prefix_refl _
    · exact (craReadCore_log n s).trans (by simp)

theorem brFillLoop_log (n : Nat) (s : State) : s.log <+: (brFillLoop n s).log := by
  induction n generalizing s with
  | zero => exact List.prefix_refl _
  | succ n ih =>
    unfold brFillLoop
    split
    · exact List.prefix_refl _
    · dsimp only
      split
      · exact dsrRead_log _ s
      · exact List.IsPrefix.trans (by simpa using dsrRead_log _ s) (ih _)

theorem brFill_log (s : State) : s.log <+: (brFill s).log := by
  have h := dsrSeek_log ((s.setBr s.br.shifted).br.pos + (s.setBr s.br.shifted).br.fill) (s.setBr s.br.shifted)
  unfold brFill
  dsimp only
  split
  · simpa using h
  · exact (show s.log <+: _ by simpa using h).trans (brFillLoop_log _ _)

theorem brEnsure_log (n : Nat) (s : State) : s.log <+: (brEnsure n s).2.log := by
  unfold brEnsure
  dsimp only
  split
  · exact brFill_log s
  · exact List.prefix_refl _

theorem brPeekBits_log (n : Nat) (s : State) : s.log <+: (brPeekBits n s).2.log := by
  unfold brPeekBits
  dsimp only
  split
  · exact brEnsure_log _ s
  · simpa using brEnsure_log _ s

theorem brReadLE_log (n : Nat) (s : State) : s.log <+: (brReadLE n s).2.log := by
  unfold brReadLE
  dsimp only
  split <;> simpa using brEnsure_log _ s

theorem brReposition_log (tb : Nat) (tbit : Fin 8) (s : State) : s.log <+: (brReposition tb tbit s).log := by
  unfold brReposition
  split
  · simp
  · split
    · simp
    · exact (show s.log <+: _ by simp).trans (brFill_log _)

theorem brRefill_log (s : State) : s.log <+: (brRefill s).log := by
  unfold brRefill
  split
  · exact brFill_log s
  · exact List.prefix_refl _

theorem brReadLoop_log (n w : Nat) (s : State) : s.log <+: (brReadLoop n w s).2.log := by
  induction n generalizing w s with
  | zero => exact List.prefix_refl _
  | succ n ih =>
    unfold brReadLoop
    split
    · exact List.prefix_refl _
    · dsimp only
      split
      · exact brRefill_log s
      · exact (show s.log <+: _ by simpa using brRefill_log s).trans (ih _ _)

theorem brReadBytesCore_log (n : Nat) (s : State) : s.log <+: (brReadBytesCore n s).2.log := by
  unfold brReadBytesCore
  dsimp only
  split <;> simpa using brReadLoop_log n n s

theorem brStrLoop_log (n : Nat) (s : State) : s.log <+: (brStrLoop n s).2.log := by
  induction n generalizing s with
  | zero => exact List.prefix_refl _
  | succ n ih =>
    unfold brStrLoop
    dsimp only
    split
    · exact brRefill_log s
    · split
      · simpa using brRefill_log s
      · exact (show s.log <+: _ by simpa using brRefill_log s).trans (ih _)

theorem cwaFlushEnd_log (f : Bool) (s : State) : s.log <+: (cwaFlushEnd f s).log := by simp [cwaFlushEnd, rawOutFlush]

theorem cwaFlushCore_log (f : Bool) (s : State) : s.log <+: (cwaFlushCore f s).log := by
  have h : s.log <+: (rawOutWrite (s.cwa.cipherText f) s).2.log := by simp [rawOutWrite]
  unfold cwaFlushCore
  dsimp only
  split
  · exact cwaFlushEnd_log f s
  · split
    · simpa using h
    · exact h.trans (cwaFlushEnd_log f _)

theorem cwaPutBytes_log (l : List Byte) (s : State) : s.log <+: (cwaPutBytes l s).2.log := by
  induction l generalizing s with
  | nil => exact List.prefix_refl _
  | cons c l ih =>
    unfold cwaPutBytes
    dsimp only
    split
    · split
      · exact (show s.log <+: _ by simp).trans (cwaFlushCore_log _ _)
      · exact ((show s.log <+: _ by simp).trans (cwaFlushCore_log _ _)).trans (ih _)
    · exact (show s.log <+: _ by simp).trans (ih _)

theorem cwaWriteCore_log (l : List Byte) (s : State) : s.log <+: (cwaWriteCore l s).2.log := by
  unfold cwaWriteCore
  split
  · simp
  · exact cwaPutBytes_log l s

theorem cwaFlushBody_log (s : State) : s.log <+: (cwaFlushBody s).log := by
  unfold cwaFlushBody
  split
  · exact List.prefix_refl _
  · exact cwaFlushCore_log _ s

theorem cwaSealBody_log (s : State) : s.log <+: (cwaSealBody s).log := by
  unfold cwaSealBody
  split
  · exact List.prefix_refl _
  · simpa using cwaFlushCore_log true s

theorem dswWrite_log (l : List Byte) (s : State) : s.log <+: (dswWrite l s).2.log := by
  unfold dswWrite
  split
  · simp [rawOutWrite]
  · split
    · exact List.prefix_refl _
    · exact List.prefix_refl _
    · exact (cwaWriteCore_log l s).trans (by simp)

theorem dswFlush_log (s : State) : s.log <+: (dswFlush s).log := by
  unfold dswFlush
  split
  · simp [rawOutFlush]
  · split
    · exact List.prefix_refl _
    · exact List.prefix_refl _
    · exact (cwaFlushBody_log s).trans (by simp)

theorem bwFlushEnd_log (s : State) : s.log <+: (bwFlushEnd s).log := by simpa [bwFlushEnd] using dswFlush_log s

theorem bwFlush_log (s : State) : s.log <+: (bwFlush s).log := by
  have h := dswWrite_log s.bw.pending s
  unfold bwFlush
  dsimp only
  split
  · exact bwFlushEnd_log s
  · split
    · simpa using h
    · exact h.trans (bwFlushEnd_log _)

theorem bwMakeRoom_log (n : Nat) (s : State) : s.log <+: (bwMakeRoom n s).log := by
  unfold bwMakeRoom
  split
  · exact bwFlush_log s
  · exact List.prefix_refl _

end Sys2Proof.Machine
end

