-- ==== Sys2Proof/Laws/CipherRead.lean ====
section
/-! SUPPORT. What the shared operations of `CRA` do (rules R44, R45, R261, R263, R267): a load leaves the right block in the
cache, and a read gives the bytes of the plaintext stream whatever the cache held. -/

namespace Sys2Proof.Machine

/-- The ciphertext block `b` of the stream (rule R74), as `RAW_IN` gives it. -/
def State.craBlock (s : State) (b : Nat) : List Byte := s.rawIn.slice (s.cra.start + 8 * b) 8

theorem State.craByte_def (s : State) (p : Nat) :
    s.craByte p = if p < s.cra.length ∧ (s.craBlock (p >>> 3)).length = 8 then
      some (blockByte (transform s.cra.sched (blockOfList (s.craBlock (p >>> 3)))) p) else none := rfl

/-- The plaintext stream depends on `RAW_IN`, the schedule, the start and the length alone (rule R267). -/
theorem State.craByte_congr {s t : State} (h1 : t.rawIn = s.rawIn) (h2 : t.cra.start = s.cra.start)
    (h3 : t.cra.length = s.cra.length) (h4 : t.cra.sched = s.cra.sched) : t.craByte = s.craByte := by
  funext p
  simp [State.craByte, h1, h2, h3, h4]

/-- The two outcomes of a fetch (rule R261). -/
theorem craFetch_cases (b : Nat) (s : State) :
    ((s.craBlock b).length = 8 ∧ (craFetch b s).1 = true ∧ (craFetch b s).2.cra.err = s.cra.err ∧
      (craFetch b s).2.cra.dirty = false ∧ (craFetch b s).2.cra.blk = b ∧
      (craFetch b s).2.cra.pt = transform s.cra.sched (blockOfList (s.craBlock b))) ∨
    ((s.craBlock b).length < 8 ∧ (craFetch b s).1 = false ∧
      (craFetch b s).2.cra.err = latch s.cra.err .invalidData ∧ (craFetch b s).2.cra.dirty = true ∧
      (craFetch b s).2.cra.blk = s.cra.blk) := by
  have hle : (s.craBlock b).length ≤ 8 := by
    rw [State.craBlock, Memory.slice_eq_takeBytes]
    exact takeBytes_length_le _ _ _
  rcases Nat.lt_or_ge (s.craBlock b).length 8 with h | h
  · right
    have h' : ((s.rawIn.slice (s.cra.start + 8 * b) 8).length < 8) := h
    simp [craFetch, rawInSeek, rawInRead, h', h]
  · left
    have h' : ¬((s.rawIn.slice (s.cra.start + 8 * b) 8).length < 8) := by simpa [State.craBlock] using h
    refine ⟨by omega, ?_⟩
    simp [craFetch, rawInSeek, rawInRead, h', State.craBlock]

/-- The two outcomes of a load, on a hit or a miss (rules R44, R45, R261): the whole block is in the cache, or it is not
whole in `RAW_IN` and `InvalidData` is raised. -/
theorem craLoad_cases (b : Nat) {s : State} (hc : s.cacheOk) :
    ((s.craBlock b).length = 8 ∧ (craLoad b s).1 = true ∧ (craLoad b s).2.cra.err = s.cra.err ∧
      (craLoad b s).2.cra.dirty = false ∧ (craLoad b s).2.cra.blk = b ∧
      (craLoad b s).2.cra.pt = transform s.cra.sched (blockOfList (s.craBlock b))) ∨
    ((s.craBlock b).length < 8 ∧ (craLoad b s).1 = false ∧
      (craLoad b s).2.cra.err = latch s.cra.err .invalidData ∧ (craLoad b s).2.cra.dirty = true ∧
      (craLoad b s).2.cra.blk = s.cra.blk) := by
  unfold craLoad
  split
  · rename_i hit
    simp only [Cra.hit, Bool.and_eq_true, Bool.not_eq_true', decide_eq_true_eq] at hit
    have h := hc hit.1
    left
    rw [hit.2] at h
    exact ⟨h.1, rfl, rfl, hit.1, hit.2, h.2⟩
  · exact craFetch_cases b s

theorem craLoad_cacheOk (b : Nat) {s : State} (hc : s.cacheOk) : (craLoad b s).2.cacheOk := by
  intro hd
  rcases craLoad_cases b hc with ⟨h8, -, -, -, hb, hp⟩ | ⟨-, -, -, hdirty, -⟩
  · simp only [craLoad_frame, hb, hp]
    exact ⟨h8, rfl⟩
  · rw [hdirty] at hd
    exact absurd hd (by simp)

/-- What `ReadCore` does (rule R261): it takes the bytes of the plaintext stream from the position on, moves the position
past them, and raises `InvalidData` exactly when it stopped inside the stream; the cache stays right (rule R45). -/
theorem craReadCore_spec (n : Nat) {s : State} (hc : s.cacheOk) :
    (craReadCore n s).1 = takeBytes s.craByte s.cra.pos n ∧
    (craReadCore n s).2.cra.pos = s.cra.pos + (takeBytes s.craByte s.cra.pos n).length ∧
    (craReadCore n s).2.cra.err =
      (if (takeBytes s.craByte s.cra.pos n).length < n ∧
          s.cra.pos + (takeBytes s.craByte s.cra.pos n).length < s.cra.length
        then latch s.cra.err .invalidData else s.cra.err) ∧
    (craReadCore n s).2.cacheOk := by
  induction n generalizing s with
  | zero => exact ⟨rfl, rfl, by simp [craReadCore, takeBytes], hc⟩
  | succ n ih =>
    unfold craReadCore
    by_cases hp : s.cra.pos < s.cra.length
    · rw [if_pos hp]
      dsimp only
      have hok := craLoad_cacheOk (s.cra.pos >>> 3) hc
      rcases craLoad_cases (s.cra.pos >>> 3) hc with ⟨h8, h1, he, -, -, hpt⟩ | ⟨h8, h1, he, -⟩
      · rw [if_pos h1]
        have hb : s.craByte s.cra.pos =
            some (blockByte (transform s.cra.sched (blockOfList (s.craBlock (s.cra.pos >>> 3)))) s.cra.pos) := by
          rw [State.craByte_def, if_pos ⟨hp, h8⟩]
        obtain ⟨i1, i2, i3, i4⟩ := ih (s := (craLoad (s.cra.pos >>> 3) s).2.setCra
          { (craLoad (s.cra.pos >>> 3) s).2.cra with pos := (craLoad (s.cra.pos >>> 3) s).2.cra.pos + 1 })
          (by simpa [State.cacheOk] using hok)
        generalize ht : (craLoad (s.cra.pos >>> 3) s).2.setCra
          { (craLoad (s.cra.pos >>> 3) s).2.cra with pos := (craLoad (s.cra.pos >>> 3) s).2.cra.pos + 1 } = t
          at i1 i2 i3 i4 ⊢
        have hcong : t.craByte = s.craByte := by subst ht; exact State.craByte_congr (by simp) (by simp) (by simp) (by simp)
        have hpos : t.cra.pos = s.cra.pos + 1 := by subst ht; simp
        have herr : t.cra.err = s.cra.err := by subst ht; simpa using he
        have hlen : t.cra.length = s.cra.length := by subst ht; simp
        rw [hcong, hpos] at i1 i2 i3
        rw [herr, hlen] at i3
        rw [takeBytes_some hb, hpt, craLoad_cra_pos, i1]
        refine ⟨rfl, by rw [i2, List.length_cons]; omega, ?_, i4⟩
        rw [i3, List.length_cons]
        simp only [Nat.add_lt_add_iff_right, Nat.add_assoc, Nat.add_comm 1]
      · rw [if_neg (by simp [h1])]
        have hb : s.craByte s.cra.pos = none := by rw [State.craByte_def, if_neg (by omega)]
        rw [takeBytes_none hb]
        simp [he, hp, hok]
    · rw [if_neg hp]
      have hb : s.craByte s.cra.pos = none := by rw [State.craByte_def, if_neg (by omega)]
      rw [takeBytes_none hb]
      simp [hp, hc]

/-- The two outcomes of SEEK (rule R263). -/
theorem craSeekCore_cases (o : Origin) (off : Int) (s : State) :
    (0 ≤ s.cra.seekBase o + off ∧ s.cra.seekBase o + off ≤ Config.posMax ∧
      craSeekCore o off s = (0, s.setCra { s.cra with pos := (s.cra.seekBase o + off).toNat })) ∨
    ((s.cra.seekBase o + off < 0 ∨ (Config.posMax : Int) < s.cra.seekBase o + off) ∧
      craSeekCore o off s = (1, raise .cra .badArguments s)) := by
  unfold craSeekCore
  dsimp only
  split
  · rename_i h
    exact .inr ⟨h, rfl⟩
  · rename_i h
    exact .inl ⟨by omega, by omega, rfl⟩

theorem craSeekCore_cacheOk {o : Origin} {off : Int} {s : State} (hc : s.cacheOk) : (craSeekCore o off s).2.cacheOk := by
  simpa [State.cacheOk] using hc

end Sys2Proof.Machine
end

