-- ==== Sys2Proof/Laws/BitReader.lean ====
section
/-! SUPPORT. What the shared operations of `BR` do (rules R140, R142, R161 to R166, R187, R188, R191), in terms of the bytes
`BR` has not read yet: what a command delivers depends on them alone, not on the split between buffer and downstream. -/

namespace Sys2Proof.Machine

/-! ## The downstream -/

/-- What the invariant says that the downstream calls and the buffer of `BR` need. -/
structure BrOk (s : State) : Prop where
  capacity : 8 ≤ s.cfg.cR
  buf_length : s.br.buf.length = s.cfg.cR
  idx_le : s.br.idx ≤ s.br.fill
  fill_le : s.br.fill ≤ s.cfg.cR
  reach : s.br.pos + s.br.fill ≤ Config.posMax
  raw_wf : s.rawIn.wf
  raw_le : s.rawIn.length ≤ Config.posMax
  length_le : s.cra.length ≤ Config.posMax
  cache : s.cacheOk

theorem Inv.brOk {s : State} (h : Inv s) : BrOk s :=
  ⟨h.launch.cfg_wf.1, h.br.buf_length, h.br.idx_le_fill, h.br.fill_le_cap, h.br.reach, h.launch.rawIn_wf, h.launch.rawIn_length,
    by have := h.cra.length_le; have := h.launch.rawIn_length; omega, h.cra.cache⟩

theorem State.cacheOk_congr {s t : State} (h1 : t.rawIn = s.rawIn) (h2 : t.cra = s.cra) : t.cacheOk ↔ s.cacheOk := by
  simp [State.cacheOk, h1, h2]

theorem State.srcByte_congr {s t : State} (h1 : t.cfg = s.cfg) (h2 : t.rawIn = s.rawIn) (h3 : t.cra.live = s.cra.live)
    (h4 : t.cra.err = s.cra.err) (h5 : t.cra.start = s.cra.start) (h6 : t.cra.length = s.cra.length)
    (h7 : t.cra.sched = s.cra.sched) : t.srcByte = s.srcByte := by
  funext p
  simp [State.srcByte, h1, h2, h3, h4, State.craByte_congr h2 h5 h6 h7]

/-- An adapter that does not answer gives no byte (rule R142). -/
theorem State.srcByte_none {s : State} (h : ¬s.sourceSeeks) (p : Nat) : s.srcByte p = none := by
  rcases hs : s.cfg.brSrc with _ | _
  · exact absurd (.inl hs) h
  · have hl : s.cra.live = false := by
      rcases hl : s.cra.live with _ | _
      · rfl
      · exact absurd (.inr hl) h
    simp [State.srcByte, hs, hl, gate]

theorem State.srcByte_lt {s : State} (h : BrOk s) {p : Nat} {b : Byte} (hb : s.srcByte p = some b) :
    p < Config.posMax := by
  unfold State.srcByte at hb
  split at hb
  · rw [Memory.read?_eq h.raw_wf] at hb
    have := (List.getElem?_eq_some_iff.1 hb).1
    have := h.raw_le
    simp at *
    omega
  · split at hb
    · rw [State.craByte_def] at hb
      split at hb
      · rename_i hp
        have := h.length_le
        omega
      · simp at hb
    · simp at hb

/-- The downstream of `BR` will read from `p` on. -/
def State.readsFrom (s : State) (p : Nat) : Prop :=
  match s.cfg.brSrc with
  | .raw => s.rc = p
  | .cra => s.cra.live = true → s.cra.err = .noError → s.cra.pos = p

/-- From `p` on, the downstream of `t` gives what that of `s` gives: it is the same, or the adapter has failed at `p`, where
it had no byte. -/
def SrcKept (s t : State) (p : Nat) : Prop :=
  t.srcByte = s.srcByte ∨ ((∀ q, t.srcByte q = none) ∧ s.srcByte p = none)

theorem SrcKept.takeBytes {s t : State} {p : Nat} (h : SrcKept s t p) (n : Nat) :
    takeBytes t.srcByte p n = takeBytes s.srcByte p n := by
  rcases h with h | ⟨h1, h2⟩
  · rw [h]
  · rw [takeBytes_none (h1 p), takeBytes_none h2]

/-- A seek of the downstream (rules R76, R140, R142, R263) to a legal position. -/
theorem dsrSeek_spec {off : Nat} {s : State} (hoff : off ≤ Config.posMax) (hc : s.cacheOk) :
    (dsrSeek off s).2.srcByte = s.srcByte ∧ (dsrSeek off s).2.cacheOk ∧ (dsrSeek off s).2.cra.err = s.cra.err ∧
    ((s.sourceSeeks ∧ (dsrSeek off s).1 = 0 ∧ (dsrSeek off s).2.readsFrom off) ∨
      (¬s.sourceSeeks ∧ (dsrSeek off s).1 = 1 ∧ (dsrSeek off s).2 = s)) := by
  rcases hs : s.cfg.brSrc with _ | _
  · have hr : dsrSeek off s = rawInSeek off s := by simp [dsrSeek, hs]
    rw [hr]
    exact ⟨State.srcByte_congr rfl rfl rfl rfl rfl rfl rfl, (State.cacheOk_congr rfl rfl).2 hc, rfl,
      .inl ⟨.inl hs, rfl, by simp [State.readsFrom, hs, rawInSeek]⟩⟩
  · by_cases hl : s.cra.live = true
    · by_cases he : s.cra.err = .noError
      · rcases craSeekCore_cases .seekSet (off : Int) s with ⟨-, -, h⟩ | ⟨h, -⟩
        · have hr : dsrSeek off s = (0, (s.setCra { s.cra with pos := off }).addEvent (.seek .cra off)) := by
            simp [dsrSeek, hs, gate, hl, he, h, Cra.seekBase]
          rw [hr]
          refine ⟨State.srcByte_congr rfl rfl rfl rfl rfl rfl rfl, hc, rfl, .inl ⟨.inr hl, rfl, ?_⟩⟩
          simp [State.readsFrom, hs]
        · simp [Cra.seekBase] at h
          omega
      · have hr : dsrSeek off s = (0, s) := by simp [dsrSeek, hs, gate, hl, he]
        rw [hr]
        exact ⟨rfl, hc, rfl, .inl ⟨.inr hl, rfl, by simp [State.readsFrom, hs, he]⟩⟩
    · have hr : dsrSeek off s = (1, s) := by simp [dsrSeek, hs, gate, hl]
      rw [hr]
      exact ⟨rfl, hc, rfl, .inr ⟨by simp [State.sourceSeeks, hs, hl], rfl, rfl⟩⟩

/-- A read of the downstream (rules R76, R140, R142, R261): the bytes it gives from its position on. -/
theorem dsrRead_spec {n p : Nat} {s : State} (hp : s.readsFrom p) (hc : s.cacheOk) :
    (dsrRead n s).1 = takeBytes s.srcByte p n ∧
    (dsrRead n s).2.readsFrom (p + (takeBytes s.srcByte p n).length) ∧ (dsrRead n s).2.cacheOk ∧
    SrcKept s (dsrRead n s).2 (p + (takeBytes s.srcByte p n).length) := by
  rcases hs : s.cfg.brSrc with _ | _
  · have hr : dsrRead n s = rawInRead n s := by simp [dsrRead, hs]
    have hrc : s.rc = p := by simpa [State.readsFrom, hs] using hp
    have hsrc : s.srcByte = s.rawIn.read? := by funext q; simp [State.srcByte, hs]
    have h1 : (rawInRead n s).1 = takeBytes s.srcByte p n := by
      rw [hsrc, ← Memory.slice_eq_takeBytes, ← hrc]
      rfl
    rw [hr]
    refine ⟨h1, ?_, (State.cacheOk_congr rfl rfl).2 hc, .inl (State.srcByte_congr rfl rfl rfl rfl rfl rfl rfl)⟩
    rw [← h1]
    simp [State.readsFrom, hs, rawInRead, hrc]
  · by_cases hg : s.cra.live = true ∧ s.cra.err = .noError
    · obtain ⟨hl, he⟩ := hg
      have hr : dsrRead n s =
          ((craReadCore n s).1, (craReadCore n s).2.addEvent (.read .cra n (craReadCore n s).1.length)) := by
        simp [dsrRead, hs, gate, hl, he]
      have hpos : s.cra.pos = p := by simpa [State.readsFrom, hs, hl, he] using hp
      have hsrc : s.srcByte = s.craByte := by funext q; simp [State.srcByte, hs, gate, hl, he]
      obtain ⟨c1, c2, c3, c4⟩ := craReadCore_spec n hc
      rw [hpos] at c1 c2 c3
      rw [hr, hsrc]
      refine ⟨c1, ?_, (State.cacheOk_congr rfl rfl).2 c4, ?_⟩
      · simp [State.readsFrom, hs, c2]
      · rw [he] at c3
        by_cases hend : (takeBytes s.craByte p n).length < n ∧ p + (takeBytes s.craByte p n).length < s.cra.length
        · right
          rw [if_pos hend] at c3
          refine ⟨fun q => ?_, ?_⟩
          · simp [State.srcByte, hs, gate, hl, c3]
          · rw [hsrc]
            exact takeBytes_none_of_lt _ _ _ hend.1
        · left
          rw [if_neg hend] at c3
          exact State.srcByte_congr (by simp) (by simp) (by simp) (by simp [c3, he]) (by simp) (by simp) (by simp)
    · have hnone : ∀ q, s.srcByte q = none := by
        intro q
        have : gate s.cra.live s.cra.err ≠ .accepts := fun h => by
          unfold gate at h
          split at h
          · split at h
            · exact hg ⟨‹_›, ‹_›⟩
            · simp at h
          · simp at h
        simp [State.srcByte, hs, this]
      have hr : dsrRead n s = ([], s) := by
        by_cases hl : s.cra.live = true
        · have he : s.cra.err ≠ .noError := fun h => hg ⟨hl, h⟩
          simp [dsrRead, hs, gate, hl, he]
        · simp [dsrRead, hs, gate, hl]
      rw [hr, takeBytes_none (hnone p)]
      exact ⟨rfl, by simpa using hp, hc, .inl rfl⟩

/-! ## The buffer and the downstream together -/

/-- The unread bytes are those of the buffer from the cursor on, and then those of the downstream (rule R188 (b)). -/
theorem State.unread_eq {s : State} (h : BrOk s) (n : Nat) :
    s.unread n = sliceBytes s.br.buf s.br.idx (min n (s.br.fill - s.br.idx)) ++
      takeBytes s.srcByte (s.br.pos + s.br.fill) (n - (s.br.fill - s.br.idx)) := by
  have hb := h.buf_length
  have hi := h.idx_le
  have hf := h.fill_le
  have key : ∀ m, m ≤ s.br.fill - s.br.idx → takeBytes s.brByte s.br.cur m = sliceBytes s.br.buf s.br.idx m := by
    intro m hm
    have hl : (sliceBytes s.br.buf s.br.idx m).length = m := sliceBytes_length _ _ _ (by omega)
    refine takeBytes_eq_of (by omega) (fun j hj => ?_) (fun hlt => by omega)
    rw [hl] at hj
    rw [sliceBytes_getElem? _ _ _ hj, State.brByte, if_pos (by simp only [Br.cur]; omega)]
    congr 1
    simp only [Br.cur]
    omega
  by_cases hn : n ≤ s.br.fill - s.br.idx
  · rw [State.unread, key n hn, Nat.min_eq_left hn, Nat.sub_eq_zero_of_le hn]
    simp [takeBytes]
  · have hsplit : n = (s.br.fill - s.br.idx) + (n - (s.br.fill - s.br.idx)) := by omega
    rw [State.unread, Nat.min_eq_right (by omega)]
    conv_lhs => rw [hsplit, takeBytes_add, key _ (Nat.le_refl _)]
    rw [if_pos (sliceBytes_length _ _ _ (by omega))]
    congr 1
    rw [show s.br.cur + (s.br.fill - s.br.idx) = s.br.pos + s.br.fill by simp only [Br.cur]; omega]
    refine takeBytes_congr fun q hq _ => ?_
    rw [State.brByte, if_neg (by omega)]

/-- Unread bytes that lie in the buffer. -/
theorem State.unread_buffered {s : State} (h : BrOk s) {n : Nat} (hn : s.br.idx + n ≤ s.br.fill) :
    s.unread n = sliceBytes s.br.buf s.br.idx n := by
  rw [State.unread_eq h, Nat.min_eq_left (by omega), Nat.sub_eq_zero_of_le (by omega)]
  simp [takeBytes]

theorem State.unread_length_le (s : State) (n : Nat) : (s.unread n).length ≤ n := takeBytes_length_le _ _ _

theorem State.unread_take (s : State) {m n : Nat} (h : m ≤ n) : (s.unread n).take m = s.unread m := takeBytes_take _ _ h

/-- Fewer bytes than asked are all the bytes there are. -/
theorem State.unread_stable (s : State) {m n : Nat} (h : (s.unread m).length < m) (hn : m ≤ n) : s.unread n = s.unread m := by
  rw [show n = m + (n - m) by omega, State.unread, takeBytes_add, if_neg (by simpa [State.unread] using Nat.ne_of_lt h)]
  simp [State.unread]

theorem State.unread_length_mono (s : State) {m n : Nat} (h : m ≤ n) : (s.unread m).length = min m (s.unread n).length := by
  rw [← s.unread_take h, List.length_take]

/-! ## The refill (rule R161) -/

/-- What the loop of `Fill` does. -/
theorem brFillLoop_spec (fuel : Nat) {s : State} (hb : s.br.buf.length = s.cfg.cR) (hf : s.br.fill ≤ s.cfg.cR)
    (hfuel : s.cfg.cR - s.br.fill ≤ fuel) (hp : s.readsFrom (s.br.pos + s.br.fill)) (hc : s.cacheOk) :
    sliceBytes (brFillLoop fuel s).br.buf 0 (brFillLoop fuel s).br.fill =
      sliceBytes s.br.buf 0 s.br.fill ++ takeBytes s.srcByte (s.br.pos + s.br.fill) (s.cfg.cR - s.br.fill) ∧
    (brFillLoop fuel s).br.fill =
      s.br.fill + (takeBytes s.srcByte (s.br.pos + s.br.fill) (s.cfg.cR - s.br.fill)).length ∧
    (brFillLoop fuel s).br.buf.length = s.cfg.cR ∧ (brFillLoop fuel s).cacheOk ∧
    SrcKept s (brFillLoop fuel s)
      (s.br.pos + s.br.fill + (takeBytes s.srcByte (s.br.pos + s.br.fill) (s.cfg.cR - s.br.fill)).length) := by
  induction fuel generalizing s with
  | zero =>
    have h0 : s.cfg.cR - s.br.fill = 0 := by omega
    rw [h0]
    exact ⟨by simp [brFillLoop, takeBytes], by simp [brFillLoop, takeBytes], hb, hc, .inl rfl⟩
  | succ fuel ih =>
    unfold brFillLoop
    by_cases hfull : s.br.fill = s.cfg.cR
    · rw [if_pos hfull, hfull, Nat.sub_self]
      exact ⟨by simp [takeBytes], by simp [takeBytes], hb, hc, .inl rfl⟩
    · rw [if_neg hfull]
      dsimp only
      obtain ⟨r1, r2, r3, r4⟩ := dsrRead_spec (n := s.cfg.cR - s.br.fill) hp hc
      have hle := takeBytes_length_le s.srcByte (s.br.pos + s.br.fill) (s.cfg.cR - s.br.fill)
      have hend := takeBytes_none_of_lt s.srcByte (s.br.pos + s.br.fill) (s.cfg.cR - s.br.fill)
      rw [r1]
      generalize hL : takeBytes s.srcByte (s.br.pos + s.br.fill) (s.cfg.cR - s.br.fill) = L at *
      by_cases h0 : L.length = 0
      · rw [if_pos h0]
        have hnil := List.length_eq_zero_iff.1 h0
        refine ⟨by simp [hnil], by simp [h0], by simpa using hb, r3, r4⟩
      · rw [if_neg h0]
        generalize hs2 : (dsrRead (s.cfg.cR - s.br.fill) s).2.setBr
          { (dsrRead (s.cfg.cR - s.br.fill) s).2.br with
            buf := putBytes (dsrRead (s.cfg.cR - s.br.fill) s).2.br.buf (dsrRead (s.cfg.cR - s.br.fill) s).2.br.fill L,
            fill := (dsrRead (s.cfg.cR - s.br.fill) s).2.br.fill + L.length } = s2
        have hcfg : s2.cfg = s.cfg := by subst hs2; simp
        have hfill : s2.br.fill = s.br.fill + L.length := by subst hs2; simp
        have hpos : s2.br.pos = s.br.pos := by subst hs2; simp
        have hbuf : s2.br.buf = putBytes s.br.buf s.br.fill L := by subst hs2; simp
        have hsrc : s2.srcByte = (dsrRead (s.cfg.cR - s.br.fill) s).2.srcByte := by
          subst hs2
          exact State.srcByte_congr rfl rfl rfl rfl rfl rfl rfl
        have hfrom : s2.readsFrom (s.br.pos + s.br.fill + L.length) := by
          subst hs2
          simpa [State.readsFrom] using r2
        have hcache : s2.cacheOk := by
          subst hs2
          exact (State.cacheOk_congr rfl rfl).2 r3
        have hk : SrcKept s s2 (s.br.pos + s.br.fill + L.length) := by
          unfold SrcKept at r4 ⊢
          rw [hsrc]
          exact r4
        obtain ⟨i1, i2, i3, i4, i5⟩ := ih (s := s2) (by rw [hbuf, hcfg]; simpa using hb) (by rw [hcfg, hfill]; omega)
          (by rw [hcfg, hfill]; omega) (by rw [hpos, hfill, ← Nat.add_assoc]; exact hfrom) hcache
        have hrest : takeBytes s2.srcByte (s2.br.pos + s2.br.fill) (s2.cfg.cR - s2.br.fill) = [] := by
          rw [hpos, hfill, hcfg, ← Nat.add_assoc, hk.takeBytes]
          rcases Nat.lt_or_ge L.length (s.cfg.cR - s.br.fill) with hlt | hge
          · exact takeBytes_none (hend hlt) _
          · rw [show s.cfg.cR - (s.br.fill + L.length) = 0 by omega]
            rfl
        rw [hrest] at i1 i2 i5
        have hslice : sliceBytes s2.br.buf 0 s2.br.fill = sliceBytes s.br.buf 0 s.br.fill ++ L := by
          rw [hbuf, hfill]
          exact sliceBytes_zero_putBytes _ _ _ (by omega)
        refine ⟨by rw [i1, hslice]; simp, by rw [i2, hfill]; simp, by rw [i3, hcfg], i4, ?_⟩
        rw [hpos, hfill, ← Nat.add_assoc] at i5
        simp only [List.length_nil, Nat.add_zero] at i5
        rcases i5 with h5 | ⟨h5, h6⟩
        · rcases hk with h7 | ⟨h7, h8⟩
          · exact .inl (h5.trans h7)
          · exact .inr ⟨fun q => by rw [h5]; exact h7 q, h8⟩
        · rcases hk with h7 | ⟨h7, h8⟩
          · exact .inr ⟨h5, by rw [← h7]; exact h6⟩
          · exact .inr ⟨h5, h8⟩

/-- What a refill leaves: the unread bytes at the front of the buffer, as many as it holds, and the same bytes to come. -/
structure Refilled (s t : State) : Prop where
  ok : BrOk t
  pos : t.br.pos = s.br.cur
  idx : t.br.idx = 0
  fill : t.br.fill = (s.unread s.cfg.cR).length
  buf : sliceBytes t.br.buf 0 t.br.fill = s.unread s.cfg.cR
  unread : ∀ n, t.unread n = s.unread n
  err : t.br.err = if s.sourceSeeks then s.br.err else latch s.br.err .failedToRead

theorem Br.shifted_slice {u : Br} {cR : Nat} (hb : u.buf.length = cR) (hf : u.fill ≤ cR) (hi : u.idx ≤ u.fill) :
    sliceBytes u.shifted.buf 0 (u.fill - u.idx) = sliceBytes u.buf u.idx (u.fill - u.idx) := by
  have hl : (sliceBytes u.buf u.idx (u.fill - u.idx)).length = u.fill - u.idx := sliceBytes_length _ _ _ (by omega)
  have := sliceBytes_zero_putBytes u.buf 0 (sliceBytes u.buf u.idx (u.fill - u.idx)) (by omega)
  rw [hl, Nat.zero_add] at this
  simpa [Br.shifted, sliceBytes] using this

/-- `Fill` (rules R161, R188 (b)). -/
theorem brFill_spec {s : State} (h : BrOk s) : Refilled s (brFill s) := by
  have hb := h.buf_length
  have hi := h.idx_le
  have hf := h.fill_le
  have hreach := h.reach
  have hun := State.unread_eq h s.cfg.cR
  rw [Nat.min_eq_right (by omega)] at hun
  have hrl : (sliceBytes s.br.buf s.br.idx (s.br.fill - s.br.idx)).length = s.br.fill - s.br.idx :=
    sliceBytes_length _ _ _ (by omega)
  -- the buffer, its length, and what the downstream still gives decide the rest
  have build : ∀ t : State, t.cfg = s.cfg → t.rawIn = s.rawIn → t.cra.length = s.cra.length → t.cacheOk →
      t.br.buf.length = s.cfg.cR → t.br.pos = s.br.cur → t.br.idx = 0 →
      t.br.fill = (s.unread s.cfg.cR).length → sliceBytes t.br.buf 0 t.br.fill = s.unread s.cfg.cR →
      (∀ n, takeBytes t.srcByte (s.br.cur + (s.unread s.cfg.cR).length) n =
        takeBytes s.srcByte (s.br.cur + (s.unread s.cfg.cR).length) n) →
      (t.br.err = if s.sourceSeeks then s.br.err else latch s.br.err .failedToRead) → Refilled s t := by
    intro t hcfg hraw hcl hcache hbl hpos hidx hfill hbuf hsrc herr
    have hle : (s.unread s.cfg.cR).length ≤ s.cfg.cR := s.unread_length_le _
    have hok : BrOk t := by
      refine ⟨hcfg ▸ h.capacity, by rw [hbl, hcfg], by omega, by rw [hcfg]; omega, ?_, hraw ▸ h.raw_wf, hraw ▸ h.raw_le, hcl ▸ h.length_le, hcache⟩
      rw [hpos, hfill, hun, List.length_append, hrl]
      rcases hz : (takeBytes s.srcByte (s.br.pos + s.br.fill) (s.cfg.cR - (s.br.fill - s.br.idx))).length with _ | k
      · simp only [Br.cur]; omega
      · have hg := takeBytes_getElem? s.srcByte (s.br.pos + s.br.fill) (s.cfg.cR - (s.br.fill - s.br.idx)) (j := k) (by omega)
        rcases hv : s.srcByte (s.br.pos + s.br.fill + k) with _ | b
        · rw [hv] at hg
          have := List.getElem?_eq_none_iff.1 hg
          omega
        · have := State.srcByte_lt h hv
          simp only [Br.cur]; omega
    refine ⟨hok, hpos, hidx, hfill, hbuf, fun n => ?_, herr⟩
    rw [State.unread_eq hok, hidx, Nat.sub_zero, hpos, hfill, hsrc]
    rw [hfill] at hbuf
    by_cases hn : n ≤ (s.unread s.cfg.cR).length
    · rw [Nat.min_eq_left hn, Nat.sub_eq_zero_of_le hn]
      have : sliceBytes t.br.buf 0 n = (sliceBytes t.br.buf 0 (s.unread s.cfg.cR).length).take n := by
        simp [sliceBytes, List.take_take, Nat.min_eq_left hn]
      rw [this, hbuf, s.unread_take (by omega)]
      simp [takeBytes]
    · rw [Nat.min_eq_right (by omega), hbuf]
      rcases Nat.lt_or_ge (s.unread s.cfg.cR).length s.cfg.cR with hlt | hge
      · have hnone : s.brByte (s.br.cur + (s.unread s.cfg.cR).length) = none := takeBytes_none_of_lt _ _ _ hlt
        have hpast : s.br.pos + s.br.fill ≤ s.br.cur + (s.unread s.cfg.cR).length := by
          rw [hun, List.length_append, hrl]
          simp only [Br.cur]; omega
        have hsn : s.srcByte (s.br.cur + (s.unread s.cfg.cR).length) = none := by
          rw [State.brByte, if_neg (by omega)] at hnone
          exact hnone
        rw [takeBytes_none hsn, List.append_nil]
        rcases Nat.le_total s.cfg.cR n with hnc | hnc
        · exact (s.unread_stable hlt hnc).symm
        · have hl' := s.unread_length_mono hnc
          rw [← s.unread_take hnc]
          exact (List.take_of_length_le (by omega)).symm
      · have hcap : (s.unread s.cfg.cR).length = s.cfg.cR := by omega
        rw [hcap, show n = s.cfg.cR + (n - s.cfg.cR) by omega]
        conv_rhs => rw [State.unread, takeBytes_add, if_pos (by exact hcap)]
        rw [Nat.add_sub_cancel_left]
        refine congrArg _ (takeBytes_congr fun q hq _ => ?_)
        rw [State.brByte, if_neg (by simp only [Br.cur] at hq; omega)]
  have hs1 : (s.setBr s.br.shifted).srcByte = s.srcByte := State.srcByte_congr rfl rfl rfl rfl rfl rfl rfl
  have hoff : s.br.shifted.pos + s.br.shifted.fill = s.br.pos + s.br.fill := by simp [Br.shifted]; omega
  obtain ⟨k1, k2, k3, k4⟩ := dsrSeek_spec (off := s.br.shifted.pos + s.br.shifted.fill) (s := s.setBr s.br.shifted)
    (by omega) ((State.cacheOk_congr rfl rfl).2 h.cache)
  have hss : (s.setBr s.br.shifted).sourceSeeks ↔ s.sourceSeeks := Iff.rfl
  rw [show brFill s =
    (if (dsrSeek (s.br.shifted.pos + s.br.shifted.fill) (s.setBr s.br.shifted)).1 ≠ 0 then
      raise .br .failedToRead (dsrSeek (s.br.shifted.pos + s.br.shifted.fill) (s.setBr s.br.shifted)).2
    else
      brFillLoop ((dsrSeek (s.br.shifted.pos + s.br.shifted.fill) (s.setBr s.br.shifted)).2.cfg.cR -
          (dsrSeek (s.br.shifted.pos + s.br.shifted.fill) (s.setBr s.br.shifted)).2.br.fill)
        (dsrSeek (s.br.shifted.pos + s.br.shifted.fill) (s.setBr s.br.shifted)).2) from rfl]
  generalize s.br.shifted.pos + s.br.shifted.fill = off at hoff k1 k2 k3 k4 ⊢
  have hoff' : s.br.shifted.pos + s.br.shifted.fill = s.br.pos + s.br.fill := by simp [Br.shifted]; omega
  rcases k4 with ⟨hsk, hz, hfrom⟩ | ⟨hsk, hz, heq⟩
  · rw [if_neg (by simp [hz])]
    have hbr : (dsrSeek off (s.setBr s.br.shifted)).2.br = s.br.shifted := by simp
    have hcf : (dsrSeek off (s.setBr s.br.shifted)).2.cfg = s.cfg := by simp
    have hshl : s.br.shifted.buf.length = s.cfg.cR := by simpa [Br.shifted] using hb
    have hshf : s.br.shifted.fill = s.br.fill - s.br.idx := rfl
    obtain ⟨l1, l2, l3, l4, l5⟩ := brFillLoop_spec (s.cfg.cR - s.br.shifted.fill)
      (s := (dsrSeek off (s.setBr s.br.shifted)).2)
      (by rw [hbr, hcf]; exact hshl) (by rw [hbr, hcf, hshf]; omega) (by rw [hbr, hcf])
      (by rw [hbr, hoff', ← hoff]; exact hfrom) k2
    rw [hbr, hcf]
    rw [hbr, hcf, k1, hs1, hoff'] at l1 l2
    rw [hbr, hcf, k1, hs1, hoff'] at l5
    have hlist : sliceBytes s.br.shifted.buf 0 s.br.shifted.fill ++
        takeBytes s.srcByte (s.br.pos + s.br.fill) (s.cfg.cR - s.br.shifted.fill) = s.unread s.cfg.cR := by
      rw [hun, hshf, Br.shifted_slice hb hf hi]
    have hlen : s.br.shifted.fill + (takeBytes s.srcByte (s.br.pos + s.br.fill) (s.cfg.cR - s.br.shifted.fill)).length =
        (s.unread s.cfg.cR).length := by
      rw [hun, List.length_append, hrl, hshf]
    refine build _ (by simp) (by simp) (by simp) l4 (by rw [l3, hcf]) (by simp [Br.shifted, Br.cur]) (by simp [Br.shifted])
      (by rw [l2, hlen]) (by rw [l1, hlist]) (fun n => ?_) ?_
    · have hp : s.br.pos + s.br.fill + (takeBytes s.srcByte (s.br.pos + s.br.fill) (s.cfg.cR - s.br.shifted.fill)).length =
          s.br.cur + (s.unread s.cfg.cR).length := by
        rw [← hlen, hshf]
        simp only [Br.cur]; omega
      rw [hp] at l5
      rw [l5.takeBytes, k1, hs1]
    · rw [if_pos (hss.1 hsk)]
      simp [Br.shifted]
  · rw [if_pos (by simp [hz]), heq]
    have hnone : ∀ p, s.srcByte p = none := State.srcByte_none (fun h => hsk (hss.2 h))
    have hlist : s.unread s.cfg.cR = sliceBytes s.br.buf s.br.idx (s.br.fill - s.br.idx) := by
      rw [hun, takeBytes_none (hnone _)]
      simp
    refine build _ rfl rfl rfl ((State.cacheOk_congr rfl rfl).2 h.cache) (by simpa [Br.shifted] using hb)
      (by simp [Br.shifted, Br.cur]) (by simp [Br.shifted]) ?_ ?_ (fun n => ?_) ?_
    · rw [hlist, hrl]
      simp [Br.shifted]
    · rw [hlist]
      exact Br.shifted_slice hb hf hi
    · exact congrArg (fun f => takeBytes f _ n) (State.srcByte_congr rfl rfl rfl rfl rfl rfl rfl)
    · rw [if_neg (fun h => hsk (hss.2 h))]
      simp [Br.shifted]

/-! ## Looking ahead and moving on -/

/-- The cursor and the bytes to come are the same; the split between buffer and downstream may have changed. -/
structure SameCursor (s t : State) : Prop where
  ok : BrOk t
  cur : t.br.cur = s.br.cur
  unread : ∀ n, t.unread n = s.unread n

theorem SameCursor.refl {s : State} (h : BrOk s) : SameCursor s s := ⟨h, rfl, fun _ => rfl⟩

theorem Refilled.sameCursor {s t : State} (h : Refilled s t) : SameCursor s t :=
  ⟨h.ok, by simp [Br.cur, h.pos, h.idx], h.unread⟩

/-- The bytes to come depend on the buffer, its place and the downstream alone. -/
theorem State.unread_congr {s t : State} (h1 : t.br.pos = s.br.pos) (h2 : t.br.idx = s.br.idx) (h3 : t.br.fill = s.br.fill)
    (h4 : t.br.buf = s.br.buf) (h5 : t.srcByte = s.srcByte) (n : Nat) : t.unread n = s.unread n := by
  have : t.brByte = s.brByte := by funext p; simp [State.brByte, h1, h3, h4, h5]
  simp [State.unread, Br.cur, h1, h2, this]

/-- `k` bytes have been read: the cursor stands `k` bytes on, and what follows is to come. -/
structure Advanced (s t : State) (k : Nat) : Prop where
  ok : BrOk t
  cur : t.br.cur = s.br.cur + k
  unread : ∀ n, t.unread n = (s.unread (k + n)).drop k

theorem SameCursor.advanced {s t u : State} {k : Nat} (h1 : SameCursor s t) (h2 : Advanced t u k) : Advanced s u k :=
  ⟨h2.ok, by rw [h2.cur, h1.cur], fun n => by rw [h2.unread, h1.unread]⟩

theorem Advanced.trans {s t u : State} {j k : Nat} (h1 : Advanced s t j) (h2 : Advanced t u k) : Advanced s u (j + k) :=
  ⟨h2.ok, by rw [h2.cur, h1.cur]; omega, fun n => by
    rw [h2.unread, h1.unread, List.drop_drop, Nat.add_assoc]⟩

/-- Moving the index inside the buffer reads the bytes it passes. -/
theorem BrOk.advance {s : State} (h : BrOk s) {k : Nat} (hk : s.br.idx + k ≤ s.br.fill) {u : Br}
    (h1 : u.pos = s.br.pos) (h2 : u.idx = s.br.idx + k) (h3 : u.fill = s.br.fill) (h4 : u.buf = s.br.buf) :
    Advanced s (s.setBr u) k := by
  refine ⟨⟨h.capacity, by simpa [h4] using h.buf_length, by simp [h2, h3]; omega, by simpa [h3] using h.fill_le,
    by simpa [h1, h3] using h.reach, h.raw_wf, h.raw_le, h.length_le, h.cache⟩,
    by simp [Br.cur, h1, h2]; omega, fun n => ?_⟩
  have hlen : (s.unread k).length = k := by
    rw [State.unread_buffered h hk, sliceBytes_length]
    have := h.fill_le
    have := h.buf_length
    omega
  have hby : (s.setBr u).brByte = s.brByte := by
    funext p
    simp only [State.brByte, State.setBr_br, h1, h3, h4]
    rw [State.srcByte_congr (s := s) (t := s.setBr u) rfl rfl rfl rfl rfl rfl rfl]
  rw [State.unread, hby, State.setBr_br, show u.cur = s.br.cur + k by simp [Br.cur, h1, h2]; omega]
  rw [show s.unread (k + n) = s.unread k ++ takeBytes s.brByte (s.br.cur + k) n by
    rw [State.unread, takeBytes_add, if_pos (by exact hlen)]
    rfl]
  exact (List.drop_left' hlen).symm

/-- The error a refill leaves (rule R161): none of its own when the downstream can seek. -/
def refillErr (s : State) : Err := if s.sourceSeeks then s.br.err else latch s.br.err .failedToRead

/-- `Ensure` (rules R162, R188 (b)): it answers whether that many bytes are to come, and reads none of them. -/
theorem brEnsure_spec {nb : Nat} {s : State} (h : BrOk s) (hnb : nb ≤ s.cfg.cR) :
    SameCursor s (brEnsure nb s).2 ∧ ((brEnsure nb s).1 = true ↔ (s.unread nb).length = nb) ∧
    ((s.unread nb).length = nb → (brEnsure nb s).2.br.idx + nb ≤ (brEnsure nb s).2.br.fill ∧
      (brEnsure nb s).2.br.err = s.br.err) ∧
    ((s.unread nb).length ≠ nb → (brEnsure nb s).2.br.err = refillErr s) := by
  have hb := h.buf_length
  have hf := h.fill_le
  have hi := h.idx_le
  unfold brEnsure
  dsimp only
  by_cases hc : s.br.fill < s.br.idx + nb
  · rw [if_pos hc]
    have hr := brFill_spec h
    have hiff : (brFill s).br.idx + nb ≤ (brFill s).br.fill ↔ (s.unread nb).length = nb := by
      rw [hr.idx, hr.fill, s.unread_length_mono hnb]
      omega
    refine ⟨hr.sameCursor, by simpa using hiff, fun hl => ⟨hiff.2 hl, ?_⟩, fun _ => hr.err⟩
    rw [hr.err]
    by_cases hs : s.sourceSeeks
    · rw [if_pos hs]
    · exfalso
      have hun := State.unread_eq h nb
      rw [takeBytes_none (State.srcByte_none hs _), List.append_nil] at hun
      have hsl := sliceBytes_length s.br.buf s.br.idx (min nb (s.br.fill - s.br.idx)) (by omega)
      rw [hun, hsl] at hl
      omega
  · rw [if_neg hc]
    have hlen : (s.unread nb).length = nb := by
      rw [State.unread_buffered h (by omega), sliceBytes_length _ _ _ (by omega)]
    exact ⟨.refl h, by simp [hlen]; omega, fun _ => ⟨by omega, rfl⟩, fun hne => absurd hlen hne⟩

/-- `ReadLE` with enough bytes to come (rules R72, R191). -/
theorem brReadLE_some {k : Nat} {s : State} (h : BrOk s) (hk : k ≤ s.cfg.cR) (hl : (s.unread k).length = k) :
    (brReadLE k s).1 = some (leNat (s.unread k)) ∧ Advanced s (brReadLE k s).2 k ∧
    (brReadLE k s).2.br.err = s.br.err := by
  obtain ⟨e1, e2, e3, -⟩ := brEnsure_spec h hk
  obtain ⟨e3, e4⟩ := e3 hl
  unfold brReadLE
  dsimp only
  rw [if_pos (e2.2 hl)]
  refine ⟨?_, e1.advanced (e1.ok.advance e3 rfl rfl rfl rfl), e4⟩
  rw [← State.unread_buffered e1.ok e3, e1.unread]

/-- `ReadLE` with too few bytes to come (rules R191, R323 (a)): nothing is read. -/
theorem brReadLE_none {k : Nat} {s : State} (h : BrOk s) (hk : k ≤ s.cfg.cR) (hl : (s.unread k).length ≠ k) :
    (brReadLE k s).1 = none ∧ SameCursor s (brReadLE k s).2 ∧
    (brReadLE k s).2.br.err = latch (refillErr s) .arrayIndexOutOfBounds := by
  obtain ⟨e1, e2, -, e4⟩ := brEnsure_spec h hk
  unfold brReadLE
  dsimp only
  rw [if_neg (by rw [e2]; exact hl)]
  refine ⟨rfl, ⟨⟨?_, ?_, ?_, ?_, ?_, e1.ok.raw_wf, e1.ok.raw_le, e1.ok.length_le, e1.ok.cache⟩, e1.cur, ?_⟩, ?_⟩
  · simpa using e1.ok.capacity
  · simpa using e1.ok.buf_length
  · simpa using e1.ok.idx_le
  · simpa using e1.ok.fill_le
  · simpa using e1.ok.reach
  · intro n
    rw [← e1.unread]
    exact State.unread_congr rfl rfl rfl rfl (State.srcByte_congr rfl rfl rfl rfl rfl rfl rfl) n
  · simp [e4 hl]

/-- `PeekBits` with enough bytes to come (rule R163). -/
theorem brPeekBits_some {n : Nat} {s : State} (h : BrOk s) (hk : bytesTouched s.br.bit n ≤ s.cfg.cR)
    (hl : (s.unread (bytesTouched s.br.bit n)).length = bytesTouched s.br.bit n) :
    (brPeekBits n s).1 = some (fieldBits (s.unread (bytesTouched s.br.bit n)) s.br.bit n) ∧
    SameCursor s (brPeekBits n s).2 ∧
    (brPeekBits n s).2.br.idx + bytesTouched s.br.bit n ≤ (brPeekBits n s).2.br.fill ∧
    (brPeekBits n s).2.br.err = s.br.err := by
  obtain ⟨e1, e2, e3, -⟩ := brEnsure_spec h hk
  obtain ⟨e3, e4⟩ := e3 hl
  unfold brPeekBits
  dsimp only
  rw [if_pos (e2.2 hl)]
  refine ⟨?_, e1, e3, e4⟩
  rw [← State.unread_buffered e1.ok e3, e1.unread]
  simp

/-- `PeekBits` with too few bytes to come (rules R163, R323 (a)): nothing is read. -/
theorem brPeekBits_none {n : Nat} {s : State} (h : BrOk s) (hk : bytesTouched s.br.bit n ≤ s.cfg.cR)
    (hl : (s.unread (bytesTouched s.br.bit n)).length ≠ bytesTouched s.br.bit n) :
    (brPeekBits n s).1 = none ∧ SameCursor s (brPeekBits n s).2 ∧
    (brPeekBits n s).2.br.err = latch (refillErr s) .arrayIndexOutOfBounds := by
  obtain ⟨e1, e2, -, e4⟩ := brEnsure_spec h hk
  unfold brPeekBits
  dsimp only
  rw [if_neg (by rw [e2]; exact hl)]
  refine ⟨rfl, ⟨⟨?_, ?_, ?_, ?_, ?_, e1.ok.raw_wf, e1.ok.raw_le, e1.ok.length_le, e1.ok.cache⟩, e1.cur, ?_⟩, ?_⟩
  · simpa using e1.ok.capacity
  · simpa using e1.ok.buf_length
  · simpa using e1.ok.idx_le
  · simpa using e1.ok.fill_le
  · simpa using e1.ok.reach
  · intro m
    rw [← e1.unread]
    exact State.unread_congr rfl rfl rfl rfl (State.srcByte_congr rfl rfl rfl rfl rfl rfl rfl) m
  · simp [e4 hl]

/-- A bit read that moves the cursor, with enough bytes to come (rules R164, R167, R168): the cursor moves `n` bits. -/
theorem brReadBits_some {n : Nat} {f : Nat → Word64} {s : State} (h : BrOk s) (hk : bytesTouched s.br.bit n ≤ s.cfg.cR)
    (hl : (s.unread (bytesTouched s.br.bit n)).length = bytesTouched s.br.bit n) :
    (brReadBits n f s).r = f (fieldBits (s.unread (bytesTouched s.br.bit n)) s.br.bit n) ∧
    Advanced s (brReadBits n f s) ((s.br.bit.val + n) / 8) ∧
    (brReadBits n f s).br.bit.val = (s.br.bit.val + n) % 8 ∧ (brReadBits n f s).br.err = s.br.err := by
  obtain ⟨p1, p2, p3, p4⟩ := brPeekBits_some h hk hl
  have hbit : (brPeekBits n s).2.br.bit = s.br.bit := by simp
  have hidx : (8 * (brPeekBits n s).2.br.idx + s.br.bit.val + n) >>> 3 =
      (brPeekBits n s).2.br.idx + (s.br.bit.val + n) / 8 := by
    rw [Nat.shiftRight_eq_div_pow]
    omega
  have hnb : (s.br.bit.val + n) / 8 ≤ bytesTouched s.br.bit n := by
    rw [bytesTouched, Nat.shiftRight_eq_div_pow]
    omega
  have hadv := p2.advanced (p2.ok.advance (k := (s.br.bit.val + n) / 8) (by omega)
    (u := (brPeekBits n s).2.br.advanceBits n) rfl (by simp only [Br.advanceBits, hbit, hidx]) rfl rfl)
  have hr : brReadBits n f s = ((brPeekBits n s).2.setBr ((brPeekBits n s).2.br.advanceBits n)).setR
      (f (fieldBits (s.unread (bytesTouched s.br.bit n)) s.br.bit n)) := by
    unfold brReadBits
    dsimp only
    rw [p1]
  rw [hr]
  refine ⟨rfl, ⟨⟨hadv.ok.capacity, hadv.ok.buf_length, hadv.ok.idx_le, hadv.ok.fill_le, hadv.ok.reach, hadv.ok.raw_wf, hadv.ok.raw_le,
    hadv.ok.length_le, hadv.ok.cache⟩, hadv.cur, fun m => ?_⟩, ?_, p4⟩
  · rw [← hadv.unread]
    exact State.unread_congr rfl rfl rfl rfl (State.srcByte_congr rfl rfl rfl rfl rfl rfl rfl) m
  · simp only [State.setR_br, State.setBr_br, Br.advanceBits, hbit]
    simp
    omega

/-! ## Repositioning (rule R165) -/

/-- A reposition beyond `POS_MAX`. -/
theorem brReposition_beyond {tb : Nat} {tbit : Fin 8} {s : State} (h : Config.posMax < tb) :
    brReposition tb tbit s = raise .br .badArguments s := by rw [brReposition, if_pos h]

/-- A reposition inside the buffer: no downstream call is made. -/
theorem brReposition_inside {tb : Nat} {tbit : Fin 8} {s : State} (h : tb ≤ Config.posMax) (h1 : s.br.pos ≤ tb)
    (h2 : tb ≤ s.br.pos + s.br.fill) :
    brReposition tb tbit s = s.setBr { s.br with idx := tb - s.br.pos, bit := tbit } := by
  rw [brReposition, if_neg (by omega), if_pos ⟨h1, h2⟩]

/-- A reposition to any legal position: the cursor stands there, and what is to come is what buffer and downstream hold from
there on inside the buffer, and what the downstream holds from there on outside it. -/
theorem brReposition_spec {tb : Nat} {tbit : Fin 8} {s : State} (hok : BrOk s) (h : tb ≤ Config.posMax) :
    BrOk (brReposition tb tbit s) ∧ (brReposition tb tbit s).br.cur = tb ∧ (brReposition tb tbit s).br.bit = tbit ∧
    (s.br.pos ≤ tb → tb ≤ s.br.pos + s.br.fill → (brReposition tb tbit s).br.err = s.br.err ∧
      ∀ n, (brReposition tb tbit s).unread n = takeBytes s.brByte tb n) ∧
    (¬(s.br.pos ≤ tb ∧ tb ≤ s.br.pos + s.br.fill) → (brReposition tb tbit s).br.err = refillErr s ∧
      ∀ n, (brReposition tb tbit s).unread n = takeBytes s.srcByte tb n) := by
  by_cases hin : s.br.pos ≤ tb ∧ tb ≤ s.br.pos + s.br.fill
  · rw [brReposition_inside h hin.1 hin.2]
    refine ⟨⟨hok.capacity, hok.buf_length, by simp; omega, hok.fill_le, hok.reach, hok.raw_wf, hok.raw_le, hok.length_le, hok.cache⟩,
      by simp [Br.cur]; omega, rfl, fun _ _ => ⟨rfl, fun n => ?_⟩, fun hn => absurd hin hn⟩
    have hc : (s.setBr { s.br with idx := tb - s.br.pos, bit := tbit }).br.cur = tb := by simp [Br.cur]; omega
    rw [State.unread, hc]
    have hsrc : (s.setBr { s.br with idx := tb - s.br.pos, bit := tbit }).srcByte = s.srcByte :=
      State.srcByte_congr rfl rfl rfl rfl rfl rfl rfl
    refine congrArg (fun f => takeBytes f tb n) ?_
    funext p
    simp only [State.brByte, State.setBr_br, hsrc]
  · have hr : brReposition tb tbit s = brFill (s.setBr { s.br with pos := tb, idx := 0, fill := 0, bit := tbit }) := by
      rw [brReposition, if_neg (by omega), if_neg hin]
    generalize hs0 : s.setBr { s.br with pos := tb, idx := 0, fill := 0, bit := tbit } = s0 at hr
    have hok0 : BrOk s0 := by
      subst hs0
      exact ⟨hok.capacity, hok.buf_length, by simp, by simp, by simpa using h, hok.raw_wf, hok.raw_le, hok.length_le, hok.cache⟩
    have hf := brFill_spec hok0
    have hcur : s0.br.cur = tb := by subst hs0; simp [Br.cur]
    have hsrc : s0.srcByte = s.srcByte := by subst hs0; exact State.srcByte_congr rfl rfl rfl rfl rfl rfl rfl
    rw [hr]
    refine ⟨hf.ok, by rw [Br.cur, hf.pos, hf.idx, hcur, Nat.add_zero], by subst hs0; simp, fun h1 h2 => absurd ⟨h1, h2⟩ hin,
      fun _ => ⟨?_, fun n => ?_⟩⟩
    · rw [hf.err]
      subst hs0
      rfl
    · rw [hf.unread, State.unread_eq hok0, hsrc]
      subst hs0
      simp [sliceBytes]

/-! ## Byte blocks and strings (rules R166, R187) -/

/-- The refill of the loops of rules R166 and R187: afterwards the buffer holds an unread byte, or there is none. -/
theorem brRefill_spec {s : State} (h : BrOk s) :
    SameCursor s (brRefill s) ∧
    ((brRefill s).br.fill ≤ (brRefill s).br.idx → s.unread 1 = [] ∧ (brRefill s).br.err = refillErr s) ∧
    ((brRefill s).br.idx < (brRefill s).br.fill → (brRefill s).br.err = s.br.err) := by
  unfold brRefill
  by_cases hc : s.br.fill ≤ s.br.idx
  · rw [if_pos hc]
    have hr := brFill_spec h
    refine ⟨hr.sameCursor, fun hle => ⟨?_, hr.err⟩, fun hlt => ?_⟩
    · rw [hr.idx, hr.fill] at hle
      have hcap := h.capacity
      have hm := s.unread_length_mono (m := 1) (n := s.cfg.cR) (by omega)
      exact List.length_eq_zero_iff.1 (by omega)
    · rw [hr.err]
      by_cases hs : s.sourceSeeks
      · rw [if_pos hs]
      · exfalso
        have hun := State.unread_eq h s.cfg.cR
        rw [takeBytes_none (State.srcByte_none hs _), List.append_nil] at hun
        rw [hr.idx, hr.fill, hun] at hlt
        simp [sliceBytes] at hlt
        omega
  · rw [if_neg hc]
    exact ⟨.refl h, fun hle => absurd hle hc, fun _ => rfl⟩

theorem State.unread_add (s : State) (k n : Nat) :
    s.unread (k + n) = s.unread k ++ (s.unread (k + n)).drop k := by
  conv_lhs => rw [← List.take_append_drop k (s.unread (k + n))]
  rw [s.unread_take (by omega)]

theorem State.sourceSeeks_congr {s t : State} (h1 : t.cfg = s.cfg) (h2 : t.cra.live = s.cra.live) :
    t.sourceSeeks ↔ s.sourceSeeks := by simp [State.sourceSeeks, h1, h2]

theorem refillErr_congr {s t : State} (h1 : t.cfg = s.cfg) (h2 : t.cra.live = s.cra.live) (h3 : t.br.err = s.br.err) :
    refillErr t = refillErr s := by
  unfold refillErr
  rw [h3]
  exact if_congr (State.sourceSeeks_congr h1 h2) rfl rfl

/-- The loop of `ReadBytesCore` (rules R166, R188 (b)): it takes the next bytes to come, as many as there are. -/
theorem brReadLoop_spec (fuel : Nat) {want : Nat} {s : State} (h : BrOk s) (hw : want ≤ fuel) :
    (brReadLoop fuel want s).1 = s.unread want ∧
    Advanced s (brReadLoop fuel want s).2 (s.unread want).length ∧
    (brReadLoop fuel want s).2.br.err = (if (s.unread want).length < want then refillErr s else s.br.err) := by
  induction fuel generalizing want s with
  | zero =>
    have h0 : want = 0 := by omega
    subst h0
    exact ⟨rfl, ⟨h, rfl, fun n => by simp [brReadLoop, State.unread, takeBytes]⟩, rfl⟩
  | succ fuel ih =>
    unfold brReadLoop
    by_cases h0 : want = 0
    · subst h0
      rw [if_pos rfl]
      exact ⟨rfl, ⟨h, rfl, fun n => by simp [State.unread, takeBytes]⟩, rfl⟩
    · rw [if_neg h0]
      dsimp only
      obtain ⟨r1, r2, r3⟩ := brRefill_spec h
      by_cases he : (brRefill s).br.fill ≤ (brRefill s).br.idx
      · rw [if_pos he]
        obtain ⟨r2, r4⟩ := r2 he
        have hnil : s.unread want = [] := by
          rw [s.unread_stable (m := 1) (by simp [r2]) (by omega), r2]
        rw [hnil, if_pos (by simp; omega)]
        exact ⟨rfl, ⟨r1.ok, r1.cur, fun n => by simp [r1.unread]⟩, r4⟩
      · rw [if_neg he]
        have r3 := r3 (by omega)
        generalize hm : min ((brRefill s).br.fill - (brRefill s).br.idx) want = m
        have hmpos : 0 < m := by omega
        have hmw : m ≤ want := by omega
        have hadv := r1.ok.advance (k := m) (u := { (brRefill s).br with idx := (brRefill s).br.idx + m }) (by omega)
          rfl rfl rfl rfl
        have hsl : sliceBytes (brRefill s).br.buf (brRefill s).br.idx m = s.unread m := by
          rw [← r1.unread, State.unread_buffered r1.ok (by omega)]
        have hlen : (s.unread m).length = m := by
          rw [← hsl, sliceBytes_length]
          have := r1.ok.fill_le
          have := r1.ok.buf_length
          omega
        generalize hu : (brRefill s).setBr { (brRefill s).br with idx := (brRefill s).br.idx + m } = u at hadv
        have hadv := r1.advanced hadv
        obtain ⟨i1, i2, i3⟩ := ih (want := want - m) hadv.ok (by omega)
        have hrest : u.unread (want - m) = (s.unread want).drop m := by
          rw [hadv.unread, show m + (want - m) = want by omega]
        have hall : s.unread m ++ (s.unread want).drop m = s.unread want := by
          have := s.unread_add m (want - m)
          rw [show m + (want - m) = want by omega] at this
          exact this.symm
        have hmle : m ≤ (s.unread want).length := by
          rw [← hall, List.length_append, hlen]
          omega
        have hdl : ((s.unread want).drop m).length = (s.unread want).length - m := List.length_drop
        rw [hrest] at i1 i2 i3
        rw [hdl] at i2 i3
        rw [hsl, i1, hall]
        refine ⟨rfl, ?_, ?_⟩
        · have := hadv.trans i2
          rwa [show m + ((s.unread want).length - m) = (s.unread want).length by omega] at this
        · rw [i3]
          have hue : u.br.err = s.br.err := by subst hu; exact r3
          have hur : refillErr u = refillErr s := refillErr_congr (by subst hu; simp) (by subst hu; simp) hue
          rw [hur, hue]
          by_cases hlt : (s.unread want).length < want
          · rw [if_pos hlt, if_pos (by omega)]
          · rw [if_neg hlt, if_neg (by omega)]

/-- `ReadBytesCore` (rules R166, R188 (b)). -/
theorem brReadBytesCore_spec {want : Nat} {s : State} (h : BrOk s) :
    (brReadBytesCore want s).1 = s.unread want ∧
    Advanced s (brReadBytesCore want s).2 (s.unread want).length ∧
    (brReadBytesCore want s).2.br.err =
      (if (s.unread want).length < want then latch (refillErr s) .reachedEndOfFile else s.br.err) := by
  obtain ⟨l1, l2, l3⟩ := brReadLoop_spec want h (Nat.le_refl want)
  unfold brReadBytesCore
  dsimp only
  rw [l1]
  by_cases hlt : (s.unread want).length < want
  · rw [if_pos hlt, if_pos hlt]
    rw [if_pos hlt] at l3
    refine ⟨rfl, ⟨⟨l2.ok.capacity, l2.ok.buf_length, l2.ok.idx_le, l2.ok.fill_le, l2.ok.reach, l2.ok.raw_wf, l2.ok.raw_le,
      l2.ok.length_le, l2.ok.cache⟩, l2.cur, fun n => ?_⟩, by simp [l3]⟩
    rw [← l2.unread]
    exact State.unread_congr rfl rfl rfl rfl (State.srcByte_congr rfl rfl rfl rfl rfl rfl rfl) n
  · rw [if_neg hlt, if_neg hlt]
    rw [if_neg hlt] at l3
    exact ⟨l1, l2, l3⟩

/-- The loop of READ_STR_NUL (rules R187, R188 (b)): the bytes before the first NUL to come, which is consumed too. -/
theorem brStrLoop_spec (rounds : Nat) {s : State} (h : BrOk s) :
    (brStrLoop rounds s).1 = (s.unread rounds).takeWhile (· ≠ 0) ∧
    Advanced s (brStrLoop rounds s).2 (strLength (s.unread rounds)) ∧
    (brStrLoop rounds s).2.br.err =
      (if (s.unread rounds).length < rounds ∧ 0 ∉ s.unread rounds then refillErr s else s.br.err) := by
  induction rounds generalizing s with
  | zero => exact ⟨rfl, ⟨h, rfl, fun n => by simp [brStrLoop, State.unread, takeBytes, strLength]⟩, rfl⟩
  | succ n ih =>
    unfold brStrLoop
    dsimp only
    obtain ⟨r1, r2, r3⟩ := brRefill_spec h
    by_cases he : (brRefill s).br.fill ≤ (brRefill s).br.idx
    · rw [if_pos he]
      obtain ⟨r2, r4⟩ := r2 he
      have hnil : s.unread (n + 1) = [] := by rw [s.unread_stable (m := 1) (by simp [r2]) (by omega), r2]
      rw [hnil]
      exact ⟨rfl, ⟨r1.ok, r1.cur, fun n => by simp [strLength, r1.unread]⟩, by simp [r4]⟩
    · rw [if_neg he]
      have r3 := r3 (by omega)
      have hadv := r1.ok.advance (k := 1) (u := { (brRefill s).br with idx := (brRefill s).br.idx + 1 }) (by omega)
        rfl rfl rfl rfl
      have hidx : (brRefill s).br.idx < (brRefill s).br.buf.length := by
        have := r1.ok.fill_le
        have := r1.ok.buf_length
        omega
      have hone : s.unread 1 = [byteAt (brRefill s).br.buf (brRefill s).br.idx] := by
        rw [← r1.unread, State.unread_buffered r1.ok (by omega), sliceBytes, List.drop_eq_getElem_cons hidx,
          List.take_succ_cons, List.take_zero]
        simp [byteAt, hidx]
      generalize hc : byteAt (brRefill s).br.buf (brRefill s).br.idx = c at hone
      generalize hu : (brRefill s).setBr { (brRefill s).br with idx := (brRefill s).br.idx + 1 } = u at hadv
      have hadv := r1.advanced hadv
      have hue : u.br.err = s.br.err := by subst hu; exact r3
      have hall : s.unread (n + 1) = c :: u.unread n := by
        have := s.unread_add 1 n
        rw [Nat.add_comm n 1, this, hone, hadv.unread]
        rfl
      rw [hall]
      by_cases h0 : c = 0
      · rw [if_pos h0]
        refine ⟨by simp [h0], by simpa [strLength, h0] using hadv, by simp [h0, hue]⟩
      · rw [if_neg h0]
        have h0' : ¬(0#8 = c) := fun hx => h0 hx.symm
        obtain ⟨i1, i2, i3⟩ := ih hadv.ok
        have hsl : strLength (c :: u.unread n) = 1 + strLength (u.unread n) := by
          have hm : (0 : Byte) ∈ c :: u.unread n ↔ 0 ∈ u.unread n := by
            simp [h0']
          unfold strLength
          rw [if_congr hm rfl rfl, List.takeWhile_cons_of_pos (by simpa using h0), List.length_cons]
          omega
        refine ⟨by rw [i1, List.takeWhile_cons_of_pos (by simpa using h0)], by rw [hsl]; exact hadv.trans i2, ?_⟩
        have hur : refillErr u = refillErr s := refillErr_congr (by subst hu; simp) (by subst hu; simp) hue
        rw [i3, hur, hue]
        refine if_congr ?_ rfl rfl
        simp [h0']

/-- The rounds READ_STR_NUL allows itself end with the stream (rule R371). -/
theorem State.unread_strRounds {s : State} (h : BrOk s) : (s.unread s.strRounds).length < s.strRounds := by
  have hb := h.buf_length
  have hi := h.idx_le
  have hf := h.fill_le
  have key : ∀ p n, (takeBytes s.srcByte p n).length ≤ s.downstreamLength := by
    intro p n
    rcases hz : (takeBytes s.srcByte p n).length with _ | k
    · omega
    · have hg := takeBytes_getElem? s.srcByte p n (j := k) (by omega)
      rcases hv : s.srcByte (p + k) with _ | b
      · rw [hv] at hg
        have := List.getElem?_eq_none_iff.1 hg
        omega
      · rcases hs : s.cfg.brSrc with _ | _
        · simp only [State.srcByte, hs] at hv
          rw [Memory.read?_eq h.raw_wf] at hv
          have hlt := (List.getElem?_eq_some_iff.1 hv).1
          simp only [State.downstreamLength, hs]
          simp at hlt
          omega
        · simp only [State.srcByte, hs] at hv
          simp only [State.downstreamLength, hs]
          split at hv
          · rw [State.craByte_def] at hv
            split at hv
            · omega
            · simp at hv
          · simp at hv
  rw [State.unread_eq h, List.length_append, sliceBytes_length _ _ _ (by omega)]
  have := key (s.br.pos + s.br.fill) (s.strRounds - (s.br.fill - s.br.idx))
  simp only [State.strRounds] at this ⊢
  omega

/-! ## The buffer stays within the downstream (the third item of rule R27) -/

/-- The downstream has no byte at or beyond its length (rules R76, R261). -/
theorem State.srcByte_lt_length {s : State} (h : BrOk s) {p : Nat} {b : Byte} (hb : s.srcByte p = some b) :
    p < s.downstreamLength := by
  rcases hs : s.cfg.brSrc with _ | _ <;> simp only [State.srcByte, State.downstreamLength, hs] at hb ⊢
  · rw [Memory.read?_eq h.raw_wf] at hb
    simpa using (List.getElem?_eq_some_iff.1 hb).1
  · split at hb
    · rw [State.craByte_def] at hb
      split at hb
      · rename_i hp
        exact hp.1
      · simp at hb
    · simp at hb

/-- The item depends on the place of the buffer and the downstream's length alone. -/
theorem State.withinSource_congr {s t : State} (h1 : t.br.pos = s.br.pos) (h2 : t.br.fill = s.br.fill)
    (h3 : t.cfg = s.cfg) (h4 : t.rawIn = s.rawIn) (h5 : t.cra.length = s.cra.length) :
    t.withinSource ↔ s.withinSource := by
  simp [State.withinSource, State.downstreamLength, h1, h2, h3, h4, h5]

/-- For a raw downstream the item is part of the invariant. -/
theorem Inv.withinSource {s : State} (h : Inv s) (hs : s.cfg.brSrc = .raw) : s.withinSource := by
  simpa [State.withinSource, State.downstreamLength, hs] using h.br.raw_length hs

/-- The bytes to come end where the downstream does, or where the buffer does. -/
theorem State.unread_within {s : State} (h : BrOk s) (hw : s.withinSource) (n : Nat) :
    s.br.cur + (s.unread n).length ≤ max s.br.cur s.downstreamLength := by
  have hi := h.idx_le
  rcases hk : (takeBytes s.srcByte (s.br.pos + s.br.fill) (n - (s.br.fill - s.br.idx))).length with _ | k
  · have hl : (sliceBytes s.br.buf s.br.idx (min n (s.br.fill - s.br.idx))).length ≤ s.br.fill - s.br.idx := by
      simp only [sliceBytes, List.length_take]
      omega
    rw [State.unread_eq h, List.length_append, hk]
    unfold State.withinSource at hw
    simp only [Br.cur] at *
    omega
  · have hlast := takeBytes_getElem? s.srcByte (s.br.pos + s.br.fill) (n - (s.br.fill - s.br.idx)) (j := k) (by omega)
    rw [List.getElem?_eq_getElem (by omega)] at hlast
    have hlt := State.srcByte_lt_length h hlast.symm
    have hl : (sliceBytes s.br.buf s.br.idx (min n (s.br.fill - s.br.idx))).length ≤ s.br.fill - s.br.idx := by
      simp only [sliceBytes, List.length_take]
      omega
    rw [State.unread_eq h, List.length_append, hk]
    simp only [Br.cur]
    omega

/-- `Fill` keeps the third item of rule R27. -/
theorem brFill_withinSource {s : State} (h : BrOk s) (hw : s.withinSource) : (brFill s).withinSource := by
  have hr := brFill_spec h
  have := State.unread_within h hw s.cfg.cR
  unfold State.withinSource
  rw [hr.pos, hr.fill, show (brFill s).downstreamLength = s.downstreamLength by simp [State.downstreamLength]]
  exact this

theorem brEnsure_withinSource {nb : Nat} {s : State} (h : BrOk s) (hw : s.withinSource) :
    (brEnsure nb s).2.withinSource := by
  unfold brEnsure
  dsimp only
  split
  · exact brFill_withinSource h hw
  · exact hw

theorem brRefill_withinSource {s : State} (h : BrOk s) (hw : s.withinSource) : (brRefill s).withinSource := by
  unfold brRefill
  split
  · exact brFill_withinSource h hw
  · exact hw

theorem brPeekBits_withinSource {n : Nat} {s : State} (h : BrOk s) (hw : s.withinSource) :
    (brPeekBits n s).2.withinSource := by
  unfold brPeekBits
  dsimp only
  split
  · exact brEnsure_withinSource h hw
  · exact (State.withinSource_congr rfl rfl rfl rfl rfl).2 (brEnsure_withinSource h hw)

theorem brReadLE_withinSource {k : Nat} {s : State} (h : BrOk s) (hw : s.withinSource) :
    (brReadLE k s).2.withinSource := by
  unfold brReadLE
  dsimp only
  split <;> exact (State.withinSource_congr rfl rfl rfl rfl rfl).2 (brEnsure_withinSource h hw)

theorem brReposition_withinSource {tb : Nat} {tbit : Fin 8} {s : State} (h : BrOk s) (hw : s.withinSource) :
    (brReposition tb tbit s).withinSource := by
  unfold brReposition
  split
  · exact (State.withinSource_congr rfl rfl rfl rfl rfl).2 hw
  · rename_i htb
    split
    · exact (State.withinSource_congr rfl rfl rfl rfl rfl).2 hw
    · refine brFill_withinSource ⟨h.capacity, h.buf_length, Nat.le_refl 0, Nat.zero_le _, ?_, h.raw_wf, h.raw_le, h.length_le,
        h.cache⟩ (Nat.le_max_left _ _)
      exact Nat.le_of_not_lt htb

theorem brReadLoop_withinSource (fuel : Nat) {want : Nat} {s : State} (h : BrOk s) (hw : s.withinSource) :
    (brReadLoop fuel want s).2.withinSource := by
  induction fuel generalizing want s with
  | zero => exact hw
  | succ fuel ih =>
    have hr := brRefill_withinSource h hw
    have hok := (brRefill_spec h).1.ok
    unfold brReadLoop
    split
    · exact hw
    · dsimp only
      split
      · exact hr
      · have ha := hok.advance (k := min ((brRefill s).br.fill - (brRefill s).br.idx) want) (by omega)
          (u := { (brRefill s).br with
            idx := (brRefill s).br.idx + min ((brRefill s).br.fill - (brRefill s).br.idx) want }) rfl rfl rfl rfl
        exact ih ha.ok ((State.withinSource_congr rfl rfl rfl rfl rfl).2 hr)

theorem brReadBytesCore_withinSource {want : Nat} {s : State} (h : BrOk s) (hw : s.withinSource) :
    (brReadBytesCore want s).2.withinSource := by
  unfold brReadBytesCore
  dsimp only
  split
  · exact (State.withinSource_congr rfl rfl rfl rfl rfl).2 (brReadLoop_withinSource want h hw)
  · exact brReadLoop_withinSource want h hw

theorem brStrLoop_withinSource (rounds : Nat) {s : State} (h : BrOk s) (hw : s.withinSource) :
    (brStrLoop rounds s).2.withinSource := by
  induction rounds generalizing s with
  | zero => exact hw
  | succ rounds ih =>
    have hr := brRefill_withinSource h hw
    have hok := (brRefill_spec h).1.ok
    unfold brStrLoop
    dsimp only
    split
    · exact hr
    · split
      · exact (State.withinSource_congr rfl rfl rfl rfl rfl).2 hr
      · have ha := hok.advance (k := 1) (by omega) (u := { (brRefill s).br with idx := (brRefill s).br.idx + 1 })
          rfl rfl rfl rfl
        exact ih ha.ok ((State.withinSource_congr rfl rfl rfl rfl rfl).2 hr)

end Sys2Proof.Machine
end

