-- ==== Sys2Proof/Laws/CipherWrite.lean ====
section
/-! SUPPORT. What the shared operations of `CWA` do (rules R89, R290 to R293): the ciphertext of a flush, what a flush and a
write leave unsent, and that neither can fail under the contract of `RAW_OUT`. -/

namespace Sys2Proof.Machine

/-! ## Blocks -/

@[simp] theorem transformBlocks_length (k : Schedule) (n : Nat) (l : List Byte) :
    (transformBlocks k n l).length = 8 * n := by
  induction n generalizing l with
  | zero => rfl
  | succ n ih => simp [transformBlocks, ih, (transform k (blockOfList (l.take 8))).2]; omega

theorem transformBlocks_add (k : Schedule) (m n : Nat) (l : List Byte) :
    transformBlocks k (m + n) l = transformBlocks k m l ++ transformBlocks k n (l.drop (8 * m)) := by
  induction m generalizing l with
  | zero => simp [transformBlocks]
  | succ m ih =>
    rw [Nat.add_right_comm, transformBlocks, transformBlocks, ih, List.drop_drop, List.append_assoc]
    congr 4
    omega

/-- The blocks depend on the bytes they cover alone. -/
theorem transformBlocks_congr (k : Schedule) (n : Nat) {l l' : List Byte} (h : l.take (8 * n) = l'.take (8 * n)) :
    transformBlocks k n l = transformBlocks k n l' := by
  induction n generalizing l l' with
  | zero => rfl
  | succ n ih =>
    have h8 : l.take 8 = l'.take 8 := by
      have := congrArg (List.take 8) h
      simpa [List.take_take, show min 8 (8 * (n + 1)) = 8 by omega] using this
    have hd : (l.drop 8).take (8 * n) = (l'.drop 8).take (8 * n) := by
      have := congrArg (List.drop 8) h
      simpa [List.drop_take, show 8 * (n + 1) - 8 = 8 * n by omega] using this
    rw [transformBlocks, transformBlocks, h8, ih hd]

/-- Appending to whole blocks leaves their transforms alone (rule R74). -/
theorem transformBlocks_append_left (k : Schedule) (n : Nat) (l l' : List Byte) (h : 8 * n ≤ l.length) :
    transformBlocks k n (l ++ l') = transformBlocks k n l :=
  transformBlocks_congr k n (by rw [List.take_append_of_le_length h])

@[simp] theorem ecb_length (k : Schedule) (q : List Byte) : (ecb k q).length = 8 * ((q.length + 7) / 8) := by simp [ecb]

@[simp] theorem ecb_nil (k : Schedule) : ecb k [] = [] := rfl

/-- The encryption of a list splits after any number of its whole blocks (rule R89). -/
theorem ecb_split (k : Schedule) (q : List Byte) (m : Nat) (h : 8 * m ≤ q.length) :
    ecb k q = transformBlocks k m q ++ ecb k (q.drop (8 * m)) := by
  rw [ecb, ecb, show (q.length + 7) / 8 = m + ((q.drop (8 * m)).length + 7) / 8 by simp; omega, transformBlocks_add]

/-! ## A flush (rule R290) -/

theorem Cwa.unsent_length {c : Cwa} (h : c.nbuf ≤ c.wbuf.length) : c.unsent.length = c.nbuf :=
  sliceBytes_length _ _ _ (by omega)

/-- The ciphertext of a non-final flush: the whole blocks of the unsent plaintext. -/
theorem Cwa.cipherText_false (c : Cwa) : c.cipherText false = transformBlocks c.sched (c.nbuf / 8) c.unsent := by
  simp only [Cwa.cipherText, Bool.false_eq_true, false_and, if_false, List.append_nil]
  rw [show (c.nbuf - c.nbuf % 8) / 8 = c.nbuf / 8 by omega]
  refine transformBlocks_congr _ _ ?_
  simp only [Cwa.unsent, sliceBytes, List.drop_zero, List.take_take]
  congr 1
  omega

/-- The ciphertext of a final flush: the zero-padded encryption of the unsent plaintext. -/
theorem Cwa.cipherText_true {c : Cwa} (h : c.nbuf ≤ c.wbuf.length) : c.cipherText true = ecb c.sched c.unsent := by
  have hlen := Cwa.unsent_length h
  rw [ecb_split c.sched c.unsent (c.nbuf / 8) (by omega), ← Cwa.cipherText_false]
  simp only [Cwa.cipherText, Bool.false_eq_true, false_and, if_false, List.append_nil, true_and]
  congr 1
  have hd : c.unsent.drop (8 * (c.nbuf / 8)) = sliceBytes c.wbuf (c.nbuf - c.nbuf % 8) (c.nbuf - (c.nbuf - c.nbuf % 8)) := by
    rw [show 8 * (c.nbuf / 8) = c.nbuf - c.nbuf % 8 by omega]
    simp [Cwa.unsent, sliceBytes, List.drop_take]
  rw [hd, ecb]
  have hl : (sliceBytes c.wbuf (c.nbuf - c.nbuf % 8) (c.nbuf - (c.nbuf - c.nbuf % 8))).length = c.nbuf % 8 := by
    rw [sliceBytes_length _ _ _ (by omega)]
    omega
  rw [hl]
  by_cases h0 : c.nbuf % 8 = 0
  · rw [if_neg (by omega), h0]
    rfl
  · rw [if_pos (by omega), show (c.nbuf % 8 + 7) / 8 = 1 by omega]
    simp only [transformBlocks, List.append_nil]
    rw [List.take_of_length_le (by omega)]

/-- What a flush leaves unsent. -/
theorem Cwa.flushed_unsent {c : Cwa} (h : c.nbuf ≤ c.wbuf.length) (final : Bool) :
    (c.flushed final).unsent = (if final then [] else c.unsent.drop (8 * (c.nbuf / 8))) ∧
    (c.flushed final).nbuf = (if final then 0 else c.nbuf % 8) ∧
    (c.flushed final).wbuf.length = c.wbuf.length := by
  cases final with
  | true => exact ⟨by simp [Cwa.flushed, Cwa.unsent, sliceBytes], rfl, rfl⟩
  | false =>
    have hr : c.nbuf - (c.nbuf - c.nbuf % 8) = c.nbuf % 8 := by omega
    refine ⟨?_, by simp [Cwa.flushed]; omega, by simp [Cwa.flushed]⟩
    have hl : (sliceBytes c.wbuf (c.nbuf - c.nbuf % 8) (c.nbuf % 8)).length = c.nbuf % 8 :=
      sliceBytes_length _ _ _ (by omega)
    have := sliceBytes_zero_putBytes c.wbuf 0 (sliceBytes c.wbuf (c.nbuf - c.nbuf % 8) (c.nbuf % 8)) (by omega)
    rw [hl, Nat.zero_add] at this
    simp only [Cwa.flushed, Bool.false_eq_true, if_false, Cwa.unsent, hr, this]
    rw [show 8 * (c.nbuf / 8) = c.nbuf - c.nbuf % 8 by omega]
    simp [sliceBytes, List.drop_take, hr]

/-- The bytes a flush sends, by its kind: the whole blocks, or everything zero-padded. -/
def Cwa.sent (c : Cwa) (final : Bool) : List Byte :=
  if final then ecb c.sched c.unsent else transformBlocks c.sched (c.nbuf / 8) c.unsent

theorem Cwa.cipherText_eq {c : Cwa} (h : c.nbuf ≤ c.wbuf.length) (final : Bool) : c.cipherText final = c.sent final := by
  cases final
  · exact c.cipherText_false
  · exact Cwa.cipherText_true h

/-- What `FlushCore` does (rule R290), under the contract of `RAW_OUT` (rule R77): it sends its ciphertext and keeps the
rest; it raises nothing. -/
theorem cwaFlushCore_spec (final : Bool) {s : State} (h : s.cwa.nbuf ≤ s.cwa.wbuf.length) :
    (cwaFlushCore final s).rawOut = s.rawOut.append (s.cwa.sent final) ∧
    (cwaFlushCore final s).cwa = s.cwa.flushed final ∧
    (cwaFlushCore final s).log =
      s.log ++ (if s.cwa.sent final = [] then [] else [.write .rawOut (s.cwa.sent final)]) ++ [.flush .rawOut] := by
  unfold cwaFlushCore
  dsimp only
  rw [Cwa.cipherText_eq h]
  by_cases h0 : (s.cwa.sent final) = []
  · simp [h0, cwaFlushEnd, rawOutFlush]
  · have h0' : (s.cwa.sent final).length ≠ 0 := by simpa using h0
    simp [h0, cwaFlushEnd, rawOutFlush, rawOutWrite]

/-- `FlushCore` does not fail (rules R77, R290). -/
theorem cwaFlushCore_err (final : Bool) (s : State) : (cwaFlushCore final s).cwa.err = s.cwa.err := by
  unfold cwaFlushCore
  dsimp only
  split
  · simp
  · split
    · rename_i h
      simp [rawOutWrite] at h
    · simp

/-! ## A write (rule R291) -/

/-- The buffer after one more byte. -/
theorem Cwa.unsent_set {c : Cwa} (b : Byte) (h : c.nbuf < c.wbuf.length) :
    sliceBytes (c.wbuf.set c.nbuf b) 0 (c.nbuf + 1) = c.unsent ++ [b] := by
  simpa [putBytes, Cwa.unsent] using sliceBytes_zero_putBytes c.wbuf c.nbuf [b] (by simpa using h)

/-- What WRITE's loop does (rule R291), from a buffer that is not full: every byte is accepted, whole buffers are sent as
blocks, and the rest stays unsent; nothing is raised. -/
theorem cwaPutBytes_spec (l : List Byte) {s : State} (hw : s.cwa.wbuf.length = s.cfg.cCW) (h8 : s.cfg.cCW % 8 = 0)
    (hn : s.cwa.nbuf < s.cfg.cCW) (he : s.cwa.err = .noError) :
    (cwaPutBytes l s).1 = l.length ∧ (cwaPutBytes l s).2.cwa.err = .noError ∧
    (cwaPutBytes l s).2.cwa.wbuf.length = s.cfg.cCW ∧
    (cwaPutBytes l s).2.cwa.nbuf = (s.cwa.nbuf + l.length) % s.cfg.cCW ∧
    (cwaPutBytes l s).2.cwa.unsent =
      (s.cwa.unsent ++ l).drop (s.cfg.cCW * ((s.cwa.nbuf + l.length) / s.cfg.cCW)) ∧
    (cwaPutBytes l s).2.rawOut =
      s.rawOut.append (transformBlocks s.cwa.sched (s.cfg.cCW / 8 * ((s.cwa.nbuf + l.length) / s.cfg.cCW))
        (s.cwa.unsent ++ l)) := by
  induction l generalizing s with
  | nil =>
    refine ⟨rfl, he, hw, ?_, ?_, ?_⟩
    · simp [cwaPutBytes, Nat.mod_eq_of_lt hn]
    · simp [cwaPutBytes, Nat.div_eq_of_lt hn]
    · simp [cwaPutBytes, Nat.div_eq_of_lt hn, transformBlocks]
  | cons b l ih =>
    have hset := Cwa.unsent_set (c := s.cwa) b (by omega)
    unfold cwaPutBytes
    dsimp only
    generalize hs1 : s.setCwa { s.cwa with wbuf := s.cwa.wbuf.set s.cwa.nbuf b, nbuf := s.cwa.nbuf + 1 } = s1
    have hcfg : s1.cfg = s.cfg := by subst hs1; rfl
    have hnb : s1.cwa.nbuf = s.cwa.nbuf + 1 := by subst hs1; rfl
    have hwl : s1.cwa.wbuf.length = s.cfg.cCW := by subst hs1; simpa using hw
    have her : s1.cwa.err = .noError := by subst hs1; exact he
    have hsch : s1.cwa.sched = s.cwa.sched := by subst hs1; rfl
    have hro : s1.rawOut = s.rawOut := by subst hs1; rfl
    have hun : s1.cwa.unsent = s.cwa.unsent ++ [b] := by subst hs1; exact hset
    have hul : s.cwa.unsent.length = s.cwa.nbuf := Cwa.unsent_length (by omega)
    rw [hcfg]
    by_cases hfull : s1.cwa.nbuf = s.cfg.cCW
    · rw [if_pos hfull, if_neg (by rw [cwaFlushCore_err, her]; simp)]
      have hcap : s.cwa.nbuf + 1 = s.cfg.cCW := by omega
      have hfl := cwaFlushCore_spec false (s := s1) (by omega)
      have hfu := Cwa.flushed_unsent (c := s1.cwa) (by omega) false
      simp only [Bool.false_eq_true, if_false] at hfu
      have h1 : (cwaFlushCore false s1).cfg = s.cfg := by simp [hcfg]
      have h2 : (cwaFlushCore false s1).cwa.nbuf = 0 := by rw [hfl.2.1, hfu.2.1, hfull, h8]
      have h3 : (cwaFlushCore false s1).cwa.unsent = [] := by
        rw [hfl.2.1, hfu.1, hun, hfull, show 8 * (s.cfg.cCW / 8) = s.cfg.cCW by omega]
        exact List.drop_eq_nil_of_le (by simp; omega)
      obtain ⟨i1, i2, i3, i4, i5, i6⟩ := ih (s := cwaFlushCore false s1) (by rw [hfl.2.1, hfu.2.2, hwl, h1])
        (by rw [h1]; exact h8) (by rw [h1, h2]; omega) (by rw [cwaFlushCore_err, her])
      rw [h1, h2] at i4 i5 i6
      rw [h1] at i3
      rw [h3] at i5 i6
      have hsum : s.cwa.nbuf + (b :: l).length = s.cfg.cCW + l.length := by simp; omega
      have hpos : 0 < s.cfg.cCW := by omega
      have hdiv : (s.cfg.cCW + l.length) / s.cfg.cCW = 1 + l.length / s.cfg.cCW := by
        rw [Nat.add_comm, Nat.add_div_right _ hpos, Nat.add_comm]
      have hubl : (s.cwa.unsent ++ [b]).length = s.cfg.cCW := by simp; omega
      rw [show s.cwa.unsent ++ b :: l = (s.cwa.unsent ++ [b]) ++ l by simp, hsum, hdiv]
      refine ⟨by simp [i1], i2, i3, by rw [i4]; simp, ?_, ?_⟩
      · rw [i5, Nat.mul_add, Nat.mul_one, ← List.drop_drop, List.drop_left' hubl]
        simp
      · rw [i6, hfl.1, hro, Memory.append_append]
        simp only [cwaFlushCore_frame, hsch, Cwa.sent, Bool.false_eq_true, if_false, List.nil_append, Nat.zero_add]
        rw [Nat.mul_add, Nat.mul_one, transformBlocks_add,
          transformBlocks_append_left _ _ _ _ (by omega), hun, hfull,
          show 8 * (s.cfg.cCW / 8) = s.cfg.cCW by omega, List.drop_left' hubl]
    · rw [if_neg hfull]
      obtain ⟨i1, i2, i3, i4, i5, i6⟩ := ih (s := s1) (by rw [hcfg]; exact hwl) (by rw [hcfg]; exact h8)
        (by rw [hcfg]; omega) her
      rw [hcfg] at i3 i4 i5 i6
      rw [hun, hnb] at i5 i6
      rw [hnb] at i4
      rw [hsch, hro] at i6
      have hsum : s.cwa.nbuf + 1 + l.length = s.cwa.nbuf + (b :: l).length := by simp; omega
      rw [hsum] at i4 i5 i6
      exact ⟨by simp [i1], i2, i3, i4, by simpa using i5, by simpa using i6⟩

end Sys2Proof.Machine
end

