-- ==== Sys2Proof/Laws/BitWriter.lean ====
section
/-! SUPPORT. What the shared operations of `BW` do (rules R141, R142, R220, R221, R225, R238): the downstream calls, the
flush, and the bits and bytes stored in the buffer. -/

namespace Sys2Proof.Machine

/-! ## The downstream (rules R141, R142) -/

/-- What the invariant says of `CWA` that a downstream call of `BW` needs (rules R48, R49). -/
structure SinkOk (s : State) : Prop where
  multiple : s.cfg.cCW % 8 = 0
  wbuf_length : s.cwa.wbuf.length = s.cfg.cCW
  nbuf_lt : s.cwa.err = .noError → s.cwa.nbuf < s.cfg.cCW

theorem Inv.sinkOk {s : State} (h : Inv s) : SinkOk s :=
  ⟨h.launch.cfg_wf.2.2.2.1, h.cwa.wbuf_length, h.cwa.between_flushes⟩

theorem SinkOk.congr {s t : State} (h : SinkOk s) (hc : t.cfg = s.cfg) (hw : t.cwa = s.cwa) : SinkOk t :=
  ⟨hc ▸ h.multiple, by rw [hw, hc]; exact h.wbuf_length, by rw [hw, hc]; exact h.nbuf_lt⟩

theorem gate_accepts {live : Bool} {err : Err} : gate live err = .accepts ↔ live = true ∧ err = .noError := by
  unfold gate
  cases live <;> by_cases h : err = .noError <;> simp [h]

theorem Memory.append_take (m : Memory) (l k : List Byte) : (m.append l).append k = m.append (l ++ k) :=
  Memory.append_append m l k

/-- A downstream that took `l` and then `k` took `l ++ k`. -/
theorem SinkTook.trans {s t u : State} {l k : List Byte} (h1 : SinkTook s t l) (h2 : SinkTook t u k)
    (hc : t.cfg = s.cfg) (hs : t.cwa.sched = s.cwa.sched) : SinkTook s u (l ++ k) where
  raw hr := by
    rw [h2.raw (by rw [hc]; exact hr), h1.raw hr, Memory.append_append]
  cwa hr := by
    obtain ⟨m, m1, m2, m3⟩ := h1.cwa hr
    obtain ⟨n, n1, n2, n3⟩ := h2.cwa (by rw [hc]; exact hr)
    have hd : t.cwa.unsent ++ k = (s.cwa.unsent ++ (l ++ k)).drop (8 * m) := by
      rw [m3, ← List.append_assoc, List.drop_append_of_le_length m1]
    refine ⟨m + n, ?_, ?_, ?_⟩
    · rw [hd] at n1
      simp at n1 m1 ⊢
      omega
    · rw [n2, m2, Memory.append_append, hd, hs, transformBlocks_add, ← List.append_assoc s.cwa.unsent,
        transformBlocks_append_left _ _ _ _ m1]
    · rw [n3, hd, List.drop_drop]
      congr 1
      omega

theorem SinkTook.refl {s t : State} (h1 : t.rawOut = s.rawOut) (h2 : t.cwa.unsent = s.cwa.unsent) : SinkTook s t [] :=
  ⟨fun _ => by simp [h1], fun _ => ⟨0, by simp, by simp [h1, transformBlocks], by simp [h2]⟩⟩

/-- A downstream that accepts writes takes all of the bytes (rules R77, R291), and goes on accepting. -/
theorem dswWrite_accepted (l : List Byte) {s : State} (hok : SinkOk s) (ha : s.sinkAccepts) :
    (dswWrite l s).1 = l.length ∧ SinkTook s (dswWrite l s).2 l ∧ SinkOk (dswWrite l s).2 ∧
    (dswWrite l s).2.sinkAccepts := by
  rcases hd : s.cfg.bwDst with _ | _
  · have hr : dswWrite l s = rawOutWrite l s := by simp [dswWrite, hd]
    rw [hr]
    exact ⟨rfl, ⟨fun _ => rfl, fun h => by simp [hd] at h⟩, hok.congr rfl rfl, .inl hd⟩
  · obtain ⟨hl, he, hsl⟩ : s.cwa.live = true ∧ s.cwa.err = .noError ∧ s.cwa.sealed = false := by
      rcases ha with ha | ha
      · simp [hd] at ha
      · exact ha
    have hr : dswWrite l s = ((cwaPutBytes l s).1, (cwaPutBytes l s).2.addEvent (.write .cwa l)) := by
      simp [dswWrite, hd, gate, hl, he, cwaWriteCore, hsl]
    rw [hr]
    obtain ⟨i1, i2, i3, i4, i5, i6⟩ := cwaPutBytes_spec l hok.wbuf_length hok.multiple (hok.nbuf_lt he) he
    have hc : s.cfg.cCW = 8 * (s.cfg.cCW / 8) := by have := hok.multiple; omega
    have hlt := hok.nbuf_lt he
    have hul : s.cwa.unsent.length = s.cwa.nbuf := Cwa.unsent_length (by rw [hok.wbuf_length]; omega)
    refine ⟨i1, ⟨fun h => by simp [hd] at h, fun _ =>
      ⟨s.cfg.cCW / 8 * ((s.cwa.nbuf + l.length) / s.cfg.cCW), ?_, i6, ?_⟩⟩, ⟨?_, ?_, fun _ => ?_⟩, .inr ⟨?_, i2, ?_⟩⟩
    · rw [List.length_append, hul, ← Nat.mul_assoc, ← hc]
      exact Nat.mul_div_le _ _
    · rw [← Nat.mul_assoc, ← hc]
      exact i5
    · simpa using hok.multiple
    · simpa using i3
    · simp only [State.addEvent_cwa, State.addEvent_cfg, cwaPutBytes_frame, i4]
      exact Nat.mod_lt _ (by omega)
    · simpa using hl
    · simpa using hsl

/-- What a downstream that accepts no write does (rules R142, R291): it takes nothing; a sealed `CWA` raises
`StreamIsClosed`. -/
theorem dswWrite_refused (l : List Byte) {s : State} (hn : ¬s.sinkAccepts) :
    (dswWrite l s).1 = 0 ∧ (dswWrite l s).2.rawOut = s.rawOut ∧
    (dswWrite l s).2.cwa =
      (if s.cwa.live = true ∧ s.cwa.err = .noError then { s.cwa with err := .streamIsClosed } else s.cwa) ∧
    (dswWrite l s).2.log =
      s.log ++ (if s.cwa.live = true ∧ s.cwa.err = .noError then [.write .cwa l] else []) := by
  have hd : s.cfg.bwDst = .cwa := by
    rcases h : s.cfg.bwDst with _ | _
    · exact absurd (.inl h) hn
    · rfl
  by_cases hl : s.cwa.live = true
  · by_cases he : s.cwa.err = .noError
    · have hsl : s.cwa.sealed = true := by
        rcases h : s.cwa.sealed with _ | _
        · exact absurd (.inr ⟨hl, he, h⟩) hn
        · rfl
      simp [dswWrite, hd, gate, hl, he, cwaWriteCore, hsl]
    · simp [dswWrite, hd, gate, hl, he]
  · simp [dswWrite, hd, gate, hl]

/-- A flush of the downstream (rules R77, R142, R290, R292): nothing is lost, and an adapter that accepts writes keeps less
than a block unsent. -/
theorem dswFlush_spec {s : State} (hok : SinkOk s) :
    SinkTook s (dswFlush s) [] ∧ SinkOk (dswFlush s) ∧ (dswFlush s).cwa.err = s.cwa.err ∧
    (s.cfg.bwDst = .cwa → s.sinkAccepts → (dswFlush s).cwa.unsent.length < 8) := by
  rcases hd : s.cfg.bwDst with _ | _
  · have hr : dswFlush s = rawOutFlush s := by simp [dswFlush, hd]
    rw [hr]
    exact ⟨.refl rfl rfl, hok.congr rfl rfl, rfl, fun h => by simp at h⟩
  · by_cases hg : s.cwa.live = true ∧ s.cwa.err = .noError
    · have hr : dswFlush s = (cwaFlushBody s).addEvent (.flush .cwa) := by simp [dswFlush, hd, gate, hg.1, hg.2]
      rw [hr]
      by_cases hsl : s.cwa.sealed = true
      · rw [cwaFlushBody, if_pos hsl]
        refine ⟨.refl rfl rfl, hok.congr rfl rfl, rfl, fun _ ha => ?_⟩
        rcases ha with ha | ha
        · simp [hd] at ha
        · simp [hsl] at ha
      · rw [cwaFlushBody, if_neg hsl]
        have hlt := hok.nbuf_lt hg.2
        have hw := hok.wbuf_length
        have hf := cwaFlushCore_spec false (s := s) (by omega)
        have hu := Cwa.flushed_unsent (c := s.cwa) (by omega) false
        have hul : s.cwa.unsent.length = s.cwa.nbuf := Cwa.unsent_length (by omega)
        simp only [Bool.false_eq_true, if_false] at hu
        refine ⟨⟨fun h => by simp [hd] at h, fun _ => ⟨s.cwa.nbuf / 8, ?_, ?_, ?_⟩⟩, ⟨?_, ?_, ?_⟩, ?_, fun _ _ => ?_⟩
        · simp; omega
        · simp [hf.1, Cwa.sent]
        · simp [hf.2.1, hu.1]
        · simpa using hok.multiple
        · simp [hf.2.1, hu.2.2, hw]
        · intro _
          simp only [State.addEvent_cwa, State.addEvent_cfg, cwaFlushCore_frame, hf.2.1, hu.2.1]
          omega
        · simpa using cwaFlushCore_err false s
        · simp only [State.addEvent_cwa, hf.2.1, hu.1, List.length_drop, hul]
          omega
    · have hr : dswFlush s = s := by
        by_cases hl : s.cwa.live = true
        · have he : s.cwa.err ≠ .noError := fun h => hg ⟨hl, h⟩
          simp [dswFlush, hd, gate, hl, he]
        · simp [dswFlush, hd, gate, hl]
      rw [hr]
      refine ⟨.refl rfl rfl, hok, rfl, fun _ ha => ?_⟩
      rcases ha with ha | ha
      · simp [hd] at ha
      · exact absurd ⟨ha.1, ha.2.1⟩ hg

theorem State.sinkAccepts_congr {s t : State} (hc : t.cfg = s.cfg) (hl : t.cwa.live = s.cwa.live)
    (he : t.cwa.err = s.cwa.err) (hs : t.cwa.sealed = s.cwa.sealed) : t.sinkAccepts ↔ s.sinkAccepts := by
  simp [State.sinkAccepts, hc, hl, he, hs]

/-! ## The flush (rule R220) -/

theorem Bw.pending_length {u : Bw} {cW : Nat} (hb : u.buf.length = cW) (hi : u.idx ≤ cW) (hp : u.bit ≠ 0 → u.idx < cW) :
    u.pending.length = u.idx + partialByte u.bit := by
  refine sliceBytes_length _ _ _ ?_
  unfold partialByte
  split
  · omega
  · rename_i h
    have := hp h
    omega

@[simp] theorem Bw.flushed_cur (u : Bw) (cW : Nat) : (u.flushed cW).cur = u.cur := by simp [Bw.flushed, Bw.cur]

/-- A flush into a downstream that accepts, or of nothing (rule R220): the pending bytes are sent, the partial byte is
carried, `Cur` and the bit offset stay. -/
theorem bwFlush_accepted {s : State} (hok : SinkOk s) (hb : s.bw.buf.length = s.cfg.cW) (hi : s.bw.idx ≤ s.cfg.cW)
    (hp : s.bw.bit ≠ 0 → s.bw.idx < s.cfg.cW) (ha : s.sinkAccepts ∨ s.bw.idx + partialByte s.bw.bit = 0) :
    (bwFlush s).bw = s.bw.flushed s.cfg.cW ∧ SinkTook s (bwFlush s) s.bw.pending ∧ SinkOk (bwFlush s) ∧
    (bwFlush s).cwa.err = s.cwa.err ∧
    (s.cfg.bwDst = .cwa → s.sinkAccepts → (bwFlush s).cwa.unsent.length < 8) := by
  have hpl := Bw.pending_length hb hi hp
  unfold bwFlush
  dsimp only
  by_cases h0 : s.bw.idx + partialByte s.bw.bit = 0
  · rw [if_pos h0]
    have hnil : s.bw.pending = [] := List.length_eq_zero_iff.1 (by omega)
    obtain ⟨f1, f2, f3, f4⟩ := dswFlush_spec hok
    rw [hnil]
    refine ⟨by simp [bwFlushEnd], ⟨fun h => f1.raw h, fun h => f1.cwa h⟩, f2.congr (by simp [bwFlushEnd]) (by simp [bwFlushEnd]),
      by simpa [bwFlushEnd] using f3, by simpa [bwFlushEnd] using f4⟩
  · rw [if_neg h0]
    have ha' : s.sinkAccepts := ha.resolve_right h0
    obtain ⟨w1, w2, w3, w4⟩ := dswWrite_accepted s.bw.pending hok ha'
    rw [if_neg (by omega)]
    obtain ⟨f1, f2, f3, f4⟩ := dswFlush_spec w3
    have htook : SinkTook s (bwFlushEnd (dswWrite s.bw.pending s).2) (s.bw.pending ++ []) :=
      w2.trans ⟨fun h => f1.raw h, fun h => f1.cwa h⟩ (by simp) (by simp)
    have herr : (dswWrite s.bw.pending s).2.cwa.err = s.cwa.err := by
      rcases ha' with h | h
      · rw [dswWrite_cwa_of_raw h]
      · rcases hd : s.cfg.bwDst with _ | _
        · rw [dswWrite_cwa_of_raw hd]
        · rcases w4 with h' | h'
          · simp [hd] at h'
          · rw [h'.2.1, h.2.1]
    refine ⟨by simp [bwFlushEnd], by simpa using htook, f2.congr (by simp [bwFlushEnd]) (by simp [bwFlushEnd]), ?_, ?_⟩
    · rw [show (bwFlushEnd (dswWrite s.bw.pending s).2).cwa.err = (dswFlush (dswWrite s.bw.pending s).2).cwa.err by
        simp [bwFlushEnd], f3, herr]
    · intro hd _
      simpa [bwFlushEnd] using f4 (by simpa using hd) w4

/-- A flush of some bytes into a downstream that accepts none (rules R142, R220, R321): `FailedToWrite`, the buffer and the
cursor unchanged, nothing sent. -/
theorem bwFlush_refused {s : State} (hn : ¬s.sinkAccepts) (h0 : s.bw.idx + partialByte s.bw.bit ≠ 0) :
    (bwFlush s).bw = { s.bw with err := latch s.bw.err .failedToWrite } ∧ (bwFlush s).rawOut = s.rawOut ∧
    (bwFlush s).cwa =
      (if s.cwa.live = true ∧ s.cwa.err = .noError then { s.cwa with err := .streamIsClosed } else s.cwa) := by
  obtain ⟨w1, w2, w3, -⟩ := dswWrite_refused s.bw.pending hn
  unfold bwFlush
  dsimp only
  rw [if_neg h0, if_pos (by omega)]
  simp [w2, w3]

/-! ## Bits (rule R71) -/

/-- The bit at cursor position `j` of a byte list: bit `7 - j % 8` of byte `j / 8`. -/
def bitAt (l : List Byte) (j : Nat) : Bool := (byteAt l (j / 8)).getLsbD (7 - j % 8)

@[simp] theorem bitsOfByte_length (b : Byte) : (bitsOfByte b).length = 8 := by simp [bitsOfByte]

@[simp] theorem bitsOf_length (l : List Byte) : (bitsOf l).length = 8 * l.length := by
  induction l with
  | nil => rfl
  | cons b l ih =>
    have : bitsOf (b :: l) = bitsOfByte b ++ bitsOf l := rfl
    rw [this, List.length_append, ih, bitsOfByte_length, List.length_cons]
    omega

theorem bitsOf_append (l k : List Byte) : bitsOf (l ++ k) = bitsOf l ++ bitsOf k := by simp [bitsOf]

theorem bitsOf_cons (b : Byte) (l : List Byte) : bitsOf (b :: l) = bitsOfByte b ++ bitsOf l := rfl

theorem bitsOf_take (l : List Byte) (n : Nat) : (bitsOf l).take (8 * n) = bitsOf (l.take n) := by
  conv_lhs => rw [← List.take_append_drop n l, bitsOf_append]
  by_cases h : n ≤ l.length
  · exact List.take_left' (by simp; omega)
  · rw [List.drop_eq_nil_of_le (by omega), List.take_of_length_le (l := l) (by omega), List.take_of_length_le]
    · simp [bitsOf]
    · simp [bitsOf]
      omega

theorem bitsOf_drop (l : List Byte) (n : Nat) : (bitsOf l).drop (8 * n) = bitsOf (l.drop n) := by
  conv_lhs => rw [← List.take_append_drop n l, bitsOf_append]
  by_cases h : n ≤ l.length
  · exact List.drop_left' (by simp; omega)
  · rw [List.drop_eq_nil_of_le (by simp; omega), List.drop_eq_nil_of_le (by omega)]
    rfl

theorem bitsOf_getElem? (l : List Byte) {j : Nat} (h : j < 8 * l.length) : (bitsOf l)[j]? = some (bitAt l j) := by
  induction l generalizing j with
  | nil => simp at h
  | cons b l ih =>
    rw [bitsOf_cons]
    by_cases hj : j < 8
    · rw [List.getElem?_append_left (by simpa using hj)]
      simp [bitsOfByte, bitAt, byteAt, hj, Nat.div_eq_of_lt hj, Nat.mod_eq_of_lt hj]
    · rw [List.getElem?_append_right (by simp; omega), bitsOfByte_length, ih (by simp at h; omega)]
      have h1 : j / 8 = (j - 8) / 8 + 1 := by omega
      have h2 : j % 8 = (j - 8) % 8 := by omega
      simp [bitAt, byteAt, h1, h2]

/-- The bits `BW` holds, one by one. -/
theorem Bw.bits_eq {u : Bw} (h : 8 * u.idx + u.bit.val ≤ 8 * u.buf.length) :
    u.bits = (List.range (8 * u.idx + u.bit.val)).map (bitAt u.buf) := by
  refine List.ext_getElem? fun j => ?_
  by_cases hj : j < 8 * u.idx + u.bit.val
  · simp [Bw.bits, hj, bitsOf_getElem? u.buf (show j < 8 * u.buf.length by omega)]
  · simp [Bw.bits, hj]

theorem fieldOf_succ {w : Nat} (n : Nat) (v : BitVec w) : fieldOf (n + 1) v = v.getLsbD n :: fieldOf n v := by
  rw [fieldOf, List.range_succ_eq_map]
  simp only [List.map_cons, List.map_map, fieldOf, Nat.add_sub_cancel, Nat.sub_zero]
  congr 1
  refine List.map_congr_left fun i hi => ?_
  simp only [Function.comp, Nat.succ_eq_add_one]
  congr 1
  omega

@[simp] theorem fieldOf_length {w : Nat} (n : Nat) (v : BitVec w) : (fieldOf n v).length = n := by simp [fieldOf]

/-! ## The buffer of `BW` (rule R29) -/

/-- The invariants of rule R29 on the fields of `BW`. -/
structure BwBuf (u : Bw) (cW : Nat) : Prop where
  length : u.buf.length = cW
  idx_le : u.idx ≤ cW
  room : u.bit ≠ 0 → u.idx < cW
  after : ∀ j, u.idx < j → byteAt u.buf j = 0
  low : ∀ j, j + u.bit.val < 8 → (byteAt u.buf u.idx).getLsbD j = false

theorem Inv.bwBuf {s : State} (h : Inv s) : BwBuf s.bw s.cfg.cW :=
  ⟨h.bw.buf_length, h.bw.idx_le_cap, h.bw.partial_room, h.bw.zero_after, h.bw.zero_bits⟩

theorem byteAt_set (l : List Byte) (i : Nat) (b : Byte) (j : Nat) :
    byteAt (l.set i b) j = if j = i ∧ i < l.length then b else byteAt l j := by
  unfold byteAt
  by_cases hj : j = i
  · subst hj
    by_cases hl : j < l.length
    · simp [hl]
    · simp [hl]
  · have hij : i ≠ j := fun h => hj h.symm
    simp [hj, hij, List.getD_eq_getElem?_getD]

@[simp] theorem byteAt_replicate_zero (n j : Nat) : byteAt (List.replicate n 0#8) j = 0#8 := by
  unfold byteAt
  by_cases h : j < n <;> simp [List.getD_eq_getElem?_getD, h]

/-- A flush keeps the invariants of rule R29: the partial byte is carried, the rest is zero (rule R220). -/
theorem BwBuf.flushed {u : Bw} {cW : Nat} (h : BwBuf u cW) (h8 : 8 ≤ cW) : BwBuf (u.flushed cW) cW where
  length := by simp [Bw.flushed]
  idx_le := by simp [Bw.flushed]
  room _ := by simp [Bw.flushed]; omega
  after j hj := by
    simp only [Bw.flushed] at hj ⊢
    rw [byteAt_set, if_neg (by omega)]
    simp
  low j hj := by
    simp only [Bw.flushed] at hj ⊢
    rw [byteAt_set, if_pos (by simp; omega)]
    split
    · simp
    · exact h.low j hj

/-- One bit stored in a byte whose remaining bits are zero. -/
theorem getLsbD_putBit (x : Byte) (k : Nat) (hk : k < 8) (b : Bool) (hz : x.getLsbD k = false) (j : Nat) :
    (x ||| (if b then (1#8 <<< k) else 0)).getLsbD j = if j = k then b else x.getLsbD j := by
  cases b with
  | false =>
    by_cases hj : j = k
    · simp [hj, hz]
    · simp [hj]
  | true =>
    rw [if_pos rfl, BitVec.getLsbD_or, BitVec.getLsbD_shiftLeft, BitVec.getLsbD_one]
    by_cases hj : j = k
    · subst hj
      simp [hk]
    · rw [if_neg hj]
      by_cases hlt : j < k
      · simp [hlt]
      · have : j - k ≠ 0 := by omega
        simp [this]

/-- The value and place of a bit stored at the cursor (rule R221): the bits written before stay, the new one follows them,
and the cursor moves one bit. -/
theorem Bw.putBit_spec {u : Bw} {cW : Nat} (h : BwBuf u cW) (hroom : u.idx < cW) (b : Bool) :
    BwBuf (u.putBit b) cW ∧ (u.putBit b).bits = u.bits ++ [b] ∧
    8 * (u.putBit b).idx + (u.putBit b).bit.val = 8 * u.idx + u.bit.val + 1 := by
  have hbit := u.bit.isLt
  have hlow : (byteAt u.buf u.idx).getLsbD (7 - u.bit.val) = false := h.low _ (by omega)
  have hput := getLsbD_putBit (byteAt u.buf u.idx) (7 - u.bit.val) (by omega) b hlow
  have hlen := h.length
  generalize hx : (byteAt u.buf u.idx ||| (if b then (1#8 <<< (7 - u.bit.val)) else 0)) = x at hput
  have hbyte : ∀ j, byteAt (u.buf.set u.idx x) j = if j = u.idx then x else byteAt u.buf j := by
    intro j
    rw [byteAt_set]
    simp [show u.idx < u.buf.length by omega]
  have hat : ∀ j, bitAt (u.buf.set u.idx x) j = if j = 8 * u.idx + u.bit.val then b else bitAt u.buf j := by
    intro j
    unfold bitAt
    rw [hbyte]
    by_cases hj : j / 8 = u.idx
    · rw [if_pos hj, hput, hj]
      by_cases hk : j = 8 * u.idx + u.bit.val
      · rw [if_pos (by omega), if_pos hk]
      · rw [if_neg (by omega), if_neg hk]
    · rw [if_neg hj, if_neg (by omega)]
  have hbits : ((List.range (8 * u.idx + u.bit.val + 1)).map (bitAt (u.buf.set u.idx x))) = u.bits ++ [b] := by
    rw [Bw.bits_eq (u := u) (by omega), List.range_succ, List.map_append, List.map_singleton, hat, if_pos rfl]
    congr 1
    refine List.map_congr_left fun j hj => ?_
    rw [hat, if_neg]
    have := List.mem_range.1 hj
    omega
  unfold Bw.putBit
  rw [hx]
  dsimp only
  by_cases h8 : u.bit.val + 1 = 8
  · rw [if_pos h8]
    refine ⟨⟨by simpa using hlen, by dsimp only; omega, fun hne => absurd rfl hne, fun j hj => ?_, fun j hj => ?_⟩, ?_, ?_⟩
    · dsimp only at hj ⊢
      rw [hbyte, if_neg (by omega)]
      exact h.after j (by omega)
    · dsimp only
      rw [hbyte, if_neg (by omega), h.after _ (by omega)]
      simp
    · rw [Bw.bits_eq (by dsimp only; simp; omega)]
      dsimp only
      rw [← hbits]
      congr 2
      simp
      omega
    · simp
      omega
  · rw [if_neg h8]
    have hv : (u.bit + 1).val = u.bit.val + 1 := by
      rw [Fin.val_add]
      simp
      omega
    refine ⟨⟨by simpa using hlen, h.idx_le, fun _ => hroom, fun j hj => ?_, fun j hj => ?_⟩, ?_, ?_⟩
    · dsimp only at hj ⊢
      rw [hbyte, if_neg (by omega)]
      exact h.after j hj
    · dsimp only at hj ⊢
      rw [hv] at hj
      rw [hbyte, if_pos rfl, hput, if_neg (by omega)]
      exact h.low j (by omega)
    · rw [Bw.bits_eq (by dsimp only; rw [hv]; simp; omega)]
      dsimp only
      rw [← hbits, hv]
      congr 2
    · dsimp only
      rw [hv]
      omega

@[simp] theorem Bw.putBit_frame (u : Bw) (b : Bool) :
    (u.putBit b).live = u.live ∧ (u.putBit b).err = u.err ∧ (u.putBit b).pos = u.pos ∧ (u.putBit b).marks = u.marks := by
  unfold Bw.putBit
  dsimp only
  split <;> exact ⟨rfl, rfl, rfl, rfl⟩

@[simp] theorem Bw.putBits_frame (u : Bw) (v : Word32) (n : Nat) :
    (u.putBits v n).live = u.live ∧ (u.putBits v n).err = u.err ∧ (u.putBits v n).pos = u.pos ∧
    (u.putBits v n).marks = u.marks := by
  induction n generalizing u with
  | zero => exact ⟨rfl, rfl, rfl, rfl⟩
  | succ n ih => simp [Bw.putBits, ih]

/-- What the loop of WRITE_BITS does in a buffer with room (rules R71, R221): the field follows the bits written before, its
most significant bit first, and the cursor moves `n` bits. -/
theorem Bw.putBits_spec {u : Bw} {cW : Nat} (h : BwBuf u cW) (v : Word32) (n : Nat)
    (hroom : 8 * u.idx + u.bit.val + n ≤ 8 * cW) :
    BwBuf (u.putBits v n) cW ∧ (u.putBits v n).bits = u.bits ++ fieldOf n v ∧
    8 * (u.putBits v n).idx + (u.putBits v n).bit.val = 8 * u.idx + u.bit.val + n := by
  induction n generalizing u with
  | zero => exact ⟨h, by simp [Bw.putBits, fieldOf], rfl⟩
  | succ n ih =>
    obtain ⟨p1, p2, p3⟩ := Bw.putBit_spec h (by omega) (v.getLsbD n)
    obtain ⟨i1, i2, i3⟩ := ih p1 (by omega)
    exact ⟨i1, by rw [Bw.putBits, i2, p2, fieldOf_succ]; simp, by rw [Bw.putBits, i3, p3]; omega⟩

/-- A run of bytes stored at the cursor (rules R225, R238): it stands at `idx`, the bytes before it stay, the bit offset is
kept and points into a zero byte. -/
theorem Bw.putRun_spec {u : Bw} {cW : Nat} (h : BwBuf u cW) (l : List Byte)
    (hroom : u.idx + l.length + partialByte u.bit ≤ cW) :
    BwBuf (u.putRun l) cW ∧ sliceBytes (u.putRun l).buf 0 (u.idx + l.length) = sliceBytes u.buf 0 u.idx ++ l := by
  have hlen := h.length
  have hfit : u.idx + l.length ≤ u.buf.length := by omega
  refine ⟨⟨by simpa [Bw.putRun] using hlen, by simp only [Bw.putRun]; omega, fun hne => ?_, fun j hj => ?_, fun j hj => ?_⟩,
    sliceBytes_zero_putBytes u.buf u.idx l hfit⟩
  · have hb : partialByte u.bit = 1 := by
      unfold partialByte
      rw [if_neg (by simpa [Bw.putRun] using hne)]
    simp only [Bw.putRun]
    omega
  · simp only [Bw.putRun] at hj ⊢
    rw [byteAt_putBytes_of_le _ _ _ (by omega)]
    exact h.after j (by omega)
  · simp only [Bw.putRun] at hj ⊢
    rw [byteAt_putBytes_of_le _ _ _ (by omega)]
    by_cases h0 : l.length = 0
    · rw [h0]
      exact h.low j hj
    · rw [h.after _ (by omega)]
      simp

@[simp] theorem Bw.putRun_frame (u : Bw) (l : List Byte) :
    (u.putRun l).live = u.live ∧ (u.putRun l).err = u.err ∧ (u.putRun l).pos = u.pos ∧ (u.putRun l).marks = u.marks ∧
    (u.putRun l).bit = u.bit ∧ (u.putRun l).idx = u.idx + l.length := ⟨rfl, rfl, rfl, rfl, rfl, rfl⟩

/-! ## The writes (rules R221, R225, R238) -/

/-- A write that the buffer has room for (rules R221, R238): it is stored, and nothing is sent. -/
theorem bwStore_fits {need : Nat} {put : Bw → Bw} {s : State} (h : s.bw.idx + need ≤ s.cfg.cW)
    (he : s.bw.err = .noError) : bwStore need put s = s.setBw (put s.bw) := by
  simp [bwStore, bwMakeRoom, Nat.not_lt.2 h, he]

/-- A write that triggers a flush (rules R221, R238). -/
theorem bwStore_flushes {need : Nat} {put : Bw → Bw} {s : State} (h : s.cfg.cW < s.bw.idx + need)
    (he : (bwFlush s).bw.err = .noError) : bwStore need put s = (bwFlush s).setBw (put (bwFlush s).bw) := by
  simp [bwStore, bwMakeRoom, h, he]

/-- A write whose triggered flush fails writes nothing (rules R221, R238). -/
theorem bwStore_fails {need : Nat} {put : Bw → Bw} {s : State} (h : s.cfg.cW < s.bw.idx + need)
    (he : (bwFlush s).bw.err ≠ .noError) : bwStore need put s = bwFlush s := by
  simp [bwStore, bwMakeRoom, h, he]

@[simp] theorem bwWriteLE_frame {w : Nat} (k : Nat) (v : BitVec w) (s : State) :
    (bwWriteLE k v s).cfg = s.cfg ∧ (bwWriteLE k v s).rawIn = s.rawIn ∧ (bwWriteLE k v s).cmds = s.cmds ∧
    (bwWriteLE k v s).pc = s.pc ∧ (bwWriteLE k v s).r = s.r ∧ (bwWriteLE k v s).status = s.status ∧
    (bwWriteLE k v s).dataOut = s.dataOut ∧ (bwWriteLE k v s).br = s.br ∧ (bwWriteLE k v s).cra = s.cra ∧
    (bwWriteLE k v s).rc = s.rc ∧ (bwWriteLE k v s).bw.live = s.bw.live ∧ (bwWriteLE k v s).bw.marks = s.bw.marks ∧
    (bwWriteLE k v s).cwa.live = s.cwa.live ∧ (bwWriteLE k v s).cwa.own = s.cwa.own ∧
    (bwWriteLE k v s).cwa.sched = s.cwa.sched ∧ (bwWriteLE k v s).cwa.sealed = s.cwa.sealed := by
  unfold bwWriteLE bwStore
  dsimp only
  split <;> simp

@[simp] theorem bwWriteBits_frame (n : BitVec 6) (v : Word32) (s : State) :
    (bwWriteBits n v s).cfg = s.cfg ∧ (bwWriteBits n v s).rawIn = s.rawIn ∧ (bwWriteBits n v s).cmds = s.cmds ∧
    (bwWriteBits n v s).pc = s.pc ∧ (bwWriteBits n v s).r = s.r ∧ (bwWriteBits n v s).status = s.status ∧
    (bwWriteBits n v s).dataOut = s.dataOut ∧ (bwWriteBits n v s).br = s.br ∧ (bwWriteBits n v s).cra = s.cra ∧
    (bwWriteBits n v s).rc = s.rc ∧ (bwWriteBits n v s).bw.live = s.bw.live ∧
    (bwWriteBits n v s).bw.marks = s.bw.marks ∧ (bwWriteBits n v s).cwa.live = s.cwa.live ∧
    (bwWriteBits n v s).cwa.own = s.cwa.own ∧ (bwWriteBits n v s).cwa.sched = s.cwa.sched ∧
    (bwWriteBits n v s).cwa.sealed = s.cwa.sealed := by
  unfold bwWriteBits bwStore
  dsimp only
  split
  · simp
  · split <;> simp

@[simp] theorem bwWriteBytesCore_frame (l : List Byte) (s : State) :
    (bwWriteBytesCore l s).cfg = s.cfg ∧ (bwWriteBytesCore l s).rawIn = s.rawIn ∧
    (bwWriteBytesCore l s).cmds = s.cmds ∧ (bwWriteBytesCore l s).pc = s.pc ∧ (bwWriteBytesCore l s).r = s.r ∧
    (bwWriteBytesCore l s).status = s.status ∧ (bwWriteBytesCore l s).dataOut = s.dataOut ∧
    (bwWriteBytesCore l s).br = s.br ∧ (bwWriteBytesCore l s).cra = s.cra ∧ (bwWriteBytesCore l s).rc = s.rc ∧
    (bwWriteBytesCore l s).bw.live = s.bw.live ∧ (bwWriteBytesCore l s).bw.marks = s.bw.marks ∧
    (bwWriteBytesCore l s).cwa.live = s.cwa.live ∧ (bwWriteBytesCore l s).cwa.own = s.cwa.own ∧
    (bwWriteBytesCore l s).cwa.sched = s.cwa.sched ∧ (bwWriteBytesCore l s).cwa.sealed = s.cwa.sealed := by
  unfold bwWriteBytesCore
  dsimp only
  split
  · simp
  · split
    · simp
    · split <;> simp

@[simp] theorem bwWriteString_frame (l : List Byte) (s : State) :
    (bwWriteString l s).cfg = s.cfg ∧ (bwWriteString l s).rawIn = s.rawIn ∧ (bwWriteString l s).cmds = s.cmds ∧
    (bwWriteString l s).pc = s.pc ∧ (bwWriteString l s).r = s.r ∧ (bwWriteString l s).status = s.status ∧
    (bwWriteString l s).dataOut = s.dataOut ∧ (bwWriteString l s).br = s.br ∧ (bwWriteString l s).cra = s.cra ∧
    (bwWriteString l s).rc = s.rc ∧ (bwWriteString l s).bw.live = s.bw.live ∧
    (bwWriteString l s).bw.marks = s.bw.marks ∧ (bwWriteString l s).cwa.live = s.cwa.live ∧
    (bwWriteString l s).cwa.own = s.cwa.own ∧ (bwWriteString l s).cwa.sched = s.cwa.sched ∧
    (bwWriteString l s).cwa.sealed = s.cwa.sealed := by
  unfold bwWriteString
  dsimp only
  split <;> simp

theorem bwStore_log (need : Nat) (put : Bw → Bw) (s : State) : s.log <+: (bwStore need put s).log := by
  unfold bwStore
  dsimp only
  split <;> simpa using bwMakeRoom_log need s

theorem bwWriteBytesCore_log (l : List Byte) (s : State) : s.log <+: (bwWriteBytesCore l s).log := by
  unfold bwWriteBytesCore
  dsimp only
  split
  · simp
  · split
    · exact bwFlush_log s
    · exact (bwFlush_log s).trans (by split <;> simpa using dswWrite_log l _)

theorem bwWriteString_log (l : List Byte) (s : State) : s.log <+: (bwWriteString l s).log := by
  unfold bwWriteString
  dsimp only
  split
  · exact bwWriteBytesCore_log l s
  · exact (bwWriteBytesCore_log l s).trans (bwStore_log _ _ _)

end Sys2Proof.Machine
end

