-- ==== Sys2Proof/Laws/Cycle.lean ====
section
/-! SUPPORT. Every command as its body inside the command cycle (rule R131), so that a proof about all commands splits the
cycle once, and what the cycle itself leaves alone. -/

namespace Sys2Proof.Machine

/-- The body of a command: what it does between the start and the end of the command cycle. -/
def bodyOf (i : Instr) : State → State :=
  match i with
  | .brInit => brInit
  | .brRelease => brRelease
  | .brGetError => brGetError
  | .brReadUbits n => brReadUbits n
  | .brReadSbits n => brReadSbits n
  | .brScanUbits n => brScanUbits n
  | .brScanSbits n => brScanSbits n
  | .brReadU8 => brReadU8
  | .brReadS8 => brReadS8
  | .brReadU16 => brReadU16
  | .brReadS16 => brReadS16
  | .brReadU32 => brReadU32
  | .brReadS32 => brReadS32
  | .brAlign => brAlign
  | .brSkip cnt => brSkip cnt
  | .brSkipBits cnt => brSkipBits cnt
  | .brMark => brMark
  | .brUnmark => brUnmark
  | .brReset => brReset
  | .brCheck expected => brCheck expected
  | .brBytesRead => brBytesRead
  | .brReadBytes cnt => brReadBytes cnt
  | .brReadStrFixed cnt => brReadStrFixed cnt
  | .brReadStrNul => brReadStrNul
  | .bwInit => bwInit
  | .bwRelease => bwRelease
  | .bwGetError => bwGetError
  | .bwWriteBits n v => bwWriteBits n v
  | .bwWriteByte v => bwWriteByte v
  | .bwWriteShort v => bwWriteShort v
  | .bwWriteInt v => bwWriteInt v
  | .bwWriteBytes p => bwWriteBytes p
  | .bwWriteString p => bwWriteString p
  | .bwAlign => bwAlign
  | .bwFlush => bwFlush
  | .bwMark => bwMark
  | .bwUnmark => bwUnmark
  | .bwCheck expected => bwCheck expected
  | .craInit own key req start => craInit own key req start
  | .craRelease => craRelease
  | .craGetError => craGetError
  | .craRead cnt => craRead cnt
  | .craSeek origin off => craSeek origin off
  | .craTell => craTell
  | .craEof => craEof
  | .cwaInit own key => cwaInit own key
  | .cwaRelease => cwaRelease
  | .cwaGetError => cwaGetError
  | .cwaWrite p => cwaWrite p
  | .cwaFlush => cwaFlushBody
  | .cwaSeal => cwaSealBody

/-- Every meaning is its body inside the command cycle (rule R131). -/
theorem exec_eq (i : Instr) (s : State) : exec i s = .next (command i.unit i.cls (bodyOf i) s) := by cases i <;> rfl

/-- Everything a command can do (rule R131): it always completes, with a lifecycle refusal, with the short-circuit, or with
its body. -/
theorem exec_cases {i : Instr} {s t : State} (h : exec i s = .next t) :
    (lifecycleRefuses i.cls (s.liveOf i.unit) = true ∧ t = (s.begin .lifecycle).retire) ∨
    (lifecycleRefuses i.cls (s.liveOf i.unit) = false ∧ shortCircuits i.cls (s.errOf i.unit) = true ∧
      t = (s.begin .ok).retire) ∨
    (lifecycleRefuses i.cls (s.liveOf i.unit) = false ∧ shortCircuits i.cls (s.errOf i.unit) = false ∧
      t = (bodyOf i (s.begin .ok)).retire) := by
  rw [exec_eq] at h
  have ht : command i.unit i.cls (bodyOf i) s = t := by injection h
  subst ht
  exact command_cases _ _ _ _

/-- A command of a unit that is ready runs its body (rule R131). -/
theorem exec_ready {i : Instr} {s : State} (hc : i.cls = .ordinary) (hr : s.ready i.unit) :
    exec i s = .next ((bodyOf i (s.begin .ok)).retire) := by rw [exec_eq, hc, command_ordinary hr]

/-- The invariant rests on the launch, the units and `RAW_OUT` alone. -/
theorem Inv.congr {s t : State} (h : Inv s) (h1 : t.cfg = s.cfg) (h2 : t.rawIn = s.rawIn) (h3 : t.br = s.br)
    (h4 : t.bw = s.bw) (h5 : t.cra = s.cra) (h6 : t.cwa = s.cwa) (h7 : t.rawOut = s.rawOut)
    (h8 : t.pc ≤ t.cmds.length) : Inv t := by
  cases s
  cases t
  dsimp only at h1 h2 h3 h4 h5 h6 h7 h8
  subst h1 h2 h3 h4 h5 h6 h7
  exact ⟨⟨h.launch.cfg_wf, h.launch.rawIn_wf, h.launch.rawOut_wf, h.launch.rawIn_length, h8⟩,
    ⟨h.br.buf_length, h.br.idx_le_fill, h.br.fill_le_cap, h.br.reach, h.br.marks, h.br.raw_length, h.br.raw_coherent⟩,
    ⟨h.bw.buf_length, h.bw.idx_le_cap, h.bw.partial_room, h.bw.zero_after, h.bw.zero_bits, h.bw.marks⟩,
    ⟨h.cra.direction, h.cra.start_le, h.cra.length_le, h.cra.pos_le, h.cra.blk_le, h.cra.cache⟩,
    ⟨h.cwa.direction, h.cwa.wbuf_length, h.cwa.nbuf_le, h.cwa.between_flushes, h.cwa.sealed_empty⟩,
    fun u => by have := h.errors u; cases u <;> exact this⟩

/-- The start of the command cycle keeps the invariant. -/
theorem Inv.begin {s : State} (h : Inv s) (st : Status) : Inv (s.begin st) :=
  h.congr rfl rfl rfl rfl rfl rfl rfl h.launch.pc_le

/-- The bytes to come are the same at the start of the command cycle. -/
@[simp] theorem State.begin_unread (s : State) (st : Status) (n : Nat) : (s.begin st).unread n = s.unread n := rfl

@[simp] theorem State.retire_unread (s : State) (n : Nat) : s.retire.unread n = s.unread n := rfl

@[simp] theorem State.setR_unread (s : State) (v : Word64) (n : Nat) : (s.setR v).unread n = s.unread n := rfl

@[simp] theorem State.deliver_unread (s : State) (l : List Byte) (n : Nat) : (s.deliver l).unread n = s.unread n := rfl

end Sys2Proof.Machine
end

