-- ==== Sys2Proof/Laws/Decode.lean ====
section
/-! SUPPORT. The fields of the words the encoder writes (rule R101), for the proofs that decoding and encoding agree. -/

namespace Sys2Proof

variable (unit : BitVec 2) (op n : BitVec 6) (m : BitVec 2)

theorem packWord_unit : (packWord unit op n m).extractLsb' 30 2 = unit := by
  refine BitVec.eq_of_getLsbD_eq fun i hi => ?_
  simp only [packWord, BitVec.getLsbD_extractLsb', BitVec.getLsbD_append, hi, decide_true, Bool.true_and]
  simp [show ¬(30 + i < 16) by omega, show ¬(30 + i - 16 < 2) by omega, show ¬(30 + i - 16 - 2 < 6) by omega,
    show ¬(30 + i - 16 - 2 - 6 < 6) by omega, show 30 + i - 16 - 2 - 6 - 6 = i by omega]

theorem packWord_op : (packWord unit op n m).extractLsb' 24 6 = op := by
  refine BitVec.eq_of_getLsbD_eq fun i hi => ?_
  simp only [packWord, BitVec.getLsbD_extractLsb', BitVec.getLsbD_append, hi, decide_true, Bool.true_and]
  simp [show ¬(24 + i < 16) by omega, show ¬(24 + i - 16 < 2) by omega, show ¬(24 + i - 16 - 2 < 6) by omega,
    show 24 + i - 16 - 2 - 6 = i by omega, hi]

theorem packWord_n : (packWord unit op n m).extractLsb' 18 6 = n := by
  refine BitVec.eq_of_getLsbD_eq fun i hi => ?_
  simp only [packWord, BitVec.getLsbD_extractLsb', BitVec.getLsbD_append, hi, decide_true, Bool.true_and]
  simp [show ¬(18 + i < 16) by omega, show ¬(18 + i - 16 < 2) by omega, show 18 + i - 16 - 2 = i by omega, hi]

theorem packWord_m : (packWord unit op n m).extractLsb' 16 2 = m := by
  refine BitVec.eq_of_getLsbD_eq fun i hi => ?_
  simp only [packWord, BitVec.getLsbD_extractLsb', BitVec.getLsbD_append, hi, decide_true, Bool.true_and]
  simp [show ¬(16 + i < 16) by omega, hi]

theorem packWord_rsv : (packWord unit op n m).extractLsb' 0 16 = 0 := by
  refine BitVec.eq_of_getLsbD_eq fun i hi => ?_
  simp only [packWord, BitVec.getLsbD_extractLsb', BitVec.getLsbD_append, hi, decide_true, Bool.true_and]
  simp
  omega

/-! ## The rows of the decoder (rules R102, R106) -/

/-- A row answers its command exactly when `N` and `M` are in its ranges. -/
theorem Command.row_ok {c : Command} {nMin nMax mMax : Nat} {i j : Instr} :
    c.row nMin nMax mMax i = .ok j ↔
      (nMin ≤ c.nField.toNat ∧ c.nField.toNat ≤ nMax ∧ c.mField.toNat ≤ mMax) ∧ i = j := by
  unfold Command.row
  split
  · simp; omega
  · split
    · simp; omega
    · simp; omega

/-- The value of a word's fields, for the records the encoder builds. -/
@[simp] theorem recordA_fields (a : Word64) :
    (recordA unit op a).unitField = unit ∧ (recordA unit op a).opField = op ∧ (recordA unit op a).nField = 0 ∧
    (recordA unit op a).mField = 0 ∧ (recordA unit op a).rsvField = 0 :=
  ⟨packWord_unit _ _ _ _, packWord_op _ _ _ _, packWord_n _ _ _ _, packWord_m _ _ _ _, packWord_rsv _ _ _ _⟩

@[simp] theorem recordP_fields (p : List Byte) :
    (recordP unit op p).unitField = unit ∧ (recordP unit op p).opField = op ∧ (recordP unit op p).nField = 0 ∧
    (recordP unit op p).mField = 0 ∧ (recordP unit op p).rsvField = 0 :=
  ⟨packWord_unit _ _ _ _, packWord_op _ _ _ _, packWord_n _ _ _ _, packWord_m _ _ _ _, packWord_rsv _ _ _ _⟩

@[simp] theorem recordN_fields (a : Word64) :
    (recordN unit op n a).unitField = unit ∧ (recordN unit op n a).opField = op ∧ (recordN unit op n a).nField = n ∧
    (recordN unit op n a).mField = 0 ∧ (recordN unit op n a).rsvField = 0 :=
  ⟨packWord_unit _ _ _ _, packWord_op _ _ _ _, packWord_n _ _ _ _, packWord_m _ _ _ _, packWord_rsv _ _ _ _⟩

@[simp] theorem recordM_fields (a b c : Word64) :
    (recordM unit op m a b c).unitField = unit ∧ (recordM unit op m a b c).opField = op ∧
    (recordM unit op m a b c).nField = 0 ∧ (recordM unit op m a b c).mField = m ∧ (recordM unit op m a b c).rsvField = 0 :=
  ⟨packWord_unit _ _ _ _, packWord_op _ _ _ _, packWord_n _ _ _ _, packWord_m _ _ _ _, packWord_rsv _ _ _ _⟩

end Sys2Proof
end

