-- ==== Sys2Proof/Laws/PerInstr.lean ====
section
/-! SUPPORT. One statement about every command as syntax: the fields `UNIT` and `RSV` of the word its encoding carries. -/

namespace Sys2Proof

/-- The value of the field `UNIT` (rule R101). -/
def UnitId.code : UnitId → BitVec 2
  | .br => 0
  | .bw => 1
  | .cra => 2
  | .cwa => 3

/-- The word of a command names its unit, and its reserved bits are zero (rules R101, R102). -/
def Laws.WordFields.Statement (i : Instr) : Prop :=
  (encode i).unitField = i.unit.code ∧ (encode i).rsvField = 0

namespace Laws.WordFields

theorem brInit : Statement .brInit := ⟨(recordA_fields ..).1, (recordA_fields ..).2.2.2.2⟩

theorem brRelease : Statement .brRelease := ⟨(recordA_fields ..).1, (recordA_fields ..).2.2.2.2⟩

theorem brGetError : Statement .brGetError := ⟨(recordA_fields ..).1, (recordA_fields ..).2.2.2.2⟩

theorem brReadUbits (n : BitVec 6) : Statement (.brReadUbits n) := ⟨(recordN_fields ..).1, (recordN_fields ..).2.2.2.2⟩

theorem brReadSbits (n : BitVec 6) : Statement (.brReadSbits n) := ⟨(recordN_fields ..).1, (recordN_fields ..).2.2.2.2⟩

theorem brScanUbits (n : BitVec 6) : Statement (.brScanUbits n) := ⟨(recordN_fields ..).1, (recordN_fields ..).2.2.2.2⟩

theorem brScanSbits (n : BitVec 6) : Statement (.brScanSbits n) := ⟨(recordN_fields ..).1, (recordN_fields ..).2.2.2.2⟩

theorem brReadU8 : Statement .brReadU8 := ⟨(recordA_fields ..).1, (recordA_fields ..).2.2.2.2⟩

theorem brReadS8 : Statement .brReadS8 := ⟨(recordA_fields ..).1, (recordA_fields ..).2.2.2.2⟩

theorem brReadU16 : Statement .brReadU16 := ⟨(recordA_fields ..).1, (recordA_fields ..).2.2.2.2⟩

theorem brReadS16 : Statement .brReadS16 := ⟨(recordA_fields ..).1, (recordA_fields ..).2.2.2.2⟩

theorem brReadU32 : Statement .brReadU32 := ⟨(recordA_fields ..).1, (recordA_fields ..).2.2.2.2⟩

theorem brReadS32 : Statement .brReadS32 := ⟨(recordA_fields ..).1, (recordA_fields ..).2.2.2.2⟩

theorem brAlign : Statement .brAlign := ⟨(recordA_fields ..).1, (recordA_fields ..).2.2.2.2⟩

theorem brSkip (cnt : BitVec 32) : Statement (.brSkip cnt) := ⟨(recordA_fields ..).1, (recordA_fields ..).2.2.2.2⟩

theorem brSkipBits (cnt : BitVec 32) : Statement (.brSkipBits cnt) := ⟨(recordA_fields ..).1, (recordA_fields ..).2.2.2.2⟩

theorem brMark : Statement .brMark := ⟨(recordA_fields ..).1, (recordA_fields ..).2.2.2.2⟩

theorem brUnmark : Statement .brUnmark := ⟨(recordA_fields ..).1, (recordA_fields ..).2.2.2.2⟩

theorem brReset : Statement .brReset := ⟨(recordA_fields ..).1, (recordA_fields ..).2.2.2.2⟩

theorem brCheck (expected : Word64) : Statement (.brCheck expected) := ⟨(recordA_fields ..).1, (recordA_fields ..).2.2.2.2⟩

theorem brBytesRead : Statement .brBytesRead := ⟨(recordA_fields ..).1, (recordA_fields ..).2.2.2.2⟩

theorem brReadBytes (cnt : BitVec 32) : Statement (.brReadBytes cnt) := ⟨(recordA_fields ..).1, (recordA_fields ..).2.2.2.2⟩

theorem brReadStrFixed (cnt : BitVec 32) : Statement (.brReadStrFixed cnt) := ⟨(recordA_fields ..).1, (recordA_fields ..).2.2.2.2⟩

theorem brReadStrNul : Statement .brReadStrNul := ⟨(recordA_fields ..).1, (recordA_fields ..).2.2.2.2⟩

theorem bwInit : Statement .bwInit := ⟨(recordA_fields ..).1, (recordA_fields ..).2.2.2.2⟩

theorem bwRelease : Statement .bwRelease := ⟨(recordA_fields ..).1, (recordA_fields ..).2.2.2.2⟩

theorem bwGetError : Statement .bwGetError := ⟨(recordA_fields ..).1, (recordA_fields ..).2.2.2.2⟩

theorem bwWriteBits (n : BitVec 6) (v : Word32) : Statement (.bwWriteBits n v) := ⟨(recordN_fields ..).1, (recordN_fields ..).2.2.2.2⟩

theorem bwWriteByte (v : Byte) : Statement (.bwWriteByte v) := ⟨(recordA_fields ..).1, (recordA_fields ..).2.2.2.2⟩

theorem bwWriteShort (v : BitVec 16) : Statement (.bwWriteShort v) := ⟨(recordA_fields ..).1, (recordA_fields ..).2.2.2.2⟩

theorem bwWriteInt (v : Word32) : Statement (.bwWriteInt v) := ⟨(recordA_fields ..).1, (recordA_fields ..).2.2.2.2⟩

theorem bwWriteBytes (p : List Byte) : Statement (.bwWriteBytes p) := ⟨(recordP_fields ..).1, (recordP_fields ..).2.2.2.2⟩

theorem bwWriteString (p : List Byte) : Statement (.bwWriteString p) := ⟨(recordP_fields ..).1, (recordP_fields ..).2.2.2.2⟩

theorem bwAlign : Statement .bwAlign := ⟨(recordA_fields ..).1, (recordA_fields ..).2.2.2.2⟩

theorem bwFlush : Statement .bwFlush := ⟨(recordA_fields ..).1, (recordA_fields ..).2.2.2.2⟩

theorem bwMark : Statement .bwMark := ⟨(recordA_fields ..).1, (recordA_fields ..).2.2.2.2⟩

theorem bwUnmark : Statement .bwUnmark := ⟨(recordA_fields ..).1, (recordA_fields ..).2.2.2.2⟩

theorem bwCheck (expected : Word64) : Statement (.bwCheck expected) := ⟨(recordA_fields ..).1, (recordA_fields ..).2.2.2.2⟩

theorem craInit (own : Bool) (key : Word64) (req : Word64) (start : Word64) : Statement (.craInit own key req start) := ⟨(recordM_fields ..).1, (recordM_fields ..).2.2.2.2⟩

theorem craRelease : Statement .craRelease := ⟨(recordA_fields ..).1, (recordA_fields ..).2.2.2.2⟩

theorem craGetError : Statement .craGetError := ⟨(recordA_fields ..).1, (recordA_fields ..).2.2.2.2⟩

theorem craRead (cnt : BitVec 32) : Statement (.craRead cnt) := ⟨(recordA_fields ..).1, (recordA_fields ..).2.2.2.2⟩

theorem craSeek (origin : Origin) (off : Word64) : Statement (.craSeek origin off) := ⟨(recordM_fields ..).1, (recordM_fields ..).2.2.2.2⟩

theorem craTell : Statement .craTell := ⟨(recordA_fields ..).1, (recordA_fields ..).2.2.2.2⟩

theorem craEof : Statement .craEof := ⟨(recordA_fields ..).1, (recordA_fields ..).2.2.2.2⟩

theorem cwaInit (own : Bool) (key : Word64) : Statement (.cwaInit own key) := ⟨(recordM_fields ..).1, (recordM_fields ..).2.2.2.2⟩

theorem cwaRelease : Statement .cwaRelease := ⟨(recordA_fields ..).1, (recordA_fields ..).2.2.2.2⟩

theorem cwaGetError : Statement .cwaGetError := ⟨(recordA_fields ..).1, (recordA_fields ..).2.2.2.2⟩

theorem cwaWrite (p : List Byte) : Statement (.cwaWrite p) := ⟨(recordP_fields ..).1, (recordP_fields ..).2.2.2.2⟩

theorem cwaFlush : Statement .cwaFlush := ⟨(recordA_fields ..).1, (recordA_fields ..).2.2.2.2⟩

theorem cwaSeal : Statement .cwaSeal := ⟨(recordA_fields ..).1, (recordA_fields ..).2.2.2.2⟩

end Laws.WordFields

end Sys2Proof
end

