-- ==== Sys2Proof/Tests/Slice0.lean ====
section
/-! SUPPORT. The model's own tests: the words of the opcode map, the ill-formed terms, one step of each command, and for
every statement with hypotheses a state and operands that meet them. Expected values are those of 30_encoding.md and of
95_test_vectors.md, named V-… as there, or are worked out by hand from the rule named. -/

namespace Sys2Proof.Tests

open Sys2Proof.Machine

/-! ## Decoding (rules R101, R104): the words are written `UNIT OP N M RSV`, bit by bit -/

/-- A record with a word and the operand `A`. -/
def record (w : Word32) (a : Word64 := 0) (p : List Byte := []) (b c : Word64 := 0) : Command := ⟨w, a, b, c, p⟩

theorem test_decode_br_lifecycle :
    decode (record 0b00_000001_000000_00_0000000000000000#32) = .ok .brInit ∧
    decode (record 0b00_000010_000000_00_0000000000000000#32) = .ok .brRelease ∧
    decode (record 0b00_000011_000000_00_0000000000000000#32) = .ok .brGetError := by decide

theorem test_decode_br_bits :
    decode (record 0b00_000100_000001_00_0000000000000000#32) = .ok (.brReadUbits 1) ∧
    decode (record 0b00_000101_000010_00_0000000000000000#32) = .ok (.brReadSbits 2) ∧
    decode (record 0b00_000110_011111_00_0000000000000000#32) = .ok (.brScanUbits 31) ∧
    decode (record 0b00_000111_100000_00_0000000000000000#32) = .ok (.brScanSbits 32) := by decide

theorem test_decode_br_integers :
    decode (record 0b00_001000_000000_00_0000000000000000#32) = .ok .brReadU8 ∧
    decode (record 0b00_001001_000000_00_0000000000000000#32) = .ok .brReadS8 ∧
    decode (record 0b00_001010_000000_00_0000000000000000#32) = .ok .brReadU16 ∧
    decode (record 0b00_001011_000000_00_0000000000000000#32) = .ok .brReadS16 ∧
    decode (record 0b00_001100_000000_00_0000000000000000#32) = .ok .brReadU32 ∧
    decode (record 0b00_001101_000000_00_0000000000000000#32) = .ok .brReadS32 := by decide

/-- The count is `A[31:0]`; the upper half of `A` is ignored (rule R103). -/
theorem test_decode_br_cursor :
    decode (record 0b00_001110_000000_00_0000000000000000#32) = .ok .brAlign ∧
    decode (record 0b00_001111_000000_00_0000000000000000#32 0x9_0000_000A) = .ok (.brSkip 10) ∧
    decode (record 0b00_010000_000000_00_0000000000000000#32 12) = .ok (.brSkipBits 12) ∧
    decode (record 0b00_010001_000000_00_0000000000000000#32) = .ok .brMark ∧
    decode (record 0b00_010010_000000_00_0000000000000000#32) = .ok .brUnmark ∧
    decode (record 0b00_010011_000000_00_0000000000000000#32) = .ok .brReset ∧
    decode (record 0b00_010100_000000_00_0000000000000000#32 0xFFFFFFFFFFFFFFFF) = .ok (.brCheck 0xFFFFFFFFFFFFFFFF) ∧
    decode (record 0b00_010101_000000_00_0000000000000000#32) = .ok .brBytesRead := by decide

theorem test_decode_br_blocks :
    decode (record 0b00_010110_000000_00_0000000000000000#32 5) = .ok (.brReadBytes 5) ∧
    decode (record 0b00_010111_000000_00_0000000000000000#32 3) = .ok (.brReadStrFixed 3) ∧
    decode (record 0b00_011000_000000_00_0000000000000000#32) = .ok .brReadStrNul := by decide

theorem test_decode_bw_lifecycle :
    decode (record 0b01_000001_000000_00_0000000000000000#32) = .ok .bwInit ∧
    decode (record 0b01_000010_000000_00_0000000000000000#32) = .ok .bwRelease ∧
    decode (record 0b01_000011_000000_00_0000000000000000#32) = .ok .bwGetError := by decide

theorem test_decode_bw_writes :
    decode (record 0b01_000100_000011_00_0000000000000000#32 5) = .ok (.bwWriteBits 3 5) ∧
    decode (record 0b01_000101_000000_00_0000000000000000#32 0x1234) = .ok (.bwWriteByte 0x34) ∧
    decode (record 0b01_000110_000000_00_0000000000000000#32 0xFFFFFFFFFFFFFC18) = .ok (.bwWriteShort 0xFC18) ∧
    decode (record 0b01_000111_000000_00_0000000000000000#32 0x1_DEADBEEF) = .ok (.bwWriteInt 0xDEADBEEF) ∧
    decode (record 0b01_001000_000000_00_0000000000000000#32 2 [1, 2]) = .ok (.bwWriteBytes [1, 2]) ∧
    decode (record 0b01_001001_000000_00_0000000000000000#32 0) = .ok (.bwWriteString []) := by decide

theorem test_decode_bw_cursor :
    decode (record 0b01_001010_000000_00_0000000000000000#32) = .ok .bwAlign ∧
    decode (record 0b01_001011_000000_00_0000000000000000#32) = .ok .bwFlush ∧
    decode (record 0b01_001100_000000_00_0000000000000000#32) = .ok .bwMark ∧
    decode (record 0b01_001101_000000_00_0000000000000000#32) = .ok .bwUnmark ∧
    decode (record 0b01_001110_000000_00_0000000000000000#32 4) = .ok (.bwCheck 4) := by decide

theorem test_decode_cra :
    decode (record 0b10_000001_000000_01_0000000000000000#32 1 [] 2 3) = .ok (.craInit true 1 2 3) ∧
    decode (record 0b10_000010_000000_00_0000000000000000#32) = .ok .craRelease ∧
    decode (record 0b10_000011_000000_00_0000000000000000#32) = .ok .craGetError ∧
    decode (record 0b10_000100_000000_00_0000000000000000#32 4) = .ok (.craRead 4) ∧
    decode (record 0b10_000101_000000_00_0000000000000000#32 6) = .ok (.craSeek .seekSet 6) ∧
    decode (record 0b10_000101_000000_01_0000000000000000#32 6) = .ok (.craSeek .seekCur 6) ∧
    decode (record 0b10_000101_000000_10_0000000000000000#32 6) = .ok (.craSeek .seekEnd 6) ∧
    decode (record 0b10_000110_000000_00_0000000000000000#32) = .ok .craTell ∧
    decode (record 0b10_000111_000000_00_0000000000000000#32) = .ok .craEof := by decide

theorem test_decode_cwa :
    decode (record 0b11_000001_000000_01_0000000000000000#32 0x6867666564636261) = .ok (.cwaInit true 0x6867666564636261) ∧
    decode (record 0b11_000010_000000_00_0000000000000000#32) = .ok .cwaRelease ∧
    decode (record 0b11_000011_000000_00_0000000000000000#32) = .ok .cwaGetError ∧
    decode (record 0b11_000100_000000_00_0000000000000000#32 1 [9]) = .ok (.cwaWrite [9]) ∧
    decode (record 0b11_000101_000000_00_0000000000000000#32) = .ok .cwaFlush ∧
    decode (record 0b11_000110_000000_00_0000000000000000#32) = .ok .cwaSeal := by decide

/-- V-ENC3, 4, 6 to 12 and 14, and the first reserved code of each unit (rule R105). -/
theorem test_decode_rejects_by_name :
    decode (record 0x04000000) = .error .bitCount ∧ decode (record 0x04840000) = .error .bitCount ∧
    decode (record 0x08040000) = .error .bitCount ∧ decode (record 0x44840000) = .error .bitCount ∧
    decode (record 0x00000000) = .error .reservedOpcode ∧ decode (record 0x19000000) = .error .reservedOpcode ∧
    decode (record 0x4F000000) = .error .reservedOpcode ∧ decode (record 0x88000000) = .error .reservedOpcode ∧
    decode (record 0xC7000000) = .error .reservedOpcode ∧ decode (record 0x0C000001) = .error .reservedBits ∧
    decode (record 0x85030000) = .error .modeField ∧ decode (record 0x81020000) = .error .modeField ∧
    decode (record 0x08010000) = .error .modeField ∧ decode (record 0x48000000 3 [1, 2]) = .error .payloadLength ∧
    decode (record 0x81000000 0 [] 0 0x8000000000000000) = .error .startOffset := by decide

/-- V-ENC2, 5 and 13: legal at the ends of the count range. -/
theorem test_decode_count_range :
    decode (record 0x04800000) = .ok (.brReadUbits 32) ∧ decode (record 0x44000000) = .ok (.bwWriteBits 0 0) ∧
    decode (record 0x05080000) = .ok (.brReadSbits 2) ∧ decode (record 0x44800000 1) = .ok (.bwWriteBits 32 1) := by decide

/-- The table's numbering: `W` is the low 32 bits, and every operand above it is 0. -/
theorem test_table_word :
    decodeTableWord 32 0x04100000 = some (.brReadUbits 4) ∧ decodeTableWord 32 0x0F000000 = some (.brSkip 0) ∧
    decodeTableWord 32 0x04000000 = none ∧ decodeTableWord 96 (0xA_0F000000) = some (.brSkip 10) := by decide

/-! ## WellFormed (rule R106): an ill-formed term for each check -/

theorem test_read_count_zero_refused : ¬(Instr.brReadUbits 0).WellFormed := by decide
theorem test_read_count_33_refused : ¬(Instr.brScanSbits 33).WellFormed := by decide
theorem test_write_count_33_refused : ¬(Instr.bwWriteBits 33 0).WellFormed := by decide
theorem test_start_beyond_posMax_refused : ¬(Instr.craInit false 0 0 0x8000000000000000).WellFormed := by decide
theorem test_payload_too_long_refused : ¬(Instr.bwWriteBytes (List.replicate (2 ^ 32) 0)).WellFormed := by
  simp only [Instr.WellFormed, legalPayload, List.length_replicate]; decide

/-! ## States for the tests: `C_R = C_W = C_CW = 8`, `MARK_DEPTH = 16` (section 0 of 95_test_vectors.md) -/

/-- The parameters with a topology. -/
def topology (src : BrSource) (dst : BwDest) : Config := { resetConfig with brSrc := src, bwDst := dst }

/-- Every unit right after its INIT, `CRA` over the whole of the input. -/
def start (src : BrSource) (dst : BwDest) (input : List Byte) : State :=
  let s := State.resetWith (topology src dst) (Memory.ofBytes input) []
  { s with
    br := { s.br with live := true }, bw := { s.bw with live := true }
    cra := { s.cra with live := true, length := input.length }, cwa := { s.cwa with live := true } }

/-- `BR` over the raw input, its buffer filled from `pos` on. -/
def brAt (input : List Byte) (pos idx : Nat) (bit : Fin 8) (fill : Nat) (marks : List Mark := []) : State :=
  (start .raw .raw input).setBr
    { live := true, err := .noError, pos := pos, idx := idx, bit := bit, fill := fill,
      buf := sliceBytes input pos fill ++ List.replicate (8 - fill) 0, marks := marks }

/-- `BW` with the bytes `l` at the front of its buffer. -/
def bwAt (dst : BwDest) (idx : Nat) (bit : Fin 8) (l : List Byte) (marks : List Mark := []) : State :=
  (start .raw dst []).setBw
    { live := true, err := .noError, pos := 0, idx := idx, bit := bit, buf := l ++ List.replicate (8 - l.length) 0,
      marks := marks }

/-- `CWA` with the plaintext `l` unsent. -/
def cwaAt (l : List Byte) (own sealed : Bool) : State :=
  let s := start .raw .cwa []
  s.setCwa { s.cwa with own := own, sealed := sealed, wbuf := l ++ List.replicate (8 - l.length) 0, nbuf := l.length }

/-- The state with the error `e` latched in the unit `u`. -/
def errored (u : UnitId) (e : Err) (s : State) : State := raise u e s

/-- The state with the unit `u` not live. -/
def dead (u : UnitId) (s : State) : State :=
  match u with
  | .br => s.setBr { s.br with live := false }
  | .bw => s.setBw { s.bw with live := false }
  | .cra => s.setCra { s.cra with live := false }
  | .cwa => s.setCwa { s.cwa with live := false }

/-- The state after one command. -/
def ran (i : Instr) (s : State) : State :=
  match exec i s with
  | .next t => t
  | .fault _ => s
  | .refused _ => s

/-- `BR` as `pos/idx/bit/fill`. -/
def brView (s : State) : Nat × Nat × Fin 8 × Nat := (s.br.pos, s.br.idx, s.br.bit, s.br.fill)

/-- `BW` as `pos/idx/bit` and its buffer. -/
def bwView (s : State) : Nat × Nat × Fin 8 × List Byte := (s.bw.pos, s.bw.idx, s.bw.bit, s.bw.buf)

/-! ## One step of each command of `BR` -/

/-- V-LC2, V-LC3. -/
theorem test_brInit :
    (ran .brInit (dead .br (errored .br .badArguments (brAt [1, 2, 3] 1 1 3 2)))).br = (start .raw .raw []).br ∧
    (ran .brInit (brAt [1, 2, 3] 1 1 3 2)).status = .lifecycle := by decide

/-- R190: it runs on an errored unit. -/
theorem test_brRelease : (ran .brRelease (errored .br .failedToRead (start .raw .raw []))).br.live = false := by decide

/-- The example of rule R136. -/
theorem test_brGetError : (ran .brGetError (errored .br .arrayIndexOutOfBounds (start .raw .raw []))).r = 2 := by decide

/-- V-BR1, its second command. -/
theorem test_brReadUbits_spans_bytes :
    (ran (.brReadUbits 8) (brAt [0xa5, 0x3c] 0 0 4 2)).r = 0x53 ∧
    brView (ran (.brReadUbits 8) (brAt [0xa5, 0x3c] 0 0 4 2)) = (0, 1, 4, 2) := by decide

/-- V-BR5: five bytes touched, from an empty buffer at cursor (0, 7). -/
theorem test_brReadUbits_five_bytes :
    (ran (.brReadUbits 32) (brAt [0x01, 0x23, 0x45, 0x67, 0x89] 0 0 7 0)).r = 0x91A2B3C4 ∧
    brView (ran (.brReadUbits 32) (brAt [0x01, 0x23, 0x45, 0x67, 0x89] 0 0 7 0)) = (0, 4, 7, 5) := by decide

/-- V-BR2. -/
theorem test_brReadSbits : (ran (.brReadSbits 4) (start .raw .raw [0xa5])).r = 0xFFFFFFFA := by decide

/-- V-BR4: the sign of 32 bits does not spread into `R[63:32]`. -/
theorem test_brReadSbits_32 : (ran (.brReadSbits 32) (start .raw .raw [0x80, 0, 0, 0])).r = 0x80000000 := by decide

/-- V-BR6. -/
theorem test_brScanUbits :
    (ran (.brScanUbits 4) (start .raw .raw [0xa5])).r = 0xA ∧
    brView (ran (.brScanUbits 4) (start .raw .raw [0xa5])) = (0, 0, 0, 1) := by decide

/-- V-BR8, its second command. -/
theorem test_brScanUbits_past_end :
    (ran (.brScanUbits 1) (brAt [0xff] 0 1 0 1)).r = 0 ∧
    (ran (.brScanUbits 1) (brAt [0xff] 0 1 0 1)).br.err = .arrayIndexOutOfBounds ∧
    brView (ran (.brScanUbits 1) (brAt [0xff] 0 1 0 1)) = (1, 0, 0, 0) := by decide

/-- V-BR7. -/
theorem test_brScanSbits :
    (ran (.brScanSbits 4) (brAt [0xa5] 0 0 4 1)).r = 5 ∧
    brView (ran (.brScanSbits 4) (brAt [0xa5] 0 0 4 1)) = (0, 0, 4, 1) := by decide

/-- Program P1, launch 2, command 3. -/
theorem test_brScanSbits_negative :
    (ran (.brScanSbits 13) (brAt [0xba, 0xbc, 0x18, 0xfc] 0 0 3 4)).r = 0xFFFFFABC := by decide

/-- V-BR11: the whole byte is taken, the bit offset kept. -/
theorem test_brReadU8 :
    (ran .brReadU8 (brAt [0xa5, 0x3c] 0 0 4 2)).r = 0xA5 ∧
    brView (ran .brReadU8 (brAt [0xa5, 0x3c] 0 0 4 2)) = (0, 1, 4, 2) := by decide

/-- V-BR29: the short-circuit, with no event. -/
theorem test_brReadU8_short_circuit :
    (ran .brReadU8 (errored .br .badArguments (start .raw .raw [1, 2]))).r = 0 ∧
    (ran .brReadU8 (errored .br .badArguments (start .raw .raw [1, 2]))).status = .ok ∧
    (ran .brReadU8 (errored .br .badArguments (start .raw .raw [1, 2]))).log = [] := by decide

/-- Program P1, launch 2, command 7. -/
theorem test_brReadS8 : (ran .brReadS8 (start .raw .raw [0x80])).r = 0xFFFFFF80 := by decide

/-- E2: 5000 is `88 13`. -/
theorem test_brReadU16 : (ran .brReadU16 (start .raw .raw [0x88, 0x13])).r = 5000 := by decide

/-- V-BR9. -/
theorem test_brReadU16_short :
    (ran .brReadU16 (start .raw .raw [0x7b])).r = 0 ∧
    (ran .brReadU16 (start .raw .raw [0x7b])).br.err = .arrayIndexOutOfBounds ∧
    brView (ran .brReadU16 (start .raw .raw [0x7b])) = (0, 0, 0, 1) := by decide

/-- V-BR10. -/
theorem test_brReadS16 : (ran .brReadS16 (start .raw .raw [0x00, 0x80])).r = 0xFFFF8000 := by decide

/-- Program P1, launch 2, command 9: the residue of three bytes is kept across the refill. -/
theorem test_brReadU32_refills :
    (ran .brReadU32 (brAt [0xba, 0xbc, 0x18, 0xfc, 0x80, 0xef, 0xbe, 0xad, 0xde] 0 5 0 8)).r = 0xDEADBEEF ∧
    brView (ran .brReadU32 (brAt [0xba, 0xbc, 0x18, 0xfc, 0x80, 0xef, 0xbe, 0xad, 0xde] 0 5 0 8)) = (5, 4, 0, 4) ∧
    (ran .brReadU32 (brAt [0xba, 0xbc, 0x18, 0xfc, 0x80, 0xef, 0xbe, 0xad, 0xde] 0 5 0 8)).log =
      [.seek .rawIn 8, .read .rawIn 5 1, .read .rawIn 4 0] := by decide

/-- V-BR12. -/
theorem test_brReadS32 : (ran .brReadS32 (start .raw .raw [0xfe, 0xff, 0xff, 0xff])).r = 0xFFFFFFFE := by decide

/-- V-BR14, its second command. -/
theorem test_brAlign : brView (ran .brAlign (brAt [0xa5, 0x3c] 0 0 3 2)) = (0, 1, 0, 2) := by decide

/-- V-BR15. -/
theorem test_brSkip_past_end :
    brView (ran (.brSkip 10) (start .raw .raw [1, 2, 3])) = (10, 0, 0, 0) ∧
    (ran (.brSkip 10) (start .raw .raw [1, 2, 3])).br.err = .noError := by decide

/-- R178: a target beyond `POS_MAX`. -/
theorem test_brSkip_beyond_posMax :
    (ran (.brSkip 1) (brAt [] (2 ^ 63 - 1) 0 0 0)).br.err = .badArguments := by decide

/-- V-BR16. -/
theorem test_brSkipBits : brView (ran (.brSkipBits 5) (brAt [1, 2] 0 0 6 2)) = (0, 1, 3, 2) := by decide

/-- The example of rule R180. -/
theorem test_brMark : (ran .brMark (brAt [1, 2, 3, 4, 5, 6] 0 5 2 6)).br.marks = [⟨5, 2⟩] := by decide

/-- V-BR17, at the model's depth. -/
theorem test_brMark_full :
    (ran .brMark (brAt [] 0 0 0 0 (List.replicate 16 ⟨0, 0⟩))).br.err = .badArguments ∧
    (ran .brMark (brAt [] 0 0 0 0 (List.replicate 16 ⟨0, 0⟩))).br.marks.length = 16 := by decide

/-- The example of rule R181, and V-BR18. -/
theorem test_brUnmark :
    (ran .brUnmark (brAt [1, 2, 3, 4, 5, 6] 0 5 2 6 [⟨0, 0⟩, ⟨5, 2⟩])).br.marks = [⟨0, 0⟩] ∧
    (ran .brUnmark (start .raw .raw [])).br.err = .badArguments := by decide

/-- The example of rule R182: the mark lies before the buffer, which is refilled from it. -/
theorem test_brReset :
    brView (ran .brReset (brAt [0, 1, 2, 3, 4, 5, 6, 7, 8, 9] 8 1 0 2 [⟨2, 3⟩])) = (2, 0, 3, 8) ∧
    (ran .brReset (brAt [0, 1, 2, 3, 4, 5, 6, 7, 8, 9] 8 1 0 2 [⟨2, 3⟩])).br.marks = [⟨2, 3⟩] := by decide

/-- V-BR20. -/
theorem test_brReset_no_mark : brView (ran .brReset (brAt [1, 2, 3] 0 2 5 3)) = (0, 0, 0, 3) := by decide

/-- V-BR13. -/
theorem test_brCheck :
    (ran (.brCheck 6) (brAt [1, 2, 3, 4, 5, 6] 0 4 0 6 [⟨0, 0⟩])).r = 0xFFFFFFFFFFFFFFFE ∧
    (ran (.brCheck 0xFFFFFFFFFFFFFFFF) (brAt [1, 2, 3, 4, 5, 6] 0 4 0 6 [⟨0, 0⟩])).r = 5 := by decide

/-- The example of rule R184, and V-BR19. -/
theorem test_brBytesRead :
    (ran .brBytesRead (brAt [1, 2, 3, 4] 0 3 0 4 [⟨0, 0⟩])).r = 3 ∧
    (ran .brBytesRead (start .raw .raw [])).br.err = .badArguments := by decide

/-- V-BR22. -/
theorem test_brReadBytes :
    (ran (.brReadBytes 12) (start .raw .raw ((List.range 20).map (BitVec.ofNat 8)))).dataOut =
      [0, 1, 2, 3, 4, 5, 6, 7, 8, 9, 10, 11] ∧
    brView (ran (.brReadBytes 12) (start .raw .raw ((List.range 20).map (BitVec.ofNat 8)))) = (8, 4, 0, 8) ∧
    (ran (.brReadBytes 12) (start .raw .raw ((List.range 20).map (BitVec.ofNat 8)))).log =
      [.seek .rawIn 0, .read .rawIn 8 8, .seek .rawIn 8, .read .rawIn 8 8] := by decide

/-- V-BR21, its second command. -/
theorem test_brReadBytes_short :
    (ran (.brReadBytes 5) (brAt [1, 2, 3, 4, 5, 6, 7, 8, 9, 10, 11, 12] 9 0 0 3)).dataOut = [10, 11, 12] ∧
    (ran (.brReadBytes 5) (brAt [1, 2, 3, 4, 5, 6, 7, 8, 9, 10, 11, 12] 9 0 0 3)).r = 3 ∧
    (ran (.brReadBytes 5) (brAt [1, 2, 3, 4, 5, 6, 7, 8, 9, 10, 11, 12] 9 0 0 3)).br.err = .reachedEndOfFile := by decide

/-- V-BR23 and V-BR24. -/
theorem test_brReadStrFixed :
    (ran (.brReadStrFixed 3) (start .raw .raw [0x61, 0x62, 0x00, 0x7a])).dataOut = [0x61, 0x62] ∧
    brView (ran (.brReadStrFixed 3) (start .raw .raw [0x61, 0x62, 0x00, 0x7a])) = (0, 3, 0, 4) ∧
    (ran (.brReadStrFixed 3) (start .raw .raw [0x61, 0x00, 0x62])).dataOut = [0x61, 0x00, 0x62] := by decide

/-- V-BR26. -/
theorem test_brReadStrFixed_short :
    (ran (.brReadStrFixed 2) (start .raw .raw [0])).r = 0 ∧
    (ran (.brReadStrFixed 2) (start .raw .raw [0])).br.err = .reachedEndOfFile := by decide

/-- The example of rule R187. -/
theorem test_brReadStrNul :
    (ran .brReadStrNul (start .raw .raw [0x68, 0x69, 0x00, 0x41])).dataOut = [0x68, 0x69] ∧
    brView (ran .brReadStrNul (start .raw .raw [0x68, 0x69, 0x00, 0x41])) = (0, 3, 0, 4) := by decide

/-- V-BR27. -/
theorem test_brReadStrNul_unterminated :
    (ran .brReadStrNul (start .raw .raw [0x68, 0x69])).dataOut = [0x68, 0x69] ∧
    (ran .brReadStrNul (start .raw .raw [0x68, 0x69])).br.err = .noError := by decide

/-! ## One step of each command of `BW` -/

theorem test_bwInit :
    (ran .bwInit (dead .bw (bwAt .raw 2 3 [1, 2, 0xE0]))).bw = (start .raw .raw []).bw ∧
    (ran .bwInit (start .raw .raw [])).status = .lifecycle := by decide

/-- V-BW16. -/
theorem test_bwRelease :
    (ran .bwRelease (bwAt .raw 1 0 [1])).bw.live = false ∧ (ran .bwRelease (bwAt .raw 1 0 [1])).rawOut = [] ∧
    (ran .bwRelease (bwAt .raw 1 0 [1])).log = [] := by decide

/-- The example of rule R137. -/
theorem test_bwGetError : (ran .bwGetError (errored .bw .badArguments (start .raw .raw []))).r = 1 := by decide

/-- V-BW1, its third command. -/
theorem test_bwWriteBits :
    bwView (ran (.bwWriteBits 8 0xAB) (bwAt .raw 0 4 [0x70])) = (0, 1, 4, [0x7a, 0xb0, 0, 0, 0, 0, 0, 0]) := by decide

/-- V-BW4, its last command: the triggered flush sends the partial byte and carries it. -/
theorem test_bwWriteBits_flushes :
    (ran (.bwWriteBits 8 0xBC) (bwAt .raw 7 4 [1, 2, 3, 4, 5, 6, 7, 0xa0])).rawOut.bytes =
      [1, 2, 3, 4, 5, 6, 7, 0xa0] ∧
    bwView (ran (.bwWriteBits 8 0xBC) (bwAt .raw 7 4 [1, 2, 3, 4, 5, 6, 7, 0xa0])) =
      (7, 1, 4, [0xab, 0xc0, 0, 0, 0, 0, 0, 0]) := by decide

/-- V-BW5, its second command: the pending bits are overwritten. -/
theorem test_bwWriteByte :
    bwView (ran (.bwWriteByte 0x12) (bwAt .raw 0 4 [0x70])) = (0, 1, 4, [0x12, 0, 0, 0, 0, 0, 0, 0]) := by decide

/-- R222, D23: the trigger reserves the byte of the kept bit offset. -/
theorem test_bwWriteByte_reserves :
    (ran (.bwWriteByte 9) (bwAt .raw 7 4 [1, 2, 3, 4, 5, 6, 7, 0xa0])).rawOut.bytes = [1, 2, 3, 4, 5, 6, 7, 0xa0] ∧
    bwView (ran (.bwWriteByte 9) (bwAt .raw 7 4 [1, 2, 3, 4, 5, 6, 7, 0xa0])) =
      (7, 1, 4, [9, 0, 0, 0, 0, 0, 0, 0]) := by decide

/-- V-BW11, its last command. -/
theorem test_bwWriteShort :
    (ran (.bwWriteShort 5) (bwAt .raw 7 0 [1, 0, 2, 0xfe, 0xff, 0xff, 0xff])).rawOut.bytes =
      [1, 0, 2, 0xfe, 0xff, 0xff, 0xff] ∧
    bwView (ran (.bwWriteShort 5) (bwAt .raw 7 0 [1, 0, 2, 0xfe, 0xff, 0xff, 0xff])) =
      (7, 2, 0, [5, 0, 0, 0, 0, 0, 0, 0]) := by decide

/-- V-BW12, its last command. -/
theorem test_bwWriteInt :
    bwView (ran (.bwWriteInt 10010002) (bwAt .raw 3 0 [0x7b, 0x88, 0x13])) =
      (0, 7, 0, [0x7b, 0x88, 0x13, 0x92, 0xbd, 0x98, 0x00, 0]) := by decide

/-- V-BW6, its last command. -/
theorem test_bwWriteBytes_direct :
    (ran (.bwWriteBytes [1, 2, 3, 4, 5]) (bwAt .raw 4 0 [1, 2, 3, 4])).log =
      [.write .rawOut [1, 2, 3, 4], .flush .rawOut, .write .rawOut [1, 2, 3, 4, 5]] ∧
    bwView (ran (.bwWriteBytes [1, 2, 3, 4, 5]) (bwAt .raw 4 0 [1, 2, 3, 4])) =
      (9, 0, 0, [0, 0, 0, 0, 0, 0, 0, 0]) := by decide

/-- V-BW7. -/
theorem test_bwWriteBytes_buffered :
    bwView (ran (.bwWriteBytes [0, 1, 2, 3, 4, 5, 6, 7]) (start .raw .raw [])) = (0, 8, 0, [0, 1, 2, 3, 4, 5, 6, 7]) ∧
    (ran (.bwWriteBytes [0, 1, 2, 3, 4, 5, 6, 7]) (start .raw .raw [])).log = [] := by decide

/-- V-BW10. -/
theorem test_bwWriteString_direct :
    (ran (.bwWriteString [0x68, 0x65, 0x6c, 0x6c, 0x6f, 0x2c, 0x20, 0x77, 0x6f, 0x72, 0x6c, 0x64])
      (start .raw .raw [])).log =
      [.flush .rawOut, .write .rawOut [0x68, 0x65, 0x6c, 0x6c, 0x6f, 0x2c, 0x20, 0x77, 0x6f, 0x72, 0x6c, 0x64]] ∧
    bwView (ran (.bwWriteString [0x68, 0x65, 0x6c, 0x6c, 0x6f, 0x2c, 0x20, 0x77, 0x6f, 0x72, 0x6c, 0x64])
      (start .raw .raw [])) = (12, 1, 0, [0, 0, 0, 0, 0, 0, 0, 0]) := by decide

/-- V-BW9. -/
theorem test_bwWriteString_empty :
    bwView (ran (.bwWriteString []) (start .raw .raw [])) = (0, 1, 0, [0, 0, 0, 0, 0, 0, 0, 0]) := by decide

/-- V-BW14, its second command. -/
theorem test_bwAlign :
    bwView (ran .bwAlign (bwAt .raw 0 3 [0xa0])) = (0, 1, 0, [0xa0, 0, 0, 0, 0, 0, 0, 0]) := by decide

/-- The example of rule R229. -/
theorem test_bwFlush :
    (ran .bwFlush (bwAt .raw 3 0 [0x7b, 0x88, 0x13])).log = [.write .rawOut [0x7b, 0x88, 0x13], .flush .rawOut] ∧
    bwView (ran .bwFlush (bwAt .raw 3 0 [0x7b, 0x88, 0x13])) = (3, 0, 0, [0, 0, 0, 0, 0, 0, 0, 0]) := by decide

/-- V-BW15, its last command: the sealed `CWA` refuses the byte. -/
theorem test_bwFlush_sealed :
    (ran .bwFlush ((cwaAt [] false true).setBw (bwAt .cwa 1 0 [1]).bw)).cwa.err = .streamIsClosed ∧
    (ran .bwFlush ((cwaAt [] false true).setBw (bwAt .cwa 1 0 [1]).bw)).bw.err = .failedToWrite ∧
    (ran .bwFlush ((cwaAt [] false true).setBw (bwAt .cwa 1 0 [1]).bw)).rawOut = [] := by decide

/-- The example of rule R230, at position 2. -/
theorem test_bwMark : (ran .bwMark (bwAt .raw 2 5 [1, 2, 0xA8])).bw.marks = [⟨2, 5⟩] := by decide

/-- The example of rule R231. -/
theorem test_bwUnmark :
    (ran .bwUnmark (bwAt .raw 0 0 [] [⟨0, 0⟩])).bw.marks = [] ∧
    (ran .bwUnmark (bwAt .raw 0 0 [])).bw.err = .badArguments := by decide

/-- V-BW13. -/
theorem test_bwCheck :
    (ran (.bwCheck 7) (bwAt .raw 7 0 [1, 2, 3, 4, 5, 6, 7] [⟨0, 0⟩])).r = 0 ∧
    (ran (.bwCheck 8) (bwAt .raw 7 0 [1, 2, 3, 4, 5, 6, 7] [⟨0, 0⟩])).r = 0xFFFFFFFFFFFFFFFF := by decide

/-! ## One step of each command of `CRA` and `CWA`, as far as the cipher's values do not matter -/

/-- V-CRA8: the length is what `RAW_IN` holds from the start on. -/
theorem test_craInit :
    (ran (.craInit true 0x6867666564636261 0xFFFFFFFFFFFFFFFF 3)
      (dead .cra (start .raw .raw (List.replicate 16 7)))).cra.length = 13 ∧
    (ran (.craInit true 0x6867666564636261 13 0)
      (dead .cra (start .raw .raw (List.replicate 16 7)))).cra.length = 13 := by decide

/-- Key byte `i` is `A[8i+7:8i]`: the key "abcdefgh" of rule R107. -/
theorem test_craInit_key :
    (ran (.craInit false 0x6867666564636261 0 0) (dead .cra (start .raw .raw []))).cra.sched.key.val =
      [0x61, 0x62, 0x63, 0x64, 0x65, 0x66, 0x67, 0x68] := by decide

/-- V-CRA9. -/
theorem test_craRelease :
    (ran .craRelease ((start .raw .raw []).setCra { (start .raw .raw []).cra with own := true })).log =
      [.release .rawIn] ∧
    (ran .craRelease (start .raw .raw [])).log = [] := by decide

/-- The example of rule R138. -/
theorem test_craGetError : (ran .craGetError (errored .cra .invalidData (start .raw .raw []))).r = 9 := by decide

/-- V-CRA4, over one block of 5 bytes. -/
theorem test_craRead_partial_block :
    (ran (.craRead 1) (start .raw .raw [0x41, 0x42, 0x43, 0x44, 0x45])).r = 0 ∧
    (ran (.craRead 1) (start .raw .raw [0x41, 0x42, 0x43, 0x44, 0x45])).cra.err = .invalidData ∧
    (ran (.craRead 1) (start .raw .raw [0x41, 0x42, 0x43, 0x44, 0x45])).cra.dirty = true := by decide

/-- R261: a read of ten bytes over one whole block and its end. -/
theorem test_craRead_to_length :
    (ran (.craRead 10) (start .raw .raw (List.replicate 8 7))).r = 8 ∧
    (ran (.craRead 10) (start .raw .raw (List.replicate 8 7))).cra.err = .noError ∧
    (ran (.craRead 10) (start .raw .raw (List.replicate 8 7))).log = [.seek .rawIn 0, .read .rawIn 8 8] := by decide

/-- V-CRA2, its first command, and V-CRA5. -/
theorem test_craSeek :
    (ran (.craSeek .seekEnd 0xFFFFFFFFFFFFFFF8) (start .raw .raw (List.replicate 21 7))).cra.pos = 13 ∧
    (ran (.craSeek .seekSet 0xFFFFFFFFFFFFFFFF) (start .raw .raw [])).r = 1 ∧
    (ran (.craSeek .seekSet 0xFFFFFFFFFFFFFFFF) (start .raw .raw [])).cra.err = .badArguments := by decide

/-- The example of rule R264. -/
theorem test_craTell :
    (ran .craTell ((start .raw .raw []).setCra { (start .raw .raw []).cra with pos := 10 })).r = 10 := by decide

/-- The example of rule R265, and V-CRA7. -/
theorem test_craEof :
    (ran .craEof ((start .raw .raw []).setCra { (start .raw .raw []).cra with length := 24, pos := 24 })).r = 1 ∧
    (ran .craEof ((start .raw .raw []).setCra { (start .raw .raw []).cra with length := 24, pos := 23 })).r = 0 := by decide

/-- Rule R294: a fresh, unsealed stream. -/
theorem test_cwaInit :
    (ran (.cwaInit true 0x6867666564636261) (dead .cwa (cwaAt [] false true))).cwa.sealed = false ∧
    (ran (.cwaInit true 0x6867666564636261) (dead .cwa (cwaAt [] false true))).cwa.own = true := by decide

/-- V-CWA8, its last command: an errored, sealed `CWA` sends nothing. -/
theorem test_cwaRelease :
    (ran .cwaRelease (errored .cwa .streamIsClosed (cwaAt [] false true))).log = [] ∧
    (ran .cwaRelease (cwaAt [] true false)).log = [.flush .rawOut, .release .rawOut] := by decide

/-- The example of rule R139. -/
theorem test_cwaGetError : (ran .cwaGetError (errored .cwa .streamIsClosed (start .raw .raw []))).r = 8 := by decide

/-- R291: a write smaller than the free space makes no call; V-CWA5. -/
theorem test_cwaWrite_buffered :
    (ran (.cwaWrite [3, 4]) (cwaAt [9] false false)).cwa.unsent = [9, 3, 4] ∧
    (ran (.cwaWrite [3, 4]) (cwaAt [9] false false)).log = [] ∧
    (ran (.cwaWrite [3, 4]) (cwaAt [9] false false)).r = 2 ∧
    (ran (.cwaWrite [0]) (cwaAt [] false true)).r = 0 ∧
    (ran (.cwaWrite [0]) (cwaAt [] false true)).cwa.err = .streamIsClosed := by decide

/-- V-CWA1, its second command. -/
theorem test_cwaWrite_fills : (ran (.cwaWrite [1, 2, 3, 4, 5]) (cwaAt [9, 9, 9, 9, 9, 9] false false)).r = 5 := by
  show resultNat (cwaPutBytes [1, 2, 3, 4, 5] ((cwaAt [9, 9, 9, 9, 9, 9] false false).begin .ok)).1 = 5
  rw [(cwaPutBytes_spec _ rfl rfl (by decide) rfl).1]
  rfl

/-- Rule R292: with fewer than 8 bytes only the flush happens. -/
theorem test_cwaFlush :
    (ran .cwaFlush (cwaAt [1, 2, 3] false false)).log = [.flush .rawOut] ∧
    (ran .cwaFlush (cwaAt [1, 2, 3] false false)).cwa.unsent = [1, 2, 3] := by decide

/-- V-CWA6 and V-CWA4. -/
theorem test_cwaSeal :
    (ran .cwaSeal (cwaAt [] false false)).log = [.flush .rawOut] ∧
    (ran .cwaSeal (cwaAt [] false false)).cwa.sealed = true ∧ (ran .cwaSeal (cwaAt [] false true)).log = [] := by decide

/-- Rule R293: the padded remainder is one block. -/
theorem test_cwaSeal_pads : (ran .cwaSeal (cwaAt [1, 2, 3, 4, 5] false false)).rawOut.length = 8 := by
  show (cwaFlushCore true ((cwaAt [1, 2, 3, 4, 5] false false).begin .ok)).rawOut.length = 8
  rw [(cwaFlushCore_spec true (by decide)).1, Memory.append_length]
  exact (Nat.zero_add _).trans
    (transformBlocks_length ((cwaAt [1, 2, 3, 4, 5] false false).begin .ok).cwa.sched ((5 + 7) / 8) [1, 2, 3, 4, 5])

/-! ## The invariant at the test states -/

theorem inv_start (src : BrSource) (dst : BwDest) (input : List Byte) (h : input.length ≤ Config.posMax) :
    Inv (start src dst input) := by
  have hlen : (Memory.ofBytes input).length = input.length := cellsFrom_length 0 input
  refine ⟨⟨⟨Nat.le_refl 8, Nat.le_refl 8, Nat.le_refl 8, Nat.mod_self 8, Nat.le_add_left 1 15⟩, Memory.ofBytes_wf input, rfl, ?_, Nat.le_refl 0⟩,
    ⟨rfl, Nat.le_refl 0, Nat.zero_le _, Nat.zero_le _, ⟨Nat.zero_le _, by simp [start, State.resetWith, resetBr],
      by simp [start, State.resetWith, resetBr]⟩, fun _ => Nat.zero_le _, fun _ => rfl⟩,
    ⟨rfl, Nat.zero_le _, fun hb => absurd rfl hb, fun j _ => byteAt_replicate_zero 8 j, fun j _ => ?_,
      ⟨Nat.zero_le _, by simp [start, State.resetWith, resetBw], by simp [start, State.resetWith, resetBw]⟩⟩,
    ⟨rfl, Nat.zero_le _, ?_, Nat.zero_le _, Nat.zero_le _, fun hd => Bool.noConfusion hd⟩,
    ⟨rfl, rfl, Nat.zero_le _, fun _ => Nat.zero_lt_succ 7, fun _ _ => rfl⟩,
    fun u => by cases u <;> exact List.mem_cons_self⟩
  · exact hlen.trans_le h
  · exact BitVec.getLsbD_zero
  · exact hlen.ge

theorem inv_setBr {s : State} {u : Br} (h : Inv s) (hb : BrInv (s.setBr u)) (he : u.err ∈ producible .br) :
    Inv (s.setBr u) where
  launch := ⟨h.launch.cfg_wf, h.launch.rawIn_wf, h.launch.rawOut_wf, h.launch.rawIn_length, h.launch.pc_le⟩
  br := hb
  bw := ⟨h.bw.buf_length, h.bw.idx_le_cap, h.bw.partial_room, h.bw.zero_after, h.bw.zero_bits, h.bw.marks⟩
  cra := ⟨h.cra.direction, h.cra.start_le, h.cra.length_le, h.cra.pos_le, h.cra.blk_le, h.cra.cache⟩
  cwa := ⟨h.cwa.direction, h.cwa.wbuf_length, h.cwa.nbuf_le, h.cwa.between_flushes, h.cwa.sealed_empty⟩
  errors v := by cases v; exacts [he, h.errors .bw, h.errors .cra, h.errors .cwa]

theorem inv_setBw {s : State} {u : Bw} (h : Inv s) (hb : BwInv (s.setBw u)) (he : u.err ∈ producible .bw) :
    Inv (s.setBw u) where
  launch := ⟨h.launch.cfg_wf, h.launch.rawIn_wf, h.launch.rawOut_wf, h.launch.rawIn_length, h.launch.pc_le⟩
  br := ⟨h.br.buf_length, h.br.idx_le_fill, h.br.fill_le_cap, h.br.reach, h.br.marks, h.br.raw_length, h.br.raw_coherent⟩
  bw := hb
  cra := ⟨h.cra.direction, h.cra.start_le, h.cra.length_le, h.cra.pos_le, h.cra.blk_le, h.cra.cache⟩
  cwa := ⟨h.cwa.direction, h.cwa.wbuf_length, h.cwa.nbuf_le, h.cwa.between_flushes, h.cwa.sealed_empty⟩
  errors v := by cases v; exacts [h.errors .br, he, h.errors .cra, h.errors .cwa]

theorem inv_setCra {s : State} {u : Cra} (h : Inv s) (hb : CraInv (s.setCra u)) (he : u.err ∈ producible .cra) :
    Inv (s.setCra u) where
  launch := ⟨h.launch.cfg_wf, h.launch.rawIn_wf, h.launch.rawOut_wf, h.launch.rawIn_length, h.launch.pc_le⟩
  br := ⟨h.br.buf_length, h.br.idx_le_fill, h.br.fill_le_cap, h.br.reach, h.br.marks, h.br.raw_length, h.br.raw_coherent⟩
  bw := ⟨h.bw.buf_length, h.bw.idx_le_cap, h.bw.partial_room, h.bw.zero_after, h.bw.zero_bits, h.bw.marks⟩
  cra := hb
  cwa := ⟨h.cwa.direction, h.cwa.wbuf_length, h.cwa.nbuf_le, h.cwa.between_flushes, h.cwa.sealed_empty⟩
  errors v := by cases v; exacts [h.errors .br, h.errors .bw, he, h.errors .cwa]

theorem inv_setCwa {s : State} {u : Cwa} (h : Inv s) (hb : CwaInv (s.setCwa u)) (he : u.err ∈ producible .cwa) :
    Inv (s.setCwa u) where
  launch := ⟨h.launch.cfg_wf, h.launch.rawIn_wf, h.launch.rawOut_wf, h.launch.rawIn_length, h.launch.pc_le⟩
  br := ⟨h.br.buf_length, h.br.idx_le_fill, h.br.fill_le_cap, h.br.reach, h.br.marks, h.br.raw_length, h.br.raw_coherent⟩
  bw := ⟨h.bw.buf_length, h.bw.idx_le_cap, h.bw.partial_room, h.bw.zero_after, h.bw.zero_bits, h.bw.marks⟩
  cra := ⟨h.cra.direction, h.cra.start_le, h.cra.length_le, h.cra.pos_le, h.cra.blk_le, h.cra.cache⟩
  cwa := hb
  errors v := by cases v; exacts [h.errors .br, h.errors .bw, h.errors .cra, he]

theorem inv_dead {s : State} (h : Inv s) (u : UnitId) : Inv (dead u s) := by
  cases u with
  | br => exact inv_setBr h ⟨h.br.buf_length, h.br.idx_le_fill, h.br.fill_le_cap, h.br.reach, h.br.marks,
      h.br.raw_length, h.br.raw_coherent⟩ (h.errors .br)
  | bw => exact inv_setBw h ⟨h.bw.buf_length, h.bw.idx_le_cap, h.bw.partial_room, h.bw.zero_after, h.bw.zero_bits,
      h.bw.marks⟩ (h.errors .bw)
  | cra => exact inv_setCra h ⟨h.cra.direction, h.cra.start_le, h.cra.length_le, h.cra.pos_le, h.cra.blk_le,
      h.cra.cache⟩ (h.errors .cra)
  | cwa => exact inv_setCwa h ⟨h.cwa.direction, h.cwa.wbuf_length, h.cwa.nbuf_le, h.cwa.between_flushes,
      h.cwa.sealed_empty⟩ (h.errors .cwa)

/-- A `BW` over a buffer of 8 bytes: the invariant has to be looked at below index 8 only. -/
theorem bwInv_of {s : State} (hb : s.bw.buf.length = 8) (hc : s.cfg.cW = 8) (hi : s.bw.idx ≤ 8)
    (hp : s.bw.bit ≠ 0 → s.bw.idx < 8) (hz : ∀ j < 8, s.bw.idx < j → byteAt s.bw.buf j = 0)
    (hbits : ∀ j < 8, j + s.bw.bit.val < 8 → (byteAt s.bw.buf s.bw.idx).getLsbD j = false)
    (hm : MarksInv s.bw.marks s.cfg.markDepth s.bw.cur) : BwInv s where
  buf_length := hb.trans hc.symm
  idx_le_cap := hi.trans_eq hc.symm
  partial_room h := (hp h).trans_eq hc.symm
  zero_after j hj := by
    by_cases h : j < 8
    · exact hz j h hj
    · simp [byteAt, List.getD, List.getElem?_eq_none (show s.bw.buf.length ≤ j by omega)]
  zero_bits j hj := hbits j (by omega) hj
  marks := hm

/-! ## The states of the witnesses -/

/-- The input bytes 1 to 12. -/
def bytes12 : List Byte := [1, 2, 3, 4, 5, 6, 7, 8, 9, 10, 11, 12]

/-- `BR` inside its buffer, at cursor (2, 4), with a mark at the start. -/
def reading : State := brAt bytes12 0 2 4 8 [⟨0, 0⟩]

/-- `BR` one bit into the only byte of its input. -/
def lastByte : State := brAt [0xff] 0 0 1 1

/-- `BR` at `POS_MAX`. -/
def atPosMax : State := brAt [] (2 ^ 63 - 1) 0 0 0

/-- `BR` with a full mark stack. -/
def fullMarks : State := brAt bytes12 0 2 4 8 (List.replicate 16 ⟨0, 0⟩)

/-- `BR` over a `CRA` that is not live. -/
def noSource : State := dead .cra (start .cra .raw bytes12)

/-- `BW` with three bytes and four bits, and a mark at the start. -/
def writing : State := bwAt .raw 3 4 [1, 2, 3, 0xa0] [⟨0, 0⟩]

/-- `BW` with seven bytes and four bits, over `RAW_OUT`. -/
def nearlyFull : State := bwAt .raw 7 4 [1, 2, 3, 4, 5, 6, 7, 0xa0]

/-- `BW` with a full buffer. -/
def full : State := bwAt .raw 8 0 [1, 2, 3, 4, 5, 6, 7, 8]

/-- `BW` with seven bytes and four bits, over a sealed `CWA`. -/
def sealedSink : State := (cwaAt [] false true).setBw (bwAt .cwa 7 4 [1, 2, 3, 4, 5, 6, 7, 0xa0]).bw

/-- `BW` with seven bytes and four bits, over a `CWA` that holds three bytes. -/
def cipherSink : State := (cwaAt [1, 2, 3] false false).setBw (bwAt .cwa 7 4 [1, 2, 3, 4, 5, 6, 7, 0xa0]).bw

theorem inv_reading : Inv reading := inv_setBr (inv_start _ _ _ (by decide))
  ⟨by decide, by decide, by decide, by decide, ⟨by decide, by decide, by decide⟩, by decide, by decide⟩ (by decide)

theorem inv_lastByte : Inv lastByte := inv_setBr (inv_start _ _ _ (by decide))
  ⟨by decide, by decide, by decide, by decide, ⟨by decide, by decide, by decide⟩, by decide, by decide⟩ (by decide)

theorem inv_atPosMax : Inv atPosMax := inv_setBr (inv_start _ _ _ (by decide))
  ⟨by decide, by decide, by decide, by decide, ⟨by decide, by decide, by decide⟩, by decide, by decide⟩ (by decide)

theorem inv_fullMarks : Inv fullMarks := inv_setBr (inv_start _ _ _ (by decide))
  ⟨by decide, by decide, by decide, by decide, ⟨by decide, by decide, by decide⟩, by decide, by decide⟩ (by decide)

theorem inv_noSource : Inv noSource := inv_dead (inv_start _ _ _ (by decide)) .cra

theorem inv_writing : Inv writing := inv_setBw (inv_start _ _ _ (by decide))
  (bwInv_of rfl rfl (by decide) (by decide) (by decide) (by decide) ⟨by decide, by decide, by decide⟩) (by decide)

theorem inv_nearlyFull : Inv nearlyFull := inv_setBw (inv_start _ _ _ (by decide))
  (bwInv_of rfl rfl (by decide) (by decide) (by decide) (by decide) ⟨by decide, by decide, by decide⟩) (by decide)

theorem inv_full : Inv full := inv_setBw (inv_start _ _ _ (by decide))
  (bwInv_of rfl rfl (by decide) (by decide) (by decide) (by decide) ⟨by decide, by decide, by decide⟩) (by decide)

theorem inv_cwaAt_three : Inv (cwaAt [1, 2, 3] false false) :=
  inv_setCwa (inv_start _ _ _ (by decide)) ⟨rfl, rfl, by decide, by decide, by decide⟩ (by decide)

theorem inv_cwaAt_sealed : Inv (cwaAt [] false true) :=
  inv_setCwa (inv_start _ _ _ (by decide)) ⟨rfl, rfl, by decide, by decide, by decide⟩ (by decide)

theorem inv_sealedSink : Inv sealedSink := inv_setBw inv_cwaAt_sealed
  (bwInv_of rfl rfl (by decide) (by decide) (by decide) (by decide) ⟨by decide, by decide, by decide⟩) (by decide)

theorem inv_cipherSink : Inv cipherSink := inv_setBw inv_cwaAt_three
  (bwInv_of rfl rfl (by decide) (by decide) (by decide) (by decide) ⟨by decide, by decide, by decide⟩) (by decide)

/-! ## Witnesses: for each statement with hypotheses, states and operands that meet them, at the ends of each clause -/

/-- The launch of one record. -/
def launch (c : Command) : State := State.resetWith resetConfig [] [c]

theorem witness_DecodeEncodeRoundTrip :
    (Instr.brReadUbits 1).WellFormed ∧ (Instr.brScanSbits 32).WellFormed ∧ (Instr.bwWriteBits 0 0).WellFormed ∧
    (Instr.bwWriteBits 32 7).WellFormed ∧ (Instr.cwaWrite []).WellFormed ∧
    (Instr.craInit true 0 0 0x7FFFFFFFFFFFFFFF).WellFormed := by decide

theorem witness_DecodedCommandIsWellFormed : decode (record 0x04800000) = .ok (.brReadUbits 32) := by decide

/-- An ignored operand is not 0. -/
theorem witness_LegalWordHasNoFreeBit : decode (record 0x85020000 6 [] 7 8) = .ok (.craSeek .seekEnd 6) := by decide

/-- One record for each item of rule R106, at the ends of its range. -/
theorem witness_IllegalRecordsAreRefused_illegal :
    ∀ c ∈ [record 0x00000000, record 0x19000000, record 0x4F000000, record 0x88000000, record 0xC7000000,
      record 0x08000001, record 0x04000000, record 0x04840000, record 0x44840000, record 0x08040000,
      record 0x85030000, record 0x81020000, record 0x08010000, record 0x48000000 1 [], record 0xC4000000 0 [1],
      record 0x81000000 0 [] 0 0x8000000000000000],
      (launch c).fetch = some c ∧ IllegalRecord c := by
  unfold IllegalRecord reservedPair legalN legalM payloadPair
  decide

/-- Legal records at the other side of the same ends. -/
theorem witness_IllegalRecordsAreRefused_legal :
    ∀ c ∈ [record 0x18000000, record 0x4E000000, record 0x87000000, record 0xC6000000, record 0x04040000,
      record 0x04800000, record 0x44800000, record 0x44000000, record 0x85020000, record 0x81010000,
      record 0x48000000 1 [9], record 0x81000000 0 [] 0 0x7FFFFFFFFFFFFFFF],
      (launch c).fetch = some c ∧ ¬IllegalRecord c := by
  unfold IllegalRecord reservedPair legalN legalM payloadPair
  decide

theorem witness_StepRunsTheDecodedCommand :
    (launch (record 0x04100000)).fetch = some (record 0x04100000) ∧
    decode (record 0x04100000) = .ok (.brReadUbits 4) := by decide

theorem witness_StepAdvancesTheHostIndex :
    (launch (record 0)).pc < (launch (record 0)).cmds.length ∧ State.reset.cmds.length ≤ State.reset.pc := by decide

theorem witness_LifecycleRefusalChangesNothing :
    (Instr.brInit.cls = .init ↔ reading.liveOf Instr.brInit.unit = true) ∧
    (Instr.brReadU8.cls = .init ↔ State.reset.liveOf Instr.brReadU8.unit = true) := by decide

theorem witness_ErroredUnitShortCircuits :
    Instr.craTell.cls = .ordinary ∧ (errored .cra .invalidData reading).liveOf Instr.craTell.unit = true ∧
    (errored .cra .invalidData reading).errOf Instr.craTell.unit ≠ .noError := by decide

/-- The smallest capacities, and a topology that is not the reset's. -/
theorem witness_ResetHasInvariant :
    (Config.mk 8 8 8 1 .cra .cwa).wf ∧ (Memory.ofBytes bytes12).wf ∧ (Memory.ofBytes bytes12).length ≤ Config.posMax := by
  decide

/-- A step; a read through `CRA`, an INIT of `CRA` under an empty `BR`, and one that is refused. -/
theorem witness_StepKeepsInvariant :
    (Inv (launch (record 0x01000000)) ∧
      step (launch (record 0x01000000)) = .next (ran .brInit (launch (record 0x01000000)))) ∧
    (Inv (start .cra .raw bytes12) ∧ (start .cra .raw bytes12).withinSource ∧
      exec .brReadU8 (start .cra .raw bytes12) = .next (ran .brReadU8 (start .cra .raw bytes12)) ∧
      Instr.brReadU8.unit ≠ .cra) ∧
    (Inv noSource ∧ noSource.withinSource ∧
      exec (.craInit false 0 4 0) noSource = .next (ran (.craInit false 0 4 0) noSource) ∧ noSource.br.fill = 0) ∧
    (exec (.craInit false 0 4 0) (start .cra .raw bytes12) =
        .next (ran (.craInit false 0 4 0) (start .cra .raw bytes12)) ∧
      (start .cra .raw bytes12).cra.live = true) :=
  ⟨⟨(inv_dead (inv_dead (inv_dead (inv_dead (inv_start .raw .raw [] (Nat.zero_le _)) .br) .bw) .cra) .cwa).congr
    rfl rfl rfl rfl rfl rfl rfl (by decide), rfl⟩,
    ⟨inv_start _ _ _ (by decide), by decide, rfl, by decide⟩, ⟨inv_noSource, by decide, rfl, by decide⟩, rfl, by decide⟩

/-- Contract CC8 of rule R360 broken: an INIT of `CRA` accepted under a `BR` that holds bytes of the stream before it leaves
those bytes beyond the new downstream (log 15). -/
theorem test_craInit_under_reader_breaks_bound :
    (noSource.setBr { noSource.br with fill := 8 }).withinSource ∧
    ¬(ran (.craInit false 0 4 0) (noSource.setBr { noSource.br with fill := 8 })).withinSource := by decide

/-- An error that stays, and one that INIT of a unit that is not live replaces. -/
theorem witness_StickyErrorIsNeverCleared :
    (exec .brReadU8 (errored .bw .failedToWrite reading) = .next (ran .brReadU8 (errored .bw .failedToWrite reading)) ∧
      (errored .bw .failedToWrite reading).errOf .bw ≠ .noError) ∧
    (exec .bwInit (dead .bw (errored .bw .failedToWrite reading)) =
        .next (ran .bwInit (dead .bw (errored .bw .failedToWrite reading))) ∧
      (dead .bw (errored .bw .failedToWrite reading)).errOf .bw ≠ .noError) := ⟨⟨rfl, by decide⟩, rfl, by decide⟩

theorem witness_OnlyListedErrorsAreRaised :
    exec .brUnmark (start .raw .raw []) = .next (ran .brUnmark (start .raw .raw [])) ∧
    ErrorsInv (start .raw .raw []) := ⟨rfl, (inv_start _ _ _ (Nat.zero_le _)).errors⟩

theorem witness_ReadChannelKeepsWriteSide :
    (Instr.brReadU8.unit = .br ∨ Instr.brReadU8.unit = .cra) ∧ exec .brReadU8 reading = .next (ran .brReadU8 reading) ∧
    (Instr.craTell.unit = .br ∨ Instr.craTell.unit = .cra) ∧ exec .craTell reading = .next (ran .craTell reading) :=
  ⟨.inl rfl, rfl, .inr rfl, rfl⟩

theorem witness_WriteChannelKeepsReadSide :
    (Instr.bwFlush.unit = .bw ∨ Instr.bwFlush.unit = .cwa) ∧ exec .bwFlush writing = .next (ran .bwFlush writing) ∧
    (Instr.cwaSeal.unit = .bw ∨ Instr.cwaSeal.unit = .cwa) ∧ exec .cwaSeal writing = .next (ran .cwaSeal writing) :=
  ⟨.inl rfl, rfl, .inr rfl, rfl⟩

/-- The two states differ in the write channel. -/
theorem witness_ReadChannelDoesNotSeeWriteSide :
    let s := reading
    let s' := reading.setBw (errored .bw .failedToWrite writing).bw
    (Instr.brReadU16.unit = .br ∨ Instr.brReadU16.unit = .cra) ∧ s'.cfg = s.cfg ∧ s'.rawIn = s.rawIn ∧ s'.br = s.br ∧
    s'.cra = s.cra ∧ s'.rc = s.rc ∧ s' ≠ s ∧ exec .brReadU16 s = .next (ran .brReadU16 s) ∧
    exec .brReadU16 s' = .next (ran .brReadU16 s') := by
  refine ⟨.inl rfl, rfl, rfl, rfl, rfl, rfl, ?_, rfl, rfl⟩
  intro h
  exact absurd (congrArg (fun s => s.bw.err) h) (by decide)

/-- The two states differ in the input and in the read channel. -/
theorem witness_WriteChannelDoesNotSeeReadSide :
    let s := writing
    let s' := brAt bytes12 0 2 4 8 |>.setBw writing.bw
    (Instr.bwFlush.unit = .bw ∨ Instr.bwFlush.unit = .cwa) ∧ s'.cfg = s.cfg ∧ s'.bw = s.bw ∧ s'.cwa = s.cwa ∧
    s'.rawOut = s.rawOut ∧ s' ≠ s ∧ exec .bwFlush s = .next (ran .bwFlush s) ∧
    exec .bwFlush s' = .next (ran .bwFlush s') := by
  refine ⟨.inl rfl, rfl, rfl, rfl, rfl, ?_, rfl, rfl⟩
  intro h
  exact absurd (congrArg (fun s => s.br.fill) h) (by decide)

theorem witness_OutputAndLogOnlyGrow :
    exec .bwFlush writing = .next (ran .bwFlush writing) ∧ writing.rawOut.wf := ⟨rfl, by decide⟩

theorem witness_WriterPositionIsMonotone :
    Instr.bwWriteByte 1 ≠ .bwInit ∧ exec (.bwWriteByte 1) writing = .next (ran (.bwWriteByte 1) writing) :=
  ⟨by decide, rfl⟩

theorem witness_GetErrorReportsTheLatch :
    Instr.cwaGetError.cls = .getError ∧ (errored .cwa .streamIsClosed reading).liveOf .cwa = true ∧
    State.reset.liveOf .cwa = false := by decide

theorem witness_BitEnginesInit :
    (dead .br reading).br.live = false ∧ (dead .bw writing).bw.live = false ∧ reading.br.live = true ∧
    writing.bw.live = true := by decide

theorem witness_CipherAdaptersInit :
    State.reset.cra.live = false ∧ State.reset.cwa.live = false ∧ reading.cra.live = true ∧ reading.cwa.live = true := by
  decide

theorem witness_BitEnginesRelease :
    (errored .br .failedToRead reading).br.live = true ∧ (errored .bw .failedToWrite writing).bw.live = true := by decide

theorem witness_CraReleaseRecordsOwnership :
    (errored .cra .invalidData reading).cra.live = true ∧ reading.cra.own = false ∧
    (reading.setCra { reading.cra with own := true }).cra.live = true := by decide

/-- An open stream with bytes unsent, a sealed one, and an errored one. -/
theorem witness_CwaReleaseSealsFirst :
    (Inv (cwaAt [1, 2, 3] false false) ∧ (cwaAt [1, 2, 3] false false).cwa.live = true) ∧
    (Inv (cwaAt [] false true) ∧ (cwaAt [] false true).cwa.live = true) ∧
    (Inv (cwaAt [1, 2, 3] false false |>.setCwa { (cwaAt [1, 2, 3] false false).cwa with err := .failedToWrite }) ∧
      (cwaAt [1, 2, 3] false false |>.setCwa
        { (cwaAt [1, 2, 3] false false).cwa with err := .failedToWrite }).cwa.live = true) :=
  ⟨⟨inv_cwaAt_three, rfl⟩, ⟨inv_cwaAt_sealed, rfl⟩,
    inv_setCwa inv_cwaAt_three ⟨rfl, rfl, by decide, by decide, by decide⟩ (by decide), rfl⟩

/-- The last byte holds a field of 7 bits and none of 8; a source that is not live holds none. -/
theorem witness_BitReadsAndScans :
    (∃ f, bitRead (.brReadUbits 7) = some (7, true, f) ∧ Inv lastByte ∧ lastByte.ready .br ∧ legalReadCount 7 ∧
      (lastByte.unread (bytesTouched lastByte.br.bit 7)).length = bytesTouched lastByte.br.bit 7) ∧
    (∃ f, bitRead (.brScanSbits 8) = some (8, false, f) ∧ Inv lastByte ∧ lastByte.ready .br ∧ legalReadCount 8 ∧
      (lastByte.unread (bytesTouched lastByte.br.bit 8)).length ≠ bytesTouched lastByte.br.bit 8 ∧ lastByte.sourceSeeks) ∧
    (∃ f, bitRead (.brReadSbits 1) = some (1, true, f) ∧ Inv noSource ∧ noSource.ready .br ∧ legalReadCount 1 ∧
      (noSource.unread (bytesTouched noSource.br.bit 1)).length ≠ bytesTouched noSource.br.bit 1 ∧
      ¬noSource.sourceSeeks) :=
  ⟨⟨_, rfl, inv_lastByte, by decide, by decide, by decide⟩, ⟨_, rfl, inv_lastByte, by decide, by decide, by decide, by decide⟩,
    ⟨_, rfl, inv_noSource, by decide, by decide, by decide, by decide⟩⟩

theorem witness_FieldIsMostSignificantBitFirst : 4 + 12 ≤ 8 * [(0xa5 : Byte), 0x3c].length := by decide

/-- One byte to come: it holds a byte and no short. -/
theorem witness_IntegerReadsAreLittleEndian :
    (∃ f, integerRead .brReadS8 = some (1, f) ∧ Inv lastByte ∧ lastByte.ready .br ∧ (lastByte.unread 1).length = 1) ∧
    (∃ f, integerRead .brReadU16 = some (2, f) ∧ Inv lastByte ∧ lastByte.ready .br ∧ (lastByte.unread 2).length ≠ 2) :=
  ⟨⟨_, rfl, inv_lastByte, by decide, by decide⟩, ⟨_, rfl, inv_lastByte, by decide, by decide⟩⟩

/-- Targets at the end of the buffer, beyond it, and beyond `POS_MAX`. -/
theorem witness_SkipsMoveTheReader :
    (Inv reading ∧ reading.ready .br ∧ reading.buffered (reading.br.cur + (6#32).toNat) ∧
      ¬reading.buffered (reading.br.cur + (7#32).toNat) ∧ reading.br.cur + (7#32).toNat ≤ Config.posMax) ∧
    (Inv atPosMax ∧ atPosMax.ready .br ∧ Config.posMax < atPosMax.br.cur + (1#32).toNat ∧
      atPosMax.buffered (atPosMax.br.cur + (0#32).toNat)) :=
  ⟨⟨inv_reading, by decide, by decide, by decide, by decide⟩, inv_atPosMax, by decide, by decide, by decide⟩

theorem witness_ReaderAlignMovesToTheNextByte :
    (Inv reading ∧ reading.ready .br ∧ reading.br.bit ≠ 0) ∧ (Inv fullMarks ∧ fullMarks.ready .br) ∧
    (Inv noSource ∧ noSource.ready .br ∧ noSource.br.bit = 0) :=
  ⟨⟨inv_reading, by decide, by decide⟩, ⟨inv_fullMarks, by decide⟩, inv_noSource, by decide, by decide⟩

theorem witness_ResetReturnsToTheTopMark :
    (Inv lastByte ∧ lastByte.ready .br ∧ lastByte.br.marks = []) ∧
    (Inv reading ∧ reading.ready .br ∧ reading.br.marks = [] ++ [⟨0, 0⟩]) :=
  ⟨⟨inv_lastByte, by decide, by decide⟩, inv_reading, by decide, by decide⟩

theorem witness_ReaderMarkAndUnmark :
    (reading.ready .br ∧ reading.br.marks.length ≠ reading.cfg.markDepth ∧ reading.br.marks = [] ++ [⟨0, 0⟩]) ∧
    (fullMarks.ready .br ∧ fullMarks.br.marks.length = fullMarks.cfg.markDepth) ∧
    (lastByte.ready .br ∧ lastByte.br.marks = []) := by decide

theorem witness_ReaderCheckAndBytesRead :
    (lastByte.ready .br ∧ lastByte.br.marks = []) ∧ (reading.ready .br ∧ reading.br.marks = [] ++ [⟨0, 0⟩]) ∧ Inv reading :=
  ⟨by decide, by decide, inv_reading⟩

theorem witness_ReadBytesDeliversTheStream :
    (Inv reading ∧ reading.ready .br ∧ (reading.unread (10#32).toNat).length = (10#32).toNat ∧
      (reading.unread (11#32).toNat).length ≠ (11#32).toNat ∧ reading.sourceSeeks) ∧
    (Inv noSource ∧ noSource.ready .br ∧ ¬noSource.sourceSeeks) :=
  ⟨⟨inv_reading, by decide, by decide, by decide, by decide⟩, inv_noSource, by decide, by decide⟩

/-- A string with its NUL, one without, and the end of the stream. -/
theorem witness_FixedStringDropsFinalNul :
    (Inv (start .raw .raw [0x61, 0]) ∧ (start .raw .raw [0x61, 0]).ready .br ∧
      (start .raw .raw [0x61, 0]).unread (2#32).toNat = [0x61] ++ [0]) ∧
    (Inv lastByte ∧ lastByte.ready .br ∧ (lastByte.unread (1#32).toNat).getLast? ≠ some 0 ∧
      (lastByte.unread (0#32).toNat).getLast? ≠ some 0) :=
  ⟨⟨inv_start _ _ _ (by decide), by decide, by decide⟩, inv_lastByte, by decide, by decide, by decide⟩

theorem witness_NulStringStopsAtFirstNul :
    (Inv (start .raw .raw [0x61, 0]) ∧ (start .raw .raw [0x61, 0]).ready .br ∧
      ((start .raw .raw [0x61, 0]).unread 3).length < 3 ∧ 0 ∈ (start .raw .raw [0x61, 0]).unread 3) ∧
    (Inv lastByte ∧ lastByte.ready .br ∧ (lastByte.unread 2).length < 2 ∧ 0 ∉ lastByte.unread 2) ∧
    (Inv noSource ∧ noSource.ready .br ∧ (noSource.unread 1).length < 1) :=
  ⟨⟨inv_start _ _ _ (by decide), by decide, by decide, by decide⟩, ⟨inv_lastByte, by decide, by decide, by decide⟩,
    inv_noSource, by decide, by decide⟩

theorem witness_ScanThenReadAgree : Inv lastByte ∧ lastByte.ready .br ∧ legalReadCount 7 ∧ legalReadCount 8 :=
  ⟨inv_lastByte, by decide, by decide, by decide⟩

theorem witness_MarkThenResetReturns :
    Inv reading ∧ reading.ready .br ∧ reading.br.marks.length < reading.cfg.markDepth :=
  ⟨inv_reading, by decide, by decide⟩

theorem witness_MarkThenCheckCountsBytes :
    let t := ran .brMark reading
    let u := ran .brReadU32 t
    reading.ready .br ∧ reading.br.marks.length < reading.cfg.markDepth ∧ exec .brMark reading = .next t ∧
    execAll [.brReadU32] t = .next u ∧ u.ready .br ∧ u.br.marks = t.br.marks ∧ u.br.cur = reading.br.cur + 4 ∧ 4 < 2 ^ 63 :=
  ⟨by decide, by decide, rfl, rfl, by decide, by decide, by decide, by decide⟩

/-- Two readers at the same cursor, one with its buffer filled, the other with an empty buffer. -/
theorem witness_ReaderBufferIsInvisible :
    let s := brAt bytes12 0 2 4 8
    let s' := brAt bytes12 2 0 4 0
    Instr.brReadU16.unit = .br ∧ Inv s ∧ Inv s' ∧ s.cfg.brSrc = .raw ∧ s'.cfg.brSrc = .raw ∧
    s'.cfg.markDepth = s.cfg.markDepth ∧ s'.rawIn = s.rawIn ∧ s'.br.live = s.br.live ∧ s'.br.err = s.br.err ∧
    s'.br.cur = s.br.cur ∧ s'.br.bit = s.br.bit ∧ s'.br.marks = s.br.marks ∧ s' ≠ s ∧
    exec .brReadU16 s = .next (ran .brReadU16 s) ∧ exec .brReadU16 s' = .next (ran .brReadU16 s') := by
  refine ⟨rfl, ?_, ?_, rfl, rfl, rfl, rfl, rfl, rfl, rfl, rfl, rfl, ?_, rfl, rfl⟩
  · exact inv_setBr (inv_start _ _ _ (by decide)) ⟨by decide, by decide, by decide, by decide,
      ⟨by decide, by decide, by decide⟩, by decide, by decide⟩ (by decide)
  · exact inv_setBr (inv_start _ _ _ (by decide)) ⟨by decide, by decide, by decide, by decide,
      ⟨by decide, by decide, by decide⟩, by decide, by decide⟩ (by decide)
  · exact fun h => absurd (congrArg (fun s => s.br.fill) h) (by decide)

/-- A field that ends exactly on the last byte, one that needs one byte more, over each kind of downstream. -/
theorem witness_WriteBitsPacksTheField :
    (Inv nearlyFull ∧ nearlyFull.ready .bw ∧ legalWriteCount 0 ∧ legalWriteCount 4 ∧ legalWriteCount 5 ∧ (4 : BitVec 6) ≠ 0 ∧
      nearlyFull.bw.idx + bytesTouched nearlyFull.bw.bit (4#6).toNat ≤ nearlyFull.cfg.cW ∧
      nearlyFull.cfg.cW < nearlyFull.bw.idx + bytesTouched nearlyFull.bw.bit (5#6).toNat ∧ nearlyFull.sinkAccepts) ∧
    (Inv cipherSink ∧ cipherSink.ready .bw ∧ legalWriteCount 32 ∧
      cipherSink.cfg.cW < cipherSink.bw.idx + bytesTouched cipherSink.bw.bit (32#6).toNat ∧ cipherSink.sinkAccepts) ∧
    (Inv sealedSink ∧ sealedSink.ready .bw ∧ legalWriteCount 5 ∧
      sealedSink.cfg.cW < sealedSink.bw.idx + bytesTouched sealedSink.bw.bit (5#6).toNat ∧ ¬sealedSink.sinkAccepts) :=
  ⟨⟨inv_nearlyFull, by decide, by decide, by decide, by decide, by decide, by decide, by decide, by decide⟩,
    ⟨inv_cipherSink, by decide, by decide, by decide, by decide⟩,
    inv_sealedSink, by decide, by decide, by decide, by decide⟩

theorem witness_IntegerWritesAreLittleEndian :
    (integerWrite (.bwWriteInt 0x04030201) = some [1, 2, 3, 4] ∧ Inv writing ∧ writing.ready .bw ∧
      writing.bw.idx + ([1, 2, 3, 4].length + partialByte writing.bw.bit) ≤ writing.cfg.cW) ∧
    (integerWrite (.bwWriteByte 9) = some [9] ∧ Inv nearlyFull ∧ nearlyFull.ready .bw ∧
      nearlyFull.cfg.cW < nearlyFull.bw.idx + ([9].length + partialByte nearlyFull.bw.bit) ∧ nearlyFull.sinkAccepts) ∧
    (integerWrite (.bwWriteShort 9) = some [9, 0] ∧ Inv sealedSink ∧ sealedSink.ready .bw ∧
      sealedSink.cfg.cW < sealedSink.bw.idx + ([9, 0].length + partialByte sealedSink.bw.bit) ∧ ¬sealedSink.sinkAccepts) :=
  ⟨⟨rfl, inv_writing, by decide, by decide⟩, ⟨rfl, inv_nearlyFull, by decide, by decide, by decide⟩,
    rfl, inv_sealedSink, by decide, by decide, by decide⟩

theorem witness_WriteBytesBufferedOrDirect :
    (Inv writing ∧ writing.ready .bw ∧ writing.bw.idx + [1, 2, 3, 4].length + partialByte writing.bw.bit ≤ writing.cfg.cW ∧
      writing.cfg.cW < writing.bw.idx + [1, 2, 3, 4, 5].length + partialByte writing.bw.bit ∧ writing.sinkAccepts) ∧
    (Inv sealedSink ∧ sealedSink.ready .bw ∧
      sealedSink.cfg.cW < sealedSink.bw.idx + [1].length + partialByte sealedSink.bw.bit ∧ ¬sealedSink.sinkAccepts) :=
  ⟨⟨inv_writing, by decide, by decide, by decide, by decide⟩, inv_sealedSink, by decide, by decide, by decide⟩

/-- The string and its NUL end exactly on the last byte; the downstream of a longer one refuses it. -/
theorem witness_WriteStringAppendsNul :
    (Inv writing ∧ writing.ready .bw ∧ writing.bw.idx + [1, 2, 3].length + 1 + partialByte writing.bw.bit ≤ writing.cfg.cW ∧
      (ran (.bwWriteBytes [1, 2, 3]) writing).bw.err = .noError) ∧
    (Inv sealedSink ∧ sealedSink.ready .bw ∧ (ran (.bwWriteBytes [1]) sealedSink).bw.err ≠ .noError) :=
  ⟨⟨inv_writing, by decide, by decide, by decide⟩, inv_sealedSink, by decide, by decide⟩

theorem witness_WriterAlignPadsWithZeros :
    (Inv nearlyFull ∧ nearlyFull.ready .bw ∧ nearlyFull.bw.bit ≠ 0) ∧ (Inv full ∧ full.ready .bw ∧ full.bw.bit = 0) :=
  ⟨⟨inv_nearlyFull, by decide, by decide⟩, inv_full, by decide, by decide⟩

/-- Something to send and a downstream that takes it, or refuses it; nothing to send and one that would refuse it. -/
theorem witness_WriterFlushSendsPendingBytes :
    (Inv full ∧ full.ready .bw ∧ full.sinkAccepts ∧ full.cfg.bwDst = .raw) ∧
    (Inv cipherSink ∧ cipherSink.ready .bw ∧ cipherSink.sinkAccepts ∧ cipherSink.cfg.bwDst = .cwa) ∧
    (Inv sealedSink ∧ sealedSink.ready .bw ∧ ¬sealedSink.sinkAccepts ∧
      sealedSink.bw.idx + partialByte sealedSink.bw.bit ≠ 0) ∧
    (Inv (cwaAt [] false true) ∧ (cwaAt [] false true).ready .bw ∧ ¬(cwaAt [] false true).sinkAccepts ∧
      (cwaAt [] false true).bw.idx + partialByte (cwaAt [] false true).bw.bit = 0) :=
  ⟨⟨inv_full, by decide, by decide, by decide⟩, ⟨inv_cipherSink, by decide, by decide, by decide⟩,
    ⟨inv_sealedSink, by decide, by decide, by decide⟩, inv_cwaAt_sealed, by decide, by decide, by decide⟩

theorem witness_WriterMarkUnmarkAndCheck :
    (full.ready .bw ∧ full.bw.marks = []) ∧
    (writing.ready .bw ∧ writing.bw.marks = [] ++ [⟨0, 0⟩] ∧ writing.bw.marks.length ≠ writing.cfg.markDepth) ∧
    ((bwAt .raw 0 0 [] (List.replicate 16 ⟨0, 0⟩)).ready .bw ∧
      (bwAt .raw 0 0 [] (List.replicate 16 ⟨0, 0⟩)).bw.marks.length = full.cfg.markDepth) := by decide

/-- A field that completes the byte, and an empty one. -/
theorem witness_PartialByteIsSentAgain :
    Inv writing ∧ writing.ready .bw ∧ writing.cfg.bwDst = .raw ∧ writing.bw.bit ≠ 0 ∧
    writing.bw.bit.val + (4#6).toNat ≤ 8 ∧ writing.bw.bit.val + (0#6).toNat ≤ 8 :=
  ⟨inv_writing, by decide, by decide, by decide, by decide, by decide⟩

theorem witness_AlignedWritesIgnoreCapacity :
    (Inv full ∧ full.ready .bw ∧ full.bw.bit = 0 ∧ full.sinkAccepts ∧
      [Instr.bwWriteShort 5, .bwFlush, .bwWriteString [7]].map streamBytes = [[5, 0], [], [7, 0]].map some) ∧
    (Inv (cwaAt [1, 2, 3] false false) ∧ (cwaAt [1, 2, 3] false false).ready .bw ∧
      (cwaAt [1, 2, 3] false false).bw.bit = 0 ∧ (cwaAt [1, 2, 3] false false).sinkAccepts) :=
  ⟨⟨inv_full, by decide, by decide, by decide, by decide⟩, inv_cwaAt_three, by decide, by decide, by decide⟩

/-- A whole block to come, and a block of 5 bytes. -/
theorem witness_CraReadDeliversPlaintext :
    (Inv (start .raw .raw (List.replicate 8 7)) ∧ (start .raw .raw (List.replicate 8 7)).ready .cra ∧
      (takeBytes (start .raw .raw (List.replicate 8 7)).craByte 0 9).length = 8) ∧
    (Inv (start .raw .raw [1, 2, 3, 4, 5]) ∧ (start .raw .raw [1, 2, 3, 4, 5]).ready .cra ∧
      (takeBytes (start .raw .raw [1, 2, 3, 4, 5]).craByte 0 1).length < 1 ∧
      0 < (start .raw .raw [1, 2, 3, 4, 5]).cra.length) :=
  ⟨⟨inv_start _ _ _ (by decide), by decide, by decide⟩, inv_start _ _ _ (by decide), by decide, by decide, by decide⟩

/-- The targets 0 and `POS_MAX`, and those just outside. -/
theorem witness_CraSeekMovesOnlyThePosition :
    reading.ready .cra ∧ (0 : Int) = 0 + (0 : Word64).toInt ∧
    (Config.posMax : Int) = 0 + (0x7FFFFFFFFFFFFFFF : Word64).toInt ∧
    ((-1 : Int) = 0 + (0xFFFFFFFFFFFFFFFF : Word64).toInt ∧ (-1 : Int) < 0) ∧
    ((Config.posMax : Int) + 1 = reading.cra.length + (0x7FFFFFFFFFFFFFF4 : Word64).toInt ∧
      (Config.posMax : Int) < (Config.posMax : Int) + 1) := by decide

theorem witness_CraTellAndEof :
    (reading.ready .cra ∧ ¬reading.cra.length ≤ reading.cra.pos) ∧
    ((start .raw .raw []).ready .cra ∧ (start .raw .raw []).cra.length ≤ (start .raw .raw []).cra.pos) := by decide

theorem witness_CraReadsAreRandomAccess :
    let s := start .raw .raw (List.replicate 16 7)
    let cmds := [Instr.craSeek .seekSet 9, .craSeek .seekEnd 0]
    Inv s ∧ s.ready .cra ∧ (∀ j < s.cra.length, (s.rawIn.slice (s.cra.start + 8 * (j / 8)) 8).length = 8) ∧
    (∀ i ∈ cmds, (∃ o off, i = .craSeek o off) ∨ ∃ cnt, i = .craRead cnt) ∧
    execAll cmds s = .next (ran (.craSeek .seekEnd 0) (ran (.craSeek .seekSet 9) s)) ∧
    (ran (.craSeek .seekEnd 0) (ran (.craSeek .seekSet 9) s)).ready .cra ∧ (15 : Word64).toNat ≤ Config.posMax :=
  ⟨inv_start _ _ _ (by decide), by decide, by decide, by simp, rfl, by decide, by decide⟩

theorem witness_CwaWriteEncryptsFullBuffers :
    (Inv (cwaAt [] false true) ∧ (cwaAt [] false true).ready .cwa ∧ (cwaAt [] false true).cwa.sealed = true) ∧
    (Inv (cwaAt [1, 2, 3] false false) ∧ (cwaAt [1, 2, 3] false false).ready .cwa ∧
      (cwaAt [1, 2, 3] false false).cwa.sealed = false) :=
  ⟨⟨inv_cwaAt_sealed, by decide, by decide⟩, inv_cwaAt_three, by decide, by decide⟩

theorem witness_CwaFlushAndSeal :
    (Inv (cwaAt [] false true) ∧ (cwaAt [] false true).ready .cwa ∧ (cwaAt [] false true).cwa.sealed = true) ∧
    (Inv (cwaAt [1, 2, 3] false false) ∧ (cwaAt [1, 2, 3] false false).ready .cwa ∧
      (cwaAt [1, 2, 3] false false).cwa.sealed = false) :=
  ⟨⟨inv_cwaAt_sealed, by decide, by decide⟩, inv_cwaAt_three, by decide, by decide⟩

theorem witness_SplitIndependentEncryption :
    Inv (cwaAt [1, 2, 3] false false) ∧ (cwaAt [1, 2, 3] false false).ready .cwa ∧
    (cwaAt [1, 2, 3] false false).cwa.sealed = false ∧
    [Instr.cwaWrite [4, 5], .cwaFlush, .cwaWrite (List.replicate 20 6)].map plaintextOf =
      [[4, 5], [], List.replicate 20 6].map some :=
  ⟨inv_cwaAt_three, by decide, by decide, by decide⟩

/-- The ciphertext of five bytes is one block; the reader's input is that block. -/
theorem witness_CipherRoundTrip :
    let w := dead .cwa (start .raw .raw [])
    let key : Word64 := 0x6867666564636261
    let q : List Byte := [1, 2, 3, 4, 5]
    let t := ran .cwaSeal (ran (.cwaWrite q) (ran (.cwaInit false key) w))
    let r := dead .cra (start .raw .raw (ecb ⟨keyBytes key, .enc⟩ q))
    Inv w ∧ Inv r ∧ w.cwa.live = false ∧ w.rawOut = [] ∧ r.cra.live = false ∧ q.length < 2 ^ 32 ∧
    execAll [.cwaInit false key, .cwaWrite q, .cwaSeal] w = .next t ∧ r.rawIn = t.rawOut := by
  refine ⟨inv_dead (inv_start _ _ _ (by decide)) _, inv_dead (inv_start _ _ _ ?_) _, rfl, rfl, rfl, by decide, rfl, ?_⟩
  · exact (transformBlocks_length _ ((5 + 7) / 8) _).trans_le (by decide)
  · exact (cwaFlushCore_spec true (s := ((ran (.cwaWrite [1, 2, 3, 4, 5]) (ran (.cwaInit false 0x6867666564636261)
      (dead .cwa (start .raw .raw [])))).begin .ok)) (by decide)).1.symm

theorem witness_BitFieldRoundTrip :
    let w := start .raw .raw []
    let r := start .raw .raw [0xba, 0xbc]
    let fields : List (BitVec 6 × Word32) := [(3, 5), (13, 0x1ABC)]
    let t := ran .bwFlush (ran .bwAlign (ran (.bwWriteBits 13 0x1ABC) (ran (.bwWriteBits 3 5) w)))
    Inv w ∧ Inv r ∧ w.ready .bw ∧ r.ready .br ∧ w.cfg.bwDst = .raw ∧ r.cfg.brSrc = .raw ∧ w.bw.idx = 0 ∧ w.bw.bit = 0 ∧
    w.rawOut = [] ∧ r.br.cur = 0 ∧ r.br.bit = 0 ∧ (∀ e ∈ fields, legalReadCount e.1) ∧
    (fields.map fun e => e.1.toNat).sum ≤ 8 * w.cfg.cW ∧
    execAll ((fields.map fun e => Instr.bwWriteBits e.1 e.2) ++ [.bwAlign, .bwFlush]) w = .next t ∧ r.rawIn = t.rawOut :=
  ⟨inv_start .raw .raw [] (Nat.zero_le _), inv_start .raw .raw [0xba, 0xbc] (by decide), ⟨rfl, rfl⟩, ⟨rfl, rfl⟩, rfl, rfl,
    rfl, rfl, rfl, rfl, rfl, by simp; decide, by decide, rfl, by decide⟩

end Sys2Proof.Tests
end

section
/-! PROOFS. The step and the host's index (rules R12, R130, R145), what a command can do to the error latches (rules R11,
R320), and the invariant at reset (rules R27, R350). -/

namespace Sys2Proof.Machine

/-! ## The launch and the host's index -/

@[simp] theorem finishRead_frame (f : Nat → Word64) (rd : Option Nat × State) :
    (finishRead f rd).cfg = rd.2.cfg ∧ (finishRead f rd).rawIn = rd.2.rawIn ∧ (finishRead f rd).cmds = rd.2.cmds ∧
    (finishRead f rd).pc = rd.2.pc := by
  unfold finishRead; split <;> simp

@[simp] theorem brReadBits_frame (n : Nat) (f : Nat → Word64) (s : State) :
    (brReadBits n f s).cfg = s.cfg ∧ (brReadBits n f s).rawIn = s.rawIn ∧ (brReadBits n f s).cmds = s.cmds ∧
    (brReadBits n f s).pc = s.pc := by
  unfold brReadBits; dsimp only; split <;> simp

/-- No body writes the launch or the host's index: the command cycle alone advances the index (rules R130, R131). -/
@[simp] theorem bodyOf_launch (i : Instr) (s : State) :
    (bodyOf i s).cfg = s.cfg ∧ (bodyOf i s).rawIn = s.rawIn ∧ (bodyOf i s).cmds = s.cmds ∧ (bodyOf i s).pc = s.pc := by
  cases i with
  | brInit | brRelease | brGetError => simp [bodyOf, brInit, brRelease, brGetError]
  | brReadUbits _ | brReadSbits _ => simp [bodyOf, brReadUbits, brReadSbits]
  | brScanUbits _ | brScanSbits _ => simp [bodyOf, brScanUbits, brScanSbits]
  | brReadU8 | brReadS8 => simp [bodyOf, brReadU8, brReadS8]
  | brReadU16 | brReadS16 => simp [bodyOf, brReadU16, brReadS16]
  | brReadU32 | brReadS32 => simp [bodyOf, brReadU32, brReadS32]
  | brAlign => simp only [bodyOf, brAlign]; split <;> simp
  | brSkip _ | brSkipBits _ => simp [bodyOf, brSkip, brSkipBits]
  | brMark => simp only [bodyOf, brMark]; split <;> simp
  | brUnmark => simp only [bodyOf, brUnmark]; split <;> simp
  | brReset => simp only [bodyOf, brReset]; split <;> simp
  | brCheck _ => simp only [bodyOf, brCheck]; split <;> simp
  | brBytesRead => simp only [bodyOf, brBytesRead]; split <;> simp
  | brReadBytes _ | brReadStrFixed _ | brReadStrNul => simp [bodyOf, brReadBytes, brReadStrFixed, brReadStrNul]
  | bwInit | bwRelease | bwGetError => simp [bodyOf, bwInit, bwRelease, bwGetError]
  | bwWriteByte _ | bwWriteShort _ | bwWriteInt _ => simp [bodyOf, bwWriteByte, bwWriteShort, bwWriteInt]
  | bwWriteBits _ _ | bwWriteBytes _ | bwWriteString _ | bwFlush => simp [bodyOf, bwWriteBytes]
  | bwAlign => simp only [bodyOf, bwAlign]; split <;> simp
  | bwMark => simp only [bodyOf, bwMark]; split <;> simp
  | bwUnmark => simp only [bodyOf, bwUnmark]; split <;> simp
  | bwCheck _ => simp only [bodyOf, bwCheck]; split <;> simp
  | craInit _ _ _ _ | craGetError | craTell | craEof => simp [bodyOf, craInit, craGetError, craTell, craEof]
  | craRelease => simp only [bodyOf, craRelease]; split <;> simp
  | craRead _ | craSeek _ _ => simp [bodyOf, craRead, craSeek]
  | cwaInit _ _ | cwaGetError => simp [bodyOf, cwaInit, cwaGetError]
  | cwaRelease =>
    simp only [bodyOf, cwaRelease]
    split
    · split <;> simp
    · split <;> simp
  | cwaWrite _ | cwaFlush | cwaSeal => simp [bodyOf, cwaWrite]

/-- Every way a command completes advances the host's index by one and leaves the launch alone (rules R24, R131). -/
theorem exec_advances {i : Instr} {s t : State} (h : exec i s = .next t) : t.pc = s.pc + 1 ∧ SameLaunch s t := by
  rcases exec_cases h with ⟨-, rfl⟩ | ⟨-, -, rfl⟩ | ⟨-, -, rfl⟩
  · exact ⟨rfl, rfl, rfl, rfl⟩
  · exact ⟨rfl, rfl, rfl, rfl⟩
  · obtain ⟨hcfg, hraw, hcmds, hpc⟩ := bodyOf_launch i (s.begin .ok)
    exact ⟨congrArg (· + 1) hpc, hcfg, hraw, hcmds⟩

/-! ## The three ways a step goes (rules R130, R131, R145) -/

theorem State.fetch_eq_none_iff {s : State} : s.fetch = none ↔ s.cmds.length ≤ s.pc := List.getElem?_eq_none_iff

theorem step_of_fetch_none {s : State} (hf : s.fetch = none) : step s = .fault .launchEnded := by
  simp only [step, hf]

theorem step_of_decode_error {s : State} {c : Command} {e : DecodeError} (hf : s.fetch = some c)
    (hd : decode c = .error e) : step s = .next (illegalCommand s) := by
  simp only [step, hf, hd]

theorem step_of_decode_ok {s : State} {c : Command} {i : Instr} (hf : s.fetch = some c) (hd : decode c = .ok i) :
    step s = exec i s := by
  simp only [step, hf, hd]

/-- Settles O7: a fetched record is refused as illegal or runs, and both end the command cycle. -/
theorem stepAdvancesTheHostIndex : Obligations.StepAdvancesTheHostIndex := by
  intro s
  refine ⟨fun hlt => ?_, fun hle => step_of_fetch_none (State.fetch_eq_none_iff.2 hle)⟩
  have hf : s.fetch = some s.cmds[s.pc] := List.getElem?_eq_getElem hlt
  cases hd : decode s.cmds[s.pc] with
  | error e => exact ⟨illegalCommand s, step_of_decode_error hf hd, rfl, rfl, rfl, rfl⟩
  | ok i =>
    have hexec := exec_eq i s
    exact ⟨_, (step_of_decode_ok hf hd).trans hexec, exec_advances hexec⟩

/-! ## What a command can do to the latches (rules R11, R320, R321) -/

/-- What raising can make of the latch of unit `u`: it stays, or, where it held no error, it takes a code that a rule of
the unit raises (rules R11, R321). -/
def LatchStep (u : UnitId) (old new : Err) : Prop := new = old ∨ (old = .noError ∧ new ∈ producible u)

theorem LatchStep.trans {u : UnitId} {a b c : Err} (h1 : LatchStep u a b) (h2 : LatchStep u b c) : LatchStep u a c := by
  rcases h1 with rfl | ⟨ha, hb⟩
  · exact h2
  · rcases h2 with rfl | ⟨-, hc⟩
    · exact .inr ⟨ha, hb⟩
    · exact .inr ⟨ha, hc⟩

theorem LatchStep.of_latch {u : UnitId} {code : Err} (hc : code ∈ producible u) (old : Err) :
    LatchStep u old (latch old code) := by
  by_cases h : old = .noError
  · exact .inr ⟨h, by rwa [h, latch_noError]⟩
  · exact .inl (latch_of_ne h code)

/-- From `s` to `t` nothing happened to the latches but raising: of every unit, its own codes. -/
def OnlyRaises (s t : State) : Prop := ∀ u, LatchStep u (s.errOf u) (t.errOf u)

theorem errOf_raise (u v : UnitId) (code : Err) (s : State) :
    (raise v code s).errOf u = if u = v then latch (s.errOf u) code else s.errOf u := by
  cases u <;> cases v <;> rfl

namespace OnlyRaises

variable {s t r : State}

theorem refl (s : State) : OnlyRaises s s := fun _ => .inl rfl

theorem trans (h1 : OnlyRaises s t) (h2 : OnlyRaises t r) : OnlyRaises s r := fun u => (h1 u).trans (h2 u)

/-- A latch that holds an error keeps it (rule R11). -/
theorem keeps (h : OnlyRaises s t) {u : UnitId} (hu : s.errOf u ≠ .noError) : t.errOf u = s.errOf u :=
  (h u).resolve_right fun hn => hu hn.1

theorem raise {v : UnitId} {code : Err} (hc : code ∈ producible v) (h : OnlyRaises s t) :
    OnlyRaises s (raise v code t) := by
  intro u
  rw [errOf_raise]
  split
  · next huv => exact (h u).trans (.of_latch (huv ▸ hc) _)
  · exact h u

theorem setBr {b : Br} (h : OnlyRaises s t) (he : b.err = t.br.err) : OnlyRaises s (t.setBr b)
  | .br => by simpa [he] using h .br
  | .bw => h .bw
  | .cra => h .cra
  | .cwa => h .cwa

theorem setBw {b : Bw} (h : OnlyRaises s t) (he : b.err = t.bw.err) : OnlyRaises s (t.setBw b)
  | .br => h .br
  | .bw => by simpa [he] using h .bw
  | .cra => h .cra
  | .cwa => h .cwa

theorem setCra {c : Cra} (h : OnlyRaises s t) (he : c.err = t.cra.err) : OnlyRaises s (t.setCra c)
  | .br => h .br
  | .bw => h .bw
  | .cra => by simpa [he] using h .cra
  | .cwa => h .cwa

theorem setCwa {c : Cwa} (h : OnlyRaises s t) (he : c.err = t.cwa.err) : OnlyRaises s (t.setCwa c)
  | .br => h .br
  | .bw => h .bw
  | .cra => h .cra
  | .cwa => by simpa [he] using h .cwa

theorem setR (h : OnlyRaises s t) (v : Word64) : OnlyRaises s (t.setR v) := h

theorem deliver (h : OnlyRaises s t) (l : List Byte) : OnlyRaises s (t.deliver l) := h

theorem setRc (h : OnlyRaises s t) (n : Nat) : OnlyRaises s (t.setRc n) := h

theorem appendOut (h : OnlyRaises s t) (l : List Byte) : OnlyRaises s (t.appendOut l) := h

theorem addEvent (h : OnlyRaises s t) (e : Event) : OnlyRaises s (t.addEvent e) := h

end OnlyRaises

/-! ### `CRA` and `DS_R` -/

theorem rawInSeek_onlyRaises (off : Nat) (s : State) : OnlyRaises s (rawInSeek off s).2 :=
  ((OnlyRaises.refl s).setRc _).addEvent _

theorem rawInRead_onlyRaises (n : Nat) (s : State) : OnlyRaises s (rawInRead n s).2 :=
  ((OnlyRaises.refl s).setRc _).addEvent _

theorem craFetch_onlyRaises (b : Nat) (s : State) : OnlyRaises s (craFetch b s).2 := by
  have hrd := (rawInSeek_onlyRaises (s.cra.start + 8 * b) s).trans (rawInRead_onlyRaises 8 _)
  unfold craFetch
  dsimp only
  split
  · exact (hrd.raise (by decide)).setCra rfl
  · exact hrd.setCra rfl

theorem craLoad_onlyRaises (b : Nat) (s : State) : OnlyRaises s (craLoad b s).2 := by
  unfold craLoad
  split
  · exact .refl s
  · exact craFetch_onlyRaises b s

theorem craReadCore_onlyRaises (n : Nat) (s : State) : OnlyRaises s (craReadCore n s).2 := by
  induction n generalizing s with
  | zero => exact .refl s
  | succ n ih =>
    have hld := craLoad_onlyRaises (s.cra.pos >>> 3) s
    unfold craReadCore
    split
    · dsimp only
      split
      · exact (hld.setCra rfl).trans (ih _)
      · exact hld
    · exact .refl s

theorem craSeekCore_onlyRaises (o : Origin) (off : Int) (s : State) : OnlyRaises s (craSeekCore o off s).2 := by
  rcases craSeekCore_cases o off s with ⟨-, -, h⟩ | ⟨-, h⟩
  · rw [h]
    exact (OnlyRaises.refl s).setCra rfl
  · rw [h]
    exact (OnlyRaises.refl s).raise (by decide)

theorem dsrSeek_onlyRaises (off : Nat) (s : State) : OnlyRaises s (dsrSeek off s).2 := by
  unfold dsrSeek
  split
  · exact rawInSeek_onlyRaises off s
  · split
    · exact .refl s
    · exact .refl s
    · exact (craSeekCore_onlyRaises .seekSet off s).addEvent _

theorem dsrRead_onlyRaises (n : Nat) (s : State) : OnlyRaises s (dsrRead n s).2 := by
  unfold dsrRead
  split
  · exact rawInRead_onlyRaises n s
  · split
    · exact .refl s
    · exact .refl s
    · exact (craReadCore_onlyRaises n s).addEvent _

/-! ### `BR` -/

theorem brFillLoop_onlyRaises (fuel : Nat) (s : State) : OnlyRaises s (brFillLoop fuel s) := by
  induction fuel generalizing s with
  | zero => exact .refl s
  | succ fuel ih =>
    have hrd := dsrRead_onlyRaises (s.cfg.cR - s.br.fill) s
    unfold brFillLoop
    split
    · exact .refl s
    · dsimp only
      split
      · exact hrd
      · exact (hrd.setBr rfl).trans (ih _)

theorem brFill_onlyRaises (s : State) : OnlyRaises s (brFill s) := by
  have hsk := ((OnlyRaises.refl s).setBr (b := s.br.shifted) rfl).trans
    (dsrSeek_onlyRaises (s.br.shifted.pos + s.br.shifted.fill) _)
  unfold brFill
  dsimp only
  split
  · exact hsk.raise (by decide)
  · exact hsk.trans (brFillLoop_onlyRaises _ _)

theorem brEnsure_onlyRaises (nb : Nat) (s : State) : OnlyRaises s (brEnsure nb s).2 := by
  unfold brEnsure
  dsimp only
  split
  · exact brFill_onlyRaises s
  · exact .refl s

theorem brPeekBits_onlyRaises (n : Nat) (s : State) : OnlyRaises s (brPeekBits n s).2 := by
  have hen := brEnsure_onlyRaises (bytesTouched s.br.bit n) s
  unfold brPeekBits
  dsimp only
  split
  · exact hen
  · exact hen.raise (by decide)

theorem brReposition_onlyRaises (tb : Nat) (tbit : Fin 8) (s : State) : OnlyRaises s (brReposition tb tbit s) := by
  unfold brReposition
  split
  · exact (OnlyRaises.refl s).raise (by decide)
  · split
    · exact (OnlyRaises.refl s).setBr rfl
    · exact ((OnlyRaises.refl s).setBr rfl).trans (brFill_onlyRaises _)

theorem brRefill_onlyRaises (s : State) : OnlyRaises s (brRefill s) := by
  unfold brRefill
  split
  · exact brFill_onlyRaises s
  · exact .refl s

theorem brReadLoop_onlyRaises (fuel want : Nat) (s : State) : OnlyRaises s (brReadLoop fuel want s).2 := by
  induction fuel generalizing want s with
  | zero => exact .refl s
  | succ fuel ih =>
    have hrf := brRefill_onlyRaises s
    unfold brReadLoop
    split
    · exact .refl s
    · dsimp only
      split
      · exact hrf
      · exact (hrf.setBr rfl).trans (ih _ _)

theorem brReadBytesCore_onlyRaises (want : Nat) (s : State) : OnlyRaises s (brReadBytesCore want s).2 := by
  have hrd := brReadLoop_onlyRaises want want s
  unfold brReadBytesCore
  dsimp only
  split
  · exact hrd.raise (by decide)
  · exact hrd

theorem brStrLoop_onlyRaises (rounds : Nat) (s : State) : OnlyRaises s (brStrLoop rounds s).2 := by
  induction rounds generalizing s with
  | zero => exact .refl s
  | succ rounds ih =>
    have hrf := brRefill_onlyRaises s
    unfold brStrLoop
    dsimp only
    split
    · exact hrf
    · split
      · exact hrf.setBr rfl
      · exact (hrf.setBr rfl).trans (ih _)

theorem brReadLE_onlyRaises (k : Nat) (s : State) : OnlyRaises s (brReadLE k s).2 := by
  have hen := brEnsure_onlyRaises k s
  unfold brReadLE
  dsimp only
  split
  · exact hen.setBr rfl
  · exact hen.raise (by decide)

theorem OnlyRaises.finishRead {s : State} {rd : Option Nat × State} (h : OnlyRaises s rd.2) (f : Nat → Word64) :
    OnlyRaises s (finishRead f rd) := by
  unfold Machine.finishRead
  split
  · exact h
  · exact h.setR _

theorem brReadBits_onlyRaises (n : Nat) (f : Nat → Word64) (s : State) : OnlyRaises s (brReadBits n f s) := by
  have hpk := brPeekBits_onlyRaises n s
  unfold brReadBits
  dsimp only
  split
  · exact hpk
  · exact (hpk.setBr rfl).setR _

/-! ### `CWA` and `DS_W` -/

theorem rawOutWrite_onlyRaises (l : List Byte) (s : State) : OnlyRaises s (rawOutWrite l s).2 :=
  ((OnlyRaises.refl s).appendOut l).addEvent _

theorem rawOutFlush_onlyRaises (s : State) : OnlyRaises s (rawOutFlush s) := (OnlyRaises.refl s).addEvent _

theorem cwaFlushEnd_onlyRaises (final : Bool) (s : State) : OnlyRaises s (cwaFlushEnd final s) :=
  (rawOutFlush_onlyRaises s).setCwa (by cases final <;> rfl)

theorem cwaFlushCore_onlyRaises (final : Bool) (s : State) : OnlyRaises s (cwaFlushCore final s) := by
  have hwr := rawOutWrite_onlyRaises (s.cwa.cipherText final) s
  unfold cwaFlushCore
  dsimp only
  split
  · exact cwaFlushEnd_onlyRaises final s
  · split
    · exact hwr.raise (by decide)
    · exact hwr.trans (cwaFlushEnd_onlyRaises final _)

theorem cwaPutBytes_onlyRaises (l : List Byte) (s : State) : OnlyRaises s (cwaPutBytes l s).2 := by
  induction l generalizing s with
  | nil => exact .refl s
  | cons c rest ih =>
    have hput := (OnlyRaises.refl s).setCwa
      (c := { s.cwa with wbuf := s.cwa.wbuf.set s.cwa.nbuf c, nbuf := s.cwa.nbuf + 1 }) rfl
    have hfl := hput.trans (cwaFlushCore_onlyRaises false _)
    unfold cwaPutBytes
    dsimp only
    split
    · split
      · exact hfl
      · exact hfl.trans (ih _)
    · exact hput.trans (ih _)

theorem cwaWriteCore_onlyRaises (l : List Byte) (s : State) : OnlyRaises s (cwaWriteCore l s).2 := by
  unfold cwaWriteCore
  split
  · exact (OnlyRaises.refl s).raise (by decide)
  · exact cwaPutBytes_onlyRaises l s

theorem cwaFlushBody_onlyRaises (s : State) : OnlyRaises s (cwaFlushBody s) := by
  unfold cwaFlushBody
  split
  · exact .refl s
  · exact cwaFlushCore_onlyRaises false s

theorem cwaSealBody_onlyRaises (s : State) : OnlyRaises s (cwaSealBody s) := by
  unfold cwaSealBody
  split
  · exact .refl s
  · exact (cwaFlushCore_onlyRaises true s).setCwa rfl

theorem dswWrite_onlyRaises (l : List Byte) (s : State) : OnlyRaises s (dswWrite l s).2 := by
  unfold dswWrite
  split
  · exact rawOutWrite_onlyRaises l s
  · split
    · exact .refl s
    · exact .refl s
    · exact (cwaWriteCore_onlyRaises l s).addEvent _

theorem dswFlush_onlyRaises (s : State) : OnlyRaises s (dswFlush s) := by
  unfold dswFlush
  split
  · exact rawOutFlush_onlyRaises s
  · split
    · exact .refl s
    · exact .refl s
    · exact (cwaFlushBody_onlyRaises s).addEvent _

/-! ### `BW` -/

theorem bwFlushEnd_onlyRaises (s : State) : OnlyRaises s (bwFlushEnd s) := (dswFlush_onlyRaises s).setBw rfl

theorem bwFlush_onlyRaises (s : State) : OnlyRaises s (bwFlush s) := by
  have hwr := dswWrite_onlyRaises s.bw.pending s
  unfold bwFlush
  dsimp only
  split
  · exact bwFlushEnd_onlyRaises s
  · split
    · exact hwr.raise (by decide)
    · exact hwr.trans (bwFlushEnd_onlyRaises _)

theorem bwMakeRoom_onlyRaises (need : Nat) (s : State) : OnlyRaises s (bwMakeRoom need s) := by
  unfold bwMakeRoom
  split
  · exact bwFlush_onlyRaises s
  · exact .refl s

theorem bwStore_onlyRaises (need : Nat) {put : Bw → Bw} (hput : ∀ u, (put u).err = u.err) (s : State) :
    OnlyRaises s (bwStore need put s) := by
  have hroom := bwMakeRoom_onlyRaises need s
  unfold bwStore
  dsimp only
  split
  · exact hroom
  · exact hroom.setBw (hput _)

theorem bwWriteLE_onlyRaises {w : Nat} (k : Nat) (v : BitVec w) (s : State) : OnlyRaises s (bwWriteLE k v s) :=
  bwStore_onlyRaises _ (put := fun u => u.putRun (leBytes k v)) (fun _ => rfl) s

theorem bwWriteBits_onlyRaises (n : BitVec 6) (v : Word32) (s : State) : OnlyRaises s (bwWriteBits n v s) := by
  unfold bwWriteBits
  split
  · exact .refl s
  · exact bwStore_onlyRaises _ (fun u => by simp) s

theorem bwWriteBytesCore_onlyRaises (l : List Byte) (s : State) : OnlyRaises s (bwWriteBytesCore l s) := by
  have hfl := bwFlush_onlyRaises s
  have hwr := hfl.trans (dswWrite_onlyRaises l _)
  unfold bwWriteBytesCore
  dsimp only
  split
  · exact (OnlyRaises.refl s).setBw rfl
  · split
    · exact hfl
    · split
      · exact hwr.raise (by decide)
      · exact hwr.setBw rfl

theorem bwWriteString_onlyRaises (p : List Byte) (s : State) : OnlyRaises s (bwWriteString p s) := by
  have hwr := bwWriteBytesCore_onlyRaises p s
  unfold bwWriteString
  dsimp only
  split
  · exact hwr
  · exact hwr.trans (bwWriteLE_onlyRaises 1 _ _)

/-! ### The bodies -/

/-- A body of `BR` other than INIT only raises. -/
theorem bodyOf_onlyRaises_of_br {i : Instr} (hu : i.unit = .br) (hi : i.cls ≠ .init) (s : State) :
    OnlyRaises s (bodyOf i s) := by
  have hrefl := OnlyRaises.refl s
  cases i with
  | brInit => exact absurd rfl hi
  | brRelease => exact hrefl.setBr rfl
  | brGetError => exact hrefl.setR _
  | brReadUbits n | brReadSbits n => exact brReadBits_onlyRaises _ _ s
  | brScanUbits n | brScanSbits n => exact (brPeekBits_onlyRaises _ s).finishRead _
  | brReadU8 | brReadS8 | brReadU16 | brReadS16 | brReadU32 | brReadS32 => exact (brReadLE_onlyRaises _ s).finishRead _
  | brAlign =>
    simp only [bodyOf, brAlign]
    split
    · exact hrefl
    · exact brReposition_onlyRaises _ _ s
  | brSkip cnt | brSkipBits cnt => exact brReposition_onlyRaises _ _ s
  | brMark =>
    simp only [bodyOf, brMark]
    split
    · exact hrefl.raise (v := .br) (by decide)
    · exact hrefl.setBr rfl
  | brUnmark =>
    simp only [bodyOf, brUnmark]
    split
    · exact hrefl.raise (v := .br) (by decide)
    · exact hrefl.setBr rfl
  | brReset =>
    simp only [bodyOf, brReset]
    split
    · exact brReposition_onlyRaises _ _ s
    · exact brReposition_onlyRaises _ _ s
  | brCheck expected =>
    simp only [bodyOf, brCheck]
    split
    · exact hrefl.raise (v := .br) (by decide)
    · exact hrefl.setR _
  | brBytesRead =>
    simp only [bodyOf, brBytesRead]
    split
    · exact hrefl.raise (v := .br) (by decide)
    · exact hrefl.setR _
  | brReadBytes cnt | brReadStrFixed cnt => exact (brReadBytesCore_onlyRaises _ s).deliver _
  | brReadStrNul => exact (brStrLoop_onlyRaises _ s).deliver _
  | _ => cases hu

/-- A body of `BW` other than INIT only raises. -/
theorem bodyOf_onlyRaises_of_bw {i : Instr} (hu : i.unit = .bw) (hi : i.cls ≠ .init) (s : State) :
    OnlyRaises s (bodyOf i s) := by
  have hrefl := OnlyRaises.refl s
  cases i with
  | bwInit => exact absurd rfl hi
  | bwRelease => exact hrefl.setBw rfl
  | bwGetError => exact hrefl.setR _
  | bwWriteBits n v => exact bwWriteBits_onlyRaises n v s
  | bwWriteByte v | bwWriteShort v | bwWriteInt v => exact bwWriteLE_onlyRaises _ v s
  | bwWriteBytes p => exact bwWriteBytesCore_onlyRaises p s
  | bwWriteString p => exact bwWriteString_onlyRaises p s
  | bwAlign =>
    simp only [bodyOf, bwAlign]
    split
    · exact hrefl
    · exact hrefl.setBw rfl
  | bwFlush => exact bwFlush_onlyRaises s
  | bwMark =>
    simp only [bodyOf, bwMark]
    split
    · exact hrefl.raise (v := .bw) (by decide)
    · exact hrefl.setBw rfl
  | bwUnmark =>
    simp only [bodyOf, bwUnmark]
    split
    · exact hrefl.raise (v := .bw) (by decide)
    · exact hrefl.setBw rfl
  | bwCheck expected =>
    simp only [bodyOf, bwCheck]
    split
    · exact hrefl.raise (v := .bw) (by decide)
    · exact hrefl.setR _
  | _ => cases hu

/-- A body of `CRA` other than INIT only raises. -/
theorem bodyOf_onlyRaises_of_cra {i : Instr} (hu : i.unit = .cra) (hi : i.cls ≠ .init) (s : State) :
    OnlyRaises s (bodyOf i s) := by
  have hrefl := OnlyRaises.refl s
  cases i with
  | craInit own key req start => exact absurd rfl hi
  | craRelease =>
    simp only [bodyOf, craRelease]
    split
    · exact (hrefl.addEvent _).setCra rfl
    · exact hrefl.setCra rfl
  | craGetError | craTell | craEof => exact hrefl.setR _
  | craRead cnt => exact (craReadCore_onlyRaises _ s).deliver _
  | craSeek origin off => exact (craSeekCore_onlyRaises _ _ s).setR _
  | _ => cases hu

/-- RELEASE of `CWA` raises only through its automatic seal (rule R295). -/
theorem cwaRelease_onlyRaises (s : State) : OnlyRaises s (cwaRelease s) := by
  have hseal : OnlyRaises s (if s.cwa.err = .noError ∧ s.cwa.sealed = false then cwaSealBody s else s) := by
    split
    · exact cwaSealBody_onlyRaises s
    · exact .refl s
  unfold cwaRelease
  dsimp only
  generalize (if s.cwa.err = .noError ∧ s.cwa.sealed = false then cwaSealBody s else s) = s1 at hseal ⊢
  split
  · exact (hseal.addEvent _).setCwa rfl
  · exact hseal.setCwa rfl

/-- A body of `CWA` other than INIT only raises. -/
theorem bodyOf_onlyRaises_of_cwa {i : Instr} (hu : i.unit = .cwa) (hi : i.cls ≠ .init) (s : State) :
    OnlyRaises s (bodyOf i s) := by
  cases i with
  | cwaInit own key => exact absurd rfl hi
  | cwaRelease => exact cwaRelease_onlyRaises s
  | cwaGetError => exact (OnlyRaises.refl s).setR _
  | cwaWrite p => exact (cwaWriteCore_onlyRaises p s).setR _
  | cwaFlush => exact cwaFlushBody_onlyRaises s
  | cwaSeal => exact cwaSealBody_onlyRaises s
  | _ => cases hu

/-- A body other than INIT only raises, of every unit its own codes (rules R11, R320, R321). -/
theorem bodyOf_onlyRaises {i : Instr} (hi : i.cls ≠ .init) (s : State) : OnlyRaises s (bodyOf i s) := by
  cases hu : i.unit with
  | br => exact bodyOf_onlyRaises_of_br hu hi s
  | bw => exact bodyOf_onlyRaises_of_bw hu hi s
  | cra => exact bodyOf_onlyRaises_of_cra hu hi s
  | cwa => exact bodyOf_onlyRaises_of_cwa hu hi s

/-- INIT clears the latch of its own unit and no other (rules R134, R189, R235, R260, R294). -/
theorem bodyOf_init_errOf {i : Instr} (hi : i.cls = .init) (s : State) (u : UnitId) :
    (bodyOf i s).errOf u = if u = i.unit then .noError else s.errOf u := by
  cases i with
  | brInit | bwInit | craInit _ _ _ _ | cwaInit _ _ => cases u <;> rfl
  | _ => cases hi

/-- Settles O14: a command that runs its body is an INIT, which writes the latch of its own unit alone, or only raises. -/
theorem stickyErrorIsNeverCleared : Obligations.StickyErrorIsNeverCleared := by
  intro i s t u h hne
  rcases exec_cases h with ⟨-, rfl⟩ | ⟨-, -, rfl⟩ | ⟨hlive, -, rfl⟩
  · exact .inr rfl
  · exact .inr rfl
  · by_cases hi : i.cls = .init
    · by_cases hu : u = i.unit
      · refine .inl ⟨hi, hu.symm, ?_⟩
        simpa [lifecycleRefuses, hi, hu] using hlive
      · exact .inr ((bodyOf_init_errOf hi (s.begin .ok) u).trans (if_neg hu))
    · exact .inr ((bodyOf_onlyRaises hi (s.begin .ok)).keeps hne)

/-! ## The invariant at reset (rules R27, R350) -/

section Reset

variable (c : Config) (input : Memory) (cmds : List Command)

theorem MarksInv.nil (depth cur : Nat) : MarksInv [] depth cur where
  depth_le := Nat.zero_le depth
  le_cur := by simp
  sorted := .nil

theorem launchInv_resetWith (hc : c.wf) (hi : input.wf) (hl : input.length ≤ Config.posMax) :
    LaunchInv (State.resetWith c input cmds) where
  cfg_wf := hc
  rawIn_wf := hi
  rawOut_wf := Memory.nil_wf
  rawIn_length := hl
  pc_le := Nat.zero_le _

theorem brInv_resetWith : BrInv (State.resetWith c input cmds) where
  buf_length := List.length_replicate
  idx_le_fill := Nat.le_refl 0
  fill_le_cap := Nat.zero_le _
  reach := Nat.zero_le _
  marks := .nil _ _
  raw_length _ := Nat.zero_le _
  raw_coherent _ := rfl

theorem bwInv_resetWith : BwInv (State.resetWith c input cmds) where
  buf_length := List.length_replicate
  idx_le_cap := Nat.zero_le _
  partial_room h := absurd rfl h
  zero_after j _ := byteAt_replicate_zero c.cW j
  zero_bits j _ := by simp [State.resetWith, resetBw]
  marks := .nil _ _

theorem craInv_resetWith : CraInv (State.resetWith c input cmds) where
  direction := rfl
  start_le := Nat.zero_le _
  length_le := Nat.zero_le _
  pos_le := Nat.zero_le _
  blk_le := Nat.zero_le _
  cache h := nomatch h

/-- The empty buffer of `CWA` is below its capacity, which rule R6 bounds from below. -/
theorem cwaInv_resetWith (hcap : 8 ≤ c.cCW) : CwaInv (State.resetWith c input cmds) where
  direction := rfl
  wbuf_length := List.length_replicate
  nbuf_le := Nat.zero_le _
  between_flushes _ := Nat.lt_of_lt_of_le (Nat.zero_lt_succ 7) hcap
  sealed_empty _ _ := rfl

theorem errorsInv_resetWith : ErrorsInv (State.resetWith c input cmds) := by
  intro u
  cases u <;> exact List.mem_cons_self

theorem inv_resetWith (hc : c.wf) (hi : input.wf) (hl : input.length ≤ Config.posMax) :
    Inv (State.resetWith c input cmds) where
  launch := launchInv_resetWith c input cmds hc hi hl
  br := brInv_resetWith c input cmds
  bw := bwInv_resetWith c input cmds
  cra := craInv_resetWith c input cmds
  cwa :=
    have ⟨_, _, hcap, _⟩ := hc
    cwaInv_resetWith c input cmds hcap
  errors := errorsInv_resetWith c input cmds

theorem withinSource_resetWith : (State.resetWith c input cmds).withinSource := Nat.zero_le _

end Reset

/-- Settles O12, part by part of the invariant; `State.reset` is the reset of a launch that rule R6 admits. -/
theorem resetHasInvariant : Obligations.ResetHasInvariant :=
  ⟨fun c input cmds hc hi hl => ⟨inv_resetWith c input cmds hc hi hl, withinSource_resetWith c input cmds⟩,
    inv_resetWith resetConfig [] [] (by decide) Memory.nil_wf (Nat.zero_le _), withinSource_resetWith resetConfig [] []⟩

end Sys2Proof.Machine
end

section
/-! PROOFS. What the decoder lets pass carries the operands of a legal command (rule R106). -/

namespace Sys2Proof

/-! ## What the decoder lets pass (rule R106) -/

theorem Command.rowF0_wellFormed {c : Command} {i j : Instr} (hi : i.WellFormed) (h : c.rowF0 i = .ok j) :
    j.WellFormed := by
  obtain ⟨-, rfl⟩ := Command.row_ok.1 h
  exact hi

theorem Command.rowFN_wellFormed {c : Command} {nMin nMax : Nat} {i j : Instr}
    (hi : nMin ≤ c.nField.toNat → c.nField.toNat ≤ nMax → i.WellFormed) (h : c.rowFN nMin nMax i = .ok j) :
    j.WellFormed := by
  obtain ⟨⟨hmin, hmax, -⟩, rfl⟩ := Command.row_ok.1 h
  exact hi hmin hmax

theorem Command.rowFM_wellFormed {c : Command} {mMax : Nat} {i j : Instr} (hi : i.WellFormed)
    (h : c.rowFM mMax i = .ok j) : j.WellFormed := by
  obtain ⟨-, rfl⟩ := Command.row_ok.1 h
  exact hi

/-- A payload row passes a payload whose length is a 32-bit count (rule R106 (e)). -/
theorem Command.rowPayload_wellFormed {c : Command} {i j : Instr} (hi : legalPayload c.p → i.WellFormed)
    (h : c.rowPayload i = .ok j) : j.WellFormed := by
  unfold Command.rowPayload at h
  split at h
  · cases h
  · next i' hrow =>
    obtain ⟨-, rfl⟩ := Command.row_ok.1 hrow
    split at h
    · next hlen =>
      cases h
      exact hi (hlen.trans_lt c.count.isLt)
    · cases h

/-- The row of CRA.INIT passes a start offset that is a legal position (rule R106 (f)). -/
theorem Command.rowCraInit_wellFormed {c : Command} {j : Instr} (h : c.rowCraInit = .ok j) : j.WellFormed := by
  unfold Command.rowCraInit at h
  split at h
  · cases h
  · next i' hrow =>
    obtain ⟨-, rfl⟩ := Command.row_ok.1 hrow
    split at h
    · next hstart =>
      cases h
      exact hstart
    · cases h

/-- Row by row, in the order of the opcode map (rule R104). -/
theorem decodeBr_wellFormed {c : Command} {i : Instr} (h : decodeBr c = .ok i) : i.WellFormed := by
  unfold decodeBr at h
  split at h
  iterate 3 exact Command.rowF0_wellFormed trivial h
  iterate 4 exact Command.rowFN_wellFormed And.intro h
  iterate 17 exact Command.rowF0_wellFormed trivial h
  cases h

theorem decodeBw_wellFormed {c : Command} {i : Instr} (h : decodeBw c = .ok i) : i.WellFormed := by
  unfold decodeBw at h
  split at h
  iterate 3 exact Command.rowF0_wellFormed trivial h
  exact Command.rowFN_wellFormed (fun _ hn => hn) h
  iterate 3 exact Command.rowF0_wellFormed trivial h
  iterate 2 exact Command.rowPayload_wellFormed id h
  iterate 5 exact Command.rowF0_wellFormed trivial h
  cases h

theorem decodeCra_wellFormed {c : Command} {i : Instr} (h : decodeCra c = .ok i) : i.WellFormed := by
  unfold decodeCra at h
  split at h
  exact Command.rowCraInit_wellFormed h
  iterate 3 exact Command.rowF0_wellFormed trivial h
  exact Command.rowFM_wellFormed trivial h
  iterate 2 exact Command.rowF0_wellFormed trivial h
  cases h

theorem decodeCwa_wellFormed {c : Command} {i : Instr} (h : decodeCwa c = .ok i) : i.WellFormed := by
  unfold decodeCwa at h
  split at h
  exact Command.rowFM_wellFormed trivial h
  iterate 2 exact Command.rowF0_wellFormed trivial h
  exact Command.rowPayload_wellFormed id h
  iterate 2 exact Command.rowF0_wellFormed trivial h
  cases h

/-- A record that decodes carries the operands of a legal command (rule R106). -/
theorem decode_wellFormed {c : Command} {i : Instr} (h : decode c = .ok i) : i.WellFormed := by
  unfold decode at h
  split at h
  · cases h
  · split at h
    · exact decodeBr_wellFormed h
    · exact decodeBw_wellFormed h
    · exact decodeCra_wellFormed h
    · exact decodeCwa_wellFormed h

end Sys2Proof
end

section
/-! PROOFS. The invariant of the read channel under every operation and body of `BR` and `CRA` (rules R27, R43, R45). -/

namespace Sys2Proof.Machine

/-! ## Mark stacks (rules R26 to R28, R180, R181) -/

/-- A stack stays right while the position moves to where no entry lies beyond it. -/
theorem MarksInv.move {marks : List Mark} {depth cur cur' : Nat} (h : MarksInv marks depth cur)
    (hle : ∀ e ∈ marks, e.mbyte ≤ cur') : MarksInv marks depth cur' := ⟨h.depth_le, hle, h.sorted⟩

theorem MarksInv.mono {marks : List Mark} {depth cur cur' : Nat} (h : MarksInv marks depth cur) (hle : cur ≤ cur') :
    MarksInv marks depth cur' := h.move fun e he => (h.le_cur e he).trans hle

/-- MARK of the position itself, while the stack is not full. -/
theorem MarksInv.push {marks : List Mark} {depth cur : Nat} (h : MarksInv marks depth cur)
    (hroom : marks.length ≠ depth) (bit : Fin 8) : MarksInv (marks ++ [⟨cur, bit⟩]) depth cur where
  depth_le := by
    have := h.depth_le
    simp only [List.length_append, List.length_singleton]
    omega
  le_cur e he := by
    rcases List.mem_append.1 he with he | he
    · exact h.le_cur e he
    · exact Nat.le_of_eq (congrArg Mark.mbyte (List.mem_singleton.1 he))
  sorted := by
    refine List.pairwise_append.2 ⟨h.sorted, List.pairwise_singleton _ _, fun a ha b hb => ?_⟩
    rw [List.mem_singleton.1 hb]
    exact h.le_cur a ha

theorem MarksInv.pop {marks : List Mark} {depth cur : Nat} (h : MarksInv marks depth cur) :
    MarksInv marks.dropLast depth cur where
  depth_le := by
    have := h.depth_le
    rw [List.length_dropLast]
    omega
  le_cur e he := h.le_cur e (List.dropLast_subset _ he)
  sorted := h.sorted.sublist (List.dropLast_sublist _)

/-- No entry lies beyond the top one. -/
theorem MarksInv.le_top {marks : List Mark} {depth cur : Nat} (h : MarksInv marks depth cur) {top : Mark}
    (htop : topMark marks = some top) : ∀ e ∈ marks, e.mbyte ≤ top.mbyte := by
  obtain ⟨rest, rfl⟩ := List.getLast?_eq_some_iff.1 htop
  intro e he
  rcases List.mem_append.1 he with he | he
  · exact (List.pairwise_append.1 h.sorted).2.2 e he top (List.mem_singleton_self top)
  · rw [List.mem_singleton.1 he]

/-! ## The invariant of `CRA` (rules R43, R45, R260 to R263) -/

theorem CraInv.congr {s t : State} (h : CraInv s) (hraw : t.rawIn = s.rawIn) (hcra : t.cra = s.cra) : CraInv t where
  direction := hcra ▸ h.direction
  start_le := hcra ▸ h.start_le
  length_le := by rw [hcra, hraw]; exact h.length_le
  pos_le := hcra ▸ h.pos_le
  blk_le := hcra ▸ h.blk_le
  cache := (State.cacheOk_congr hraw hcra).2 h.cache

theorem CraInv.setPos {s : State} (h : CraInv s) {p : Nat} (hp : p ≤ Config.posMax) :
    CraInv (s.setCra { s.cra with pos := p }) :=
  ⟨h.direction, h.start_le, h.length_le, hp, h.blk_le, h.cache⟩

theorem CraInv.raise {s : State} (h : CraInv s) (code : Err) : CraInv (raise .cra code s) :=
  ⟨h.direction, h.start_le, h.length_le, h.pos_le, h.blk_le, h.cache⟩

theorem craLoad_inv {b : Nat} {s : State} (h : CraInv s) (hb : b ≤ Config.posMax >>> 3) : CraInv (craLoad b s).2 where
  direction := by simpa using h.direction
  start_le := by simpa using h.start_le
  length_le := by simpa using h.length_le
  pos_le := by simpa using h.pos_le
  blk_le := by
    rcases craLoad_cases b h.cache with ⟨-, -, -, -, hblk, -⟩ | ⟨-, -, -, -, hblk⟩
    · exact hblk.trans_le hb
    · exact hblk.trans_le h.blk_le
  cache := craLoad_cacheOk b h.cache

/-- A read moves the position no further than the length, which the input bounds (rule R261). -/
theorem craReadCore_inv (n : Nat) {s : State} (h : CraInv s) (hraw : s.rawIn.length ≤ Config.posMax) :
    CraInv (craReadCore n s).2 := by
  induction n generalizing s with
  | zero => exact h
  | succ n ih =>
    unfold craReadCore
    by_cases hp : s.cra.pos < s.cra.length
    · rw [if_pos hp]
      dsimp only
      have hlen := h.length_le
      have hld : CraInv (craLoad (s.cra.pos >>> 3) s).2 :=
        craLoad_inv h (by simp only [Nat.shiftRight_eq_div_pow]; exact Nat.div_le_div_right h.pos_le)
      split
      · exact ih (hld.setPos (by rw [craLoad_cra_pos]; omega)) (by simpa using hraw)
      · exact hld
    · rw [if_neg hp]
      exact h

theorem craSeekCore_inv (o : Origin) (off : Int) {s : State} (h : CraInv s) : CraInv (craSeekCore o off s).2 := by
  rcases craSeekCore_cases o off s with ⟨hlo, hhi, heq⟩ | ⟨-, heq⟩
  · rw [heq]
    exact h.setPos (by omega)
  · rw [heq]
    exact h.raise _

theorem dsrSeek_craInv (off : Nat) {s : State} (h : CraInv s) : CraInv (dsrSeek off s).2 := by
  unfold dsrSeek
  split
  · exact h.congr rfl rfl
  · split
    · exact h
    · exact h
    · exact (craSeekCore_inv .seekSet off h).congr rfl rfl

theorem dsrRead_craInv (n : Nat) {s : State} (h : CraInv s) (hraw : s.rawIn.length ≤ Config.posMax) :
    CraInv (dsrRead n s).2 := by
  unfold dsrRead
  split
  · exact h.congr rfl rfl
  · split
    · exact h
    · exact h
    · exact (craReadCore_inv n h hraw).congr rfl rfl

theorem brFillLoop_craInv (fuel : Nat) {s : State} (h : CraInv s) (hraw : s.rawIn.length ≤ Config.posMax) :
    CraInv (brFillLoop fuel s) := by
  induction fuel generalizing s with
  | zero => exact h
  | succ fuel ih =>
    have hrd := dsrRead_craInv (s.cfg.cR - s.br.fill) h hraw
    unfold brFillLoop
    split
    · exact h
    · dsimp only
      split
      · exact hrd
      · exact ih (hrd.congr rfl rfl) (by simpa using hraw)

theorem brFill_craInv {s : State} (h : CraInv s) (hraw : s.rawIn.length ≤ Config.posMax) : CraInv (brFill s) := by
  have hsk : CraInv (dsrSeek (s.br.shifted.pos + s.br.shifted.fill) (s.setBr s.br.shifted)).2 :=
    dsrSeek_craInv _ (h.congr rfl rfl)
  unfold brFill
  dsimp only
  split
  · exact hsk.congr rfl rfl
  · exact brFillLoop_craInv _ hsk (by simpa using hraw)

/-! ## The read side: `BR`, `CRA` and `RAW_IN` -/

/-- The part of the invariant that speaks of the read channel (rule R88). -/
structure ReadInv (s : State) : Prop where
  cfg_wf : s.cfg.wf
  rawIn_wf : s.rawIn.wf
  rawIn_length : s.rawIn.length ≤ Config.posMax
  br : BrInv s
  cra : CraInv s

theorem Inv.readInv {s : State} (h : Inv s) : ReadInv s :=
  ⟨h.launch.cfg_wf, h.launch.rawIn_wf, h.launch.rawIn_length, h.br, h.cra⟩

theorem BrInv.congr {s t : State} (h : BrInv s) (hcfg : t.cfg = s.cfg) (hraw : t.rawIn = s.rawIn) (hbr : t.br = s.br) :
    BrInv t := by
  cases s
  cases t
  dsimp only at hcfg hraw hbr
  subst hcfg hraw hbr
  exact ⟨h.buf_length, h.idx_le_fill, h.fill_le_cap, h.reach, h.marks, h.raw_length, h.raw_coherent⟩

theorem ReadInv.congr {s t : State} (h : ReadInv s) (hcfg : t.cfg = s.cfg) (hraw : t.rawIn = s.rawIn)
    (hbr : t.br = s.br) (hcra : t.cra = s.cra) : ReadInv t :=
  ⟨hcfg ▸ h.cfg_wf, hraw ▸ h.rawIn_wf, hraw ▸ h.rawIn_length, h.br.congr hcfg hraw hbr, h.cra.congr hraw hcra⟩

/-- An operation of `CRA` that keeps the invariant of `CRA` keeps that of the read side. -/
theorem ReadInv.of_cra {s t : State} (h : ReadInv s) (hcfg : t.cfg = s.cfg) (hraw : t.rawIn = s.rawIn)
    (hbr : t.br = s.br) (hcra : CraInv t) : ReadInv t :=
  ⟨hcfg ▸ h.cfg_wf, hraw ▸ h.rawIn_wf, hraw ▸ h.rawIn_length, h.br.congr hcfg hraw hbr, hcra⟩

theorem ReadInv.brOk {s : State} (h : ReadInv s) : BrOk s where
  capacity := h.cfg_wf.1
  buf_length := h.br.buf_length
  idx_le := h.br.idx_le_fill
  fill_le := h.br.fill_le_cap
  reach := h.br.reach
  raw_wf := h.rawIn_wf
  raw_le := h.rawIn_length
  length_le := (h.cra.length_le.trans (Nat.sub_le _ _)).trans h.rawIn_length
  cache := h.cra.cache

theorem BrInv.withinSource {s : State} (h : BrInv s) (hs : s.cfg.brSrc = .raw) : s.withinSource := by
  simpa [State.withinSource, State.downstreamLength, hs] using h.raw_length hs

/-- Over `RAW_IN` the buffer holds what the stream holds there, so `BR` delivers the stream (rule R362). -/
theorem BrInv.brByte_of_raw {s : State} (h : BrInv s) (hs : s.cfg.brSrc = .raw) : s.brByte = s.rawIn.read? := by
  have hslice := h.raw_coherent hs
  have hlen : (sliceBytes s.br.buf 0 s.br.fill).length = s.br.fill :=
    sliceBytes_length _ _ _ (by rw [h.buf_length]; simpa using h.fill_le_cap)
  funext p
  unfold State.brByte
  split
  · next hp =>
    have hj : p - s.br.pos < s.br.fill := by omega
    calc s.br.buf[p - s.br.pos]?
        = (sliceBytes s.br.buf 0 s.br.fill)[p - s.br.pos]? := by rw [sliceBytes_getElem? _ _ _ hj, Nat.zero_add]
      _ = (takeBytes s.rawIn.read? s.br.pos s.br.fill)[p - s.br.pos]? := by rw [hslice, Memory.slice_eq_takeBytes]
      _ = s.rawIn.read? (s.br.pos + (p - s.br.pos)) :=
          takeBytes_getElem? _ _ _ (by rw [← Memory.slice_eq_takeBytes, ← hslice, hlen]; exact hj)
      _ = s.rawIn.read? p := by rw [show s.br.pos + (p - s.br.pos) = p by omega]
  · simp only [State.srcByte, hs]

/-- Over `RAW_IN` the bytes to come are those of the stream from the cursor on. -/
theorem BrInv.unread_of_raw {s : State} (h : BrInv s) (hs : s.cfg.brSrc = .raw) (n : Nat) :
    s.unread n = s.rawIn.slice s.br.cur n := by
  rw [State.unread, h.brByte_of_raw hs, Memory.slice_eq_takeBytes]

/-- `Fill` (rule R161) keeps the invariant of the read side. -/
theorem brFill_readInv {s : State} (h : ReadInv s) : ReadInv (brFill s) := by
  have hr := brFill_spec h.brOk
  have hcur : (brFill s).br.cur = s.br.cur := by rw [Br.cur, hr.pos, hr.idx, Nat.add_zero]
  refine ⟨by simpa using h.cfg_wf, by simpa using h.rawIn_wf, by simpa using h.rawIn_length,
    ⟨hr.ok.buf_length, hr.ok.idx_le, hr.ok.fill_le, hr.ok.reach, ?_, fun hs => ?_, fun hs => ?_⟩,
    brFill_craInv h.cra h.rawIn_length⟩
  · simpa [hcur] using h.br.marks
  · have hraw : s.cfg.brSrc = .raw := by simpa using hs
    have hw := brFill_withinSource h.brOk (h.br.withinSource hraw)
    simpa [State.withinSource, State.downstreamLength, hraw] using hw
  · have hun := h.br.unread_of_raw (by simpa using hs) s.cfg.cR
    rw [hr.buf, hr.pos, hr.fill, hun]
    simp only [brFill_frame, Memory.slice_eq_takeBytes]
    rw [← takeBytes_take _ _ (takeBytes_length_le _ _ _), List.take_length]

/-- A change of `BR` that leaves its buffer where it is keeps the invariant of the read side, when the index stays in the
buffer and no mark lies beyond the position. -/
theorem ReadInv.setBr {s : State} (h : ReadInv s) {u : Br} (hpos : u.pos = s.br.pos) (hfill : u.fill = s.br.fill)
    (hbuf : u.buf = s.br.buf) (hidx : u.idx ≤ s.br.fill) (hmarks : MarksInv u.marks s.cfg.markDepth u.cur) :
    ReadInv (s.setBr u) := by
  refine ⟨h.cfg_wf, h.rawIn_wf, h.rawIn_length, ⟨?_, ?_, ?_, ?_, hmarks, fun hs => ?_, fun hs => ?_⟩,
    h.cra.congr rfl rfl⟩
  · simpa [hbuf] using h.br.buf_length
  · simpa [hfill] using hidx
  · simpa [hfill] using h.br.fill_le_cap
  · simpa [hpos, hfill] using h.br.reach
  · simpa [hpos, hfill] using h.br.raw_length hs
  · simpa [hpos, hfill, hbuf] using h.br.raw_coherent hs

/-- The cursor moves forward inside the buffer. -/
theorem ReadInv.advance {s : State} (h : ReadInv s) {i : Nat} (hle : s.br.idx ≤ i) (hi : i ≤ s.br.fill) (bit : Fin 8) :
    ReadInv (s.setBr { s.br with idx := i, bit := bit }) :=
  h.setBr rfl rfl rfl hi (h.br.marks.mono (Nat.add_le_add_left hle _))

theorem ReadInv.raiseBr {s : State} (h : ReadInv s) (code : Err) : ReadInv (raise .br code s) :=
  h.setBr rfl rfl rfl h.br.idx_le_fill h.br.marks

/-- The buffer discarded for a position that no mark lies beyond (rule R165). -/
theorem ReadInv.discard {s : State} (h : ReadInv s) {tb : Nat} (htb : tb ≤ Config.posMax)
    (hmarks : ∀ e ∈ s.br.marks, e.mbyte ≤ tb) (bit : Fin 8) :
    ReadInv (s.setBr { s.br with pos := tb, idx := 0, fill := 0, bit := bit }) where
  cfg_wf := h.cfg_wf
  rawIn_wf := h.rawIn_wf
  rawIn_length := h.rawIn_length
  br :=
    { buf_length := h.br.buf_length
      idx_le_fill := Nat.le_refl 0
      fill_le_cap := Nat.zero_le _
      reach := htb
      marks := h.br.marks.move hmarks
      raw_length := fun _ => Nat.le_max_left _ _
      raw_coherent := fun _ => rfl }
  cra := h.cra.congr rfl rfl

/-! ### The shared operations of `BR` -/

theorem brEnsure_readInv {nb : Nat} {s : State} (h : ReadInv s) : ReadInv (brEnsure nb s).2 := by
  unfold brEnsure
  dsimp only
  split
  · exact brFill_readInv h
  · exact h

/-- A positive answer of `Ensure` says that the bytes are in the buffer (rule R162). -/
theorem brEnsure_true {nb : Nat} {s : State} (h : (brEnsure nb s).1 = true) :
    (brEnsure nb s).2.br.idx + nb ≤ (brEnsure nb s).2.br.fill := by
  unfold brEnsure at h ⊢
  exact of_decide_eq_true h

theorem brRefill_readInv {s : State} (h : ReadInv s) : ReadInv (brRefill s) := by
  unfold brRefill
  split
  · exact brFill_readInv h
  · exact h

theorem brPeekBits_readInv {n : Nat} {s : State} (h : ReadInv s) : ReadInv (brPeekBits n s).2 := by
  unfold brPeekBits
  dsimp only
  split
  · exact brEnsure_readInv h
  · exact (brEnsure_readInv h).raiseBr _

/-- A field that was found lies in the buffer (rule R163). -/
theorem brPeekBits_isSome {n v : Nat} {s : State} (h : (brPeekBits n s).1 = some v) :
    (brPeekBits n s).2.br.idx + bytesTouched s.br.bit n ≤ (brPeekBits n s).2.br.fill := by
  unfold brPeekBits at h ⊢
  dsimp only at h ⊢
  split at h
  · next hen =>
    rw [if_pos hen]
    exact brEnsure_true hen
  · cases h

theorem Br.advanceBits_idx (u : Br) (n : Nat) : (u.advanceBits n).idx = u.idx + (u.bit.val + n) / 8 := by
  simp only [Br.advanceBits, Nat.shiftRight_eq_div_pow]
  omega

theorem brReadBits_readInv {n : Nat} {f : Nat → Word64} {s : State} (h : ReadInv s) : ReadInv (brReadBits n f s) := by
  have hpk := brPeekBits_readInv (n := n) h
  unfold brReadBits
  dsimp only
  split
  · exact hpk
  · next v hv =>
    have hin := brPeekBits_isSome hv
    have hidx := (brPeekBits n s).2.br.advanceBits_idx n
    have hbit : (brPeekBits n s).2.br.bit = s.br.bit := by simp
    have htouched : (s.br.bit.val + n) / 8 ≤ bytesTouched s.br.bit n := by
      rw [bytesTouched, Nat.shiftRight_eq_div_pow]
      omega
    rw [hbit] at hidx
    exact (hpk.advance (by omega) (by omega) _).congr rfl rfl rfl rfl

theorem brReadLE_readInv {k : Nat} {s : State} (h : ReadInv s) : ReadInv (brReadLE k s).2 := by
  have hen := brEnsure_readInv (nb := k) h
  unfold brReadLE
  dsimp only
  split
  · next hk => exact hen.advance (Nat.le_add_right _ _) (brEnsure_true hk) _
  · exact hen.raiseBr _

theorem finishRead_readInv {f : Nat → Word64} {rd : Option Nat × State} (h : ReadInv rd.2) :
    ReadInv (finishRead f rd) := by
  unfold finishRead
  split
  · exact h
  · exact h.congr rfl rfl rfl rfl

/-- A reposition keeps the invariant when no mark lies beyond its target (rules R27, R165). -/
theorem brReposition_readInv {tb : Nat} {tbit : Fin 8} {s : State} (h : ReadInv s)
    (hmarks : ∀ e ∈ s.br.marks, e.mbyte ≤ tb) : ReadInv (brReposition tb tbit s) := by
  rcases Nat.lt_or_ge Config.posMax tb with htb | htb
  · rw [brReposition_beyond htb]
    exact h.raiseBr _
  · by_cases hin : s.br.pos ≤ tb ∧ tb ≤ s.br.pos + s.br.fill
    · rw [brReposition_inside htb hin.1 hin.2]
      refine h.setBr rfl rfl rfl (by dsimp only; omega) (h.br.marks.move fun e he => ?_)
      have := hmarks e he
      simp only [Br.cur]
      omega
    · rw [brReposition, if_neg (by omega), if_neg hin]
      exact brFill_readInv (h.discard htb hmarks tbit)

/-- A reposition forward keeps the invariant. -/
theorem brReposition_readInv_of_le {tb : Nat} {tbit : Fin 8} {s : State} (h : ReadInv s) (hle : s.br.cur ≤ tb) :
    ReadInv (brReposition tb tbit s) :=
  brReposition_readInv h fun e he => (h.br.marks.le_cur e he).trans hle

theorem brReadLoop_readInv (fuel : Nat) {want : Nat} {s : State} (h : ReadInv s) :
    ReadInv (brReadLoop fuel want s).2 := by
  induction fuel generalizing want s with
  | zero => exact h
  | succ fuel ih =>
    have hrf := brRefill_readInv h
    unfold brReadLoop
    split
    · exact h
    · dsimp only
      split
      · exact hrf
      · exact ih (hrf.advance (Nat.le_add_right _ _) (by omega) _)

theorem brReadBytesCore_readInv {want : Nat} {s : State} (h : ReadInv s) : ReadInv (brReadBytesCore want s).2 := by
  have hrd := brReadLoop_readInv want (want := want) h
  unfold brReadBytesCore
  dsimp only
  split
  · exact hrd.raiseBr _
  · exact hrd

theorem brStrLoop_readInv (rounds : Nat) {s : State} (h : ReadInv s) : ReadInv (brStrLoop rounds s).2 := by
  induction rounds generalizing s with
  | zero => exact h
  | succ rounds ih =>
    have hrf := brRefill_readInv h
    unfold brStrLoop
    dsimp only
    split
    · exact hrf
    · next hlt =>
      have hadv := hrf.advance (Nat.le_add_right (brRefill s).br.idx 1) (by omega) (brRefill s).br.bit
      split
      · exact hadv
      · exact ih hadv

/-! ### The bodies of the read channel -/

theorem brInit_readInv {s : State} (h : ReadInv s) : ReadInv (brInit s) where
  cfg_wf := h.cfg_wf
  rawIn_wf := h.rawIn_wf
  rawIn_length := h.rawIn_length
  br :=
    { buf_length := List.length_replicate
      idx_le_fill := Nat.le_refl 0
      fill_le_cap := Nat.zero_le _
      reach := Nat.zero_le _
      marks := .nil _ _
      raw_length := fun _ => Nat.zero_le _
      raw_coherent := fun _ => rfl }
  cra := h.cra.congr rfl rfl

/-- Every body of `BR` keeps the invariant of the read side. -/
theorem bodyOf_readInv_of_br {i : Instr} (hu : i.unit = .br) {s : State} (h : ReadInv s) : ReadInv (bodyOf i s) := by
  cases i with
  | brInit => exact brInit_readInv h
  | brRelease => exact h.setBr rfl rfl rfl h.br.idx_le_fill h.br.marks
  | brGetError => exact h.congr rfl rfl rfl rfl
  | brReadUbits n | brReadSbits n => exact brReadBits_readInv h
  | brScanUbits n | brScanSbits n => exact finishRead_readInv (brPeekBits_readInv h)
  | brReadU8 | brReadS8 | brReadU16 | brReadS16 | brReadU32 | brReadS32 => exact finishRead_readInv (brReadLE_readInv h)
  | brAlign =>
    simp only [bodyOf, brAlign]
    split
    · exact h
    · exact brReposition_readInv_of_le h (Nat.le_add_right _ _)
  | brSkip cnt => exact brReposition_readInv_of_le h (Nat.le_add_right _ _)
  | brSkipBits cnt =>
    refine brReposition_readInv_of_le h ?_
    rw [Nat.shiftRight_eq_div_pow]
    omega
  | brMark =>
    simp only [bodyOf, brMark]
    split
    · exact h.raiseBr _
    · next hroom => exact h.setBr rfl rfl rfl h.br.idx_le_fill (h.br.marks.push hroom _)
  | brUnmark =>
    simp only [bodyOf, brUnmark]
    split
    · exact h.raiseBr _
    · exact h.setBr rfl rfl rfl h.br.idx_le_fill h.br.marks.pop
  | brReset =>
    simp only [bodyOf, brReset]
    split
    · next hnone =>
      rw [topMark, List.getLast?_eq_none_iff] at hnone
      exact brReposition_readInv h (by simp [hnone])
    · next top htop => exact brReposition_readInv h (h.br.marks.le_top htop)
  | brCheck expected =>
    simp only [bodyOf, brCheck]
    split
    · exact h.raiseBr _
    · exact h.congr rfl rfl rfl rfl
  | brBytesRead =>
    simp only [bodyOf, brBytesRead]
    split
    · exact h.raiseBr _
    · exact h.congr rfl rfl rfl rfl
  | brReadBytes cnt | brReadStrFixed cnt => exact (brReadBytesCore_readInv h).congr rfl rfl rfl rfl
  | brReadStrNul => exact (brStrLoop_readInv _ h).congr rfl rfl rfl rfl
  | _ => cases hu

/-- CRA.INIT with a legal start: the stream's length is what the input holds from there on (rule R260). -/
theorem craInit_craInv {own : Bool} {key req start : Word64} {s : State} (hstart : legalStart start) :
    CraInv (craInit own key req start s) where
  direction := rfl
  start_le := hstart
  length_le := Nat.min_le_right _ _
  pos_le := Nat.zero_le _
  blk_le := Nat.zero_le _
  cache h := nomatch h

/-- Every body of `CRA` keeps the invariant of `CRA`. -/
theorem bodyOf_craInv {i : Instr} (hu : i.unit = .cra) (hw : i.WellFormed) {s : State} (h : CraInv s)
    (hraw : s.rawIn.length ≤ Config.posMax) : CraInv (bodyOf i s) := by
  cases i with
  | craInit own key req start => exact craInit_craInv hw
  | craRelease =>
    simp only [bodyOf, craRelease]
    split <;> exact ⟨h.direction, h.start_le, h.length_le, h.pos_le, h.blk_le, h.cache⟩
  | craGetError | craTell | craEof => exact h.congr rfl rfl
  | craRead cnt => exact (craReadCore_inv _ h hraw).congr rfl rfl
  | craSeek origin off => exact (craSeekCore_inv _ _ h).congr rfl rfl
  | _ => cases hu

end Sys2Proof.Machine
end

section
/-! PROOFS. The invariant of the write channel under every operation and body of `BW` and `CWA` (rules R29, R49). -/

namespace Sys2Proof.Machine

/-! ## The write side: `BW`, `CWA` and `RAW_OUT` -/

/-- The part of the invariant that speaks of `CWA` and `RAW_OUT`: the downstream of `BW`. -/
structure SinkInv (s : State) : Prop where
  cfg_wf : s.cfg.wf
  rawOut_wf : s.rawOut.wf
  cwa : CwaInv s

theorem CwaInv.congr {s t : State} (h : CwaInv s) (hcfg : t.cfg = s.cfg) (hcwa : t.cwa = s.cwa) : CwaInv t where
  direction := hcwa ▸ h.direction
  wbuf_length := by rw [hcfg, hcwa]; exact h.wbuf_length
  nbuf_le := by rw [hcfg, hcwa]; exact h.nbuf_le
  between_flushes := by rw [hcfg, hcwa]; exact h.between_flushes
  sealed_empty := by rw [hcwa]; exact h.sealed_empty

theorem SinkInv.congr {s t : State} (h : SinkInv s) (hcfg : t.cfg = s.cfg) (hout : t.rawOut = s.rawOut)
    (hcwa : t.cwa = s.cwa) : SinkInv t :=
  ⟨hcfg ▸ h.cfg_wf, hout ▸ h.rawOut_wf, h.cwa.congr hcfg hcwa⟩

theorem SinkInv.capacity {s : State} (h : SinkInv s) : 8 ≤ s.cfg.cCW ∧ s.cfg.cCW % 8 = 0 :=
  have ⟨_, _, hcap, hmul, _⟩ := h.cfg_wf
  ⟨hcap, hmul⟩

theorem SinkInv.sinkOk {s : State} (h : SinkInv s) : SinkOk s :=
  ⟨h.capacity.2, h.cwa.wbuf_length, h.cwa.between_flushes⟩

/-- Bytes sent to `RAW_OUT` keep its canonical form (rule R77). -/
theorem SinkInv.rawOutWrite {s : State} (h : SinkInv s) (l : List Byte) : SinkInv (rawOutWrite l s).2 :=
  ⟨h.cfg_wf, Memory.append_wf h.rawOut_wf l, h.cwa.congr rfl rfl⟩

/-- An error ends what rule R49 says between flushes. -/
theorem SinkInv.raiseCwa {s : State} (h : SinkInv s) {code : Err} (hc : code ≠ .noError) :
    SinkInv (raise .cwa code s) := by
  have hne : latch s.cwa.err code ≠ .noError := by
    by_cases he : s.cwa.err = .noError
    · simpa [he] using hc
    · simpa [latch_of_ne he] using he
  exact ⟨h.cfg_wf, h.rawOut_wf, h.cwa.direction, h.cwa.wbuf_length, h.cwa.nbuf_le, fun he => absurd he hne,
    fun he => absurd he hne⟩

/-- A flush leaves less than a block unsent, and a final one nothing (rule R290). -/
theorem cwaFlushCore_sinkInv (final : Bool) {s : State} (h : SinkInv s) : SinkInv (cwaFlushCore final s) := by
  have hw : s.cwa.nbuf ≤ s.cwa.wbuf.length := h.cwa.nbuf_le.trans_eq h.cwa.wbuf_length.symm
  obtain ⟨hout, hcwa, -⟩ := cwaFlushCore_spec final hw
  obtain ⟨-, hnbuf, hwbuf⟩ := Cwa.flushed_unsent hw final
  rw [← hcwa] at hnbuf hwbuf
  have hcap := h.capacity.1
  have hlt : (cwaFlushCore final s).cwa.nbuf < 8 := by
    rw [hnbuf]
    split <;> omega
  have hle : (cwaFlushCore final s).cwa.nbuf ≤ s.cwa.nbuf := by
    rw [hnbuf]
    split
    · exact Nat.zero_le _
    · exact Nat.mod_le _ _
  refine ⟨by simpa using h.cfg_wf, hout ▸ Memory.append_wf h.rawOut_wf _, by simpa using h.cwa.direction,
    by simpa [hwbuf] using h.cwa.wbuf_length, ?_, fun _ => ?_, fun he hs => ?_⟩
  · simp only [cwaFlushCore_frame]
    omega
  · simp only [cwaFlushCore_frame]
    omega
  · have := h.cwa.sealed_empty (by rwa [cwaFlushCore_err] at he) (by simpa using hs)
    omega

/-- WRITE's loop from a buffer of an open `CWA` without an error (rule R291). -/
theorem cwaPutBytes_sinkInv (l : List Byte) {s : State} (h : SinkInv s) (he : s.cwa.err = .noError)
    (hopen : s.cwa.sealed = false) : SinkInv (cwaPutBytes l s).2 := by
  have hcap := h.capacity.1
  obtain ⟨-, -, hwbuf, hnbuf, -, hout⟩ :=
    cwaPutBytes_spec l h.cwa.wbuf_length h.capacity.2 (h.cwa.between_flushes he) he
  have hlt : (cwaPutBytes l s).2.cwa.nbuf < s.cfg.cCW := hnbuf ▸ Nat.mod_lt _ (by omega)
  exact ⟨by simpa using h.cfg_wf, hout ▸ Memory.append_wf h.rawOut_wf _, by simpa using h.cwa.direction,
    by simpa using hwbuf, by simpa using hlt.le, fun _ => by simpa using hlt, fun _ hs => by simp [hopen] at hs⟩

theorem cwaWriteCore_sinkInv (l : List Byte) {s : State} (h : SinkInv s) (he : s.cwa.err = .noError) :
    SinkInv (cwaWriteCore l s).2 := by
  unfold cwaWriteCore
  split
  · exact h.raiseCwa (by decide)
  · next hopen => exact cwaPutBytes_sinkInv l h he (by simpa using hopen)

theorem cwaFlushBody_sinkInv {s : State} (h : SinkInv s) : SinkInv (cwaFlushBody s) := by
  unfold cwaFlushBody
  split
  · exact h
  · exact cwaFlushCore_sinkInv false h

/-- `Seal` leaves nothing unsent (rule R293). -/
theorem cwaSealBody_sinkInv {s : State} (h : SinkInv s) : SinkInv (cwaSealBody s) := by
  unfold cwaSealBody
  split
  · exact h
  · have hfl := cwaFlushCore_sinkInv true h
    have hw : s.cwa.nbuf ≤ s.cwa.wbuf.length := h.cwa.nbuf_le.trans_eq h.cwa.wbuf_length.symm
    obtain ⟨-, hcwa, -⟩ := cwaFlushCore_spec true hw
    obtain ⟨-, hnbuf, -⟩ := Cwa.flushed_unsent hw true
    exact ⟨hfl.cfg_wf, hfl.rawOut_wf, hfl.cwa.direction, hfl.cwa.wbuf_length, hfl.cwa.nbuf_le,
      hfl.cwa.between_flushes, fun _ _ => (congrArg Cwa.nbuf hcwa).trans hnbuf⟩

theorem SinkInv.releaseCwa {s : State} (h : SinkInv s) : SinkInv (s.setCwa { s.cwa with live := false }) :=
  ⟨h.cfg_wf, h.rawOut_wf, h.cwa.direction, h.cwa.wbuf_length, h.cwa.nbuf_le, h.cwa.between_flushes,
    h.cwa.sealed_empty⟩

theorem cwaRelease_sinkInv {s : State} (h : SinkInv s) : SinkInv (cwaRelease s) := by
  have hseal : SinkInv (if s.cwa.err = .noError ∧ s.cwa.sealed = false then cwaSealBody s else s) := by
    split
    · exact cwaSealBody_sinkInv h
    · exact h
  unfold cwaRelease
  dsimp only
  generalize (if s.cwa.err = .noError ∧ s.cwa.sealed = false then cwaSealBody s else s) = s1 at hseal ⊢
  split
  · exact (hseal.congr (t := s1.addEvent (.release .rawOut)) rfl rfl rfl).releaseCwa
  · exact hseal.releaseCwa

theorem cwaInit_sinkInv {own : Bool} {key : Word64} {s : State} (h : SinkInv s) : SinkInv (cwaInit own key s) where
  cfg_wf := h.cfg_wf
  rawOut_wf := h.rawOut_wf
  cwa :=
    { direction := rfl
      wbuf_length := List.length_replicate
      nbuf_le := Nat.zero_le _
      between_flushes := fun _ => Nat.lt_of_lt_of_le (Nat.zero_lt_succ 7) h.capacity.1
      sealed_empty := fun _ _ => rfl }

/-- Every body of `CWA` that the command cycle lets run keeps the invariant of `CWA` and `RAW_OUT`. -/
theorem bodyOf_sinkInv {i : Instr} (hu : i.unit = .cwa) {s : State} (h : SinkInv s)
    (he : i.cls = .ordinary → s.cwa.err = .noError) : SinkInv (bodyOf i s) := by
  cases i with
  | cwaInit own key => exact cwaInit_sinkInv h
  | cwaRelease => exact cwaRelease_sinkInv h
  | cwaGetError => exact h.congr rfl rfl rfl
  | cwaWrite p => exact (cwaWriteCore_sinkInv p h (he rfl)).congr rfl rfl rfl
  | cwaFlush => exact cwaFlushBody_sinkInv h
  | cwaSeal => exact cwaSealBody_sinkInv h
  | _ => cases hu

theorem dswWrite_sinkInv (l : List Byte) {s : State} (h : SinkInv s) : SinkInv (dswWrite l s).2 := by
  unfold dswWrite
  split
  · exact h.rawOutWrite l
  · split
    · exact h
    · exact h
    · next hg => exact (cwaWriteCore_sinkInv l h (gate_accepts.1 hg).2).congr rfl rfl rfl

theorem dswFlush_sinkInv {s : State} (h : SinkInv s) : SinkInv (dswFlush s) := by
  unfold dswFlush
  split
  · exact h.congr rfl rfl rfl
  · split
    · exact h
    · exact h
    · exact (cwaFlushBody_sinkInv h).congr rfl rfl rfl

/-! ### `BW` -/

/-- The part of the invariant that speaks of the write channel (rule R88). -/
structure WriteInv (s : State) : Prop where
  sink : SinkInv s
  bw : BwInv s

theorem Inv.writeInv {s : State} (h : Inv s) : WriteInv s := ⟨⟨h.launch.cfg_wf, h.launch.rawOut_wf, h.cwa⟩, h.bw⟩

theorem BwInv.bwBuf {s : State} (h : BwInv s) : BwBuf s.bw s.cfg.cW :=
  ⟨h.buf_length, h.idx_le_cap, h.partial_room, h.zero_after, h.zero_bits⟩

theorem BwInv.of_bwBuf {s : State} (h : BwBuf s.bw s.cfg.cW) (hmarks : MarksInv s.bw.marks s.cfg.markDepth s.bw.cur) :
    BwInv s :=
  ⟨h.length, h.idx_le, h.room, h.after, h.low, hmarks⟩

theorem BwInv.congr {s t : State} (h : BwInv s) (hcfg : t.cfg = s.cfg) (hbw : t.bw = s.bw) : BwInv t :=
  .of_bwBuf (by rw [hcfg, hbw]; exact h.bwBuf) (by rw [hcfg, hbw]; exact h.marks)

theorem WriteInv.capacity {s : State} (h : WriteInv s) : 8 ≤ s.cfg.cW :=
  have ⟨_, hcap, _⟩ := h.sink.cfg_wf
  hcap

theorem WriteInv.congr {s t : State} (h : WriteInv s) (hcfg : t.cfg = s.cfg) (hbw : t.bw = s.bw)
    (hout : t.rawOut = s.rawOut) (hcwa : t.cwa = s.cwa) : WriteInv t :=
  ⟨h.sink.congr hcfg hout hcwa, h.bw.congr hcfg hbw⟩

/-- An operation of the downstream that keeps its invariant keeps that of the write side. -/
theorem WriteInv.of_sink {s t : State} (h : WriteInv s) (hcfg : t.cfg = s.cfg) (hbw : t.bw = s.bw) (hsink : SinkInv t) :
    WriteInv t := ⟨hsink, h.bw.congr hcfg hbw⟩

/-- A change of `BW` that keeps rule R29 and a right mark stack. -/
theorem WriteInv.setBw {s : State} (h : WriteInv s) {u : Bw} (hbuf : BwBuf u s.cfg.cW)
    (hmarks : MarksInv u.marks s.cfg.markDepth u.cur) : WriteInv (s.setBw u) :=
  ⟨h.sink.congr rfl rfl rfl, .of_bwBuf hbuf hmarks⟩

/-- A change of `BW` that keeps rule R29 and the marks, and does not move the position back. -/
theorem WriteInv.advance {s : State} (h : WriteInv s) {u : Bw} (hbuf : BwBuf u s.cfg.cW) (hmarks : u.marks = s.bw.marks)
    (hcur : s.bw.cur ≤ u.cur) : WriteInv (s.setBw u) :=
  h.setBw hbuf (hmarks ▸ h.bw.marks.mono hcur)

/-- Rule R29 speaks of the buffer and the cursor alone. -/
theorem BwBuf.congr {u v : Bw} {cW : Nat} (h : BwBuf u cW) (hbuf : v.buf = u.buf) (hidx : v.idx = u.idx)
    (hbit : v.bit = u.bit) : BwBuf v cW where
  length := hbuf ▸ h.length
  idx_le := hidx ▸ h.idx_le
  room := by rw [hbit, hidx]; exact h.room
  after := by rw [hbuf, hidx]; exact h.after
  low := by rw [hbuf, hidx, hbit]; exact h.low

theorem WriteInv.raiseBw {s : State} (h : WriteInv s) (code : Err) : WriteInv (raise .bw code s) :=
  h.advance (h.bw.bwBuf.congr rfl rfl rfl) rfl (Nat.le_refl _)

theorem bwFlushEnd_writeInv {s : State} (h : WriteInv s) : WriteInv (bwFlushEnd s) := by
  have hfl : WriteInv (dswFlush s) := h.of_sink (by simp) (by simp) (dswFlush_sinkInv h.sink)
  exact hfl.advance (hfl.bw.bwBuf.flushed hfl.capacity) rfl (Nat.le_of_eq (Bw.flushed_cur _ _).symm)

/-- `Flush` (rule R220) keeps the invariant of the write side. -/
theorem bwFlush_writeInv {s : State} (h : WriteInv s) : WriteInv (bwFlush s) := by
  have hwr : WriteInv (dswWrite s.bw.pending s).2 := h.of_sink (by simp) (by simp) (dswWrite_sinkInv _ h.sink)
  unfold bwFlush
  dsimp only
  split
  · exact bwFlushEnd_writeInv h
  · split
    · exact hwr.raiseBw _
    · exact bwFlushEnd_writeInv hwr

/-- After a flush that left no error the buffer is empty but for the partial byte (rule R220). -/
theorem bwFlush_idx {s : State} (h : WriteInv s) (he : (bwFlush s).bw.err = .noError) : (bwFlush s).bw.idx = 0 := by
  by_cases ha : s.sinkAccepts ∨ s.bw.idx + partialByte s.bw.bit = 0
  · obtain ⟨hbw, -⟩ := bwFlush_accepted h.sink.sinkOk h.bw.buf_length h.bw.idx_le_cap h.bw.partial_room ha
    rw [hbw]
    rfl
  · rw [not_or] at ha
    obtain ⟨hbw, -⟩ := bwFlush_refused ha.1 ha.2
    rw [hbw] at he
    by_cases hn : s.bw.err = .noError
    · simp [hn] at he
    · rw [latch_of_ne hn] at he
      exact absurd he hn

/-- What the triggered flush is for (rules R221, R238): unless it left an error, the write has room. -/
theorem bwMakeRoom_room {need : Nat} {s : State} (h : WriteInv s) (hneed : need ≤ s.cfg.cW)
    (he : (bwMakeRoom need s).bw.err = .noError) : (bwMakeRoom need s).bw.idx + need ≤ s.cfg.cW := by
  unfold bwMakeRoom at he ⊢
  split
  · next hfull =>
    rw [if_pos hfull] at he
    rw [bwFlush_idx h he, Nat.zero_add]
    exact hneed
  · omega

theorem bwMakeRoom_writeInv {need : Nat} {s : State} (h : WriteInv s) : WriteInv (bwMakeRoom need s) := by
  unfold bwMakeRoom
  split
  · exact bwFlush_writeInv h
  · exact h

/-- A write that keeps rule R29 where it has room keeps the invariant of the write side (rules R221, R238). -/
theorem bwStore_writeInv {need : Nat} {put : Bw → Bw} {s : State} (h : WriteInv s) (hneed : need ≤ s.cfg.cW)
    (hput : ∀ u, BwBuf u s.cfg.cW → u.bit = s.bw.bit → u.idx + need ≤ s.cfg.cW →
      BwBuf (put u) s.cfg.cW ∧ (put u).marks = u.marks ∧ u.cur ≤ (put u).cur) : WriteInv (bwStore need put s) := by
  have hroom := bwMakeRoom_writeInv (need := need) h
  have hcfg : (bwMakeRoom need s).cfg = s.cfg := by simp
  unfold bwStore
  dsimp only
  split
  · exact hroom
  · next he =>
    obtain ⟨hbuf, hmarks, hcur⟩ := hput _ (hcfg ▸ hroom.bw.bwBuf) (by simp)
      (bwMakeRoom_room h hneed (Classical.not_not.1 he))
    exact hroom.advance (by rw [hcfg]; exact hbuf) hmarks hcur

theorem partialByte_le_one (bit : Fin 8) : partialByte bit ≤ 1 := by
  unfold partialByte
  split <;> omega

@[simp] theorem leBytes_length {w : Nat} (k : Nat) (v : BitVec w) : (leBytes k v).length = k := by simp [leBytes]

theorem Bw.putRun_cur (u : Bw) (l : List Byte) : (u.putRun l).cur = u.cur + l.length := (Nat.add_assoc _ _ _).symm

theorem bwWriteLE_writeInv {w k : Nat} (v : BitVec w) {s : State} (h : WriteInv s) (hk : k < 8) :
    WriteInv (bwWriteLE k v s) := by
  have hcap := h.capacity
  have hpart := partialByte_le_one s.bw.bit
  refine bwStore_writeInv h (by omega) fun u hbuf hbit hroom => ?_
  refine ⟨(Bw.putRun_spec hbuf (leBytes k v) ?_).1, rfl, ?_⟩
  · rw [leBytes_length, hbit]
    omega
  · rw [Bw.putRun_cur]
    exact Nat.le_add_right _ _

/-- WRITE_BITS of a legal count: a field and the bit offset before it fit in five bytes (rules R106 (c), R221). -/
theorem bwWriteBits_writeInv {n : BitVec 6} (v : Word32) {s : State} (h : WriteInv s) (hn : legalWriteCount n) :
    WriteInv (bwWriteBits n v s) := by
  have hcap := h.capacity
  have hbit := s.bw.bit.isLt
  have hn : n.toNat ≤ 32 := hn
  have htouched : bytesTouched s.bw.bit n.toNat = (s.bw.bit.val + n.toNat + 7) / 8 := Nat.shiftRight_eq_div_pow _ 3
  unfold bwWriteBits
  split
  · exact h
  · refine bwStore_writeInv h (by omega) fun u hbuf hu hroom => ?_
    rw [← hu] at htouched hbit
    rw [← hu] at hroom
    obtain ⟨hput, -, hmoved⟩ := Bw.putBits_spec hbuf v n.toNat (by omega)
    have hoff := (u.putBits v n.toNat).bit.isLt
    have hpos : (u.putBits v n.toNat).pos = u.pos := by simp
    refine ⟨hput, by simp, ?_⟩
    simp only [Bw.cur, hpos]
    omega

theorem bwWriteBytesCore_writeInv (l : List Byte) {s : State} (h : WriteInv s) : WriteInv (bwWriteBytesCore l s) := by
  have hfl := bwFlush_writeInv h
  have hwr : WriteInv (dswWrite l (bwFlush s)).2 := hfl.of_sink (by simp) (by simp) (dswWrite_sinkInv _ hfl.sink)
  unfold bwWriteBytesCore
  dsimp only
  split
  · next hfits =>
    exact h.advance (Bw.putRun_spec h.bw.bwBuf l hfits).1 rfl ((Nat.le_add_right _ _).trans_eq (Bw.putRun_cur _ _).symm)
  · split
    · exact hfl
    · split
      · exact hwr.raiseBw _
      · refine hwr.advance (hwr.bw.bwBuf.congr rfl rfl rfl) rfl ?_
        simp only [Bw.cur]
        omega

theorem bwWriteString_writeInv (p : List Byte) {s : State} (h : WriteInv s) : WriteInv (bwWriteString p s) := by
  have hwr := bwWriteBytesCore_writeInv p h
  unfold bwWriteString
  dsimp only
  split
  · exact hwr
  · exact bwWriteLE_writeInv _ hwr (by omega)

/-- Completing the partial byte keeps rule R29: the byte after it is zero (rule R228). -/
theorem BwBuf.align {u : Bw} {cW : Nat} (h : BwBuf u cW) (hbit : u.bit ≠ 0) :
    BwBuf { u with idx := u.idx + 1, bit := 0 } cW where
  length := h.length
  idx_le := h.room hbit
  room hne := absurd rfl hne
  after j hj := h.after j (Nat.lt_of_succ_lt hj)
  low j _ := by
    dsimp only
    rw [h.after _ (Nat.lt_succ_self _)]
    simp

theorem bwInit_writeInv {s : State} (h : WriteInv s) : WriteInv (bwInit s) :=
  h.setBw
    { length := List.length_replicate
      idx_le := Nat.zero_le _
      room := fun hne => absurd rfl hne
      after := fun j _ => byteAt_replicate_zero s.cfg.cW j
      low := fun j _ => by simp }
    (.nil _ _)

/-- Every body of `BW` with legal operands keeps the invariant of the write side. -/
theorem bodyOf_writeInv_of_bw {i : Instr} (hu : i.unit = .bw) (hw : i.WellFormed) {s : State} (h : WriteInv s) :
    WriteInv (bodyOf i s) := by
  have hbuf := h.bw.bwBuf
  cases i with
  | bwInit => exact bwInit_writeInv h
  | bwRelease => exact h.advance (hbuf.congr rfl rfl rfl) rfl (Nat.le_refl _)
  | bwGetError => exact h.congr rfl rfl rfl rfl
  | bwWriteBits n v => exact bwWriteBits_writeInv v h hw
  | bwWriteByte v | bwWriteShort v | bwWriteInt v => exact bwWriteLE_writeInv v h (by decide)
  | bwWriteBytes p => exact bwWriteBytesCore_writeInv p h
  | bwWriteString p => exact bwWriteString_writeInv p h
  | bwAlign =>
    simp only [bodyOf, bwAlign]
    split
    · exact h
    · next hbit => exact h.advance (hbuf.align hbit) rfl (Nat.add_le_add_left (Nat.le_succ _) _)
  | bwFlush => exact bwFlush_writeInv h
  | bwMark =>
    simp only [bodyOf, bwMark]
    split
    · exact h.raiseBw _
    · next hroom => exact h.setBw (hbuf.congr rfl rfl rfl) (h.bw.marks.push hroom _)
  | bwUnmark =>
    simp only [bodyOf, bwUnmark]
    split
    · exact h.raiseBw _
    · exact h.setBw (hbuf.congr rfl rfl rfl) h.bw.marks.pop
  | bwCheck expected =>
    simp only [bodyOf, bwCheck]
    split
    · exact h.raiseBw _
    · exact h.congr rfl rfl rfl rfl
  | _ => cases hu

end Sys2Proof.Machine
end

section
/-! PROOFS. Every step keeps the invariant: each body keeps its own channel's part and leaves the other channel alone (rules
R27, R29, R43, R45, R49, R88, R321). -/

namespace Sys2Proof.Machine

/-! ## What each channel leaves alone (rule R88) -/

@[simp] theorem finishRead_units (f : Nat → Word64) (rd : Option Nat × State) :
    (finishRead f rd).br = rd.2.br ∧ (finishRead f rd).bw = rd.2.bw ∧ (finishRead f rd).cra = rd.2.cra ∧
    (finishRead f rd).cwa = rd.2.cwa ∧ (finishRead f rd).rawOut = rd.2.rawOut := by
  unfold finishRead; split <;> simp

@[simp] theorem brReadBits_writeSide (n : Nat) (f : Nat → Word64) (s : State) :
    (brReadBits n f s).bw = s.bw ∧ (brReadBits n f s).cwa = s.cwa ∧ (brReadBits n f s).rawOut = s.rawOut := by
  unfold brReadBits; dsimp only; split <;> simp

/-- No body of the read channel writes the write side. -/
theorem bodyOf_writeSide {i : Instr} (hu : i.unit = .br ∨ i.unit = .cra) (s : State) :
    SameWriteSide s (bodyOf i s) := by
  have key : (bodyOf i s).bw = s.bw ∧ (bodyOf i s).cwa = s.cwa ∧ (bodyOf i s).rawOut = s.rawOut := by
    cases i with
    | brInit | brRelease | brGetError => simp [bodyOf, brInit, brRelease, brGetError]
    | brReadUbits _ | brReadSbits _ => simp [bodyOf, brReadUbits, brReadSbits]
    | brScanUbits _ | brScanSbits _ => simp [bodyOf, brScanUbits, brScanSbits]
    | brReadU8 | brReadS8 => simp [bodyOf, brReadU8, brReadS8]
    | brReadU16 | brReadS16 => simp [bodyOf, brReadU16, brReadS16]
    | brReadU32 | brReadS32 => simp [bodyOf, brReadU32, brReadS32]
    | brAlign => simp only [bodyOf, brAlign]; split <;> simp
    | brSkip _ | brSkipBits _ => simp [bodyOf, brSkip, brSkipBits]
    | brMark => simp only [bodyOf, brMark]; split <;> simp
    | brUnmark => simp only [bodyOf, brUnmark]; split <;> simp
    | brReset => simp only [bodyOf, brReset]; split <;> simp
    | brCheck _ => simp only [bodyOf, brCheck]; split <;> simp
    | brBytesRead => simp only [bodyOf, brBytesRead]; split <;> simp
    | brReadBytes _ | brReadStrFixed _ | brReadStrNul => simp [bodyOf, brReadBytes, brReadStrFixed, brReadStrNul]
    | craInit _ _ _ _ | craGetError | craTell | craEof => simp [bodyOf, craInit, craGetError, craTell, craEof]
    | craRelease => simp only [bodyOf, craRelease]; split <;> simp
    | craRead _ | craSeek _ _ => simp [bodyOf, craRead, craSeek]
    | _ => simp [Instr.unit] at hu
  obtain ⟨hbw, hcwa, hout⟩ := key
  exact ⟨hbw, hcwa, hout⟩

/-- No body of the write channel writes the read side. -/
theorem bodyOf_readSide {i : Instr} (hu : i.unit = .bw ∨ i.unit = .cwa) (s : State) : SameReadSide s (bodyOf i s) := by
  have key : (bodyOf i s).br = s.br ∧ (bodyOf i s).cra = s.cra ∧ (bodyOf i s).rc = s.rc := by
    cases i with
    | bwInit | bwRelease | bwGetError => simp [bodyOf, bwInit, bwRelease, bwGetError]
    | bwWriteByte _ | bwWriteShort _ | bwWriteInt _ => simp [bodyOf, bwWriteByte, bwWriteShort, bwWriteInt]
    | bwWriteBits _ _ | bwWriteBytes _ | bwWriteString _ | bwFlush => simp [bodyOf, bwWriteBytes]
    | bwAlign => simp only [bodyOf, bwAlign]; split <;> simp
    | bwMark => simp only [bodyOf, bwMark]; split <;> simp
    | bwUnmark => simp only [bodyOf, bwUnmark]; split <;> simp
    | bwCheck _ => simp only [bodyOf, bwCheck]; split <;> simp
    | cwaInit _ _ | cwaGetError => simp [bodyOf, cwaInit, cwaGetError]
    | cwaRelease =>
      simp only [bodyOf, cwaRelease]
      split
      · split <;> simp
      · split <;> simp
    | cwaWrite _ | cwaFlush | cwaSeal => simp [bodyOf, cwaWrite]
    | _ => simp [Instr.unit] at hu
  obtain ⟨hbr, hcra, hrc⟩ := key
  exact ⟨hbr, hcra, hrc⟩

/-- A body of `CRA` leaves `BR` alone (rule R88). -/
theorem bodyOf_br_of_cra {i : Instr} (hu : i.unit = .cra) (s : State) : (bodyOf i s).br = s.br := by
  cases i with
  | craInit _ _ _ _ | craGetError | craTell | craEof => rfl
  | craRelease => simp only [bodyOf, craRelease]; split <;> rfl
  | craRead _ | craSeek _ _ => simp [bodyOf, craRead, craSeek]
  | _ => cases hu

/-- A body of `CWA` leaves `BW` alone (rule R88). -/
theorem bodyOf_bw_of_cwa {i : Instr} (hu : i.unit = .cwa) (s : State) : (bodyOf i s).bw = s.bw := by
  cases i with
  | cwaInit _ _ | cwaGetError => rfl
  | cwaRelease =>
    simp only [bodyOf, cwaRelease]
    split
    · split <;> simp
    · split <;> rfl
  | cwaWrite _ | cwaFlush | cwaSeal => simp [bodyOf, cwaWrite]
  | _ => cases hu

/-- INIT alone sets the length of the plaintext stream (rule R260). -/
theorem bodyOf_cra_length {i : Instr} (hu : i.unit = .cra) (hi : i.cls ≠ .init) (s : State) :
    (bodyOf i s).cra.length = s.cra.length := by
  cases i with
  | craInit _ _ _ _ => exact absurd rfl hi
  | craGetError | craTell | craEof => rfl
  | craRelease => simp only [bodyOf, craRelease]; split <;> rfl
  | craRead _ | craSeek _ _ => simp [bodyOf, craRead, craSeek]
  | _ => cases hu

/-! ## Every step keeps the invariant -/

theorem OnlyRaises.errorsInv {s t : State} (h : OnlyRaises s t) (hs : ErrorsInv s) : ErrorsInv t := by
  intro u
  rcases h u with heq | ⟨-, hmem⟩
  · rw [heq]
    exact hs u
  · exact hmem

/-- Every body keeps every latch to the codes of its unit (rule R321). -/
theorem bodyOf_errorsInv (i : Instr) {s : State} (h : ErrorsInv s) : ErrorsInv (bodyOf i s) := by
  by_cases hi : i.cls = .init
  · intro u
    rw [bodyOf_init_errOf hi]
    split
    · cases u <;> exact List.mem_cons_self
    · exact h u
  · exact (bodyOf_onlyRaises hi s).errorsInv h

theorem bodyOf_readInv {i : Instr} (hw : i.WellFormed) {s : State} (h : ReadInv s) : ReadInv (bodyOf i s) := by
  obtain ⟨hcfg, hraw, -⟩ := bodyOf_launch i s
  cases hu : i.unit with
  | br => exact bodyOf_readInv_of_br hu h
  | cra => exact h.of_cra hcfg hraw (bodyOf_br_of_cra hu s) (bodyOf_craInv hu hw h.cra h.rawIn_length)
  | bw =>
    have hside := bodyOf_readSide (.inl hu) s
    exact h.congr hcfg hraw hside.br hside.cra
  | cwa =>
    have hside := bodyOf_readSide (.inr hu) s
    exact h.congr hcfg hraw hside.br hside.cra

theorem bodyOf_writeInv {i : Instr} (hw : i.WellFormed) {s : State} (h : WriteInv s)
    (he : i.cls = .ordinary → s.errOf i.unit = .noError) : WriteInv (bodyOf i s) := by
  obtain ⟨hcfg, -⟩ := bodyOf_launch i s
  cases hu : i.unit with
  | bw => exact bodyOf_writeInv_of_bw hu hw h
  | cwa =>
    rw [hu] at he
    exact h.of_sink hcfg (bodyOf_bw_of_cwa hu s) (bodyOf_sinkInv hu h.sink he)
  | br =>
    have hside := bodyOf_writeSide (.inl hu) s
    exact h.congr hcfg hside.bw hside.rawOut hside.cwa
  | cra =>
    have hside := bodyOf_writeSide (.inr hu) s
    exact h.congr hcfg hside.bw hside.rawOut hside.cwa

/-- The invariant is that of its two channels, the host's index within the list, and the latches'. -/
theorem Inv.of_channels {s : State} (hr : ReadInv s) (hw : WriteInv s) (hpc : s.pc ≤ s.cmds.length)
    (he : ErrorsInv s) : Inv s where
  launch := ⟨hr.cfg_wf, hr.rawIn_wf, hw.sink.rawOut_wf, hr.rawIn_length, hpc⟩
  br := hr.br
  bw := hw.bw
  cra := hr.cra
  cwa := hw.sink.cwa
  errors := he

/-- The body of a legal command that the command cycle lets run keeps the invariant. -/
theorem bodyOf_inv {i : Instr} (hw : i.WellFormed) {s : State} (h : Inv s)
    (he : i.cls = .ordinary → s.errOf i.unit = .noError) : Inv (bodyOf i s) := by
  obtain ⟨-, -, hcmds, hpc⟩ := bodyOf_launch i s
  exact .of_channels (bodyOf_readInv hw h.readInv) (bodyOf_writeInv hw h.writeInv he)
    (by rw [hcmds, hpc]; exact h.launch.pc_le) (bodyOf_errorsInv i h.errors)

/-- The end of the command cycle keeps the invariant while a record was left to run. -/
theorem Inv.retire {s : State} (h : Inv s) (hpc : s.pc < s.cmds.length) : Inv s.retire :=
  h.congr rfl rfl rfl rfl rfl rfl rfl hpc

/-- A command with legal operands keeps the invariant. -/
theorem exec_inv {i : Instr} (hw : i.WellFormed) {s t : State} (h : Inv s) (hpc : s.pc < s.cmds.length)
    (hx : exec i s = .next t) : Inv t := by
  rcases exec_cases hx with ⟨-, rfl⟩ | ⟨-, -, rfl⟩ | ⟨-, hshort, rfl⟩
  · exact (h.begin .lifecycle).retire hpc
  · exact (h.begin .ok).retire hpc
  · have hready : i.cls = .ordinary → s.errOf i.unit = .noError := fun hc => by
      simpa [shortCircuits, hc] using hshort
    obtain ⟨-, -, hcmds, hpc'⟩ := bodyOf_launch i (s.begin .ok)
    exact (bodyOf_inv hw (h.begin .ok) hready).retire (by rw [hcmds, hpc']; exact hpc)

/-- A step from a state with the invariant leads to one that has it. -/
theorem step_inv {s t : State} (h : Inv s) (hstep : step s = .next t) : Inv t := by
  cases hf : s.fetch with
  | none =>
    rw [step_of_fetch_none hf] at hstep
    cases hstep
  | some c =>
    have hpc : s.pc < s.cmds.length := (List.getElem?_eq_some_iff.1 hf).1
    cases hd : decode c with
    | error e =>
      rw [step_of_decode_error hf hd] at hstep
      cases hstep
      exact (h.begin .illegal).retire hpc
    | ok i =>
      rw [step_of_decode_ok hf hd] at hstep
      exact exec_inv (decode_wellFormed hd) h hpc hstep

/-! ## The third item of rule R27, for either downstream -/

theorem finishRead_withinSource {f : Nat → Word64} {rd : Option Nat × State} (h : rd.2.withinSource) :
    (finishRead f rd).withinSource := by
  unfold finishRead
  split
  · exact h
  · exact h

theorem brReadBits_withinSource {n : Nat} {f : Nat → Word64} {s : State} (h : BrOk s) (hw : s.withinSource) :
    (brReadBits n f s).withinSource := by
  have hpk := brPeekBits_withinSource (n := n) h hw
  unfold brReadBits
  dsimp only
  split
  · exact hpk
  · exact (State.withinSource_congr rfl rfl rfl rfl rfl).2 hpk

/-- Every body of `BR` keeps the buffer within the downstream. -/
theorem bodyOf_withinSource_of_br {i : Instr} (hu : i.unit = .br) {s : State} (h : BrOk s) (hw : s.withinSource) :
    (bodyOf i s).withinSource := by
  cases i with
  | brInit => exact Nat.zero_le _
  | brRelease | brGetError => exact hw
  | brReadUbits n | brReadSbits n => exact brReadBits_withinSource h hw
  | brScanUbits n | brScanSbits n => exact finishRead_withinSource (brPeekBits_withinSource h hw)
  | brReadU8 | brReadS8 | brReadU16 | brReadS16 | brReadU32 | brReadS32 =>
    exact finishRead_withinSource (brReadLE_withinSource h hw)
  | brAlign =>
    simp only [bodyOf, brAlign]
    split
    · exact hw
    · exact brReposition_withinSource h hw
  | brSkip cnt | brSkipBits cnt => exact brReposition_withinSource h hw
  | brMark =>
    simp only [bodyOf, brMark]
    split <;> exact hw
  | brUnmark =>
    simp only [bodyOf, brUnmark]
    split <;> exact hw
  | brReset =>
    simp only [bodyOf, brReset]
    split <;> exact brReposition_withinSource h hw
  | brCheck expected =>
    simp only [bodyOf, brCheck]
    split <;> exact hw
  | brBytesRead =>
    simp only [bodyOf, brBytesRead]
    split <;> exact hw
  | brReadBytes cnt | brReadStrFixed cnt => exact brReadBytesCore_withinSource h hw
  | brReadStrNul => exact brStrLoop_withinSource _ h hw
  | _ => cases hu

/-- A body of `CRA` keeps it too, but an INIT under a `BR` over `CRA` that holds bytes (CC8, log 15). -/
theorem bodyOf_withinSource_of_cra {i : Instr} (hu : i.unit = .cra) {s : State} (hw : s.withinSource)
    (hinit : s.cfg.brSrc = .cra → i.cls = .init → s.br.fill = 0) : (bodyOf i s).withinSource := by
  obtain ⟨hcfg, hraw, -⟩ := bodyOf_launch i s
  have hbr := bodyOf_br_of_cra hu s
  by_cases hi : i.cls = .init
  · cases hs : s.cfg.brSrc with
    | raw => simpa [State.withinSource, State.downstreamLength, hcfg, hraw, hbr, hs] using hw
    | cra =>
      have hfill : (bodyOf i s).br.fill = 0 := (congrArg Br.fill hbr).trans (hinit hs hi)
      exact (congrArg ((bodyOf i s).br.pos + ·) hfill).trans_le (Nat.le_max_left _ _)
  · exact (State.withinSource_congr (congrArg Br.pos hbr) (congrArg Br.fill hbr) hcfg hraw
      (bodyOf_cra_length hu hi s)).2 hw

/-- A command keeps the buffer of `BR` within its downstream, but an INIT of `CRA` that is accepted under a `BR` that holds
bytes (CC8, log 15). -/
theorem exec_withinSource {i : Instr} {s t : State} (h : Inv s) (hw : s.withinSource) (hx : exec i s = .next t)
    (hinit : s.cfg.brSrc = .cra → i.unit = .cra → i.cls = .init → s.cra.live = true ∨ s.br.fill = 0) :
    t.withinSource := by
  rcases exec_cases hx with ⟨-, rfl⟩ | ⟨-, -, rfl⟩ | ⟨hlive, -, rfl⟩
  · exact hw
  · exact hw
  · obtain ⟨hcfg, hraw, -⟩ := bodyOf_launch i (s.begin .ok)
    have hbody : (bodyOf i (s.begin .ok)).withinSource := by
      cases hu : i.unit with
      | br => exact bodyOf_withinSource_of_br hu (h.begin .ok).brOk hw
      | cra =>
        refine bodyOf_withinSource_of_cra hu hw fun hs hi => (hinit hs hu hi).resolve_left ?_
        simpa [lifecycleRefuses, hi, hu] using hlive
      | bw =>
        have hside := bodyOf_readSide (.inl hu) (s.begin .ok)
        exact (State.withinSource_congr (congrArg Br.pos hside.br) (congrArg Br.fill hside.br) hcfg hraw
          (congrArg Cra.length hside.cra)).2 hw
      | cwa =>
        have hside := bodyOf_readSide (.inr hu) (s.begin .ok)
        exact (State.withinSource_congr (congrArg Br.pos hside.br) (congrArg Br.fill hside.br) hcfg hraw
          (congrArg Cra.length hside.cra)).2 hw
    exact hbody

/-- Settles O13: a step is an illegal record or a legal command, whose body keeps the invariant channel by channel. -/
theorem stepKeepsInvariant : Obligations.StepKeepsInvariant :=
  ⟨fun _ _ h hstep => step_inv h hstep, fun _ _ _ h hw hx hinit => exec_withinSource h hw hx hinit⟩

end Sys2Proof.Machine
end

section
/-! PROOFS. Hardware reset (rule R350), ALIGN of `BW` (rule R228), SEEK of `CRA` (rule R263), and the random access that
`CRA` gives (rule R267). -/

namespace Sys2Proof.Machine

/-- Settles O11: `State.resetWith` writes these values, field by field. -/
theorem hardwareResetState : Obligations.HardwareResetState := by
  intro c input cmds
  refine ⟨fun u => ?_, rfl, rfl, rfl, rfl, rfl, rfl, rfl, rfl⟩
  cases u <;> rfl

/-! ## ALIGN of `BW` -/

/-- A command that does no more than write `BW`. -/
theorem onlyUnit_setBw (s : State) (st : Status) (u : Bw) : OnlyUnit .bw s ((s.begin st).setBw u).retire where
  launch := ⟨rfl, rfl, rfl⟩
  br _ := rfl
  bw h := absurd rfl h
  cra _ := rfl
  cwa _ := rfl
  rc := rfl
  rawOut := rfl
  memory := ⟨fun _ => rfl, fun _ => rfl⟩
  log := rfl

/-- The bits written so far lie in the buffer. -/
theorem BwBuf.bits_le {u : Bw} {cW : Nat} (h : BwBuf u cW) : 8 * u.idx + u.bit.val ≤ 8 * u.buf.length := by
  have hlen := h.length
  have hidx := h.idx_le
  by_cases hbit : u.bit = 0
  · rw [hbit]
    exact Nat.mul_le_mul_left 8 (hlen ▸ hidx)
  · have hroom := h.room hbit
    have hlt := u.bit.isLt
    omega

/-- The bits between the cursor of `BW` and the byte boundary are zero (rule R29). -/
theorem BwBuf.bitAt_partial {u : Bw} {cW : Nat} (h : BwBuf u cW) {j : Nat} (hj : j < 8 - u.bit.val) :
    bitAt u.buf (8 * u.idx + u.bit.val + j) = false := by
  unfold bitAt
  rw [show (8 * u.idx + u.bit.val + j) / 8 = u.idx by omega]
  exact h.low _ (by omega)

/-- Completing the partial byte adds the zero bits that were in it (rules R29, R228). -/
theorem BwBuf.bits_align {u : Bw} {cW : Nat} (h : BwBuf u cW) (hbit : u.bit ≠ 0) :
    Bw.bits { u with idx := u.idx + 1, bit := 0 } = u.bits ++ List.replicate (8 - u.bit.val) false := by
  have hlt := u.bit.isLt
  rw [Bw.bits_eq (h.align hbit).bits_le, Bw.bits_eq h.bits_le]
  dsimp only
  rw [show 8 * (u.idx + 1) + (0 : Fin 8).val = 8 * u.idx + u.bit.val + (8 - u.bit.val) by simp; omega,
    List.range_add, List.map_append, List.map_map]
  refine congrArg _ (List.eq_replicate_iff.2 ⟨by simp, fun b hb => ?_⟩)
  obtain ⟨j, hj, rfl⟩ := List.mem_map.1 hb
  exact h.bitAt_partial (List.mem_range.1 hj)

/-- Settles O47: the bits up to the byte boundary are zero by rule R29, so ALIGN only moves the cursor over them. -/
theorem writerAlignPadsWithZeros : Obligations.WriterAlignPadsWithZeros := by
  intro s h hready
  refine ⟨_, exec_ready (i := .bwAlign) rfl hready, ?_⟩
  by_cases hbit : s.bw.bit = 0
  · have hbody : bodyOf .bwAlign (s.begin .ok) = (s.begin .ok).setBw s.bw := if_pos hbit
    rw [hbody]
    exact ⟨⟨rfl, rfl, rfl, rfl⟩, onlyUnit_setBw s .ok _, fun _ => rfl, fun hne => absurd hbit hne⟩
  · have hbody : bodyOf .bwAlign (s.begin .ok) =
        (s.begin .ok).setBw { s.bw with idx := s.bw.idx + 1, bit := 0 } := if_neg hbit
    rw [hbody]
    exact ⟨⟨rfl, rfl, rfl, rfl⟩, onlyUnit_setBw s .ok _, fun h0 => absurd h0 hbit,
      fun _ => ⟨rfl, h.bwBuf.bits_align hbit⟩⟩

/-! ## SEEK of `CRA` -/

/-- A command that does no more than write `CRA` and `R`. -/
theorem onlyUnit_setCra (s : State) (st : Status) (u : Cra) (r : Word64) :
    OnlyUnit .cra s (((s.begin st).setCra u).setR r).retire where
  launch := ⟨rfl, rfl, rfl⟩
  br _ := rfl
  bw _ := rfl
  cra h := absurd rfl h
  cwa _ := rfl
  rc := rfl
  rawOut := rfl
  memory := ⟨fun _ => rfl, fun _ => rfl⟩
  log := rfl

/-- SEEK to a legal position (rule R263). -/
theorem exec_craSeek_legal {s : State} (h : s.ready .cra) {o : Origin} {off : Word64}
    (hlo : 0 ≤ s.cra.seekBase o + off.toInt) (hhi : s.cra.seekBase o + off.toInt ≤ Config.posMax) :
    exec (.craSeek o off) s = .next
      (((s.begin .ok).setCra { s.cra with pos := (s.cra.seekBase o + off.toInt).toNat }).setR 0).retire := by
  rw [exec_ready (i := .craSeek o off) rfl h]
  rcases craSeekCore_cases o (signedOperand off) (s.begin .ok) with ⟨-, -, heq⟩ | ⟨hout, -⟩
  · simp only [bodyOf, craSeek, heq]
    rfl
  · simp only [State.begin_cra, signedOperand] at hout
    omega

/-- SEEK to a target that is no legal position (rule R263). -/
theorem exec_craSeek_illegal {s : State} (h : s.ready .cra) {o : Origin} {off : Word64}
    (hout : s.cra.seekBase o + off.toInt < 0 ∨ (Config.posMax : Int) < s.cra.seekBase o + off.toInt) :
    exec (.craSeek o off) s = .next (((s.begin .ok).setCra { s.cra with err := .badArguments }).setR 1).retire := by
  rw [exec_ready (i := .craSeek o off) rfl h]
  have herr : s.cra.err = .noError := h.2
  rcases craSeekCore_cases o (signedOperand off) (s.begin .ok) with ⟨hlo, hhi, -⟩ | ⟨-, heq⟩
  · simp only [State.begin_cra, signedOperand] at hlo hhi
    omega
  · simp only [bodyOf, craSeek, heq, raise_cra, State.begin_cra, herr, latch_noError]
    rfl

/-- Settles O53: the two outcomes of SEEK, by the target. -/
theorem craSeekMovesOnlyThePosition : Obligations.CraSeekMovesOnlyThePosition := by
  intro s origin off target hready htarget
  have hbase : target = s.cra.seekBase origin + off.toInt := by cases origin <;> exact htarget
  subst hbase
  by_cases hin : 0 ≤ s.cra.seekBase origin + off.toInt ∧ s.cra.seekBase origin + off.toInt ≤ Config.posMax
  · exact ⟨_, exec_craSeek_legal hready hin.1 hin.2, onlyUnit_setCra s .ok _ _,
      fun _ _ => ⟨⟨rfl, rfl, rfl, rfl⟩, rfl⟩, fun hout => by omega⟩
  · exact ⟨_, exec_craSeek_illegal hready (by omega), onlyUnit_setCra s .ok _ _,
      fun hlo hhi => absurd ⟨hlo, hhi⟩ hin, fun _ => ⟨⟨rfl, rfl, rfl, rfl⟩, rfl⟩⟩

/-! ## Random access in `CRA` -/

/-- The plaintext stream of `CRA` is the same one, and the cache is still right if it was (rules R45, R267). -/
structure SameStream (s t : State) : Prop where
  rawIn : t.rawIn = s.rawIn
  start : t.cra.start = s.cra.start
  length : t.cra.length = s.cra.length
  sched : t.cra.sched = s.cra.sched
  cache : s.cacheOk → t.cacheOk

theorem SameStream.refl (s : State) : SameStream s s := ⟨rfl, rfl, rfl, rfl, id⟩

theorem SameStream.trans {s t u : State} (h1 : SameStream s t) (h2 : SameStream t u) : SameStream s u where
  rawIn := h2.rawIn.trans h1.rawIn
  start := h2.start.trans h1.start
  length := h2.length.trans h1.length
  sched := h2.sched.trans h1.sched
  cache := h2.cache ∘ h1.cache

theorem SameStream.craByte {s t : State} (h : SameStream s t) : t.craByte = s.craByte :=
  State.craByte_congr h.rawIn h.start h.length h.sched

/-- The commands that move in the stream of `CRA`. -/
def movesInCra (i : Instr) : Prop := (∃ o off, i = .craSeek o off) ∨ ∃ cnt, i = .craRead cnt

theorem bodyOf_sameStream {i : Instr} (hi : movesInCra i) (s : State) : SameStream s (bodyOf i s) := by
  rcases hi with ⟨o, off, rfl⟩ | ⟨cnt, rfl⟩
  · exact ⟨by simp [bodyOf, craSeek], by simp [bodyOf, craSeek], by simp [bodyOf, craSeek], by simp [bodyOf, craSeek],
      craSeekCore_cacheOk⟩
  · exact ⟨by simp [bodyOf, craRead], by simp [bodyOf, craRead], by simp [bodyOf, craRead], by simp [bodyOf, craRead],
      fun hc => (craReadCore_spec cnt.toNat hc).2.2.2⟩

theorem exec_sameStream {i : Instr} (hi : movesInCra i) {s t : State} (hx : exec i s = .next t) : SameStream s t := by
  rcases exec_cases hx with ⟨-, rfl⟩ | ⟨-, -, rfl⟩ | ⟨-, -, rfl⟩
  · exact ⟨rfl, rfl, rfl, rfl, id⟩
  · exact ⟨rfl, rfl, rfl, rfl, id⟩
  · obtain ⟨hraw, hstart, hlength, hsched, hcache⟩ := bodyOf_sameStream hi (s.begin .ok)
    exact ⟨hraw, hstart, hlength, hsched, hcache⟩

theorem execAll_sameStream {cmds : List Instr} (hmoves : ∀ i ∈ cmds, movesInCra i) {s t : State}
    (hx : execAll cmds s = .next t) : SameStream s t := by
  induction cmds generalizing s with
  | nil =>
    cases hx
    exact .refl _
  | cons i rest ih =>
    have hexec := exec_eq i s
    simp only [execAll, hexec] at hx
    exact (exec_sameStream (hmoves i List.mem_cons_self) hexec).trans
      (ih (fun j hj => hmoves j (List.mem_cons_of_mem i hj)) hx)

/-- A stream that has exactly the bytes below `len` gives all of them from any position on. -/
theorem takeBytes_length_eq_min {f : Nat → Option Byte} {len : Nat} (hsome : ∀ q, q < len → (f q).isSome)
    (hnone : ∀ q, len ≤ q → f q = none) (p n : Nat) : (takeBytes f p n).length = min n (len - p) := by
  induction n generalizing p with
  | zero => simp [takeBytes]
  | succ n ih =>
    by_cases hp : p < len
    · obtain ⟨b, hb⟩ := Option.isSome_iff_exists.1 (hsome p hp)
      rw [takeBytes_some hb, List.length_cons, ih]
      omega
    · rw [takeBytes_none (hnone p (by omega)), List.length_nil]
      omega

/-- The byte at a position below the length whose block is whole (rule R74). -/
theorem State.craByte_of_whole {s : State} {p : Nat} (hp : p < s.cra.length)
    (h8 : (s.rawIn.slice (s.cra.start + 8 * (p / 8)) 8).length = 8) :
    s.craByte p =
      some (blockByte (transform s.cra.sched (blockOfList (s.rawIn.slice (s.cra.start + 8 * (p / 8)) 8))) p) := by
  have hblk : p >>> 3 = p / 8 := Nat.shiftRight_eq_div_pow p 3
  rw [State.craByte_def, State.craBlock, hblk, if_pos ⟨hp, h8⟩]

theorem State.craByte_none {s : State} {p : Nat} (hp : s.cra.length ≤ p) : s.craByte p = none := by
  rw [State.craByte_def, if_neg (by omega)]

/-- With every block whole, a stream of `CRA` gives all its bytes from any position on (rule R267). -/
theorem State.craBytes_length {s : State}
    (hwhole : ∀ j < s.cra.length, (s.rawIn.slice (s.cra.start + 8 * (j / 8)) 8).length = 8) (p n : Nat) :
    (takeBytes s.craByte p n).length = min n (s.cra.length - p) :=
  takeBytes_length_eq_min (fun q hq => by rw [State.craByte_of_whole hq (hwhole q hq)]; rfl)
    (fun _ hq => State.craByte_none hq) p n

/-- Settles O55: SEEK and READ keep the stream and the content of the cache, and READ gives the bytes of the stream. -/
theorem craReadsAreRandomAccess : Obligations.CraReadsAreRandomAccess := by
  intro s cmds t p n hinv _ hwhole hmoves hrun hready hp
  have hst := execAll_sameStream hmoves hrun
  have hint : p.toInt = p.toNat := BitVec.toInt_eq_toNat_of_lt (by unfold Config.posMax at hp; omega)
  have hseek := exec_craSeek_legal hready (o := .seekSet) (off := p)
    (by simp [Cra.seekBase, hint]) (by simp only [Cra.seekBase, hint]; omega)
  have hpos : (t.cra.seekBase .seekSet + p.toInt).toNat = p.toNat := by simp [Cra.seekBase, hint]
  rw [hpos] at hseek
  generalize hu : (((t.begin .ok).setCra { t.cra with pos := p.toNat }).setR 0).retire = u at hseek
  have hsu : SameStream s u := hst.trans (exec_sameStream (.inl ⟨_, _, rfl⟩) hseek)
  have hupos : u.cra.pos = p.toNat := by rw [← hu]; rfl
  have huready : u.ready .cra := by rw [← hu]; exact hready
  have huerr : u.cra.err = .noError := huready.2
  obtain ⟨hbytes, -, herr, -⟩ := craReadCore_spec n.toNat (s := u.begin .ok) (hsu.cache hinv.cra.cache)
  have hstream : (u.begin .ok).craByte = s.craByte := hsu.craByte
  simp only [State.begin_cra, hupos, hstream, hsu.length, huerr] at hbytes herr
  have hlen := State.craBytes_length hwhole p.toNat n.toNat
  refine ⟨u, _, hseek, exec_ready (i := .craRead n) rfl huready, ?_⟩
  have hdata : (bodyOf (.craRead n) (u.begin .ok)).retire.dataOut = takeBytes s.craByte p.toNat n.toNat := hbytes
  rw [hdata]
  refine ⟨hlen, herr.trans (if_neg (by omega)), fun j hj => ?_⟩
  have hj' : p.toNat + j < s.cra.length := by omega
  rw [takeBytes_getElem? _ _ _ hj, State.craByte_of_whole hj' (hwhole _ hj')]

end Sys2Proof.Machine
end

section
/-! PROOFS. The two channels do not see each other (rules R88, R332): two states alike in one channel give every operation of
that channel the same answer and stay alike. -/

namespace Sys2Proof.Machine

/-! ## What a channel leaves alone -/

/-- Streams that are the same read the same. -/
theorem SameMemory.of_eq {s t : State} (hin : t.rawIn = s.rawIn) (hout : t.rawOut = s.rawOut) : SameMemory s t :=
  ⟨fun a => congrArg (Memory.read? · a) hin, fun a => congrArg (Memory.read? · a) hout⟩

theorem exec_writeSide {i : Instr} (hu : i.unit = .br ∨ i.unit = .cra) {s t : State} (h : exec i s = .next t) :
    SameWriteSide s t := by
  rcases exec_cases h with ⟨-, rfl⟩ | ⟨-, -, rfl⟩ | ⟨-, -, rfl⟩
  · exact ⟨rfl, rfl, rfl⟩
  · exact ⟨rfl, rfl, rfl⟩
  · obtain ⟨hbw, hcwa, hout⟩ := bodyOf_writeSide hu (s.begin .ok)
    exact ⟨hbw, hcwa, hout⟩

theorem exec_readSide {i : Instr} (hu : i.unit = .bw ∨ i.unit = .cwa) {s t : State} (h : exec i s = .next t) :
    SameReadSide s t := by
  rcases exec_cases h with ⟨-, rfl⟩ | ⟨-, -, rfl⟩ | ⟨-, -, rfl⟩
  · exact ⟨rfl, rfl, rfl⟩
  · exact ⟨rfl, rfl, rfl⟩
  · obtain ⟨hbr, hcra, hrc⟩ := bodyOf_readSide hu (s.begin .ok)
    exact ⟨hbr, hcra, hrc⟩

/-- Settles O16: no body of the read channel writes the write side, and no command the launch. -/
theorem readChannelKeepsWriteSide : Obligations.ReadChannelKeepsWriteSide := by
  intro i s t hu h
  have hside := exec_writeSide hu h
  have hlaunch := (exec_advances h).2
  exact ⟨hside, hlaunch, .of_eq hlaunch.rawIn hside.rawOut⟩

/-- Settles O17: no body of the write channel writes the read side, and no command the launch. -/
theorem writeChannelKeepsReadSide : Obligations.WriteChannelKeepsReadSide :=
  fun _ _ _ hu h => ⟨exec_readSide hu h, (exec_advances h).2⟩

/-- Two outcomes of an operation with an answer, from states alike in the sense of `R`: the same answer, in states that are
still alike. -/
structure AnswersAlike (R : State → State → Prop) {α : Type} (p q : α × State) : Prop where
  answer : q.1 = p.1
  alike : R p.2 q.2

theorem AnswersAlike.map {R : State → State → Prop} {α β : Type} {p q : α × State} (h : AnswersAlike R p q) (g : α → β) :
    AnswersAlike R (g p.1, p.2) (g q.1, q.2) := ⟨congrArg g h.answer, h.alike⟩

/-! ## Two states alike in the read channel -/

/-- The states agree on all that the read channel reads, and on the result registers. -/
structure ReadAlike (s t : State) : Prop where
  cfg : t.cfg = s.cfg
  rawIn : t.rawIn = s.rawIn
  br : t.br = s.br
  cra : t.cra = s.cra
  rc : t.rc = s.rc
  r : t.r = s.r
  status : t.status = s.status
  dataOut : t.dataOut = s.dataOut

namespace ReadAlike

variable {s t : State}

theorem setBr (h : ReadAlike s t) (u : Br) : ReadAlike (s.setBr u) (t.setBr u) :=
  ⟨h.cfg, h.rawIn, rfl, h.cra, h.rc, h.r, h.status, h.dataOut⟩

theorem setCra (h : ReadAlike s t) (u : Cra) : ReadAlike (s.setCra u) (t.setCra u) :=
  ⟨h.cfg, h.rawIn, h.br, rfl, h.rc, h.r, h.status, h.dataOut⟩

theorem setRc (h : ReadAlike s t) (n : Nat) : ReadAlike (s.setRc n) (t.setRc n) :=
  ⟨h.cfg, h.rawIn, h.br, h.cra, rfl, h.r, h.status, h.dataOut⟩

theorem setR (h : ReadAlike s t) (v : Word64) : ReadAlike (s.setR v) (t.setR v) :=
  ⟨h.cfg, h.rawIn, h.br, h.cra, h.rc, rfl, h.status, h.dataOut⟩

theorem deliver (h : ReadAlike s t) (l : List Byte) : ReadAlike (s.deliver l) (t.deliver l) :=
  ⟨h.cfg, h.rawIn, h.br, h.cra, h.rc, rfl, h.status, rfl⟩

theorem addEvent (h : ReadAlike s t) (e : Event) : ReadAlike (s.addEvent e) (t.addEvent e) :=
  ⟨h.cfg, h.rawIn, h.br, h.cra, h.rc, h.r, h.status, h.dataOut⟩

theorem retire (h : ReadAlike s t) : ReadAlike s.retire t.retire :=
  ⟨h.cfg, h.rawIn, h.br, h.cra, h.rc, h.r, h.status, h.dataOut⟩

theorem raiseBr (h : ReadAlike s t) (e : Err) : ReadAlike (raise .br e s) (raise .br e t) := by
  rw [raise_br, raise_br, h.br]
  exact h.setBr _

theorem raiseCra (h : ReadAlike s t) (e : Err) : ReadAlike (raise .cra e s) (raise .cra e t) := by
  rw [raise_cra, raise_cra, h.cra]
  exact h.setCra _

/-! ### `CRA` and `DS_R` -/

theorem rawInSeek (h : ReadAlike s t) (off : Nat) : AnswersAlike ReadAlike (rawInSeek off s) (rawInSeek off t) :=
  ⟨rfl, (h.setRc off).addEvent _⟩

theorem rawInRead (h : ReadAlike s t) (n : Nat) : AnswersAlike ReadAlike (rawInRead n s) (rawInRead n t) := by
  unfold Machine.rawInRead
  dsimp only
  rw [h.rawIn, h.rc]
  exact ⟨rfl, (h.setRc _).addEvent _⟩

theorem craFetch (h : ReadAlike s t) (b : Nat) : AnswersAlike ReadAlike (craFetch b s) (craFetch b t) := by
  have hrd := ((h.rawInSeek (s.cra.start + 8 * b)).alike).rawInRead 8
  unfold Machine.craFetch
  dsimp only
  rw [h.cra, hrd.answer, hrd.alike.cra, (hrd.alike.raiseCra .invalidData).cra,
    (h.rawInSeek (s.cra.start + 8 * b)).answer]
  split
  · exact ⟨rfl, (hrd.alike.raiseCra _).setCra _⟩
  · exact ⟨rfl, hrd.alike.setCra _⟩

theorem craLoad (h : ReadAlike s t) (b : Nat) : AnswersAlike ReadAlike (craLoad b s) (craLoad b t) := by
  unfold Machine.craLoad
  rw [h.cra]
  split
  · exact ⟨rfl, h⟩
  · exact h.craFetch b

theorem craReadCore (h : ReadAlike s t) (n : Nat) : AnswersAlike ReadAlike (craReadCore n s) (craReadCore n t) := by
  induction n generalizing s t with
  | zero => exact ⟨rfl, h⟩
  | succ n ih =>
    have hld := h.craLoad (s.cra.pos >>> 3)
    unfold Machine.craReadCore
    dsimp only
    rw [h.cra, hld.answer, hld.alike.cra]
    split
    · split
      · exact (ih (hld.alike.setCra _)).map (_ :: ·)
      · exact ⟨rfl, hld.alike⟩
    · exact ⟨rfl, h⟩

theorem craSeekCore (h : ReadAlike s t) (o : Origin) (off : Int) :
    AnswersAlike ReadAlike (craSeekCore o off s) (craSeekCore o off t) := by
  unfold Machine.craSeekCore
  dsimp only
  rw [h.cra]
  split
  · exact ⟨rfl, h.raiseCra _⟩
  · exact ⟨rfl, h.setCra _⟩

theorem dsrSeek (h : ReadAlike s t) (off : Nat) : AnswersAlike ReadAlike (dsrSeek off s) (dsrSeek off t) := by
  have hsk := h.craSeekCore .seekSet off
  unfold Machine.dsrSeek
  dsimp only
  rw [h.cfg, h.cra]
  split
  · exact h.rawInSeek off
  · split
    · exact ⟨rfl, h⟩
    · exact ⟨rfl, h⟩
    · exact ⟨hsk.answer, hsk.alike.addEvent _⟩

theorem dsrRead (h : ReadAlike s t) (n : Nat) : AnswersAlike ReadAlike (dsrRead n s) (dsrRead n t) := by
  have hrd := h.craReadCore n
  unfold Machine.dsrRead
  dsimp only
  rw [h.cfg, h.cra]
  split
  · exact h.rawInRead n
  · split
    · exact ⟨rfl, h⟩
    · exact ⟨rfl, h⟩
    · rw [hrd.answer]
      exact ⟨rfl, hrd.alike.addEvent _⟩

/-! ### `BR` -/

theorem brFillLoop (h : ReadAlike s t) (fuel : Nat) : ReadAlike (brFillLoop fuel s) (brFillLoop fuel t) := by
  induction fuel generalizing s t with
  | zero => exact h
  | succ fuel ih =>
    have hrd := h.dsrRead (s.cfg.cR - s.br.fill)
    unfold Machine.brFillLoop
    dsimp only
    rw [h.br, h.cfg, hrd.answer, hrd.alike.br]
    split
    · exact h
    · split
      · exact hrd.alike
      · exact ih (hrd.alike.setBr _)

theorem brFill (h : ReadAlike s t) : ReadAlike (brFill s) (brFill t) := by
  have hsk := (h.setBr s.br.shifted).dsrSeek (s.br.shifted.pos + s.br.shifted.fill)
  unfold Machine.brFill
  dsimp only
  rw [h.br, State.setBr_br, State.setBr_br, hsk.answer, hsk.alike.br, hsk.alike.cfg]
  split
  · exact hsk.alike.raiseBr _
  · exact hsk.alike.brFillLoop _

theorem brEnsure (h : ReadAlike s t) (nb : Nat) : AnswersAlike ReadAlike (brEnsure nb s) (brEnsure nb t) := by
  have hfill : ReadAlike (if s.br.fill < s.br.idx + nb then Machine.brFill s else s)
      (if t.br.fill < t.br.idx + nb then Machine.brFill t else t) := by
    rw [h.br]
    split
    · exact h.brFill
    · exact h
  exact ⟨by simp only [Machine.brEnsure, hfill.br], hfill⟩

theorem brPeekBits (h : ReadAlike s t) (n : Nat) : AnswersAlike ReadAlike (brPeekBits n s) (brPeekBits n t) := by
  have hen := h.brEnsure (bytesTouched s.br.bit n)
  unfold Machine.brPeekBits
  dsimp only
  rw [h.br, hen.answer, hen.alike.br]
  split
  · exact ⟨rfl, hen.alike⟩
  · exact ⟨rfl, hen.alike.raiseBr _⟩

theorem brReposition (h : ReadAlike s t) (tb : Nat) (tbit : Fin 8) :
    ReadAlike (brReposition tb tbit s) (brReposition tb tbit t) := by
  unfold Machine.brReposition
  rw [h.br]
  split
  · exact h.raiseBr _
  · split
    · exact h.setBr _
    · exact (h.setBr _).brFill

theorem brRefill (h : ReadAlike s t) : ReadAlike (brRefill s) (brRefill t) := by
  unfold Machine.brRefill
  rw [h.br]
  split
  · exact h.brFill
  · exact h

theorem brReadLoop (h : ReadAlike s t) (fuel want : Nat) :
    AnswersAlike ReadAlike (brReadLoop fuel want s) (brReadLoop fuel want t) := by
  induction fuel generalizing want s t with
  | zero => exact ⟨rfl, h⟩
  | succ fuel ih =>
    have hrf := h.brRefill
    unfold Machine.brReadLoop
    dsimp only
    rw [hrf.br]
    split
    · exact ⟨rfl, h⟩
    · split
      · exact ⟨rfl, hrf⟩
      · exact (ih (hrf.setBr _) _).map (_ ++ ·)

theorem brReadBytesCore (h : ReadAlike s t) (want : Nat) :
    AnswersAlike ReadAlike (brReadBytesCore want s) (brReadBytesCore want t) := by
  have hrd := h.brReadLoop want want
  unfold Machine.brReadBytesCore
  dsimp only
  rw [hrd.answer]
  split
  · exact ⟨rfl, hrd.alike.raiseBr _⟩
  · exact hrd

theorem brStrLoop (h : ReadAlike s t) (rounds : Nat) : AnswersAlike ReadAlike (brStrLoop rounds s) (brStrLoop rounds t) := by
  induction rounds generalizing s t with
  | zero => exact ⟨rfl, h⟩
  | succ rounds ih =>
    have hrf := h.brRefill
    unfold Machine.brStrLoop
    dsimp only
    rw [hrf.br]
    split
    · exact ⟨rfl, hrf⟩
    · split
      · exact ⟨rfl, hrf.setBr _⟩
      · exact (ih (hrf.setBr _)).map (_ :: ·)

theorem strRounds (h : ReadAlike s t) : t.strRounds = s.strRounds := by
  simp only [State.strRounds, State.downstreamLength, h.br, h.cfg, h.rawIn, h.cra]

theorem brReadLE (h : ReadAlike s t) (k : Nat) : AnswersAlike ReadAlike (brReadLE k s) (brReadLE k t) := by
  have hen := h.brEnsure k
  unfold Machine.brReadLE
  dsimp only
  rw [hen.answer, hen.alike.br]
  split
  · exact ⟨rfl, hen.alike.setBr _⟩
  · exact ⟨rfl, hen.alike.raiseBr _⟩

theorem brReadBits (h : ReadAlike s t) (n : Nat) (f : Nat → Word64) :
    ReadAlike (brReadBits n f s) (brReadBits n f t) := by
  have hpk := h.brPeekBits n
  unfold Machine.brReadBits
  dsimp only
  rw [hpk.answer, hpk.alike.br]
  split
  · exact hpk.alike
  · exact (hpk.alike.setBr _).setR _

end ReadAlike

theorem AnswersAlike.finishRead {p q : Option Nat × State} (h : AnswersAlike ReadAlike p q) (f : Nat → Word64) :
    ReadAlike (finishRead f p) (finishRead f q) := by
  unfold Machine.finishRead
  rw [h.answer]
  split
  · exact h.alike
  · exact h.alike.setR _

theorem AnswersAlike.deliver {p q : List Byte × State} (h : AnswersAlike ReadAlike p q) (g : List Byte → List Byte) :
    ReadAlike (p.2.deliver (g p.1)) (q.2.deliver (g q.1)) := by
  rw [h.answer]
  exact h.alike.deliver _

/-- A body of `BR` does not see the write channel. -/
theorem bodyOf_readAlike_of_br {i : Instr} (hu : i.unit = .br) {s t : State} (h : ReadAlike s t) :
    ReadAlike (bodyOf i s) (bodyOf i t) := by
  cases i with
  | brInit =>
    simp only [bodyOf, brInit, h.cfg]
    exact h.setBr _
  | brRelease =>
    simp only [bodyOf, brRelease, h.br]
    exact h.setBr _
  | brGetError =>
    simp only [bodyOf, brGetError, h.br]
    exact h.setR _
  | brReadUbits n | brReadSbits n => exact h.brReadBits _ _
  | brScanUbits n | brScanSbits n => exact (h.brPeekBits _).finishRead _
  | brReadU8 | brReadS8 | brReadU16 | brReadS16 | brReadU32 | brReadS32 => exact (h.brReadLE _).finishRead _
  | brAlign =>
    simp only [bodyOf, brAlign, h.br]
    split
    · exact h
    · exact h.brReposition _ _
  | brSkip cnt =>
    simp only [bodyOf, brSkip, h.br]
    exact h.brReposition _ _
  | brSkipBits cnt =>
    simp only [bodyOf, brSkipBits, h.br]
    exact h.brReposition _ _
  | brMark =>
    simp only [bodyOf, brMark, h.br, h.cfg]
    split
    · exact h.raiseBr _
    · exact h.setBr _
  | brUnmark =>
    simp only [bodyOf, brUnmark, h.br]
    split
    · exact h.raiseBr _
    · exact h.setBr _
  | brReset =>
    simp only [bodyOf, brReset, h.br]
    split
    · exact h.brReposition _ _
    · exact h.brReposition _ _
  | brCheck expected =>
    simp only [bodyOf, brCheck, h.br]
    split
    · exact h.raiseBr _
    · exact h.setR _
  | brBytesRead =>
    simp only [bodyOf, brBytesRead, h.br]
    split
    · exact h.raiseBr _
    · exact h.setR _
  | brReadBytes cnt => exact (h.brReadBytesCore _).deliver id
  | brReadStrFixed cnt => exact (h.brReadBytesCore _).deliver dropFinalNul
  | brReadStrNul =>
    simp only [bodyOf, brReadStrNul, h.strRounds]
    exact (h.brStrLoop _).deliver id
  | _ => cases hu

/-- A body of `CRA` does not see the write channel. -/
theorem bodyOf_readAlike_of_cra {i : Instr} (hu : i.unit = .cra) {s t : State} (h : ReadAlike s t) :
    ReadAlike (bodyOf i s) (bodyOf i t) := by
  cases i with
  | craInit own key req start =>
    simp only [bodyOf, craInit, h.rawIn]
    exact h.setCra _
  | craRelease =>
    simp only [bodyOf, craRelease, h.cra]
    split
    · simp only [State.addEvent_cra, h.cra]
      exact (h.addEvent _).setCra _
    · rw [h.cra]
      exact h.setCra _
  | craGetError | craTell | craEof =>
    simp only [bodyOf, craGetError, craTell, craEof, h.cra]
    exact h.setR _
  | craRead cnt => exact (h.craReadCore _).deliver id
  | craSeek origin off =>
    have hsk := h.craSeekCore origin (signedOperand off)
    simp only [bodyOf, craSeek, hsk.answer]
    exact hsk.alike.setR _
  | _ => cases hu

theorem bodyOf_readAlike {i : Instr} (hu : i.unit = .br ∨ i.unit = .cra) {s t : State} (h : ReadAlike s t) :
    ReadAlike (bodyOf i s) (bodyOf i t) :=
  hu.elim (bodyOf_readAlike_of_br · h) (bodyOf_readAlike_of_cra · h)

/-- The command cycle asks only for the liveness and the error of the command's own unit (rule R131). -/
theorem command_alike {R : State → State → Prop} {u : UnitId} {cls : CommandClass} {body : State → State} {s t : State}
    (hlive : t.liveOf u = s.liveOf u) (herr : t.errOf u = s.errOf u) (hbegin : ∀ st, R (s.begin st) (t.begin st))
    (hretire : ∀ ⦃x y⦄, R x y → R x.retire y.retire) (hbody : ∀ ⦃x y⦄, R x y → R (body x) (body y)) :
    R (command u cls body s) (command u cls body t) := by
  unfold command
  rw [hlive, herr]
  split
  · exact hretire (hbegin _)
  · split
    · exact hretire (hbegin _)
    · exact hretire (hbody (hbegin _))

/-- Settles O18: the cycle and every body of the read channel keep two states alike in it. -/
theorem readChannelDoesNotSeeWriteSide : Obligations.ReadChannelDoesNotSeeWriteSide := by
  intro i s t s' t' hu hcfg hraw hbr hcra hrc hs hs'
  rw [exec_eq] at hs hs'
  cases hs
  cases hs'
  have hown : s'.liveOf i.unit = s.liveOf i.unit ∧ s'.errOf i.unit = s.errOf i.unit := by
    rcases hu with hu | hu
    · rw [hu]; exact ⟨congrArg Br.live hbr, congrArg Br.err hbr⟩
    · rw [hu]; exact ⟨congrArg Cra.live hcra, congrArg Cra.err hcra⟩
  have h := command_alike (R := ReadAlike) (cls := i.cls) hown.1 hown.2
    (fun st => ⟨hcfg, hraw, hbr, hcra, hrc, rfl, rfl, rfl⟩) (fun _ _ h => h.retire) (fun _ _ h => bodyOf_readAlike hu h)
  exact ⟨h.br, h.cra, h.rc, h.r, h.status, h.dataOut⟩

end Sys2Proof.Machine
end

section
/-! PROOFS. Two states alike in the write channel stay alike under it (rules R88, R332), and no command takes anything out of
`RAW_OUT` or the event log (rules R70, R77, R80). -/

namespace Sys2Proof.Machine

/-! ## Two states alike in the write channel -/

/-- The states agree on all that the write channel reads, and on the result registers. -/
structure WriteAlike (s t : State) : Prop where
  cfg : t.cfg = s.cfg
  bw : t.bw = s.bw
  cwa : t.cwa = s.cwa
  rawOut : t.rawOut = s.rawOut
  r : t.r = s.r
  status : t.status = s.status
  dataOut : t.dataOut = s.dataOut

/-- The automatic seal of RELEASE (rule R295): it obeys the sticky error. -/
def autoSeal (s : State) : State := if s.cwa.err = .noError ∧ s.cwa.sealed = false then cwaSealBody s else s

/-- RELEASE of `CWA` after its automatic seal (rule R295). -/
theorem cwaRelease_eq (s : State) :
    cwaRelease s =
      if (autoSeal s).cwa.own then
        ((autoSeal s).addEvent (.release .rawOut)).setCwa { (autoSeal s).cwa with live := false }
      else (autoSeal s).setCwa { (autoSeal s).cwa with live := false } := by
  unfold cwaRelease
  dsimp only
  rw [show (if s.cwa.err = .noError ∧ s.cwa.sealed = false then cwaSealBody s else s) = autoSeal s from rfl]
  split <;> rfl

namespace WriteAlike

variable {s t : State}

theorem setBw (h : WriteAlike s t) (u : Bw) : WriteAlike (s.setBw u) (t.setBw u) :=
  ⟨h.cfg, rfl, h.cwa, h.rawOut, h.r, h.status, h.dataOut⟩

theorem setCwa (h : WriteAlike s t) (u : Cwa) : WriteAlike (s.setCwa u) (t.setCwa u) :=
  ⟨h.cfg, h.bw, rfl, h.rawOut, h.r, h.status, h.dataOut⟩

theorem setR (h : WriteAlike s t) (v : Word64) : WriteAlike (s.setR v) (t.setR v) :=
  ⟨h.cfg, h.bw, h.cwa, h.rawOut, rfl, h.status, h.dataOut⟩

theorem addEvent (h : WriteAlike s t) (e : Event) : WriteAlike (s.addEvent e) (t.addEvent e) :=
  ⟨h.cfg, h.bw, h.cwa, h.rawOut, h.r, h.status, h.dataOut⟩

theorem retire (h : WriteAlike s t) : WriteAlike s.retire t.retire :=
  ⟨h.cfg, h.bw, h.cwa, h.rawOut, h.r, h.status, h.dataOut⟩

theorem raiseBw (h : WriteAlike s t) (e : Err) : WriteAlike (raise .bw e s) (raise .bw e t) := by
  rw [raise_bw, raise_bw, h.bw]
  exact h.setBw _

theorem raiseCwa (h : WriteAlike s t) (e : Err) : WriteAlike (raise .cwa e s) (raise .cwa e t) := by
  rw [raise_cwa, raise_cwa, h.cwa]
  exact h.setCwa _

/-! ### `CWA` and `DS_W` -/

theorem rawOutWrite (h : WriteAlike s t) (l : List Byte) : AnswersAlike WriteAlike (rawOutWrite l s) (rawOutWrite l t) :=
  ⟨rfl, h.cfg, h.bw, h.cwa, congrArg (Memory.append · l) h.rawOut, h.r, h.status, h.dataOut⟩

theorem cwaFlushEnd (h : WriteAlike s t) (final : Bool) : WriteAlike (cwaFlushEnd final s) (cwaFlushEnd final t) := by
  unfold Machine.cwaFlushEnd Machine.rawOutFlush
  dsimp only
  rw [State.addEvent_cwa, State.addEvent_cwa, h.cwa]
  exact (h.addEvent _).setCwa _

theorem cwaFlushCore (h : WriteAlike s t) (final : Bool) : WriteAlike (cwaFlushCore final s) (cwaFlushCore final t) := by
  have hwr := h.rawOutWrite (s.cwa.cipherText final)
  unfold Machine.cwaFlushCore
  dsimp only
  rw [h.cwa, hwr.answer]
  split
  · exact h.cwaFlushEnd final
  · split
    · exact hwr.alike.raiseCwa _
    · exact hwr.alike.cwaFlushEnd final

theorem cwaPutBytes (h : WriteAlike s t) (l : List Byte) : AnswersAlike WriteAlike (cwaPutBytes l s) (cwaPutBytes l t) := by
  induction l generalizing s t with
  | nil => exact ⟨rfl, h⟩
  | cons c rest ih =>
    unfold Machine.cwaPutBytes
    dsimp only
    rw [h.cwa]
    generalize { s.cwa with wbuf := s.cwa.wbuf.set s.cwa.nbuf c, nbuf := s.cwa.nbuf + 1 } = u
    have hput := h.setCwa u
    have hfl := hput.cwaFlushCore false
    rw [hput.cwa, hput.cfg, hfl.cwa]
    split
    · split
      · exact ⟨rfl, hfl⟩
      · exact (ih hfl).map (· + 1)
    · exact (ih hput).map (· + 1)

theorem cwaWriteCore (h : WriteAlike s t) (l : List Byte) : AnswersAlike WriteAlike (cwaWriteCore l s) (cwaWriteCore l t) := by
  unfold Machine.cwaWriteCore
  rw [h.cwa]
  split
  · exact ⟨rfl, h.raiseCwa _⟩
  · exact h.cwaPutBytes l

theorem cwaFlushBody (h : WriteAlike s t) : WriteAlike (cwaFlushBody s) (cwaFlushBody t) := by
  unfold Machine.cwaFlushBody
  rw [h.cwa]
  split
  · exact h
  · exact h.cwaFlushCore false

theorem cwaSealBody (h : WriteAlike s t) : WriteAlike (cwaSealBody s) (cwaSealBody t) := by
  have hfl := h.cwaFlushCore true
  unfold Machine.cwaSealBody
  dsimp only
  rw [h.cwa, hfl.cwa]
  split
  · exact h
  · exact hfl.setCwa _

theorem autoSeal (h : WriteAlike s t) : WriteAlike (autoSeal s) (autoSeal t) := by
  unfold Machine.autoSeal
  rw [h.cwa]
  split
  · exact h.cwaSealBody
  · exact h

theorem dswWrite (h : WriteAlike s t) (l : List Byte) : AnswersAlike WriteAlike (dswWrite l s) (dswWrite l t) := by
  have hwr := h.cwaWriteCore l
  unfold Machine.dswWrite
  dsimp only
  rw [h.cfg, h.cwa]
  split
  · exact h.rawOutWrite l
  · split
    · exact ⟨rfl, h⟩
    · exact ⟨rfl, h⟩
    · exact ⟨hwr.answer, hwr.alike.addEvent _⟩

theorem dswFlush (h : WriteAlike s t) : WriteAlike (dswFlush s) (dswFlush t) := by
  unfold Machine.dswFlush
  rw [h.cfg, h.cwa]
  split
  · exact h.addEvent _
  · split
    · exact h
    · exact h
    · exact h.cwaFlushBody.addEvent _

/-! ### `BW` -/

theorem bwFlushEnd (h : WriteAlike s t) : WriteAlike (bwFlushEnd s) (bwFlushEnd t) := by
  have hfl := h.dswFlush
  unfold Machine.bwFlushEnd
  dsimp only
  rw [hfl.bw, hfl.cfg]
  exact hfl.setBw _

theorem bwFlush (h : WriteAlike s t) : WriteAlike (bwFlush s) (bwFlush t) := by
  have hwr := h.dswWrite s.bw.pending
  unfold Machine.bwFlush
  dsimp only
  rw [h.bw, hwr.answer]
  split
  · exact h.bwFlushEnd
  · split
    · exact hwr.alike.raiseBw _
    · exact hwr.alike.bwFlushEnd

theorem bwMakeRoom (h : WriteAlike s t) (need : Nat) : WriteAlike (bwMakeRoom need s) (bwMakeRoom need t) := by
  unfold Machine.bwMakeRoom
  rw [h.cfg, h.bw]
  split
  · exact h.bwFlush
  · exact h

theorem bwStore (h : WriteAlike s t) (need : Nat) (put : Bw → Bw) :
    WriteAlike (bwStore need put s) (bwStore need put t) := by
  have hroom := h.bwMakeRoom need
  unfold Machine.bwStore
  dsimp only
  rw [hroom.bw]
  split
  · exact hroom
  · exact hroom.setBw _

theorem bwWriteLE (h : WriteAlike s t) {w : Nat} (k : Nat) (v : BitVec w) :
    WriteAlike (bwWriteLE k v s) (bwWriteLE k v t) := by
  unfold Machine.bwWriteLE
  rw [h.bw]
  exact h.bwStore _ _

theorem bwWriteBytesCore (h : WriteAlike s t) (l : List Byte) :
    WriteAlike (bwWriteBytesCore l s) (bwWriteBytesCore l t) := by
  have hfl := h.bwFlush
  have hwr := hfl.dswWrite l
  unfold Machine.bwWriteBytesCore
  dsimp only
  rw [h.bw, h.cfg, hfl.bw, hwr.answer, hwr.alike.bw]
  split
  · exact h.setBw _
  · split
    · exact hfl
    · split
      · exact hwr.alike.raiseBw _
      · exact hwr.alike.setBw _

end WriteAlike

/-- A body of `BW` does not see the read channel. -/
theorem bodyOf_writeAlike_of_bw {i : Instr} (hu : i.unit = .bw) {s t : State} (h : WriteAlike s t) :
    WriteAlike (bodyOf i s) (bodyOf i t) := by
  cases i with
  | bwInit =>
    simp only [bodyOf, bwInit, h.cfg]
    exact h.setBw _
  | bwRelease =>
    simp only [bodyOf, bwRelease, h.bw]
    exact h.setBw _
  | bwGetError =>
    simp only [bodyOf, bwGetError, h.bw]
    exact h.setR _
  | bwWriteBits n v =>
    simp only [bodyOf, bwWriteBits, h.bw]
    split
    · exact h
    · exact h.bwStore _ _
  | bwWriteByte v | bwWriteShort v | bwWriteInt v => exact h.bwWriteLE _ v
  | bwWriteBytes p => exact h.bwWriteBytesCore p
  | bwWriteString p =>
    have hwr := h.bwWriteBytesCore p
    simp only [bodyOf, bwWriteString, hwr.bw]
    split
    · exact hwr
    · exact hwr.bwWriteLE 1 _
  | bwAlign =>
    simp only [bodyOf, bwAlign, h.bw]
    split
    · exact h
    · exact h.setBw _
  | bwFlush => exact h.bwFlush
  | bwMark =>
    simp only [bodyOf, bwMark, h.bw, h.cfg]
    split
    · exact h.raiseBw _
    · exact h.setBw _
  | bwUnmark =>
    simp only [bodyOf, bwUnmark, h.bw]
    split
    · exact h.raiseBw _
    · exact h.setBw _
  | bwCheck expected =>
    simp only [bodyOf, bwCheck, h.bw]
    split
    · exact h.raiseBw _
    · exact h.setR _
  | _ => cases hu

/-- A body of `CWA` does not see the read channel. -/
theorem bodyOf_writeAlike_of_cwa {i : Instr} (hu : i.unit = .cwa) {s t : State} (h : WriteAlike s t) :
    WriteAlike (bodyOf i s) (bodyOf i t) := by
  cases i with
  | cwaInit own key =>
    simp only [bodyOf, cwaInit, h.cfg]
    exact h.setCwa _
  | cwaRelease =>
    have hseal := h.autoSeal
    simp only [bodyOf, cwaRelease_eq, hseal.cwa]
    split
    · exact (hseal.addEvent _).setCwa _
    · exact hseal.setCwa _
  | cwaGetError =>
    simp only [bodyOf, cwaGetError, h.cwa]
    exact h.setR _
  | cwaWrite p =>
    have hwr := h.cwaWriteCore p
    simp only [bodyOf, cwaWrite, hwr.answer]
    exact hwr.alike.setR _
  | cwaFlush => exact h.cwaFlushBody
  | cwaSeal => exact h.cwaSealBody
  | _ => cases hu

theorem bodyOf_writeAlike {i : Instr} (hu : i.unit = .bw ∨ i.unit = .cwa) {s t : State} (h : WriteAlike s t) :
    WriteAlike (bodyOf i s) (bodyOf i t) :=
  hu.elim (bodyOf_writeAlike_of_bw · h) (bodyOf_writeAlike_of_cwa · h)

/-- Settles O19: the cycle and every body of the write channel keep two states alike in it. -/
theorem writeChannelDoesNotSeeReadSide : Obligations.WriteChannelDoesNotSeeReadSide := by
  intro i s t s' t' hu hcfg hbw hcwa hout hs hs'
  rw [exec_eq] at hs hs'
  cases hs
  cases hs'
  have hown : s'.liveOf i.unit = s.liveOf i.unit ∧ s'.errOf i.unit = s.errOf i.unit := by
    rcases hu with hu | hu
    · rw [hu]; exact ⟨congrArg Bw.live hbw, congrArg Bw.err hbw⟩
    · rw [hu]; exact ⟨congrArg Cwa.live hcwa, congrArg Cwa.err hcwa⟩
  have h := command_alike (R := WriteAlike) (cls := i.cls) hown.1 hown.2
    (fun st => ⟨hcfg, hbw, hcwa, hout, rfl, rfl, rfl⟩) (fun _ _ h => h.retire) (fun _ _ h => bodyOf_writeAlike hu h)
  exact ⟨h.bw, h.cwa, h.rawOut, h.r, h.status, h.dataOut⟩

/-! ## `RAW_OUT` only grows (rules R70, R77) -/

/-- `RAW_OUT` of `t` is that of `s` with some bytes at its end. -/
def OutGrows (s t : State) : Prop := ∃ l, t.rawOut = s.rawOut.append l

namespace OutGrows

variable {s t u : State}

theorem of_eq (h : t.rawOut = s.rawOut) : OutGrows s t := ⟨[], by rw [h, Memory.append_nil]⟩

theorem refl (s : State) : OutGrows s s := of_eq rfl

theorem trans (h1 : OutGrows s t) (h2 : OutGrows t u) : OutGrows s u := by
  obtain ⟨l, hl⟩ := h1
  obtain ⟨k, hk⟩ := h2
  exact ⟨l ++ k, by rw [hk, hl, Memory.append_append]⟩

/-- Growth speaks of `RAW_OUT` alone. -/
theorem congr (h : OutGrows s t) (hu : u.rawOut = t.rawOut) : OutGrows s u := h.trans (of_eq hu)

end OutGrows

theorem rawOutWrite_outGrows (l : List Byte) (s : State) : OutGrows s (rawOutWrite l s).2 := ⟨l, rfl⟩

theorem cwaFlushCore_outGrows (final : Bool) (s : State) : OutGrows s (cwaFlushCore final s) := by
  have hwr := rawOutWrite_outGrows (s.cwa.cipherText final) s
  unfold cwaFlushCore
  dsimp only
  split
  · exact .of_eq (by simp)
  · split
    · exact hwr
    · exact hwr.congr (by simp)

theorem cwaPutBytes_outGrows (l : List Byte) (s : State) : OutGrows s (cwaPutBytes l s).2 := by
  induction l generalizing s with
  | nil => exact .refl s
  | cons c rest ih =>
    have hfl := cwaFlushCore_outGrows false
      (s.setCwa { s.cwa with wbuf := s.cwa.wbuf.set s.cwa.nbuf c, nbuf := s.cwa.nbuf + 1 })
    unfold cwaPutBytes
    dsimp only
    split
    · split
      · exact hfl
      · exact OutGrows.trans hfl (ih _)
    · exact ih (s.setCwa _)

theorem cwaWriteCore_outGrows (l : List Byte) (s : State) : OutGrows s (cwaWriteCore l s).2 := by
  unfold cwaWriteCore
  split
  · exact .of_eq rfl
  · exact cwaPutBytes_outGrows l s

theorem cwaFlushBody_outGrows (s : State) : OutGrows s (cwaFlushBody s) := by
  unfold cwaFlushBody
  split
  · exact .refl s
  · exact cwaFlushCore_outGrows false s

theorem cwaSealBody_outGrows (s : State) : OutGrows s (cwaSealBody s) := by
  unfold cwaSealBody
  split
  · exact .refl s
  · exact cwaFlushCore_outGrows true s

theorem dswWrite_outGrows (l : List Byte) (s : State) : OutGrows s (dswWrite l s).2 := by
  unfold dswWrite
  split
  · exact rawOutWrite_outGrows l s
  · split
    · exact .refl s
    · exact .refl s
    · exact cwaWriteCore_outGrows l s

theorem dswFlush_outGrows (s : State) : OutGrows s (dswFlush s) := by
  unfold dswFlush
  split
  · exact .of_eq rfl
  · split
    · exact .refl s
    · exact .refl s
    · exact cwaFlushBody_outGrows s

theorem bwFlush_outGrows (s : State) : OutGrows s (bwFlush s) := by
  have hwr := dswWrite_outGrows s.bw.pending s
  unfold bwFlush
  dsimp only
  split
  · exact dswFlush_outGrows s
  · split
    · exact hwr
    · exact hwr.trans (dswFlush_outGrows _)

theorem bwMakeRoom_outGrows (need : Nat) (s : State) : OutGrows s (bwMakeRoom need s) := by
  unfold bwMakeRoom
  split
  · exact bwFlush_outGrows s
  · exact .refl s

theorem bwStore_outGrows (need : Nat) (put : Bw → Bw) (s : State) : OutGrows s (bwStore need put s) := by
  unfold bwStore
  dsimp only
  split <;> exact bwMakeRoom_outGrows need s

theorem bwWriteBytesCore_outGrows (l : List Byte) (s : State) : OutGrows s (bwWriteBytesCore l s) := by
  have hfl := bwFlush_outGrows s
  have hwr := hfl.trans (dswWrite_outGrows l _)
  unfold bwWriteBytesCore
  dsimp only
  split
  · exact .of_eq rfl
  · split
    · exact hfl
    · split <;> exact hwr

theorem cwaRelease_outGrows (s : State) : OutGrows s (cwaRelease s) := by
  have hseal : OutGrows s (autoSeal s) := by
    unfold autoSeal
    split
    · exact cwaSealBody_outGrows s
    · exact .refl s
  rw [cwaRelease_eq]
  split <;> exact hseal

/-- No body takes a byte out of `RAW_OUT`. -/
theorem bodyOf_outGrows (i : Instr) (s : State) : OutGrows s (bodyOf i s) := by
  cases i with
  | bwWriteBits n v =>
    simp only [bodyOf, bwWriteBits]
    split
    · exact .refl s
    · exact bwStore_outGrows _ _ s
  | bwWriteByte v | bwWriteShort v | bwWriteInt v => exact bwStore_outGrows _ _ s
  | bwWriteBytes p => exact bwWriteBytesCore_outGrows p s
  | bwWriteString p =>
    have hwr := bwWriteBytesCore_outGrows p s
    simp only [bodyOf, bwWriteString]
    split
    · exact hwr
    · exact hwr.trans (bwStore_outGrows _ _ _)
  | bwFlush => exact bwFlush_outGrows s
  | cwaRelease => exact cwaRelease_outGrows s
  | cwaWrite p => exact cwaWriteCore_outGrows p s
  | cwaFlush => exact cwaFlushBody_outGrows s
  | cwaSeal => exact cwaSealBody_outGrows s
  | bwInit | bwRelease | bwGetError | cwaInit _ _ | cwaGetError => exact .of_eq rfl
  | bwAlign => simp only [bodyOf, bwAlign]; split <;> exact .of_eq rfl
  | bwMark => simp only [bodyOf, bwMark]; split <;> exact .of_eq rfl
  | bwUnmark => simp only [bodyOf, bwUnmark]; split <;> exact .of_eq rfl
  | bwCheck _ => simp only [bodyOf, bwCheck]; split <;> exact .of_eq rfl
  | craInit _ _ _ _ | craRelease | craGetError | craRead _ | craSeek _ _ | craTell | craEof =>
    exact .of_eq (bodyOf_writeSide (.inr rfl) s).rawOut
  | _ => exact .of_eq (bodyOf_writeSide (.inl rfl) s).rawOut

/-! ## The event log only grows (rule R80) -/

theorem finishRead_log {l : List Event} {rd : Option Nat × State} (h : l <+: rd.2.log) (f : Nat → Word64) :
    l <+: (finishRead f rd).log := by
  unfold finishRead
  split <;> exact h

theorem brReadBits_log (n : Nat) (f : Nat → Word64) (s : State) : s.log <+: (brReadBits n f s).log := by
  have hpk := brPeekBits_log n s
  unfold brReadBits
  dsimp only
  split <;> exact hpk

theorem cwaRelease_log (s : State) : s.log <+: (cwaRelease s).log := by
  have hseal : s.log <+: (autoSeal s).log := by
    unfold autoSeal
    split
    · exact cwaSealBody_log s
    · exact List.prefix_refl _
  rw [cwaRelease_eq]
  split
  · exact hseal.trans (List.prefix_append _ _)
  · exact hseal

/-- No body of the read channel takes an event out of the log. -/
theorem bodyOf_log_of_read {i : Instr} (hu : i.unit = .br ∨ i.unit = .cra) (s : State) :
    s.log <+: (bodyOf i s).log := by
  have hrefl := List.prefix_refl s.log
  cases i with
  | brReadUbits n | brReadSbits n => exact brReadBits_log _ _ s
  | brScanUbits n | brScanSbits n => exact finishRead_log (brPeekBits_log _ s) _
  | brReadU8 | brReadS8 | brReadU16 | brReadS16 | brReadU32 | brReadS32 =>
    exact finishRead_log (brReadLE_log _ s) _
  | brAlign =>
    simp only [bodyOf, brAlign]
    split
    · exact hrefl
    · exact brReposition_log _ _ s
  | brSkip _ | brSkipBits _ => exact brReposition_log _ _ s
  | brReset => simp only [bodyOf, brReset]; split <;> exact brReposition_log _ _ s
  | brReadBytes _ | brReadStrFixed _ => exact brReadBytesCore_log _ s
  | brReadStrNul => exact brStrLoop_log _ s
  | brInit | brRelease | brGetError | craInit _ _ _ _ | craGetError | craTell | craEof => exact hrefl
  | brMark => simp only [bodyOf, brMark]; split <;> exact hrefl
  | brUnmark => simp only [bodyOf, brUnmark]; split <;> exact hrefl
  | brCheck _ => simp only [bodyOf, brCheck]; split <;> exact hrefl
  | brBytesRead => simp only [bodyOf, brBytesRead]; split <;> exact hrefl
  | craRelease =>
    simp only [bodyOf, craRelease]
    split
    · exact List.prefix_append _ _
    · exact hrefl
  | craRead _ => exact craReadCore_log _ s
  | craSeek _ _ => exact craSeekCore_log _ _ s
  | _ => simp [Instr.unit] at hu

/-- No body of the write channel takes an event out of the log. -/
theorem bodyOf_log_of_write {i : Instr} (hu : i.unit = .bw ∨ i.unit = .cwa) (s : State) :
    s.log <+: (bodyOf i s).log := by
  have hrefl := List.prefix_refl s.log
  cases i with
  | bwWriteBits n v =>
    simp only [bodyOf, bwWriteBits]
    split
    · exact hrefl
    · exact bwStore_log _ _ s
  | bwWriteByte v | bwWriteShort v | bwWriteInt v => exact bwStore_log _ _ s
  | bwWriteBytes p => exact bwWriteBytesCore_log p s
  | bwWriteString p => exact bwWriteString_log p s
  | bwFlush => exact bwFlush_log s
  | bwInit | bwRelease | bwGetError | cwaInit _ _ | cwaGetError => exact hrefl
  | bwAlign => simp only [bodyOf, bwAlign]; split <;> exact hrefl
  | bwMark => simp only [bodyOf, bwMark]; split <;> exact hrefl
  | bwUnmark => simp only [bodyOf, bwUnmark]; split <;> exact hrefl
  | bwCheck _ => simp only [bodyOf, bwCheck]; split <;> exact hrefl
  | cwaRelease => exact cwaRelease_log s
  | cwaWrite p => exact cwaWriteCore_log p s
  | cwaFlush => exact cwaFlushBody_log s
  | cwaSeal => exact cwaSealBody_log s
  | _ => simp [Instr.unit] at hu

theorem bodyOf_log (i : Instr) (s : State) : s.log <+: (bodyOf i s).log := by
  cases hu : i.unit with
  | br => exact bodyOf_log_of_read (.inl hu) s
  | cra => exact bodyOf_log_of_read (.inr hu) s
  | bw => exact bodyOf_log_of_write (.inl hu) s
  | cwa => exact bodyOf_log_of_write (.inr hu) s

/-- What was appended to `RAW_OUT` stands after its last byte, and nothing else reads differently (rule R77). -/
theorem Stored.of_append {s t : State} {l : List Byte} (hwf : s.rawOut.wf) (hin : t.rawIn = s.rawIn)
    (hout : t.rawOut = s.rawOut.append l) : Stored s t l where
  input a := by rw [hin]
  within j hj := by
    rw [hout, Memory.read?_eq (Memory.append_wf hwf l), Memory.append_bytes,
      List.getElem?_append_right (by simp), Memory.bytes_length, Nat.add_sub_cancel_left]
  outside a ha := by
    rw [hout]
    rcases ha with ha | ha
    · exact Memory.read?_append_of_lt hwf l ha
    · rw [Memory.read?_eq (Memory.append_wf hwf l), Memory.read?_eq hwf, List.getElem?_eq_none (by simpa using ha),
        List.getElem?_eq_none (by simp; omega)]

theorem exec_outGrows {i : Instr} {s t : State} (h : exec i s = .next t) : OutGrows s t ∧ s.log <+: t.log := by
  rcases exec_cases h with ⟨-, rfl⟩ | ⟨-, -, rfl⟩ | ⟨-, -, rfl⟩
  · exact ⟨.of_eq rfl, List.prefix_refl _⟩
  · exact ⟨.of_eq rfl, List.prefix_refl _⟩
  · exact ⟨bodyOf_outGrows i (s.begin .ok), bodyOf_log i (s.begin .ok)⟩

/-- Settles O20: every body only appends, to `RAW_OUT` and to the log. -/
theorem outputAndLogOnlyGrow : Obligations.OutputAndLogOnlyGrow := by
  intro i s t h hwf
  obtain ⟨⟨l, hl⟩, hlog⟩ := exec_outGrows h
  exact ⟨⟨l, hl, .of_append hwf (exec_advances h).2.rawIn hl⟩, hlog⟩

end Sys2Proof.Machine
end

section
/-! PROOFS. READ of `CRA` (rules R261, R262), the ciphertext `CWA` leaves in `RAW_OUT` whatever the split of its plaintext
(rules R89, R296), and that a `CRA` with the same key reads the plaintext back (rules R75, R267). -/

namespace Sys2Proof.Machine

/-! ## READ of `CRA` -/

/-- READ leaves everything alone but the position, the cache, the error, the cursor of `RAW_IN`, the log and the results. -/
theorem craRead_sameForCra (s : State) (cnt : BitVec 32) : SameForCra s (craRead cnt (s.begin .ok)).retire where
  launch := ⟨by simp [craRead], by simp [craRead], by simp [craRead]⟩
  writeSide := ⟨by simp [craRead], by simp [craRead], by simp [craRead]⟩
  memory := .of_eq (by simp [craRead]) (by simp [craRead])
  br := by simp [craRead]
  live := by simp [craRead]
  own := by simp [craRead]
  sched := by simp [craRead]
  start := by simp [craRead]
  length := by simp [craRead]
  log := craReadCore_log cnt.toNat (s.begin .ok)

/-- What READ does, with a right cache (rules R261, R262). -/
theorem exec_craRead {s : State} (hready : s.ready .cra) (hc : s.cacheOk) (cnt : BitVec 32) :
    ∃ t data, exec (.craRead cnt) s = .next t ∧ SameForCra s t ∧ data = takeBytes s.craByte s.cra.pos cnt.toNat ∧
      Completed s t .ok (BitVec.ofNat 64 data.length) data ∧ t.cra.pos = s.cra.pos + data.length ∧ t.cacheOk ∧
      t.cra.err = if data.length < cnt.toNat ∧ s.cra.pos + data.length < s.cra.length then .invalidData else .noError := by
  obtain ⟨hdata, hpos, herr, hcache⟩ := craReadCore_spec cnt.toNat (s := s.begin .ok) hc
  have hnone : s.cra.err = .noError := hready.2
  have hstream : (s.begin .ok).craByte = s.craByte := rfl
  rw [State.begin_cra, hstream] at hdata hpos herr
  rw [hnone, latch_noError] at herr
  refine ⟨_, _, exec_ready (i := .craRead cnt) rfl hready, craRead_sameForCra s cnt, rfl, ⟨?_, ?_, ?_, ?_⟩, hpos,
    hcache, herr⟩
  · simp [bodyOf, craRead]
  · simp [bodyOf, craRead]
  · rw [← hdata]
    rfl
  · exact hdata

/-- Settles O52: READ takes the bytes of the plaintext stream from the position on. -/
theorem craReadDeliversPlaintext : Obligations.CraReadDeliversPlaintext :=
  fun _ cnt hinv hready => exec_craRead hready hinv.cra.cache cnt

/-! ## An open `CWA` -/

/-- `CWA` is live, holds no error, is not sealed, and its buffer is not full (rule R49). -/
structure CwaOpen (s : State) : Prop where
  sink : SinkOk s
  live : s.cwa.live = true
  err : s.cwa.err = .noError
  unsealed : s.cwa.sealed = false

namespace CwaOpen

variable {s t : State}

theorem ready (h : CwaOpen s) : s.ready .cwa := ⟨h.live, h.err⟩

theorem nbuf_lt (h : CwaOpen s) : s.cwa.nbuf < s.cfg.cCW := h.sink.nbuf_lt h.err

theorem nbuf_le (h : CwaOpen s) : s.cwa.nbuf ≤ s.cwa.wbuf.length := by
  rw [h.sink.wbuf_length]
  exact h.nbuf_lt.le

theorem unsent_length (h : CwaOpen s) : s.cwa.unsent.length = s.cwa.nbuf := Cwa.unsent_length h.nbuf_le

theorem congr (h : CwaOpen s) (hcfg : t.cfg = s.cfg) (hcwa : t.cwa = s.cwa) : CwaOpen t :=
  ⟨h.sink.congr hcfg hcwa, hcwa ▸ h.live, hcwa ▸ h.err, hcwa ▸ h.unsealed⟩

end CwaOpen

/-- The open `CWA` of `t` is that of `s` after it took the plaintext `l`: it has sent whole blocks of the unsent bytes and
`l`, and holds the others unsent (rules R290, R291). -/
structure CwaTook (s t : State) (l : List Byte) : Prop where
  isOpen : CwaOpen t
  sched : t.cwa.sched = s.cwa.sched
  sent : ∃ m, 8 * m ≤ (s.cwa.unsent ++ l).length ∧
    t.rawOut = s.rawOut.append (transformBlocks s.cwa.sched m (s.cwa.unsent ++ l)) ∧
    t.cwa.unsent = (s.cwa.unsent ++ l).drop (8 * m)

theorem CwaTook.congr {s t u : State} {l : List Byte} (h : CwaTook s t l) (hcfg : u.cfg = t.cfg) (hcwa : u.cwa = t.cwa)
    (hout : u.rawOut = t.rawOut) : CwaTook s u l :=
  ⟨h.isOpen.congr hcfg hcwa, hcwa ▸ h.sched, by rw [hout, hcwa]; exact h.sent⟩

/-- Sealed now or after taking `l`, the output is the same (rule R89). -/
theorem CwaTook.append_ecb {s t : State} {l : List Byte} (h : CwaTook s t l) (rest : List Byte) :
    t.rawOut.append (ecb t.cwa.sched (t.cwa.unsent ++ rest)) =
      s.rawOut.append (ecb s.cwa.sched (s.cwa.unsent ++ (l ++ rest))) := by
  obtain ⟨m, hm, hout, hunsent⟩ := h.sent
  rw [hout, hunsent, h.sched, Memory.append_append, ← List.append_assoc s.cwa.unsent,
    ecb_split s.cwa.sched (s.cwa.unsent ++ l ++ rest) m (by rw [List.length_append]; omega),
    transformBlocks_append_left _ _ _ _ hm, List.drop_append_of_le_length hm]

/-- WRITE's loop takes its bytes (rule R291). -/
theorem cwaPutBytes_took (l : List Byte) {s : State} (h : CwaOpen s) : CwaTook s (cwaPutBytes l s).2 l := by
  have hlt := h.nbuf_lt
  have hmul : 8 * (s.cfg.cCW / 8) = s.cfg.cCW := Nat.mul_div_cancel' (Nat.dvd_of_mod_eq_zero h.sink.multiple)
  obtain ⟨-, herr, hwbuf, hnbuf, hunsent, hout⟩ := cwaPutBytes_spec l h.sink.wbuf_length h.sink.multiple hlt h.err
  refine ⟨⟨⟨by simpa using h.sink.multiple, by simpa using hwbuf, fun _ => ?_⟩, by simpa using h.live, herr,
    by simpa using h.unsealed⟩, by simp, s.cfg.cCW / 8 * ((s.cwa.nbuf + l.length) / s.cfg.cCW), ?_, hout, ?_⟩
  · simpa [hnbuf] using Nat.mod_lt _ (by omega)
  · rw [List.length_append, h.unsent_length, ← Nat.mul_assoc, hmul]
    exact Nat.mul_div_le _ _
  · rw [← Nat.mul_assoc, hmul]
    exact hunsent

/-- A non-final flush takes nothing (rule R290). -/
theorem cwaFlushCore_took {s : State} (h : CwaOpen s) : CwaTook s (cwaFlushCore false s) [] := by
  have hlt := h.nbuf_lt
  obtain ⟨hout, hcwa, -⟩ := cwaFlushCore_spec false h.nbuf_le
  obtain ⟨hunsent, hnbuf, hwbuf⟩ := Cwa.flushed_unsent h.nbuf_le false
  rw [← hcwa] at hunsent hnbuf hwbuf
  refine ⟨⟨⟨by simpa using h.sink.multiple, by simpa [hwbuf] using h.sink.wbuf_length, fun _ => ?_⟩,
    by simpa using h.live, (cwaFlushCore_err false s).trans h.err, by simpa using h.unsealed⟩, by simp,
    s.cwa.nbuf / 8, ?_, ?_, ?_⟩
  · simpa [hnbuf] using (Nat.mod_le _ _).trans_lt hlt
  · rw [List.append_nil, h.unsent_length]
    exact Nat.mul_div_le _ _
  · rw [List.append_nil]
    exact hout
  · rw [List.append_nil]
    exact hunsent

/-- WRITE and FLUSH of an open `CWA` take their plaintext (rules R291, R292). -/
theorem exec_plaintext {i : Instr} {l : List Byte} (hi : plaintextOf i = some l) {s : State} (h : CwaOpen s) :
    ∃ t, exec i s = .next t ∧ CwaTook s t l := by
  have hbegin : CwaOpen (s.begin .ok) := h.congr rfl rfl
  cases i with
  | cwaWrite p =>
    cases hi
    have hbody : cwaWriteCore l (s.begin .ok) = cwaPutBytes l (s.begin .ok) := if_neg (by simp [h.unsealed])
    obtain ⟨hopen, hsched, hsent⟩ := cwaPutBytes_took l hbegin
    refine ⟨_, exec_ready (i := .cwaWrite l) rfl h.ready, .congr ⟨hopen, hsched, hsent⟩ ?_ ?_ ?_⟩ <;>
      simp [bodyOf, cwaWrite, hbody]
  | cwaFlush =>
    cases hi
    have hbody : cwaFlushBody (s.begin .ok) = cwaFlushCore false (s.begin .ok) := if_neg (by simp [h.unsealed])
    obtain ⟨hopen, hsched, hsent⟩ := cwaFlushCore_took hbegin
    refine ⟨_, exec_ready (i := .cwaFlush) rfl h.ready, .congr ⟨hopen, hsched, hsent⟩ ?_ ?_ ?_⟩ <;>
      simp [bodyOf, hbody]
  | _ => cases hi

/-- SEAL of an open `CWA` sends the zero-padded encryption of what is unsent (rule R293). -/
theorem exec_cwaSeal {s : State} (h : CwaOpen s) :
    ∃ t, exec .cwaSeal s = .next t ∧ t.rawOut = s.rawOut.append (ecb s.cwa.sched s.cwa.unsent) ∧
      t.cwa.sealed = true ∧ t.cwa.err = .noError := by
  have hbegin : CwaOpen (s.begin .ok) := h.congr rfl rfl
  have hbody : cwaSealBody (s.begin .ok) =
      (cwaFlushCore true (s.begin .ok)).setCwa { (cwaFlushCore true (s.begin .ok)).cwa with sealed := true } :=
    if_neg (by simp [h.unsealed])
  refine ⟨_, exec_ready (i := .cwaSeal) rfl h.ready, ?_⟩
  simp only [bodyOf, hbody]
  exact ⟨(cwaFlushCore_spec true hbegin.nbuf_le).1, rfl, (cwaFlushCore_err true _).trans h.err⟩

/-- A list runs on from the state its first command leaves. -/
theorem execAll_cons {i : Instr} {s t : State} (h : exec i s = .next t) (rest : List Instr) :
    execAll (i :: rest) s = execAll rest t := by
  simp only [execAll, h]

/-- From an open `CWA`, WRITE and FLUSH commands and then SEAL leave the encryption of all the plaintext (rule R89). -/
theorem execAll_cwaSeal {cmds : List Instr} {plain : List (List Byte)} (hp : cmds.map plaintextOf = plain.map some)
    {s : State} (h : CwaOpen s) :
    ∃ t, execAll (cmds ++ [.cwaSeal]) s = .next t ∧
      t.rawOut = s.rawOut.append (ecb s.cwa.sched (s.cwa.unsent ++ plain.flatten)) ∧ t.cwa.sealed = true ∧
      t.cwa.err = .noError := by
  induction cmds generalizing plain s with
  | nil =>
    obtain rfl : plain = [] := List.map_eq_nil_iff.1 hp.symm
    obtain ⟨t, hexec, hout, hsealed⟩ := exec_cwaSeal h
    exact ⟨t, execAll_cons hexec [], by simpa using hout, hsealed⟩
  | cons i rest ih =>
    cases plain with
    | nil => cases hp
    | cons l plain =>
      obtain ⟨hi, hrest⟩ := List.cons.inj hp
      obtain ⟨u, hexec, htook⟩ := exec_plaintext hi h
      obtain ⟨t, hrun, hout, hsealed⟩ := ih hrest htook.isOpen
      exact ⟨t, (execAll_cons hexec _).trans hrun, by rw [hout, htook.append_ecb, List.flatten_cons], hsealed⟩

/-- Settles O58: every command keeps what SEAL would have sent. -/
theorem splitIndependentEncryption : Obligations.SplitIndependentEncryption := by
  intro s cmds plain hinv hready hopen hp
  exact execAll_cwaSeal hp ⟨hinv.sinkOk, hready.1, hready.2, hopen⟩

/-! ## The cipher round trip -/

/-- Decryption undoes encryption under the same key (rule R75). -/
theorem transform_dec_enc (key x : Block) : transform ⟨key, .dec⟩ (transform ⟨key, .enc⟩ x) = x :=
  (Config.cipher key).symm_apply_apply x

/-- A whole block needs no padding. -/
theorem blockOfList_val (b : Block) : blockOfList b.val = b :=
  Subtype.ext (List.take_left' b.2)

/-- Block `b` of the encryption of `q` is the encryption of block `b` of `q` (rule R89). -/
theorem sliceBytes_ecb (k : Schedule) (q : List Byte) {b : Nat} (hb : 8 * b < q.length) :
    sliceBytes (ecb k q) (8 * b) 8 = (transform k (blockOfList ((q.drop (8 * b)).take 8))).val := by
  obtain ⟨n, hn⟩ : ∃ n, (q.length + 7) / 8 = b + (n + 1) := ⟨(q.length + 7) / 8 - b - 1, by omega⟩
  rw [ecb, hn, transformBlocks_add, transformBlocks, sliceBytes, List.drop_left' (transformBlocks_length k b q),
    List.take_left' (transform k _).2]

/-- Byte `j` of a list stands in the block of its position (rule R74). -/
theorem blockByte_blockOfList (q : List Byte) {j : Nat} (hj : j < q.length) :
    some (blockByte (blockOfList ((q.drop (8 * (j / 8))).take 8)) j) = q[j]? := by
  have hlt : j % 8 < ((q.drop (8 * (j / 8))).take 8).length := by simp; omega
  have hget : ((q.drop (8 * (j / 8))).take 8)[j % 8]? = q[j]? := by
    rw [List.getElem?_take_of_lt (by omega), List.getElem?_drop, Nat.div_add_mod]
  simp only [blockByte, blockOfList, byteAt, List.getD_eq_getElem?_getD]
  rw [List.getElem?_take_of_lt (by omega), List.getElem?_append_left hlt, hget, List.getElem?_eq_getElem hj,
    Option.getD_some]

/-- A `CRA` over the encryption of `q`, from its start, with the same key: its stream is `q` (rules R75, R267). -/
theorem craByte_ecb {s : State} {key : Block} {q : List Byte} (hraw : s.rawIn = Memory.ofBytes (ecb ⟨key, .enc⟩ q))
    (hsched : s.cra.sched = ⟨key, .dec⟩) (hstart : s.cra.start = 0) (hlen : s.cra.length = q.length) {j : Nat}
    (hj : j < q.length) : s.craByte j = q[j]? := by
  have hslice : s.rawIn.slice (s.cra.start + 8 * (j / 8)) 8 =
      (transform ⟨key, .enc⟩ (blockOfList ((q.drop (8 * (j / 8))).take 8))).val := by
    rw [hraw, Memory.slice_eq (Memory.ofBytes_wf _), Memory.bytes_ofBytes, hstart, Nat.zero_add,
      sliceBytes_ecb _ _ (by omega)]
  rw [State.craByte_of_whole (by omega) (by rw [hslice]; exact (transform _ _).2), hslice, blockOfList_val, hsched,
    transform_dec_enc, blockByte_blockOfList q hj]

/-- A fresh `CWA` is open (rule R294). -/
theorem cwaInit_cwaOpen (own : Bool) (key : Word64) {s : State} (h : Inv s) : CwaOpen (cwaInit own key s) where
  sink := by
    obtain ⟨-, -, hcap, hmul, -⟩ := h.launch.cfg_wf
    exact ⟨hmul, List.length_replicate, fun _ => Nat.lt_of_lt_of_le (Nat.zero_lt_succ 7) hcap⟩
  live := rfl
  err := rfl
  unsealed := rfl

/-- Settles O59: the sealed output is the encryption of `q`, whose stream for a `CRA` with the key is `q`. -/
theorem cipherRoundTrip : Obligations.CipherRoundTrip := by
  intro w r ownW ownR key q hw _ hcwa hout hcra hq
  have hinit : exec (.cwaInit ownW key) w = .next (cwaInit ownW key (w.begin .ok)).retire := by
    rw [exec_eq]
    exact congrArg _ (command_init (u := .cwa) hcwa)
  obtain ⟨t, hrun, htout, -⟩ := execAll_cwaSeal (cmds := [.cwaWrite q]) (plain := [q]) rfl
    ((cwaInit_cwaOpen ownW key (hw.begin .ok)).congr (t := (cwaInit ownW key (w.begin .ok)).retire) rfl rfl)
  refine ⟨t, (execAll_cons hinit _).trans hrun, fun hraw => ?_⟩
  have hrin : r.rawIn = Memory.ofBytes (ecb ⟨keyBytes key, .enc⟩ q) := by
    rw [hraw, htout]
    simp [cwaInit, Cwa.unsent, sliceBytes, hout, derive, Memory.append, Memory.ofBytes]
  have hreq : (BitVec.ofNat 64 q.length).toNat = q.length := by simp; omega
  have hcnt : (BitVec.ofNat 32 q.length).toNat = q.length := by simp; omega
  have hrinit : exec (.craInit ownR key (BitVec.ofNat 64 q.length) 0) r =
      .next (craInit ownR key (BitVec.ofNat 64 q.length) 0 (r.begin .ok)).retire := by
    rw [exec_eq]
    exact congrArg _ (command_init (u := .cra) hcra)
  generalize hr1 : (craInit ownR key (BitVec.ofNat 64 q.length) 0 (r.begin .ok)).retire = r1 at hrinit
  have hlen : r1.cra.length = q.length := by
    rw [← hr1]
    simp only [craInit, State.setCra_cra, State.retire_cra, hreq, State.begin_rawIn, hrin, Memory.ofBytes_length,
      ecb_length]
    simp
    omega
  have hpos : r1.cra.pos = 0 := by rw [← hr1]; rfl
  obtain ⟨u, data, hread, -, hdata, hdone, -, -, herr⟩ := exec_craRead (s := r1)
    (by rw [← hr1]; exact ⟨rfl, rfl⟩) (by rw [← hr1]; exact fun hd => nomatch hd) (BitVec.ofNat 32 q.length)
  have hall : data = q := by
    rw [hdata, hpos, hcnt]
    refine takeBytes_eq_of (Nat.le_refl _) (fun j hj => ?_) (fun hlt => absurd hlt (Nat.lt_irrefl _))
    rw [Nat.zero_add]
    exact craByte_ecb (by rw [← hr1]; exact hrin) (by rw [← hr1]; rfl) (by rw [← hr1]; rfl) hlen hj
  refine ⟨u, (execAll_cons hrinit _).trans (execAll_cons hread []), hdone.dataOut.trans hall, ?_⟩
  rw [herr, hall, hcnt, if_neg (by omega)]

end Sys2Proof.Machine
end

section
/-! PROOFS. Bit fields, most significant bit first (rules R71, R163), and the six little-endian integer reads of `BR` (rules
R72, R171 to R176, R191). -/

namespace Sys2Proof.Machine

/-! ## Bit fields (rule R71) -/

theorem beNat_append_singleton (l : List Byte) (b : Byte) : beNat (l ++ [b]) = 2 ^ 8 * beNat l + b.toNat := by
  simp [beNat, List.foldl_append, Nat.mul_comm]

/-- The bits of a byte list in cursor order are those of its value from the top down (rules R71, R163). -/
theorem testBit_beNat (l : List Byte) {j : Nat} (hj : j < 8 * l.length) :
    (beNat l).testBit (8 * l.length - 1 - j) = bitAt l j := by
  induction l using List.reverseRecOn with
  | nil => simp at hj
  | append_singleton l b ih =>
    simp only [List.length_append, List.length_singleton] at hj ⊢
    rw [beNat_append_singleton, Nat.testBit_two_pow_mul_add _ b.isLt]
    by_cases hlast : 8 * l.length ≤ j
    · rw [if_pos (by omega), BitVec.testBit_toNat, bitAt, byteAt, List.getD_eq_getElem?_getD,
        show j / 8 = l.length by omega, List.getElem?_concat_length, Option.getD_some,
        show 8 * (l.length + 1) - 1 - j = 7 - j % 8 by omega]
    · rw [if_neg (by omega), show 8 * (l.length + 1) - 1 - j - 8 = 8 * l.length - 1 - j by omega, ih (by omega)]
      simp only [bitAt, byteAt, List.getD_eq_getElem?_getD]
      rw [List.getElem?_append_left (by omega)]

theorem fieldBits_eq_mod (l : List Byte) (bit n : Nat) :
    fieldBits l bit n = (beNat l >>> (8 * l.length - bit - n)) % 2 ^ n := Nat.and_two_pow_sub_one_eq_mod _ _

theorem fieldBits_lt (l : List Byte) (bit n : Nat) : fieldBits l bit n < 2 ^ n := by
  rw [fieldBits_eq_mod]
  exact Nat.mod_lt _ (Nat.two_pow_pos n)

/-- Bit `j` of a field, counted from its most significant one, is bit `j` after the cursor (rule R71). -/
theorem testBit_fieldBits (l : List Byte) {bit n j : Nat} (hj : j < n) (hfit : bit + n ≤ 8 * l.length) :
    (fieldBits l bit n).testBit (n - 1 - j) = bitAt l (bit + j) := by
  rw [fieldBits_eq_mod, Nat.testBit_mod_two_pow, Nat.testBit_shiftRight, ← testBit_beNat l (by omega),
    decide_eq_true (by omega : n - 1 - j < n), Bool.true_and]
  congr 1
  omega

/-- Settles O29: the field is the low bits of the number whose bits are those of the list. -/
theorem fieldIsMostSignificantBitFirst : Obligations.FieldIsMostSignificantBitFirst := by
  intro l bit n hfit
  refine ⟨fieldBits_lt l bit n, fun j hj => ?_⟩
  rw [testBit_fieldBits l hj hfit, bitsOf_getElem? l (by omega), Option.getD_some]

/-! ## The results of integer reads (rules R72, R168) -/

theorem leNat_lt (l : List Byte) : leNat l < 2 ^ (8 * l.length) := by
  induction l with
  | nil => simp [leNat]
  | cons b l ih =>
    have hb := b.isLt
    rw [leNat, List.length_cons, Nat.mul_succ, Nat.pow_add]
    omega

theorem unsignedResult_eq {v : Nat} (hv : v < 2 ^ 32) : unsignedResult v = BitVec.ofNat 64 v := by
  refine BitVec.eq_of_toNat_eq ?_
  simp only [unsignedResult, result32, BitVec.toNat_setWidth, BitVec.toNat_ofNat]
  omega

/-- Sign extension to 32 bits is the pattern of rule R168. -/
theorem signedResult_eq {n v : Nat} (hn : n ≤ 32) (hv : v < 2 ^ n) :
    signedResult n v = BitVec.ofNat 64 (signedPattern n v) := by
  have hpow : 2 ^ n ≤ 2 ^ 32 := Nat.pow_le_pow_right (by omega) hn
  have hmsb : (BitVec.ofNat n v).msb = decide (2 ^ (n - 1) ≤ v) := by
    rw [BitVec.msb_eq_decide, BitVec.toNat_ofNat, Nat.mod_eq_of_lt hv]
  refine BitVec.eq_of_toNat_eq ?_
  simp only [signedResult, result32, sextTo32, signedPattern, BitVec.toNat_setWidth, BitVec.toNat_signExtend,
    BitVec.toNat_ofNat, hmsb, decide_eq_true_eq, Nat.mod_eq_of_lt hv]
  split
  · rw [if_neg (by omega)]
    omega
  · rw [if_pos (by omega)]
    omega

/-! ## What an integer read leaves alone -/

theorem brEnsure_cra_of_raw {nb : Nat} {s : State} (h : s.cfg.brSrc = .raw) : (brEnsure nb s).2.cra = s.cra := by
  unfold brEnsure
  dsimp only
  split
  · exact brFill_cra_of_raw h
  · rfl

theorem brReadLE_cra_of_raw {k : Nat} {s : State} (h : s.cfg.brSrc = .raw) : (brReadLE k s).2.cra = s.cra := by
  have hen := brEnsure_cra_of_raw (nb := k) h
  unfold brReadLE
  dsimp only
  split <;> exact hen

theorem brReadLE_sameForReader (k : Nat) (s : State) : SameForReader s (brReadLE k s).2 where
  launch := ⟨by simp, by simp, by simp⟩
  writeSide := ⟨by simp, by simp, by simp⟩
  memory := .of_eq (by simp) (by simp)
  live := by simp
  marks := by simp
  craLive := by simp
  craOwn := by simp
  craSched := by simp
  craStart := by simp
  craLength := by simp
  craRaw := brReadLE_cra_of_raw
  log := brReadLE_log k s

/-- The command cycle around a body of `BR` and the result it sets leave alone what the body does. -/
theorem SameForReader.of_body {s x y : State} (h : SameForReader (s.begin .ok) x) (hcfg : y.cfg = x.cfg)
    (hraw : y.rawIn = x.rawIn) (hcmds : y.cmds = x.cmds) (hbr : y.br = x.br) (hcra : y.cra = x.cra)
    (hside : SameWriteSide x y) (hlog : y.log = x.log) : SameForReader s y where
  launch := ⟨hcfg.trans h.launch.cfg, hraw.trans h.launch.rawIn, hcmds.trans h.launch.cmds⟩
  writeSide :=
    ⟨hside.bw.trans h.writeSide.bw, hside.cwa.trans h.writeSide.cwa, hside.rawOut.trans h.writeSide.rawOut⟩
  memory := .of_eq (hraw.trans h.launch.rawIn) (hside.rawOut.trans h.writeSide.rawOut)
  live := hbr ▸ h.live
  marks := hbr ▸ h.marks
  craLive := hcra ▸ h.craLive
  craOwn := hcra ▸ h.craOwn
  craSched := hcra ▸ h.craSched
  craStart := hcra ▸ h.craStart
  craLength := hcra ▸ h.craLength
  craRaw hs := hcra.trans (h.craRaw hs)
  log := hlog ▸ h.log

theorem finishRead_some {f : Nat → Word64} {rd : Option Nat × State} {v : Nat} (h : rd.1 = some v) :
    finishRead f rd = rd.2.setR (f v) := by
  unfold finishRead
  rw [h]

theorem finishRead_none {f : Nat → Word64} {rd : Option Nat × State} (h : rd.1 = none) : finishRead f rd = rd.2 := by
  unfold finishRead
  rw [h]

/-! ## The six integer reads -/

/-- An integer read is `ReadLE` of its bytes, and its result the function of their value (rules R171 to R176). -/
theorem bodyOf_integerRead {i : Instr} {k : Nat} {f : Nat → Nat} (hi : integerRead i = some (k, f)) :
    i.unit = .br ∧ i.cls = .ordinary ∧ k ≤ 4 ∧ ∃ g : Nat → Word64, (∀ v < 2 ^ (8 * k), g v = BitVec.ofNat 64 (f v)) ∧
      ∀ s, bodyOf i s = finishRead g (brReadLE k s) := by
  cases i with
  | brReadU8 | brReadU16 =>
    cases hi
    exact ⟨rfl, rfl, by decide, resultNat, fun _ _ => rfl, fun _ => rfl⟩
  | brReadU32 | brReadS32 =>
    cases hi
    exact ⟨rfl, rfl, by decide, unsignedResult, fun _ => unsignedResult_eq, fun _ => rfl⟩
  | brReadS8 | brReadS16 =>
    cases hi
    exact ⟨rfl, rfl, by decide, signedResult _, fun _ => signedResult_eq (by decide), fun _ => rfl⟩
  | _ => cases hi

/-- The error of a read that found too few bytes (rule R323 (a)). -/
theorem latch_refillErr {s : State} (h : s.br.err = .noError) {code : Err} :
    latch (refillErr s) code = if s.sourceSeeks then code else .failedToRead := by
  unfold refillErr
  split
  · rw [h, latch_noError]
  · rw [h, latch_noError, latch_of_ne (by decide)]

/-- Settles O30: `ReadLE` finds its bytes or not. -/
theorem integerReadsAreLittleEndian : Obligations.IntegerReadsAreLittleEndian := by
  intro s i k f hi hinv hready
  obtain ⟨hunit, hcls, hk, g, hg, hbody⟩ := bodyOf_integerRead hi
  have hok := (hinv.begin .ok).brOk
  have hcap := hok.capacity
  have hframe := brReadLE_sameForReader k (s.begin .ok)
  have hexec := exec_ready hcls (hunit ▸ hready)
  rw [hbody] at hexec
  have herr : s.br.err = .noError := hready.2
  have hun : ∀ n, (s.begin .ok).unread n = s.unread n := fun _ => rfl
  by_cases hl : (s.unread k).length = k
  · obtain ⟨hval, hadv, herr'⟩ := brReadLE_some hok (by omega) (hun k ▸ hl)
    rw [finishRead_some hval, hun, hg _ (by simpa [hl] using leNat_lt (s.unread k))] at hexec
    refine ⟨_, hexec, hframe.of_body rfl rfl rfl rfl rfl ⟨rfl, rfl, rfl⟩ rfl, ?_⟩
    rw [if_pos hl]
    exact ⟨⟨by simp, by simp, rfl, by simp⟩, ⟨hadv.cur, by simp, hadv.unread, herr'⟩⟩
  · obtain ⟨hval, hcursor, herr'⟩ := brReadLE_none hok (by omega) (hun k ▸ hl)
    rw [finishRead_none hval] at hexec
    refine ⟨_, hexec, hframe.of_body rfl rfl rfl rfl rfl ⟨rfl, rfl, rfl⟩ rfl, ?_⟩
    rw [if_neg hl]
    exact ⟨⟨by simp, by simp, by simp, by simp⟩,
      ⟨hcursor.cur, by simp, hcursor.unread, herr'.trans (latch_refillErr herr)⟩⟩

end Sys2Proof.Machine
end

section
/-! PROOFS. The writes of `BW` into its buffer, with the flush they trigger (rules R71, R72, R220 to R224, R238). -/

namespace Sys2Proof.Machine

/-! ## What a write leaves alone -/

@[simp] theorem bwStore_frame (need : Nat) (put : Bw → Bw) (s : State) :
    (bwStore need put s).cfg = s.cfg ∧ (bwStore need put s).rawIn = s.rawIn ∧ (bwStore need put s).cmds = s.cmds ∧
    (bwStore need put s).pc = s.pc ∧ (bwStore need put s).r = s.r ∧ (bwStore need put s).status = s.status ∧
    (bwStore need put s).dataOut = s.dataOut ∧ (bwStore need put s).br = s.br ∧ (bwStore need put s).cra = s.cra ∧
    (bwStore need put s).rc = s.rc ∧ (bwStore need put s).cwa.live = s.cwa.live ∧
    (bwStore need put s).cwa.own = s.cwa.own ∧ (bwStore need put s).cwa.sched = s.cwa.sched ∧
    (bwStore need put s).cwa.sealed = s.cwa.sealed := by
  unfold bwStore; dsimp only; split <;> simp

theorem bwFlush_cwa_of_raw {s : State} (h : s.cfg.bwDst = .raw) : (bwFlush s).cwa = s.cwa := by
  have hwr := dswWrite_cwa_of_raw (l := s.bw.pending) h
  have hend : ∀ t : State, t.cfg.bwDst = .raw → (bwFlushEnd t).cwa = t.cwa := fun t ht => dswFlush_cwa_of_raw ht
  unfold bwFlush
  dsimp only
  split
  · exact hend s h
  · split
    · exact hwr
    · exact (hend _ (by simpa using h)).trans hwr

theorem bwStore_cwa_of_raw {need : Nat} {put : Bw → Bw} {s : State} (h : s.cfg.bwDst = .raw) :
    (bwStore need put s).cwa = s.cwa := by
  have hroom : (bwMakeRoom need s).cwa = s.cwa := by
    unfold bwMakeRoom
    split
    · exact bwFlush_cwa_of_raw h
    · rfl
  unfold bwStore
  dsimp only
  split <;> exact hroom

/-- Every byte but the ones appended reads as before (rule R77). -/
theorem OutGrows.output {s t : State} (h : OutGrows s t) (hwf : s.rawOut.wf) (a : Nat)
    (ha : a < s.rawOut.length ∨ t.rawOut.length ≤ a) : t.rawOut.read? a = s.rawOut.read? a := by
  obtain ⟨l, hl⟩ := h
  rw [hl, Memory.append_length] at ha
  exact (Stored.of_append (t := { s with rawOut := t.rawOut }) hwf rfl hl).outside a ha

/-- A write that puts nothing but buffer and cursor leaves the rest of `BW` and the frame of rule R88 alone. -/
theorem bwStore_sameForWriter {need : Nat} {put : Bw → Bw} {s : State} (hwf : s.rawOut.wf)
    (hlive : ∀ u, (put u).live = u.live) (hmarks : ∀ u, (put u).marks = u.marks) :
    SameForWriter s (bwStore need put (s.begin .ok)).retire where
  launch := ⟨by simp, by simp, by simp⟩
  readSide := ⟨by simp, by simp, by simp⟩
  live := by unfold bwStore; dsimp only; split <;> simp [hlive]
  marks := by unfold bwStore; dsimp only; split <;> simp [hmarks]
  cwaLive := by simp
  cwaOwn := by simp
  cwaSched := by simp
  cwaSealed := by simp
  cwaRaw h := bwStore_cwa_of_raw h
  output := (bwStore_outGrows need put (s.begin .ok)).output hwf
  log := bwStore_log need put (s.begin .ok)

/-- A write completes with nothing to deliver. -/
theorem bwStore_completed (need : Nat) (put : Bw → Bw) (s : State) :
    Completed s (bwStore need put (s.begin .ok)).retire .ok 0 [] := ⟨by simp, by simp, by simp, by simp⟩

/-! ## The three outcomes of a write -/

/-- The bits of the partial byte are those a flush carries to the front of the buffer (rule R220). -/
theorem BwBuf.bits_flushed {u : Bw} {cW : Nat} (h : BwBuf u cW) (h8 : 8 ≤ cW) : (u.flushed cW).bits = u.carried := by
  have hbit := u.bit.isLt
  have hle := h.bits_le
  rw [Bw.bits_eq (h.flushed h8).bits_le, Bw.carried, Bw.bits_eq hle]
  refine List.ext_getElem? fun j => ?_
  rw [List.getElem?_drop]
  by_cases hj : j < u.bit.val
  · have hne : u.bit ≠ 0 := fun h0 => by simp [h0] at hj
    have hbyte : byteAt (u.flushed cW).buf 0 = byteAt u.buf u.idx := by
      simp only [Bw.flushed, if_neg hne]
      rw [byteAt_set, if_pos ⟨rfl, by simp; omega⟩]
    have hat : bitAt (u.flushed cW).buf j = bitAt u.buf (8 * u.idx + j) := by
      unfold bitAt
      rw [Nat.div_eq_of_lt (by omega), hbyte, show (8 * u.idx + j) / 8 = u.idx by omega,
        show (8 * u.idx + j) % 8 = j % 8 by omega]
    have hj' : j < 8 * (u.flushed cW).idx + (u.flushed cW).bit.val := by simpa [Bw.flushed] using hj
    simp [hj', hj, hat]
  · rw [List.getElem?_eq_none (by simp [Bw.flushed]; omega), List.getElem?_eq_none (by simp; omega)]

/-- A write without room, before a downstream that accepts (rules R220, R221, R238): the pending bytes are sent, and the
write goes into the flushed buffer. -/
theorem bwStore_accepted {need : Nat} {put : Bw → Bw} {s : State} (hinv : Inv s) (he : s.bw.err = .noError)
    (hfull : s.cfg.cW < s.bw.idx + need) (ha : s.sinkAccepts) :
    (bwStore need put s).bw = put (s.bw.flushed s.cfg.cW) ∧ SinkTook s (bwStore need put s) s.bw.pending := by
  obtain ⟨hbw, htook, -⟩ := bwFlush_accepted hinv.sinkOk hinv.bw.buf_length hinv.bw.idx_le_cap hinv.bw.partial_room
    (.inl ha)
  rw [bwStore_flushes hfull (by rw [hbw]; exact he)]
  exact ⟨congrArg put hbw, htook.raw, htook.cwa⟩

/-- A write without room, before a downstream that refuses (rules R220, R221, R238, R321). -/
theorem bwStore_refused {need : Nat} {put : Bw → Bw} {s : State} (he : s.bw.err = .noError)
    (hfull : s.cfg.cW < s.bw.idx + need) (hneed : need ≤ s.cfg.cW) (hn : ¬s.sinkAccepts) :
    WriterFailed s (bwStore need put s) := by
  obtain ⟨hbw, hout, -⟩ := bwFlush_refused hn (by omega)
  rw [he, latch_noError] at hbw
  rw [bwStore_fails hfull (by rw [hbw]; simp)]
  exact ⟨by rw [hbw], by rw [hbw]; rfl, by rw [hbw], by rw [hbw]; rfl, hout⟩

/-! ## WRITE_BITS -/

/-- The bytes a field touches, as a division (rule R221). -/
theorem bytesTouched_eq (bit : Fin 8) (n : Nat) : bytesTouched bit n = (bit.val + n + 7) / 8 :=
  Nat.shiftRight_eq_div_pow _ 3

/-- The field stored in a buffer with room for the bytes it touches (rules R71, R221). -/
theorem BwBuf.putField {u : Bw} {cW n : Nat} (h : BwBuf u cW) (v : Word32) (hfit : u.idx + bytesTouched u.bit n ≤ cW) :
    (u.putBits v n).err = u.err ∧ (u.putBits v n).pos = u.pos ∧ (u.putBits v n).bits = u.bits ++ fieldOf n v ∧
    8 * (u.putBits v n).cur + (u.putBits v n).bit.val = 8 * u.cur + u.bit.val + n := by
  rw [bytesTouched_eq] at hfit
  obtain ⟨-, hbits, hmoved⟩ := Bw.putBits_spec h v n (by omega)
  have hpos : (u.putBits v n).pos = u.pos := by simp
  refine ⟨by simp, hpos, hbits, ?_⟩
  simp only [Bw.cur, hpos]
  omega

theorem bodyOf_bwWriteBits {n : BitVec 6} (hn : n ≠ 0) (v : Word32) (s : State) :
    bodyOf (.bwWriteBits n v) s = bwStore (bytesTouched s.bw.bit n.toNat) (fun u => u.putBits v n.toNat) s :=
  if_neg fun h0 => hn (BitVec.eq_of_toNat_eq h0)

/-- A command of `BW` that runs no rule of its own touches nothing. -/
theorem untouched_begin_retire (s : State) (st : Status) : Untouched s (s.begin st).retire where
  launch := ⟨rfl, rfl, rfl⟩
  readSide := ⟨rfl, rfl, rfl⟩
  writeSide := ⟨rfl, rfl, rfl⟩
  memory := .of_eq rfl rfl
  log := rfl

/-- What is untouched keeps the frame of a writer. -/
theorem Untouched.sameForWriter {s t : State} (h : Untouched s t) : SameForWriter s t where
  launch := h.launch
  readSide := h.readSide
  live := congrArg Bw.live h.writeSide.bw
  marks := congrArg Bw.marks h.writeSide.bw
  cwaLive := congrArg Cwa.live h.writeSide.cwa
  cwaOwn := congrArg Cwa.own h.writeSide.cwa
  cwaSched := congrArg Cwa.sched h.writeSide.cwa
  cwaSealed := congrArg Cwa.sealed h.writeSide.cwa
  cwaRaw _ := h.writeSide.cwa
  output a _ := h.memory.output a
  log := by rw [h.log]

/-- Settles O43: the write fits, or flushes into a downstream that accepts or refuses. -/
theorem writeBitsPacksTheField : Obligations.WriteBitsPacksTheField := by
  intro s n v hinv hready hn
  have hexec := exec_ready (i := .bwWriteBits n v) rfl hready
  by_cases h0 : n = 0
  · subst h0
    have hun := untouched_begin_retire s .ok
    exact ⟨(s.begin .ok).retire, hexec, ⟨rfl, rfl, rfl, rfl⟩, hun.sameForWriter, fun _ => hun,
      fun h => absurd rfl h, fun h => absurd rfl h, fun h => absurd rfl h⟩
  · rw [bodyOf_bwWriteBits h0, State.begin_bw] at hexec
    have herr : s.bw.err = .noError := hready.2
    have h8 := hinv.writeInv.capacity
    have hbit := s.bw.bit.isLt
    have hn : n.toNat ≤ 32 := hn
    have hneed : bytesTouched s.bw.bit n.toNat ≤ s.cfg.cW := by
      rw [bytesTouched_eq]
      omega
    refine ⟨_, hexec, bwStore_completed _ _ _,
      bwStore_sameForWriter hinv.launch.rawOut_wf (fun u => by simp) (fun u => by simp), fun h => absurd h h0,
      fun _ hfit => ?_, fun _ hfull ha => ?_, fun _ hfull hr => ?_⟩
    · rw [bwStore_fits (s := s.begin .ok) hfit herr]
      obtain ⟨hperr, hpos, hbits, hmoved⟩ := hinv.bwBuf.putField v hfit
      exact ⟨onlyUnit_setBw s .ok _, hperr.trans herr, hpos, hbits, hmoved⟩
    · obtain ⟨hbw, htook⟩ := bwStore_accepted (put := fun u => u.putBits v n.toNat) (hinv.begin .ok) herr hfull ha
      obtain ⟨hperr, hpos, hbits, hmoved⟩ := (hinv.bwBuf.flushed h8).putField (n := n.toNat) v
        (by simpa [Bw.flushed] using hneed)
      rw [hinv.bwBuf.bits_flushed h8] at hbits
      rw [Bw.flushed_cur] at hmoved
      rw [State.retire_bw, hbw]
      exact ⟨⟨htook.raw, htook.cwa⟩, hperr.trans herr, hpos, hbits, hmoved⟩
    · obtain ⟨hferr, hcur, hfbit, hbits, hout⟩ := bwStore_refused (put := fun u => u.putBits v n.toNat)
        (s := s.begin .ok) herr hfull hneed hr
      exact ⟨hferr, hcur, hfbit, hbits, hout⟩

/-! ## WRITE_BYTE, WRITE_SHORT and WRITE_INT -/

/-- An integer write stores its bytes as a run (rules R222 to R224, R238). -/
theorem bodyOf_integerWrite {i : Instr} {l : List Byte} (hi : integerWrite i = some l) :
    i.unit = .bw ∧ i.cls = .ordinary ∧ l.length ≤ 4 ∧
      ∀ s, bodyOf i s = bwStore (l.length + partialByte s.bw.bit) (fun u => u.putRun l) s := by
  cases i with
  | bwWriteByte v =>
    cases hi
    have hle : leBytes 1 v = [v] := congrArg (fun b => [b]) (BitVec.extractLsb'_eq_self (x := v))
    exact ⟨rfl, rfl, by simp, fun s => by simp only [bodyOf, bwWriteByte, bwWriteLE, hle]; rfl⟩
  | bwWriteShort v | bwWriteInt v =>
    cases hi
    exact ⟨rfl, rfl, by simp, fun _ => rfl⟩
  | _ => cases hi

/-- Settles O44: as WRITE_BITS, with a run of bytes. -/
theorem integerWritesAreLittleEndian : Obligations.IntegerWritesAreLittleEndian := by
  intro s i l hi hinv hready
  obtain ⟨hunit, hcls, hlen, hbody⟩ := bodyOf_integerWrite hi
  have hexec := exec_ready hcls (hunit ▸ hready)
  rw [hbody, State.begin_bw] at hexec
  have herr : s.bw.err = .noError := hready.2
  have h8 := hinv.writeInv.capacity
  have hneed : l.length + partialByte s.bw.bit ≤ s.cfg.cW := by
    have := partialByte_le_one s.bw.bit
    omega
  refine ⟨_, hexec, bwStore_completed _ _ _,
    bwStore_sameForWriter hinv.launch.rawOut_wf (fun _ => rfl) (fun _ => rfl), fun hfit => ?_,
    fun hfull ha => ?_, fun hfull hr => ?_⟩
  · rw [bwStore_fits (s := s.begin .ok) hfit herr]
    exact ⟨onlyUnit_setBw s .ok _, herr, rfl, rfl, rfl, (Bw.putRun_spec hinv.bwBuf l (by omega)).2⟩
  · obtain ⟨hbw, htook⟩ := bwStore_accepted (put := fun u => u.putRun l) (hinv.begin .ok) herr hfull ha
    obtain ⟨-, hslice⟩ := Bw.putRun_spec (hinv.bwBuf.flushed h8) l (by simpa [Bw.flushed] using hneed)
    have hidx : (s.bw.flushed s.cfg.cW).idx + l.length = l.length := Nat.zero_add _
    rw [State.retire_bw, hbw]
    exact ⟨⟨htook.raw, htook.cwa⟩, herr, rfl, hidx, rfl, hslice⟩
  · obtain ⟨hferr, hcur, hfbit, hbits, hout⟩ := bwStore_refused (put := fun u => u.putRun l)
      (s := s.begin .ok) herr hfull hneed hr
    exact ⟨hferr, hcur, hfbit, hbits, hout⟩

end Sys2Proof.Machine
end

section
/-! PROOFS. Bit fields written, aligned and flushed are read back (E1 of 95_test_vectors.md, rules R71, R163, R221): the
writer holds the bits of the fields in a row, the flush turns them into bytes, and the reader takes them off one by one. -/

namespace Sys2Proof.Machine

/-! ## The writer -/

theorem BwBuf.bits_length {u : Bw} {cW : Nat} (h : BwBuf u cW) : u.bits.length = 8 * u.idx + u.bit.val := by
  rw [Bw.bits_eq h.bits_le]
  simp

/-- A `BW` over an empty `RAW_OUT` is ready and holds exactly the bits `bs`. -/
structure HoldsBits (cW : Nat) (s : State) (bs : List Bool) : Prop where
  ready : s.ready .bw
  capacity : s.cfg.cW = cW
  dst : s.cfg.bwDst = .raw
  sink : SinkOk s
  rawOut : s.rawOut = []
  buf : BwBuf s.bw cW
  bits : s.bw.bits = bs

/-- A change of `BW` alone that keeps rule R29. -/
theorem HoldsBits.setBw {cW : Nat} {s : State} {bs : List Bool} (h : HoldsBits cW s bs) {u : Bw} (hlive : u.live = s.bw.live)
    (herr : u.err = s.bw.err) (hbuf : BwBuf u cW) : HoldsBits cW ((s.begin .ok).setBw u).retire u.bits where
  ready := ⟨hlive.trans h.ready.1, herr.trans h.ready.2⟩
  capacity := h.capacity
  dst := h.dst
  sink := h.sink.congr rfl rfl
  rawOut := h.rawOut
  buf := hbuf
  bits := rfl

/-- WRITE_BITS with room for the field adds its bits (rule R221). -/
theorem exec_bwWriteBits_holds {cW : Nat} {s : State} {bs : List Bool} (h : HoldsBits cW s bs) {n : BitVec 6} (v : Word32)
    (hn : legalReadCount n) (hroom : bs.length + n.toNat ≤ 8 * cW) :
    ∃ t, exec (.bwWriteBits n v) s = .next t ∧ HoldsBits cW t (bs ++ fieldOf n.toNat v) := by
  have hlen := h.buf.bits_length
  have hbit := s.bw.bit.isLt
  rw [h.bits] at hlen
  obtain ⟨hbuf, hbits, -⟩ := Bw.putBits_spec h.buf v n.toNat (by omega)
  have hne : n ≠ 0 := fun h0 => by simp [h0, legalReadCount] at hn
  have hfit : (s.begin .ok).bw.idx + bytesTouched s.bw.bit n.toNat ≤ (s.begin .ok).cfg.cW := by
    simp only [State.begin_bw, State.begin_cfg, h.capacity, bytesTouched_eq]
    omega
  have hexec := exec_ready (i := .bwWriteBits n v) rfl h.ready
  rw [bodyOf_bwWriteBits hne, State.begin_bw, bwStore_fits hfit h.ready.2] at hexec
  refine ⟨_, hexec, ?_⟩
  rw [← h.bits, ← hbits]
  exact h.setBw (by simp) (by simp) hbuf

/-- The bits of a list of fields, one after another. -/
def packedBits (fields : List (BitVec 6 × Word32)) : List Bool := fields.flatMap fun e => fieldOf e.1.toNat e.2

theorem packedBits_cons (e : BitVec 6 × Word32) (fields : List (BitVec 6 × Word32)) :
    packedBits (e :: fields) = fieldOf e.1.toNat e.2 ++ packedBits fields := rfl

/-- Writing fields that all fit holds their bits in a row. -/
theorem execAll_bwWriteBits_holds {cW : Nat} {fields : List (BitVec 6 × Word32)} (hn : ∀ e ∈ fields, legalReadCount e.1)
    {s : State} {bs : List Bool} (h : HoldsBits cW s bs)
    (hroom : bs.length + (fields.map fun e => e.1.toNat).sum ≤ 8 * cW) (rest : List Instr) :
    ∃ t, execAll ((fields.map fun e => Instr.bwWriteBits e.1 e.2) ++ rest) s = execAll rest t ∧
      HoldsBits cW t (bs ++ packedBits fields) := by
  induction fields generalizing s bs with
  | nil => exact ⟨s, rfl, by simpa [packedBits] using h⟩
  | cons e fields ih =>
    rw [List.map_cons, List.sum_cons] at hroom
    obtain ⟨u, hexec, hu⟩ := exec_bwWriteBits_holds h e.2 (hn e List.mem_cons_self) (by omega)
    obtain ⟨t, hrun, ht⟩ := ih (fun x hx => hn x (List.mem_cons_of_mem e hx)) hu (by
      rw [List.length_append, fieldOf_length]
      omega)
    refine ⟨t, (execAll_cons hexec _).trans hrun, ?_⟩
    rw [packedBits_cons, ← List.append_assoc]
    exact ht

/-- ALIGN adds bits up to a byte boundary (rule R228). -/
theorem exec_bwAlign_holds {cW : Nat} {s : State} {bs : List Bool} (h : HoldsBits cW s bs) :
    ∃ t pad, exec .bwAlign s = .next t ∧ HoldsBits cW t (bs ++ pad) ∧ t.bw.bit = 0 := by
  have hexec := exec_ready (i := .bwAlign) rfl h.ready
  by_cases hbit : s.bw.bit = 0
  · have hbody : bodyOf .bwAlign (s.begin .ok) = (s.begin .ok).setBw s.bw := if_pos hbit
    rw [hbody] at hexec
    refine ⟨_, [], hexec, ?_, hbit⟩
    rw [List.append_nil, ← h.bits]
    exact h.setBw rfl rfl h.buf
  · have hbody : bodyOf .bwAlign (s.begin .ok) =
        (s.begin .ok).setBw { s.bw with idx := s.bw.idx + 1, bit := 0 } := if_neg hbit
    rw [hbody] at hexec
    refine ⟨_, List.replicate (8 - s.bw.bit.val) false, hexec, ?_, rfl⟩
    rw [← h.bits, ← h.buf.bits_align hbit]
    exact h.setBw rfl rfl (h.buf.align hbit)

/-- FLUSH at a byte boundary turns the bits held into the bytes of `RAW_OUT` (rule R220). -/
theorem exec_bwFlush_holds {cW : Nat} {s : State} {bs : List Bool} (h : HoldsBits cW s bs) (hbit : s.bw.bit = 0) :
    ∃ t l, exec .bwFlush s = .next t ∧ t.rawOut = Memory.ofBytes l ∧ bitsOf l = bs := by
  have hbuf : BwBuf s.bw s.cfg.cW := h.capacity ▸ h.buf
  obtain ⟨-, htook, -⟩ := bwFlush_accepted (s := s.begin .ok) (h.sink.congr rfl rfl) hbuf.length hbuf.idx_le hbuf.room
    (.inl (.inl h.dst))
  refine ⟨_, s.bw.pending, exec_ready (i := .bwFlush) rfl h.ready, ?_, ?_⟩
  · exact (htook.raw h.dst).trans (congrArg (Memory.append · s.bw.pending) h.rawOut)
  · have hpending : s.bw.pending = s.bw.buf.take s.bw.idx := by simp [Bw.pending, sliceBytes, partialByte, hbit]
    rw [hpending, ← bitsOf_take, ← h.bits, Bw.bits, hbit]
    rfl

/-! ## The reader -/

/-- A `BR` that is ready and stands at bit `p` of the bytes `l`, which are all it has to come. -/
structure ReadsBits (l : List Byte) (s : State) (p : Nat) : Prop where
  ready : s.ready .br
  ok : BrOk s
  bit : s.br.bit.val = p % 8
  unread : ∀ n, s.unread n = (l.drop (p / 8)).take n

/-- Reading depends on `BR`, its downstream and the launch alone. -/
theorem BrOk.congr {s t : State} (h : BrOk s) (hcfg : t.cfg = s.cfg) (hraw : t.rawIn = s.rawIn) (hbr : t.br = s.br)
    (hcra : t.cra = s.cra) : BrOk t where
  capacity := hcfg ▸ h.capacity
  buf_length := by rw [hbr, hcfg]; exact h.buf_length
  idx_le := hbr ▸ h.idx_le
  fill_le := by rw [hbr, hcfg]; exact h.fill_le
  reach := hbr ▸ h.reach
  raw_wf := hraw ▸ h.raw_wf
  raw_le := hraw ▸ h.raw_le
  length_le := hcra ▸ h.length_le
  cache := (State.cacheOk_congr hraw hcra).2 h.cache

/-- The bits of a part of a byte list. -/
theorem bitAt_take_drop (l : List Byte) (a : Nat) {n j : Nat} (hj : j < 8 * n) :
    bitAt ((l.drop a).take n) j = bitAt l (8 * a + j) := by
  simp only [bitAt, byteAt, List.getD_eq_getElem?_getD]
  rw [List.getElem?_take_of_lt (by omega), List.getElem?_drop, show (8 * a + j) / 8 = a + j / 8 by omega,
    show (8 * a + j) % 8 = j % 8 by omega]

/-- The field at bit `p` of a byte list whose bits there are those of `v` is the low bits of `v` (rules R71, R163). -/
theorem fieldBits_eq_of_bits {l : List Byte} {p n nb : Nat} {v : Word32} (hfit : p % 8 + n ≤ 8 * nb)
    (hnb : ((l.drop (p / 8)).take nb).length = nb) (hl : p + n ≤ 8 * l.length)
    (hbits : ∀ j < n, (bitsOf l)[p + j]? = (fieldOf n v)[j]?) :
    fieldBits ((l.drop (p / 8)).take nb) (p % 8) n = v.toNat % 2 ^ n := by
  refine Nat.eq_of_testBit_eq fun i => ?_
  by_cases hi : i < n
  · have hj := hbits (n - 1 - i) (by omega)
    rw [bitsOf_getElem? l (by omega)] at hj
    have hbit : bitAt l (p + (n - 1 - i)) = v.getLsbD i := by
      simpa [fieldOf, show n - 1 - i < n by omega, show n - 1 - (n - 1 - i) = i by omega] using hj
    calc (fieldBits ((l.drop (p / 8)).take nb) (p % 8) n).testBit i
        = (fieldBits ((l.drop (p / 8)).take nb) (p % 8) n).testBit (n - 1 - (n - 1 - i)) := by
          rw [show n - 1 - (n - 1 - i) = i by omega]
      _ = bitAt ((l.drop (p / 8)).take nb) (p % 8 + (n - 1 - i)) := testBit_fieldBits _ (by omega) (by omega)
      _ = bitAt l (p + (n - 1 - i)) := by
          rw [bitAt_take_drop l _ (by omega), show 8 * (p / 8) + (p % 8 + (n - 1 - i)) = p + (n - 1 - i) by omega]
      _ = (v.toNat % 2 ^ n).testBit i := by
          rw [hbit, Nat.testBit_mod_two_pow, decide_eq_true hi, Bool.true_and, BitVec.testBit_toNat]
  · have hpow : 2 ^ n ≤ 2 ^ i := Nat.pow_le_pow_right (by omega) (by omega)
    rw [Nat.testBit_lt_two_pow ((fieldBits_lt _ _ _).trans_le hpow),
      Nat.testBit_lt_two_pow ((Nat.mod_lt _ (Nat.two_pow_pos n)).trans_le hpow)]

/-- READ_UBITS where the next bits are those of `v` gives the low bits of `v` and moves past them (rules R163, R167). -/
theorem exec_brReadUbits_reads {l : List Byte} {s : State} {p : Nat} (h : ReadsBits l s p) {n : BitVec 6} {v : Word32}
    (hn : legalReadCount n) (hl : p + n.toNat ≤ 8 * l.length)
    (hbits : ∀ j < n.toNat, (bitsOf l)[p + j]? = (fieldOf n.toNat v)[j]?) :
    ∃ t, exec (.brReadUbits n) s = .next t ∧ t.r = BitVec.ofNat 64 (v.toNat % 2 ^ n.toNat) ∧
      ReadsBits l t (p + n.toNat) := by
  have hn32 : n.toNat ≤ 32 := hn.2
  have hok : BrOk (s.begin .ok) := h.ok.congr rfl rfl rfl rfl
  have hcap := hok.capacity
  have htouched : bytesTouched s.br.bit n.toNat = (p % 8 + n.toNat + 7) / 8 := by rw [bytesTouched_eq, h.bit]
  have hlen : ((l.drop (p / 8)).take (bytesTouched s.br.bit n.toNat)).length = bytesTouched s.br.bit n.toNat := by
    rw [List.length_take, List.length_drop, htouched]
    omega
  have hun : ∀ m, (s.begin .ok).unread m = (l.drop (p / 8)).take m := h.unread
  obtain ⟨hr, hadv, hbit, herr⟩ := brReadBits_some (n := n.toNat) (f := unsignedResult) hok
    (by rw [State.begin_br, htouched]; omega) (by rw [hun, State.begin_br, hlen])
  rw [State.begin_br] at hr hadv hbit herr
  have hlive : (brReadBits n.toNat unsignedResult (s.begin .ok)).br.live = s.br.live := by
    unfold brReadBits
    dsimp only
    split <;> simp [Br.advanceBits]
  have hres : (brReadBits n.toNat unsignedResult (s.begin .ok)).r = BitVec.ofNat 64 (v.toNat % 2 ^ n.toNat) := by
    have hpow : 2 ^ n.toNat ≤ 2 ^ 32 := Nat.pow_le_pow_right (by omega) hn32
    rw [hr, hun, h.bit, fieldBits_eq_of_bits (by rw [htouched]; omega) hlen hl hbits,
      unsignedResult_eq ((Nat.mod_lt _ (Nat.two_pow_pos _)).trans_le hpow)]
  refine ⟨_, exec_ready (i := .brReadUbits n) rfl h.ready, hres, ⟨hlive.trans h.ready.1, herr.trans h.ready.2⟩,
    hadv.ok.congr rfl rfl rfl rfl, ?_, fun m => ?_⟩
  · rw [h.bit] at hbit
    exact hbit.trans (by omega)
  · refine (hadv.unread m).trans ?_
    rw [hun, h.bit, List.drop_take, List.drop_drop, Nat.add_sub_cancel_left,
      show p / 8 + (p % 8 + n.toNat) / 8 = (p + n.toNat) / 8 by omega]

theorem resultsOf_cons {i : Instr} {s t : State} (h : exec i s = .next t) (rest : List Instr) :
    resultsOf (i :: rest) s = t.r :: resultsOf rest t := by
  simp only [resultsOf, h]

/-- Reading with the counts the bits were written with gives the fields back. -/
theorem resultsOf_brReadUbits {l : List Byte} {fields : List (BitVec 6 × Word32)} (hn : ∀ e ∈ fields, legalReadCount e.1)
    {s : State} {before after : List Bool} (h : ReadsBits l s before.length)
    (hl : bitsOf l = before ++ (packedBits fields ++ after)) :
    resultsOf (fields.map fun e => Instr.brReadUbits e.1) s =
      fields.map fun e => BitVec.ofNat 64 (e.2.toNat % 2 ^ e.1.toNat) := by
  induction fields generalizing s before with
  | nil => rfl
  | cons e fields ih =>
    rw [packedBits_cons, List.append_assoc] at hl
    have hlen := congrArg List.length hl
    simp only [bitsOf_length, List.length_append, fieldOf_length] at hlen
    obtain ⟨t, hexec, hr, ht⟩ := exec_brReadUbits_reads h (v := e.2) (hn e List.mem_cons_self) (by omega) fun j hj => by
      rw [hl, List.getElem?_append_right (by omega), Nat.add_sub_cancel_left,
        List.getElem?_append_left (by rw [fieldOf_length]; exact hj)]
    have hrest := ih (fun x hx => hn x (List.mem_cons_of_mem e hx)) (before := before ++ fieldOf e.1.toNat e.2)
      (by rw [List.length_append, fieldOf_length]; exact ht) (by rw [hl, List.append_assoc])
    rw [List.map_cons, resultsOf_cons hexec, hr, hrest, List.map_cons]

/-- Settles O60: the bits held are those of the fields, the flushed bytes have these bits, and the reader takes them off. -/
theorem bitFieldRoundTrip : Obligations.BitFieldRoundTrip := by
  intro w r fields hw hr hwready hrready hdst hsrc hidx hbit hout hcur hrbit hn hroom
  have hnil : w.bw.bits = [] := by simp [Bw.bits, hidx, hbit]
  have hstart : HoldsBits w.cfg.cW w [] := ⟨hwready, rfl, hdst, hw.sinkOk, hout, hw.bwBuf, hnil⟩
  obtain ⟨u, hrun, hu⟩ := execAll_bwWriteBits_holds hn hstart (by simpa using hroom) [.bwAlign, .bwFlush]
  obtain ⟨x, pad, halign, hx, hxbit⟩ := exec_bwAlign_holds hu
  obtain ⟨t, l, hflush, htout, hbits⟩ := exec_bwFlush_holds hx hxbit
  refine ⟨t, hrun.trans ((execAll_cons halign _).trans (execAll_cons hflush [])), fun hraw => ?_⟩
  refine resultsOf_brReadUbits (l := l) (before := []) hn ⟨hrready, hr.brOk, by rw [hrbit]; rfl, fun n => ?_⟩ hbits
  rw [hr.br.unread_of_raw hsrc, hraw, htout, hcur, Memory.slice_eq (Memory.ofBytes_wf l), Memory.bytes_ofBytes]
  rfl

end Sys2Proof.Machine
end

section
/-! PROOFS. Every well-formed command decodes back from its encoding (rules R101 to R104, R109). -/

namespace Sys2Proof

/-! ## The decoder by unit (rules R101, R109) -/

section
variable {c : Command}

theorem decode_of_reservedBits (hr : c.rsvField ≠ 0) : decode c = .error .reservedBits := if_pos hr

theorem decode_br (hr : c.rsvField = 0) (hu : c.unitField = 0) : decode c = decodeBr c := by simp [decode, hr, hu]

theorem decode_bw (hr : c.rsvField = 0) (hu : c.unitField = 1) : decode c = decodeBw c := by simp [decode, hr, hu]

theorem decode_cra (hr : c.rsvField = 0) (hu : c.unitField = 2) : decode c = decodeCra c := by simp [decode, hr, hu]

theorem decode_cwa (hr : c.rsvField = 0) (hu : c.unitField = 3) : decode c = decodeCwa c := by simp [decode, hr, hu]

/-- The field `UNIT` names one of the four units (rules R2, R101). -/
theorem Command.unitField_cases (c : Command) :
    c.unitField = 0 ∨ c.unitField = 1 ∨ c.unitField = 2 ∨ c.unitField = 3 := by
  generalize c.unitField = u
  revert u
  decide

end

/-! ## The two rows with a check of their own (rule R106 (e), (f)) -/

theorem Command.rowPayload_ok {c : Command} {i j : Instr} :
    c.rowPayload i = .ok j ↔ c.rowF0 i = .ok j ∧ c.p.length = c.count.toNat := by
  unfold Command.rowPayload
  cases c.rowF0 i with
  | error e => simp
  | ok k => by_cases hlen : c.p.length = c.count.toNat <;> simp [hlen]

theorem Command.rowCraInit_ok {c : Command} {j : Instr} :
    c.rowCraInit = .ok j ↔
      c.rowFM 1 (.craInit (c.mField.getLsbD 0) c.a c.b c.c) = .ok j ∧ c.c.toNat ≤ Config.posMax := by
  unfold Command.rowCraInit
  cases c.rowFM 1 (.craInit (c.mField.getLsbD 0) c.a c.b c.c) with
  | error e => simp
  | ok k => by_cases hstart : c.c.toNat ≤ Config.posMax <;> simp [hstart]

/-! ## What was encoded decodes (rules R102 to R104, R109) -/

/-- The word of every command names its unit and has no reserved bit set, by the form of its record. -/
theorem encode_wordFields (i : Instr) : Laws.WordFields.Statement i := by
  unfold Laws.WordFields.Statement
  cases i <;> simp [encode, Instr.unit, UnitId.code]

section
variable (unit : BitVec 2) (op n : BitVec 6) (m : BitVec 2) (i : Instr)

@[simp] theorem Command.rowF0_recordA (a : Word64) : (recordA unit op a).rowF0 i = .ok i :=
  Command.row_ok.2 ⟨by simp, rfl⟩

theorem Command.rowPayload_recordP {p : List Byte} (hp : legalPayload p) :
    (recordP unit op p).rowPayload i = .ok i := by
  refine Command.rowPayload_ok.2 ⟨Command.row_ok.2 ⟨by simp, rfl⟩, ?_⟩
  simp only [recordP, Command.count, BitVec.toNat_setWidth, BitVec.toNat_ofNat]
  omega

@[simp] theorem Command.rowFN_recordN {nMin nMax : Nat} (hmin : nMin ≤ n.toNat) (hmax : n.toNat ≤ nMax) (a : Word64) :
    (recordN unit op n a).rowFN nMin nMax i = .ok i :=
  Command.row_ok.2 ⟨by simp [hmin, hmax], rfl⟩

@[simp] theorem Command.rowFM_recordM {mMax : Nat} (hm : m.toNat ≤ mMax) (a b c : Word64) :
    (recordM unit op m a b c).rowFM mMax i = .ok i :=
  Command.row_ok.2 ⟨by simpa using hm, rfl⟩

end

theorem ownField_toNat_le (own : Bool) : (ownField own).toNat ≤ 1 := by cases own <;> decide

@[simp] theorem ownField_getElem_zero (own : Bool) : (ownField own)[0] = own := by cases own <;> rfl

theorem Origin.field_toNat_le (o : Origin) : o.field.toNat ≤ 2 := by cases o <;> decide

@[simp] theorem originOf_field (o : Origin) : originOf o.field = o := by cases o <;> rfl

/-! ### The operands of a record (rule R103) -/

@[simp] theorem recordA_a (unit : BitVec 2) (op : BitVec 6) (a : Word64) : (recordA unit op a).a = a := rfl

@[simp] theorem recordN_a (unit : BitVec 2) (op n : BitVec 6) (a : Word64) : (recordN unit op n a).a = a := rfl

@[simp] theorem recordP_p (unit : BitVec 2) (op : BitVec 6) (p : List Byte) : (recordP unit op p).p = p := rfl

@[simp] theorem recordM_operands (unit : BitVec 2) (op : BitVec 6) (m : BitVec 2) (a b c : Word64) :
    (recordM unit op m a b c).a = a ∧ (recordM unit op m a b c).b = b ∧ (recordM unit op m a b c).c = c :=
  ⟨rfl, rfl, rfl⟩

/-- A count survives in the operand `A` (rule R103). -/
@[simp] theorem recordA_count (unit : BitVec 2) (op : BitVec 6) (cnt : BitVec 32) :
    (recordA unit op (cnt.setWidth 64)).count = cnt := by simp [Command.count]

theorem rowCraInit_recordM (own : Bool) (key req : Word64) {start : Word64} (hs : legalStart start) :
    (recordM 2 1 (ownField own) key req start).rowCraInit = .ok (.craInit own key req start) := by
  refine Command.rowCraInit_ok.2 ⟨?_, hs⟩
  rw [Command.rowFM_recordM _ _ _ _ (ownField_toNat_le own)]
  simp

/-! ### The four units -/

theorem decodeBr_encode {i : Instr} (hu : i.unit = .br) (hw : i.WellFormed) : decodeBr (encode i) = .ok i := by
  cases i with
  | brReadUbits n | brReadSbits n | brScanUbits n | brScanSbits n =>
    obtain ⟨hmin, hmax⟩ : 1 ≤ n.toNat ∧ n.toNat ≤ 32 := hw
    simp [encode, decodeBr, hmin, hmax]
  | brSkip _ | brSkipBits _ | brReadBytes _ | brReadStrFixed _ | brCheck _ => simp [encode, decodeBr]
  | brInit | brRelease | brGetError | brReadU8 | brReadS8 | brReadU16 | brReadS16 | brReadU32 | brReadS32 | brAlign
  | brMark | brUnmark | brReset | brBytesRead | brReadStrNul => simp [encode, decodeBr]
  | _ => cases hu

theorem decodeBw_encode {i : Instr} (hu : i.unit = .bw) (hw : i.WellFormed) : decodeBw (encode i) = .ok i := by
  cases i with
  | bwWriteBits n v =>
    have hmax : n.toNat ≤ 32 := hw
    simp [encode, decodeBw, hmax]
  | bwWriteBytes p | bwWriteString p => simp [encode, decodeBw, Command.rowPayload_recordP _ _ _ hw]
  | bwWriteByte _ | bwWriteShort _ | bwWriteInt _ | bwCheck _ => simp [encode, decodeBw]
  | bwInit | bwRelease | bwGetError | bwAlign | bwFlush | bwMark | bwUnmark => simp [encode, decodeBw]
  | _ => cases hu

theorem decodeCra_encode {i : Instr} (hu : i.unit = .cra) (hw : i.WellFormed) : decodeCra (encode i) = .ok i := by
  cases i with
  | craInit own key req start => simpa [encode, decodeCra] using rowCraInit_recordM own key req hw
  | craSeek o off => simp [encode, decodeCra, o.field_toNat_le]
  | craRead _ => simp [encode, decodeCra]
  | craRelease | craGetError | craTell | craEof => simp [encode, decodeCra]
  | _ => cases hu

theorem decodeCwa_encode {i : Instr} (hu : i.unit = .cwa) (hw : i.WellFormed) : decodeCwa (encode i) = .ok i := by
  cases i with
  | cwaInit own key => simp [encode, decodeCwa, ownField_toNat_le]
  | cwaWrite p => simp [encode, decodeCwa, Command.rowPayload_recordP _ _ _ hw]
  | cwaRelease | cwaGetError | cwaFlush | cwaSeal => simp [encode, decodeCwa]
  | _ => cases hu

/-- Settles O1: the word of a command names its unit, whose rows the encoder follows. -/
theorem decodeEncodeRoundTrip : Obligations.DecodeEncodeRoundTrip := by
  intro i hw
  obtain ⟨hunit, hrsv⟩ := encode_wordFields i
  cases hu : i.unit with
  | br => exact (decode_br hrsv (hunit.trans (congrArg _ hu))).trans (decodeBr_encode hu hw)
  | bw => exact (decode_bw hrsv (hunit.trans (congrArg _ hu))).trans (decodeBw_encode hu hw)
  | cra => exact (decode_cra hrsv (hunit.trans (congrArg _ hu))).trans (decodeCra_encode hu hw)
  | cwa => exact (decode_cwa hrsv (hunit.trans (congrArg _ hu))).trans (decodeCwa_encode hu hw)

/-- Settles O2: the decoder's rows check the ranges. -/
theorem decodedCommandIsWellFormed : Obligations.DecodedCommandIsWellFormed := fun _ _ => decode_wellFormed

/-- Settles O5: the words are those the encoder writes for these commands. -/
theorem exampleWordsDecode : Obligations.ExampleWordsDecode :=
  ⟨decodeEncodeRoundTrip (.brReadUbits 4) (by decide), decodeEncodeRoundTrip (.bwWriteBits 4 7) (by decide),
    decodeEncodeRoundTrip (.craSeek .seekCur 0xFFFFFFFFFFFFFFF8) trivial,
    decodeEncodeRoundTrip (.craInit false 0x6867666564636261 0xFFFFFFFFFFFFFFFF 0) (by decide),
    decodeEncodeRoundTrip .cwaSeal trivial⟩

end Sys2Proof
end

section
/-! PROOFS. What decodes was encoded: a legal word has no free bit (rules R101, R102, R104). -/

namespace Sys2Proof

/-- The fields `UNIT`, `OP`, `N` and `M` are the whole word when `RSV` is 0 (rule R101). -/
theorem Command.w_eq_packWord {c : Command} (hr : c.rsvField = 0) :
    c.w = packWord c.unitField c.opField c.nField c.mField := by
  rw [packWord, ← show c.rsvField = 0#16 from hr]
  simp only [unitField, opField, nField, mField, rsvField]
  rw [BitVec.extractLsb'_append_extractLsb'_eq_extractLsb' (start₂ := 30) (start₁ := 24) (len₁ := 6) rfl,
    BitVec.extractLsb'_append_extractLsb'_eq_extractLsb' (start₂ := 24) (start₁ := 18) (len₁ := 6) rfl,
    BitVec.extractLsb'_append_extractLsb'_eq_extractLsb' (start₂ := 18) (start₁ := 16) (len₁ := 2) rfl,
    BitVec.extractLsb'_append_extractLsb'_eq_extractLsb' (start₂ := 16) (start₁ := 0) (len₁ := 16) rfl,
    BitVec.extractLsb'_eq_self]

theorem ownField_of_le {m : BitVec 2} (hm : m.toNat ≤ 1) : ownField (m.getLsbD 0) = m := by
  revert m
  decide

theorem originOf_field_of_le {m : BitVec 2} (hm : m.toNat ≤ 2) : (originOf m).field = m := by
  revert m
  decide

/-! ## The word of a row's command -/

section
variable {c : Command} {unit : BitVec 2} {op : Nat} {i j : Instr} (hr : c.rsvField = 0) (hu : c.unitField = unit)
  (hop : c.opField.toNat = op)
include hr hu hop

/-- A row's command has the word of the record when it is encoded with the record's `N` and `M`. -/
theorem Command.row_word {nMin nMax mMax : Nat} (h : c.row nMin nMax mMax i = .ok j)
    (hi : c.nField.toNat ≤ nMax → c.mField.toNat ≤ mMax →
      (encode i).w = packWord unit (.ofNat 6 op) c.nField c.mField) :
    c.w = (encode j).w := by
  obtain ⟨⟨-, hn, hm⟩, rfl⟩ := Command.row_ok.1 h
  rw [c.w_eq_packWord hr, hi hn hm, hu, ← hop, BitVec.ofNat_toNat, BitVec.setWidth_eq]

theorem Command.rowF0_word (h : c.rowF0 i = .ok j) (hi : (encode i).w = packWord unit (.ofNat 6 op) 0 0) :
    c.w = (encode j).w :=
  Command.row_word hr hu hop h fun hn hm => by
    rw [hi, BitVec.eq_of_toNat_eq (y := 0) (Nat.le_zero.1 hn), BitVec.eq_of_toNat_eq (y := 0) (Nat.le_zero.1 hm)]

theorem Command.rowFN_word {nMin nMax : Nat} (h : c.rowFN nMin nMax i = .ok j)
    (hi : (encode i).w = packWord unit (.ofNat 6 op) c.nField 0) : c.w = (encode j).w :=
  Command.row_word hr hu hop h fun _ hm => by rw [hi, BitVec.eq_of_toNat_eq (y := 0) (Nat.le_zero.1 hm)]

theorem Command.rowFM_word {mMax : Nat} (h : c.rowFM mMax i = .ok j)
    (hi : c.mField.toNat ≤ mMax → (encode i).w = packWord unit (.ofNat 6 op) 0 c.mField) : c.w = (encode j).w :=
  Command.row_word hr hu hop h fun hn hm => by rw [hi hm, BitVec.eq_of_toNat_eq (y := 0) (Nat.le_zero.1 hn)]

theorem Command.rowPayload_word (h : c.rowPayload i = .ok j) (hi : (encode i).w = packWord unit (.ofNat 6 op) 0 0) :
    c.w = (encode j).w :=
  Command.rowF0_word hr hu hop (Command.rowPayload_ok.1 h).1 hi

end

theorem Command.rowCraInit_word {c : Command} {j : Instr} (hr : c.rsvField = 0) (hu : c.unitField = 2)
    (hop : c.opField.toNat = 1) (h : c.rowCraInit = .ok j) : c.w = (encode j).w :=
  Command.rowFM_word hr hu hop (Command.rowCraInit_ok.1 h).1 fun hm => congrArg (packWord 2 1 0) (ownField_of_le hm)

/-! ## Row by row, in the order of the opcode map (rule R104) -/

section
variable {c : Command} {i : Instr} (hr : c.rsvField = 0)
include hr

theorem decodeBr_word (hu : c.unitField = 0) (h : decodeBr c = .ok i) : c.w = (encode i).w := by
  unfold decodeBr at h
  split at h
  iterate 3 next hop => exact Command.rowF0_word hr hu hop h rfl
  iterate 4 next hop => exact Command.rowFN_word hr hu hop h rfl
  iterate 17 next hop => exact Command.rowF0_word hr hu hop h rfl
  cases h

theorem decodeBw_word (hu : c.unitField = 1) (h : decodeBw c = .ok i) : c.w = (encode i).w := by
  unfold decodeBw at h
  split at h
  iterate 3 next hop => exact Command.rowF0_word hr hu hop h rfl
  next hop => exact Command.rowFN_word hr hu hop h rfl
  iterate 3 next hop => exact Command.rowF0_word hr hu hop h rfl
  iterate 2 next hop => exact Command.rowPayload_word hr hu hop h rfl
  iterate 5 next hop => exact Command.rowF0_word hr hu hop h rfl
  cases h

theorem decodeCra_word (hu : c.unitField = 2) (h : decodeCra c = .ok i) : c.w = (encode i).w := by
  unfold decodeCra at h
  split at h
  next hop => exact Command.rowCraInit_word hr hu hop h
  iterate 3 next hop => exact Command.rowF0_word hr hu hop h rfl
  next hop => exact Command.rowFM_word hr hu hop h fun hm => congrArg (packWord 2 5 0) (originOf_field_of_le hm)
  iterate 2 next hop => exact Command.rowF0_word hr hu hop h rfl
  cases h

theorem decodeCwa_word (hu : c.unitField = 3) (h : decodeCwa c = .ok i) : c.w = (encode i).w := by
  unfold decodeCwa at h
  split at h
  next hop => exact Command.rowFM_word hr hu hop h fun hm => congrArg (packWord 3 1 0) (ownField_of_le hm)
  iterate 2 next hop => exact Command.rowF0_word hr hu hop h rfl
  next hop => exact Command.rowPayload_word hr hu hop h rfl
  iterate 2 next hop => exact Command.rowF0_word hr hu hop h rfl
  cases h

end

/-- Settles O3: `RSV` is checked first, and every row checks or keeps `N` and `M`. -/
theorem legalWordHasNoFreeBit : Obligations.LegalWordHasNoFreeBit := by
  intro c i h
  by_cases hr : c.rsvField = 0
  · rcases c.unitField_cases with hu | hu | hu | hu
    · exact decodeBr_word hr hu (decode_br hr hu ▸ h)
    · exact decodeBw_word hr hu (decode_bw hr hu ▸ h)
    · exact decodeCra_word hr hu (decode_cra hr hu ▸ h)
    · exact decodeCwa_word hr hu (decode_cwa hr hu ▸ h)
  · rw [decode_of_reservedBits hr] at h
    cases h

end Sys2Proof
end

section
/-! PROOFS. A record is refused exactly when an item of rule R106 holds. -/

namespace Sys2Proof

open Sys2Proof.Machine

/-! ## The records a row lets pass (rules R102, R106) -/

section
variable (c : Command) (i : Instr)

theorem Command.row_passes (nMin nMax mMax : Nat) :
    (∃ j, c.row nMin nMax mMax i = .ok j) ↔
      (nMin ≤ c.nField.toNat ∧ c.nField.toNat ≤ nMax) ∧ c.mField.toNat ≤ mMax := by
  simp [Command.row_ok, and_assoc]

theorem Command.rowF0_passes : (∃ j, c.rowF0 i = .ok j) ↔ c.nField.toNat = 0 ∧ c.mField.toNat = 0 := by
  simp [Command.rowF0, Command.row_passes]

theorem Command.rowFN_passes (nMin nMax : Nat) :
    (∃ j, c.rowFN nMin nMax i = .ok j) ↔ (nMin ≤ c.nField.toNat ∧ c.nField.toNat ≤ nMax) ∧ c.mField.toNat = 0 := by
  simp [Command.rowFN, Command.row_passes]

theorem Command.rowFM_passes (mMax : Nat) :
    (∃ j, c.rowFM mMax i = .ok j) ↔ c.nField.toNat = 0 ∧ c.mField.toNat ≤ mMax := by
  simp [Command.rowFM, Command.row_passes]

theorem Command.rowPayload_passes :
    (∃ j, c.rowPayload i = .ok j) ↔ (c.nField.toNat = 0 ∧ c.mField.toNat = 0) ∧ c.p.length = c.count.toNat := by
  simp only [Command.rowPayload_ok, exists_and_right, Command.rowF0_passes]

theorem Command.rowCraInit_passes :
    (∃ j, c.rowCraInit = .ok j) ↔ (c.nField.toNat = 0 ∧ c.mField.toNat ≤ 1) ∧ c.c.toNat ≤ Config.posMax := by
  simp only [Command.rowCraInit_ok, exists_and_right, Command.rowFM_passes]

end

/-! ## The items (a) and (c) to (f), unit by unit -/

/-- None of the items (a) and (c) to (f) of rule R106 holds: all of them but the one about `RSV`. -/
def LegalFields (c : Command) : Prop :=
  ¬reservedPair c.unitField c.opField ∧ legalN c.unitField c.opField c.nField.toNat ∧
    legalM c.unitField c.opField c.mField.toNat ∧ (payloadPair c.unitField c.opField → c.p.length = c.count.toNat) ∧
    (c.unitField = 2 → c.opField = 1 → c.c.toNat ≤ Config.posMax)

theorem illegalRecord_iff (c : Command) : IllegalRecord c ↔ c.rsvField ≠ 0 ∨ ¬LegalFields c := by
  rw [IllegalRecord, LegalFields, ← Nat.not_le]
  tauto

section
variable {c : Command}

/-- An operation by its number. -/
theorem Command.opField_eq_iff {k : Nat} (hk : k < 64) : c.opField = BitVec.ofNat 6 k ↔ c.opField.toNat = k := by
  rw [← BitVec.toNat_inj, BitVec.toNat_ofNat, Nat.mod_eq_of_lt hk]

theorem legalFields_br (hu : c.unitField = 0) :
    LegalFields c ↔ (1 ≤ c.opField.toNat ∧ c.opField.toNat ≤ 0x18) ∧
      (if 4 ≤ c.opField.toNat ∧ c.opField.toNat ≤ 7 then 1 ≤ c.nField.toNat ∧ c.nField.toNat ≤ 32
        else c.nField.toNat = 0) ∧ c.mField.toNat = 0 := by
  simp [LegalFields, reservedPair, legalN, legalM, payloadPair, hu, Command.opField_eq_iff]
  omega

theorem legalFields_bw (hu : c.unitField = 1) :
    LegalFields c ↔ (1 ≤ c.opField.toNat ∧ c.opField.toNat ≤ 0x0E) ∧
      (if c.opField.toNat = 4 then c.nField.toNat ≤ 32 else c.nField.toNat = 0) ∧ c.mField.toNat = 0 ∧
      (c.opField.toNat = 8 ∨ c.opField.toNat = 9 → c.p.length = c.count.toNat) := by
  simp [LegalFields, reservedPair, legalN, legalM, payloadPair, hu, Command.opField_eq_iff]
  omega

theorem legalFields_cra (hu : c.unitField = 2) :
    LegalFields c ↔ (1 ≤ c.opField.toNat ∧ c.opField.toNat ≤ 7) ∧ c.nField.toNat = 0 ∧
      (if c.opField.toNat = 5 then c.mField.toNat ≤ 2 else if c.opField.toNat = 1 then c.mField.toNat ≤ 1
        else c.mField.toNat = 0) ∧ (c.opField.toNat = 1 → c.c.toNat ≤ Config.posMax) := by
  simp [LegalFields, reservedPair, legalN, legalM, payloadPair, hu, Command.opField_eq_iff]
  omega

theorem legalFields_cwa (hu : c.unitField = 3) :
    LegalFields c ↔ (1 ≤ c.opField.toNat ∧ c.opField.toNat ≤ 6) ∧ c.nField.toNat = 0 ∧
      (if c.opField.toNat = 1 then c.mField.toNat ≤ 1 else c.mField.toNat = 0) ∧
      (c.opField.toNat = 4 → c.p.length = c.count.toNat) := by
  simp [LegalFields, reservedPair, legalN, legalM, payloadPair, hu, Command.opField_eq_iff]
  omega

/-! ## Row by row, in the order of the opcode map (rule R104) -/

/-- A row that answers an error lets nothing pass. -/
theorem reserved_passes {e : DecodeError} {P : Prop} (hP : ¬P) :
    (∃ i, (Except.error e : Except DecodeError Instr) = .ok i) ↔ P :=
  iff_of_false (fun ⟨_, h⟩ => nomatch h) hP

theorem decodeBr_passes (hu : c.unitField = 0) : (∃ i, decodeBr c = .ok i) ↔ LegalFields c := by
  rw [legalFields_br hu]
  unfold decodeBr
  split
  iterate 3 next hop => simp [hop, Command.rowF0_passes]
  iterate 4 next hop => simp [hop, Command.rowFN_passes]
  iterate 17 next hop => simp [hop, Command.rowF0_passes]
  next =>
    simp only [imp_false] at *
    exact reserved_passes fun ⟨⟨_, _⟩, _⟩ => by omega

theorem decodeBw_passes (hu : c.unitField = 1) : (∃ i, decodeBw c = .ok i) ↔ LegalFields c := by
  rw [legalFields_bw hu]
  unfold decodeBw
  split
  iterate 3 next hop => simp [hop, Command.rowF0_passes]
  next hop => simp [hop, Command.rowFN_passes]
  iterate 3 next hop => simp [hop, Command.rowF0_passes]
  iterate 2 next hop => simp [hop, Command.rowPayload_passes, and_assoc]
  iterate 5 next hop => simp [hop, Command.rowF0_passes]
  next =>
    simp only [imp_false] at *
    exact reserved_passes fun ⟨⟨_, _⟩, _⟩ => by omega

theorem decodeCra_passes (hu : c.unitField = 2) : (∃ i, decodeCra c = .ok i) ↔ LegalFields c := by
  rw [legalFields_cra hu]
  unfold decodeCra
  split
  next hop => simp [hop, Command.rowCraInit_passes, and_assoc]
  iterate 3 next hop => simp [hop, Command.rowF0_passes]
  next hop => simp [hop, Command.rowFM_passes]
  iterate 2 next hop => simp [hop, Command.rowF0_passes]
  next =>
    simp only [imp_false] at *
    exact reserved_passes fun ⟨⟨_, _⟩, _⟩ => by omega

theorem decodeCwa_passes (hu : c.unitField = 3) : (∃ i, decodeCwa c = .ok i) ↔ LegalFields c := by
  rw [legalFields_cwa hu]
  unfold decodeCwa
  split
  next hop => simp [hop, Command.rowFM_passes]
  iterate 2 next hop => simp [hop, Command.rowF0_passes]
  next hop => simp [hop, Command.rowPayload_passes, and_assoc]
  iterate 2 next hop => simp [hop, Command.rowF0_passes]
  next =>
    simp only [imp_false] at *
    exact reserved_passes fun ⟨⟨_, _⟩, _⟩ => by omega

end

/-- The decoder lets a record pass exactly when no item of rule R106 holds. -/
theorem decode_passes_iff (c : Command) : (∃ i, decode c = .ok i) ↔ ¬IllegalRecord c := by
  rw [illegalRecord_iff]
  by_cases hr : c.rsvField = 0
  · have hfields : (∃ i, decode c = .ok i) ↔ LegalFields c := by
      rcases c.unitField_cases with hu | hu | hu | hu
      · rw [decode_br hr hu, decodeBr_passes hu]
      · rw [decode_bw hr hu, decodeBw_passes hu]
      · rw [decode_cra hr hu, decodeCra_passes hu]
      · rw [decode_cwa hr hu, decodeCwa_passes hu]
    simpa [hr] using hfields
  · simp only [decode_of_reservedBits hr, reduceCtorEq, exists_false, false_iff, not_not]
    exact .inl hr

theorem illegalCommand_completed (s : State) : Completed s (illegalCommand s) .illegal 0 [] := ⟨rfl, rfl, rfl, rfl⟩

/-- Settles O4: the decoder refuses exactly the illegal records, and a refused one ends the command cycle at once. -/
theorem illegalRecordsAreRefused : Obligations.IllegalRecordsAreRefused := by
  intro s c hf
  refine ⟨fun hill => ?_, (decode_passes_iff c).2⟩
  cases hd : decode c with
  | error e => exact ⟨_, step_of_decode_error hf hd, illegalCommand_completed s, untouched_begin_retire s .illegal⟩
  | ok i => exact absurd hill ((decode_passes_iff c).1 ⟨i, hd⟩)

end Sys2Proof
end

section
/-! PROOFS. INIT of the two cipher adapters (rules R103, R260, R294). -/

namespace Sys2Proof.Machine

/-- Key byte `j` is `A[8j+7:8j]` (rule R103). -/
theorem keyBytes_getElem? (key : Word64) {j : Nat} (hj : j < 8) :
    (keyBytes key).val[j]? = some (key.extractLsb' (8 * j) 8) := by
  simp [keyBytes, hj]

/-- INIT of a unit that is not live runs its body (rule R131). -/
theorem exec_init {i : Instr} {s : State} (hc : i.cls = .init) (h : s.liveOf i.unit = false) :
    exec i s = .next (bodyOf i (s.begin .ok)).retire := by rw [exec_eq, hc, command_init h]

/-- INIT of a live unit is refused, and touches nothing (rule R131). -/
theorem exec_init_refused {i : Instr} {s : State} (hc : i.cls = .init) (h : s.liveOf i.unit = true) :
    ∃ t, exec i s = .next t ∧ Completed s t .lifecycle 0 [] ∧ Untouched s t := by
  refine ⟨(s.begin .lifecycle).retire, ?_, ⟨rfl, rfl, rfl, rfl⟩, untouched_begin_retire s .lifecycle⟩
  rw [exec_eq, hc, command, h]
  rfl

/-- A command that does no more than write `CWA`. -/
theorem onlyUnit_setCwa (s : State) (st : Status) (u : Cwa) : OnlyUnit .cwa s ((s.begin st).setCwa u).retire where
  launch := ⟨rfl, rfl, rfl⟩
  br _ := rfl
  bw _ := rfl
  cra _ := rfl
  cwa h := absurd rfl h
  rc := rfl
  rawOut := rfl
  memory := .of_eq rfl rfl
  log := rfl

/-- Settles O24: INIT writes the record of its unit whole. -/
theorem cipherAdaptersInit : Obligations.CipherAdaptersInit := by
  intro s own key req start
  refine ⟨fun h => ⟨_, exec_init (i := .craInit own key req start) rfl h, ⟨rfl, rfl, rfl, rfl⟩,
      onlyUnit_setCra s .ok (craInit own key req start s).cra 0, rfl, rfl, rfl, rfl, fun _ => keyBytes_getElem? key,
      rfl, rfl, rfl, rfl, rfl, rfl⟩,
    fun h => ⟨_, exec_init (i := .cwaInit own key) rfl h, ⟨rfl, rfl, rfl, rfl⟩, onlyUnit_setCwa s .ok _, rfl, rfl, rfl,
      rfl, fun _ => keyBytes_getElem? key, rfl, rfl, rfl⟩,
    exec_init_refused (i := .craInit own key req start) rfl, exec_init_refused (i := .cwaInit own key) rfl⟩

end Sys2Proof.Machine
end

section
/-! PROOFS. What the command cycle does around a command: the decoded command, the lifecycle refusal, the short-circuit,
GET_ERROR (rules R130 to R133, R136 to R139), and the run of a whole launch (rules R145, R371). -/

namespace Sys2Proof.Machine

/-! ## The command cycle -/

/-- Settles O6: `step` fetches, decodes and runs. -/
theorem stepRunsTheDecodedCommand : Obligations.StepRunsTheDecodedCommand := fun _ _ _ => step_of_decode_ok

/-- INIT is refused exactly on a live unit, every other command exactly on a unit that is not (rule R131). -/
theorem lifecycleRefuses_iff {cls : CommandClass} {live : Bool} :
    lifecycleRefuses cls live = true ↔ (cls = .init ↔ live = true) := by
  unfold lifecycleRefuses
  split
  · simp [*]
  · simp [*]

theorem exec_refused {i : Instr} {s : State} (h : lifecycleRefuses i.cls (s.liveOf i.unit) = true) :
    exec i s = .next (s.begin .lifecycle).retire := by rw [exec_eq, command, if_pos h]

/-- Settles O9: the lifecycle check is the first of the command cycle. -/
theorem lifecycleRefusalChangesNothing : Obligations.LifecycleRefusalChangesNothing := fun _ s h =>
  ⟨_, exec_refused (lifecycleRefuses_iff.2 h), ⟨rfl, rfl, rfl, rfl⟩, untouched_begin_retire s .lifecycle⟩

theorem exec_shortCircuited {i : Instr} {s : State} (hc : i.cls = .ordinary) (hlive : s.liveOf i.unit = true)
    (herr : s.errOf i.unit ≠ .noError) : exec i s = .next (s.begin .ok).retire := by
  have hpass : lifecycleRefuses i.cls (s.liveOf i.unit) = false := by simp [lifecycleRefuses, hc, hlive]
  have hskip : shortCircuits i.cls (s.errOf i.unit) = true := by simp [shortCircuits, hc, herr]
  simp [exec_eq, command, hpass, hskip]

/-- Settles O10: the short-circuit runs no body. -/
theorem erroredUnitShortCircuits : Obligations.ErroredUnitShortCircuits := fun _ s hc hlive herr =>
  ⟨_, exec_shortCircuited hc hlive herr, ⟨rfl, rfl, rfl, rfl⟩, untouched_begin_retire s .ok⟩

/-! ## GET_ERROR -/

/-- Every GET_ERROR is one rule, about the latch of its own unit (rules R136 to R139). -/
theorem bodyOf_getError {i : Instr} (hc : i.cls = .getError) (s : State) :
    bodyOf i s = s.setR ((s.errOf i.unit).code.setWidth 64) := by
  cases i with
  | brGetError | bwGetError | craGetError | cwaGetError => rfl
  | _ => cases hc

/-- GET_ERROR runs on a live unit whatever its error (rule R133), and reports the latch from before the command. -/
theorem exec_getError {i : Instr} {s : State} (hc : i.cls = .getError) (hlive : s.liveOf i.unit = true) :
    exec i s = .next ((s.begin .ok).setR ((s.errOf i.unit).code.setWidth 64)).retire := by
  have hlatch : (s.begin .ok).errOf i.unit = s.errOf i.unit := by cases i.unit <;> rfl
  rw [exec_eq, hc, command_getError hlive, bodyOf_getError hc, hlatch]

/-- A command whose rule writes `R` alone touches nothing. -/
theorem untouched_setR_retire (s : State) (st : Status) (v : Word64) : Untouched s ((s.begin st).setR v).retire where
  launch := ⟨rfl, rfl, rfl⟩
  readSide := ⟨rfl, rfl, rfl⟩
  writeSide := ⟨rfl, rfl, rfl⟩
  memory := .of_eq rfl rfl
  log := rfl

/-- Settles O22: GET_ERROR of a live unit runs, that of a unit that is not live is refused as any other command. -/
theorem getErrorReportsTheLatch : Obligations.GetErrorReportsTheLatch := by
  refine ⟨fun s i hc => ⟨fun hlive => ?_, fun hdead => ?_⟩, by decide, by decide, by decide, by decide⟩
  · exact ⟨_, exec_getError hc hlive, ⟨rfl, rfl, rfl, rfl⟩, untouched_setR_retire s .ok _⟩
  · exact lifecycleRefusalChangesNothing i s (by simp [hc, hdead])

/-! ## The run of a launch -/

theorem run_succ_of_step {s t : State} (h : step s = .next t) (k : Nat) :
    Host.Core.run core (k + 1) s = Host.Core.run core k t := by
  have hstep : core.step s = .next t := h
  simp only [Host.Core.run, hstep]

/-- A run takes every record that is left: each step completes and moves the host's index on by one (rules R130, R145). -/
theorem run_rest {k : Nat} {s : State} (h : s.pc + k = s.cmds.length) :
    ∃ t : State, Host.Core.run core k s = .next t ∧ t.pc = s.cmds.length ∧ t.cmds = s.cmds := by
  induction k generalizing s with
  | zero => exact ⟨s, rfl, h, rfl⟩
  | succ k ih =>
    obtain ⟨s', hstep, hpc, hsame⟩ := (stepAdvancesTheHostIndex s).1 (by omega)
    obtain ⟨t, hrun, hend, hcmds⟩ := ih (s := s') (by rw [hsame.cmds]; omega)
    exact ⟨t, (run_succ_of_step hstep k).trans hrun, hend.trans (congrArg _ hsame.cmds), hcmds.trans hsame.cmds⟩

/-- Settles O8: from reset all the records are left, and behind the last one there is no step. -/
theorem launchEndsAfterItsCommands : Obligations.LaunchEndsAfterItsCommands := by
  intro c input cmds
  have hreset : (State.resetWith c input cmds).pc + cmds.length = (State.resetWith c input cmds).cmds.length :=
    Nat.zero_add _
  obtain ⟨t, hrun, hpc, hcmds⟩ := run_rest hreset
  have hover : t.cmds.length ≤ t.pc := by rw [hcmds, hpc]
  exact ⟨t, hrun, hpc, (stepAdvancesTheHostIndex t).2 hover⟩

end Sys2Proof.Machine
end

section
/-! PROOFS. INIT and RELEASE of the bit engines (rules R189, R190, R235, R236), and the mark stack of `BR`: MARK, UNMARK,
CHECK and BYTES_READ (rules R180, R181, R183, R184). None of them makes a downstream call. -/

namespace Sys2Proof.Machine

/-- A command that does no more than write `BR`. -/
theorem onlyUnit_setBr (s : State) (st : Status) (u : Br) : OnlyUnit .br s ((s.begin st).setBr u).retire where
  launch := ⟨rfl, rfl, rfl⟩
  br h := absurd rfl h
  bw _ := rfl
  cra _ := rfl
  cwa _ := rfl
  rc := rfl
  rawOut := rfl
  memory := .of_eq rfl rfl
  log := rfl

/-! ## INIT and RELEASE -/

/-- RELEASE of a live unit runs its body, whatever the unit's error (rule R131). -/
theorem exec_release {i : Instr} {s : State} (hc : i.cls = .release) (h : s.liveOf i.unit = true) :
    exec i s = .next (bodyOf i (s.begin .ok)).retire := by rw [exec_eq, hc, command_release h]

/-- Settles O23: INIT writes the record of its unit whole. -/
theorem bitEnginesInit : Obligations.BitEnginesInit := by
  intro s
  refine ⟨fun h => ⟨_, exec_init (i := .brInit) rfl h, ⟨rfl, rfl, rfl, rfl⟩, onlyUnit_setBr s .ok _, rfl, rfl, rfl, rfl,
      rfl, rfl, rfl, rfl⟩,
    fun h => ⟨_, exec_init (i := .bwInit) rfl h, ⟨rfl, rfl, rfl, rfl⟩, onlyUnit_setBw s .ok _, rfl, rfl, rfl, rfl, rfl,
      rfl, rfl⟩,
    by decide, by decide, exec_init_refused (i := .brInit) rfl, exec_init_refused (i := .bwInit) rfl⟩

/-- Settles O25: RELEASE clears `live` of its unit and does no more. -/
theorem bitEnginesRelease : Obligations.BitEnginesRelease := by
  refine ⟨by decide, by decide, fun s => ⟨fun h => ?_, fun h => ?_⟩⟩
  · exact ⟨_, exec_release (i := .brRelease) rfl h, ⟨rfl, rfl, rfl, rfl⟩, onlyUnit_setBr s .ok _, rfl⟩
  · exact ⟨_, exec_release (i := .bwRelease) rfl h, ⟨rfl, rfl, rfl, rfl⟩, onlyUnit_setBw s .ok _, rfl⟩

/-! ## MARK and UNMARK -/

@[simp] theorem topMark_nil : topMark [] = none := rfl

@[simp] theorem topMark_concat (rest : List Mark) (e : Mark) : topMark (rest ++ [e]) = some e :=
  List.getLast?_concat

/-- A command of `BR` that ends in an error it raises itself. -/
theorem raiseBr_of_noError {s : State} (h : s.br.err = .noError) (code : Err) :
    raise .br code (s.begin .ok) = (s.begin .ok).setBr { s.br with err := code } := by
  rw [raise_br, State.begin_br, h, latch_noError]

theorem exec_brMark_full {s : State} (h : s.ready .br) (hfull : s.br.marks.length = s.cfg.markDepth) :
    exec .brMark s = .next ((s.begin .ok).setBr { s.br with err := .badArguments }).retire := by
  have hbody : bodyOf .brMark (s.begin .ok) = raise .br .badArguments (s.begin .ok) := if_pos hfull
  rw [exec_ready (i := .brMark) rfl h, hbody, raiseBr_of_noError h.2]

theorem exec_brMark_room {s : State} (h : s.ready .br) (hroom : s.br.marks.length ≠ s.cfg.markDepth) :
    exec .brMark s =
      .next ((s.begin .ok).setBr { s.br with marks := s.br.marks ++ [⟨s.br.cur, s.br.bit⟩] }).retire := by
  have hbody : bodyOf .brMark (s.begin .ok) =
      (s.begin .ok).setBr { s.br with marks := s.br.marks ++ [⟨s.br.cur, s.br.bit⟩] } := if_neg hroom
  rw [exec_ready (i := .brMark) rfl h, hbody]

theorem exec_brUnmark_empty {s : State} (h : s.ready .br) (hempty : s.br.marks = []) :
    exec .brUnmark s = .next ((s.begin .ok).setBr { s.br with err := .badArguments }).retire := by
  have hbody : bodyOf .brUnmark (s.begin .ok) = raise .br .badArguments (s.begin .ok) :=
    if_pos (congrArg List.length hempty)
  rw [exec_ready (i := .brUnmark) rfl h, hbody, raiseBr_of_noError h.2]

theorem exec_brUnmark_top {s : State} (h : s.ready .br) {rest : List Mark} {e : Mark} (htop : s.br.marks = rest ++ [e]) :
    exec .brUnmark s = .next ((s.begin .ok).setBr { s.br with marks := rest }).retire := by
  have hbody : bodyOf .brUnmark (s.begin .ok) = (s.begin .ok).setBr { s.br with marks := s.br.marks.dropLast } :=
    if_neg (by simp [htop])
  rw [exec_ready (i := .brUnmark) rfl h, hbody, htop, List.dropLast_concat]

/-- Settles O34: a full and an empty stack raise, any other stack is pushed to or popped. -/
theorem readerMarkAndUnmark : Obligations.ReaderMarkAndUnmark := by
  refine ⟨by decide, by decide, fun s hready => ⟨?_, ?_⟩⟩
  · by_cases hfull : s.br.marks.length = s.cfg.markDepth
    · exact ⟨_, exec_brMark_full hready hfull, ⟨rfl, rfl, rfl, rfl⟩, onlyUnit_setBr s .ok _, (if_pos hfull).symm⟩
    · exact ⟨_, exec_brMark_room hready hfull, ⟨rfl, rfl, rfl, rfl⟩, onlyUnit_setBr s .ok _, (if_neg hfull).symm⟩
  · rcases List.eq_nil_or_concat' s.br.marks with hempty | ⟨rest, e, htop⟩
    · exact ⟨_, exec_brUnmark_empty hready hempty, ⟨rfl, rfl, rfl, rfl⟩, onlyUnit_setBr s .ok _, fun _ => rfl,
        fun rest e htop => by simp [hempty] at htop⟩
    · refine ⟨_, exec_brUnmark_top hready htop, ⟨rfl, rfl, rfl, rfl⟩, onlyUnit_setBr s .ok _,
        fun hempty => by simp [hempty] at htop, fun rest' e' htop' => ?_⟩
      rw [(List.append_inj' (htop.symm.trans htop') rfl).1]
      rfl

/-! ## CHECK and BYTES_READ -/

theorem exec_brCheck_empty {s : State} (h : s.ready .br) (hempty : s.br.marks = []) (expected : Word64) :
    exec (.brCheck expected) s = .next ((s.begin .ok).setBr { s.br with err := .badArguments }).retire := by
  have hbody : bodyOf (.brCheck expected) (s.begin .ok) = raise .br .badArguments (s.begin .ok) := by
    simp only [bodyOf, brCheck, State.begin_br, hempty, topMark_nil]
  rw [exec_ready (i := .brCheck expected) rfl h, hbody, raiseBr_of_noError h.2]

theorem exec_brCheck_top {s : State} (h : s.ready .br) {rest : List Mark} {e : Mark} (htop : s.br.marks = rest ++ [e])
    (expected : Word64) :
    exec (.brCheck expected) s =
      .next ((s.begin .ok).setR (BitVec.ofInt 64 (((s.br.cur : Int) - e.mbyte) - expected.toInt))).retire := by
  rw [exec_ready (i := .brCheck expected) rfl h]
  simp only [bodyOf, brCheck, State.begin_br, htop, topMark_concat]
  rfl

theorem exec_brBytesRead_empty {s : State} (h : s.ready .br) (hempty : s.br.marks = []) :
    exec .brBytesRead s = .next ((s.begin .ok).setBr { s.br with err := .badArguments }).retire := by
  have hbody : bodyOf .brBytesRead (s.begin .ok) = raise .br .badArguments (s.begin .ok) := by
    simp only [bodyOf, brBytesRead, State.begin_br, hempty, topMark_nil]
  rw [exec_ready (i := .brBytesRead) rfl h, hbody, raiseBr_of_noError h.2]

theorem exec_brBytesRead_top {s : State} (h : s.ready .br) {rest : List Mark} {e : Mark}
    (htop : s.br.marks = rest ++ [e]) :
    exec .brBytesRead s = .next ((s.begin .ok).setR (BitVec.ofInt 64 ((s.br.cur : Int) - e.mbyte))).retire := by
  rw [exec_ready (i := .brBytesRead) rfl h]
  simp only [bodyOf, brBytesRead, State.begin_br, htop, topMark_concat]
  rfl

/-- Settles O35: both commands look at the top mark, and raise when there is none. -/
theorem readerCheckAndBytesRead : Obligations.ReaderCheckAndBytesRead := by
  refine fun s expected hready => ⟨rfl, rfl, by decide, fun hempty => ⟨?_, ?_⟩, fun rest e htop => ⟨?_, ?_, fun hinv => ?_⟩⟩
  · exact ⟨_, exec_brCheck_empty hready hempty expected, ⟨rfl, rfl, rfl, rfl⟩, onlyUnit_setBr s .ok _, rfl⟩
  · exact ⟨_, exec_brBytesRead_empty hready hempty, ⟨rfl, rfl, rfl, rfl⟩, onlyUnit_setBr s .ok _, rfl⟩
  · exact ⟨_, exec_brCheck_top hready htop expected, ⟨rfl, rfl, rfl, rfl⟩, untouched_setR_retire s .ok _⟩
  · exact ⟨_, exec_brBytesRead_top hready htop, ⟨rfl, rfl, rfl, rfl⟩, untouched_setR_retire s .ok _⟩
  · have hle := hinv.br.marks.le_cur e (by simp [htop])
    omega

/-- Settles O41: MARK pushes the cursor, and CHECK counts from the mark on top. -/
theorem markThenCheckCountsBytes : Obligations.MarkThenCheckCountsBytes := by
  intro s t u cmds K hready hroom hmark _ hu hmarks hcur hK
  have htmarks : t.br.marks = s.br.marks ++ [⟨s.br.cur, s.br.bit⟩] := by
    cases (exec_brMark_room hready (Nat.ne_of_lt hroom)).symm.trans hmark
    rfl
  refine ⟨_, exec_brCheck_top hu (hmarks.trans htmarks) _, ?_, hu.2⟩
  have hint : (BitVec.ofNat 64 K).toInt = K := by
    rw [BitVec.toInt_eq_toNat_of_lt (by rw [BitVec.toNat_ofNat]; omega), BitVec.toNat_ofNat, Nat.mod_eq_of_lt (by omega)]
  have hzero : (u.br.cur : Int) - s.br.cur - (BitVec.ofNat 64 K).toInt = 0 := by
    rw [hint, hcur]
    omega
  exact congrArg (BitVec.ofInt 64) hzero

end Sys2Proof.Machine
end

section
/-! PROOFS. What the operations of `BR` leave alone beside its cursor, its buffer and its error (rules R26, R140, R142). All
of it follows from the frame of the refill (rule R161), the one operation of `BR` that calls its downstream. -/

namespace Sys2Proof.Machine

namespace SameForReader

variable {s t u : State}

/-- A state with the same streams, the same `CRA`, and a `BR` of the same liveness and marks. -/
theorem of_eq (hlaunch : SameLaunch s t) (hside : SameWriteSide s t) (hlive : t.br.live = s.br.live)
    (hmarks : t.br.marks = s.br.marks) (hcra : t.cra = s.cra) (hlog : t.log = s.log) : SameForReader s t where
  launch := hlaunch
  writeSide := hside
  memory := .of_eq hlaunch.rawIn hside.rawOut
  live := hlive
  marks := hmarks
  craLive := congrArg Cra.live hcra
  craOwn := congrArg Cra.own hcra
  craSched := congrArg Cra.sched hcra
  craStart := congrArg Cra.start hcra
  craLength := congrArg Cra.length hcra
  craRaw _ := hcra
  log := by rw [hlog]

theorem refl (s : State) : SameForReader s s := .of_eq ⟨rfl, rfl, rfl⟩ ⟨rfl, rfl, rfl⟩ rfl rfl rfl rfl

theorem trans (h1 : SameForReader s t) (h2 : SameForReader t u) : SameForReader s u where
  launch := ⟨h2.launch.cfg.trans h1.launch.cfg, h2.launch.rawIn.trans h1.launch.rawIn,
    h2.launch.cmds.trans h1.launch.cmds⟩
  writeSide := ⟨h2.writeSide.bw.trans h1.writeSide.bw, h2.writeSide.cwa.trans h1.writeSide.cwa,
    h2.writeSide.rawOut.trans h1.writeSide.rawOut⟩
  memory := ⟨fun a => (h2.memory.input a).trans (h1.memory.input a),
    fun a => (h2.memory.output a).trans (h1.memory.output a)⟩
  live := h2.live.trans h1.live
  marks := h2.marks.trans h1.marks
  craLive := h2.craLive.trans h1.craLive
  craOwn := h2.craOwn.trans h1.craOwn
  craSched := h2.craSched.trans h1.craSched
  craStart := h2.craStart.trans h1.craStart
  craLength := h2.craLength.trans h1.craLength
  craRaw hs := (h2.craRaw (by rw [h1.launch.cfg]; exact hs)).trans (h1.craRaw hs)
  log := h1.log.trans h2.log

theorem setBr (h : SameForReader s t) {b : Br} (hlive : b.live = t.br.live) (hmarks : b.marks = t.br.marks) :
    SameForReader s (t.setBr b) :=
  h.trans (.of_eq ⟨rfl, rfl, rfl⟩ ⟨rfl, rfl, rfl⟩ hlive hmarks rfl rfl)

/-- A write of the cursor or the buffer before an operation. -/
theorem setBr_trans (h : SameForReader s t) {b : Br} (h2 : SameForReader (t.setBr b) u) (hlive : b.live = t.br.live)
    (hmarks : b.marks = t.br.marks) : SameForReader s u := (h.setBr hlive hmarks).trans h2

theorem raise (h : SameForReader s t) (code : Err) : SameForReader s (raise .br code t) := h.setBr rfl rfl

theorem setR (h : SameForReader s t) (v : Word64) : SameForReader s (t.setR v) :=
  h.trans (.of_eq ⟨rfl, rfl, rfl⟩ ⟨rfl, rfl, rfl⟩ rfl rfl rfl rfl)

theorem deliver (h : SameForReader s t) (l : List Byte) : SameForReader s (t.deliver l) :=
  h.trans (.of_eq ⟨rfl, rfl, rfl⟩ ⟨rfl, rfl, rfl⟩ rfl rfl rfl rfl)

/-- The command cycle leaves alone what its body does (rule R131). -/
theorem cycle {st : Status} (h : SameForReader (s.begin st) t) : SameForReader s t.retire :=
  ((of_eq ⟨rfl, rfl, rfl⟩ ⟨rfl, rfl, rfl⟩ rfl rfl rfl rfl : SameForReader s (s.begin st)).trans h).trans
    (.of_eq ⟨rfl, rfl, rfl⟩ ⟨rfl, rfl, rfl⟩ rfl rfl rfl rfl)

end SameForReader

/-! ## The shared operations of `BR` -/

theorem brFill_sameForReader (s : State) : SameForReader s (brFill s) where
  launch := ⟨by simp, by simp, by simp⟩
  writeSide := ⟨by simp, by simp, by simp⟩
  memory := .of_eq (by simp) (by simp)
  live := by simp
  marks := by simp
  craLive := by simp
  craOwn := by simp
  craSched := by simp
  craStart := by simp
  craLength := by simp
  craRaw := brFill_cra_of_raw
  log := brFill_log s

theorem brEnsure_sameForReader (nb : Nat) (s : State) : SameForReader s (brEnsure nb s).2 := by
  unfold brEnsure
  dsimp only
  split
  · exact brFill_sameForReader s
  · exact .refl s

theorem brPeekBits_sameForReader (n : Nat) (s : State) : SameForReader s (brPeekBits n s).2 := by
  have hen := brEnsure_sameForReader (bytesTouched s.br.bit n) s
  unfold brPeekBits
  dsimp only
  split
  · exact hen
  · exact hen.raise _

theorem brReadBits_sameForReader (n : Nat) (f : Nat → Word64) (s : State) : SameForReader s (brReadBits n f s) := by
  have hpk := brPeekBits_sameForReader n s
  unfold brReadBits
  dsimp only
  split
  · exact hpk
  · exact (hpk.setBr (b := (brPeekBits n s).2.br.advanceBits n) rfl rfl).setR _

theorem SameForReader.finishRead {s : State} {rd : Option Nat × State} (h : SameForReader s rd.2) (f : Nat → Word64) :
    SameForReader s (finishRead f rd) := by
  unfold Machine.finishRead
  split
  · exact h
  · exact h.setR _

theorem brReposition_sameForReader (tb : Nat) (tbit : Fin 8) (s : State) :
    SameForReader s (brReposition tb tbit s) := by
  unfold brReposition
  split
  · exact (SameForReader.refl s).raise _
  · split
    · exact (SameForReader.refl s).setBr rfl rfl
    · exact (SameForReader.refl s).setBr_trans (brFill_sameForReader _) rfl rfl

theorem brRefill_sameForReader (s : State) : SameForReader s (brRefill s) := by
  unfold brRefill
  split
  · exact brFill_sameForReader s
  · exact .refl s

theorem brReadLoop_sameForReader (fuel want : Nat) (s : State) : SameForReader s (brReadLoop fuel want s).2 := by
  induction fuel generalizing want s with
  | zero => exact .refl s
  | succ fuel ih =>
    have hrf := brRefill_sameForReader s
    unfold brReadLoop
    split
    · exact .refl s
    · dsimp only
      split
      · exact hrf
      · exact hrf.setBr_trans (ih _ _) rfl rfl

theorem brReadBytesCore_sameForReader (want : Nat) (s : State) : SameForReader s (brReadBytesCore want s).2 := by
  have hrd := brReadLoop_sameForReader want want s
  unfold brReadBytesCore
  dsimp only
  split
  · exact hrd.raise _
  · exact hrd

theorem brStrLoop_sameForReader (rounds : Nat) (s : State) : SameForReader s (brStrLoop rounds s).2 := by
  induction rounds generalizing s with
  | zero => exact .refl s
  | succ rounds ih =>
    have hrf := brRefill_sameForReader s
    unfold brStrLoop
    dsimp only
    split
    · exact hrf
    · split
      · exact hrf.setBr rfl rfl
      · exact hrf.setBr_trans (ih _) rfl rfl

end Sys2Proof.Machine
end

section
/-! PROOFS. The bit reads and scans of `BR` (rules R163, R164, R167 to R170), and the law that a scan and a read agree (rule
R188 (a)). -/

namespace Sys2Proof.Machine

/-- A command of `BR` keeps the invariant of the read side. -/
theorem exec_readInv {i : Instr} (hu : i.unit = .br) {s t : State} (h : ReadInv s) (hx : exec i s = .next t) :
    ReadInv t := by
  have hbegin : ReadInv (s.begin .ok) := h.congr rfl rfl rfl rfl
  rcases exec_cases hx with ⟨-, rfl⟩ | ⟨-, -, rfl⟩ | ⟨-, -, rfl⟩
  · exact h.congr rfl rfl rfl rfl
  · exact h.congr rfl rfl rfl rfl
  · exact (bodyOf_readInv_of_br hu hbegin).congr rfl rfl rfl rfl

/-- Bytes read, inside the command cycle. -/
theorem Advanced.moved {s x : State} {k : Nat} (h : Advanced (s.begin .ok) x k) {bit : Fin 8} (hbit : x.br.bit = bit)
    (herr : x.br.err = s.br.err) : ReaderMoved s x.retire k bit := ⟨h.cur, hbit, h.unread, herr⟩

/-! ## The four bit commands -/

/-- A bit command looks ahead at its field, a read then moves over it; the result is the function of the field's value
(rules R167 to R170). -/
theorem bodyOf_bitRead {i : Instr} {n : BitVec 6} {moves : Bool} {f : Nat → Nat} (hi : bitRead i = some (n, moves, f))
    (hn : legalReadCount n) :
    i.unit = .br ∧ i.cls = .ordinary ∧ ∃ g : Nat → Word64, (∀ v < 2 ^ n.toNat, g v = BitVec.ofNat 64 (f v)) ∧
      ∀ s, bodyOf i s = if moves then brReadBits n.toNat g s else finishRead g (brPeekBits n.toNat s) := by
  have hpow : 2 ^ n.toNat ≤ 2 ^ 32 := Nat.pow_le_pow_right (by omega) hn.2
  cases i with
  | brReadUbits n | brScanUbits n =>
    cases hi
    exact ⟨rfl, rfl, unsignedResult, fun _ hv => unsignedResult_eq (hv.trans_le hpow), fun _ => rfl⟩
  | brReadSbits n | brScanSbits n =>
    cases hi
    exact ⟨rfl, rfl, signedResult n.toNat, fun _ hv => signedResult_eq hn.2 hv, fun _ => rfl⟩
  | _ => cases hi

/-- The bytes a legal field touches fit every buffer (rule R6). -/
theorem BrOk.touched_le {s : State} (h : BrOk s) {n : BitVec 6} (hn : legalReadCount n) :
    bytesTouched s.br.bit n.toNat ≤ s.cfg.cR := by
  have hcap := h.capacity
  have hbit := s.br.bit.isLt
  have hn32 : n.toNat ≤ 32 := hn.2
  rw [bytesTouched_eq]
  omega

/-- A read whose field is not found is the failed look ahead (rules R167, R168). -/
theorem brReadBits_of_none {n : Nat} {g : Nat → Word64} {s : State} (h : (brPeekBits n s).1 = none) :
    brReadBits n g s = (brPeekBits n s).2 := by
  unfold brReadBits
  dsimp only
  rw [h]

theorem brReadBits_of_some {n v : Nat} {g : Nat → Word64} {s : State} (h : (brPeekBits n s).1 = some v) :
    brReadBits n g s = ((brPeekBits n s).2.setBr ((brPeekBits n s).2.br.advanceBits n)).setR (g v) := by
  unfold brReadBits
  dsimp only
  rw [h]

section BitRead

variable {s : State} {i : Instr} {n : BitVec 6} {moves : Bool} {f : Nat → Nat}

/-- A bit command with all the bytes of its field to come. -/
theorem exec_bitRead_found (hi : bitRead i = some (n, moves, f)) (hok : BrOk s) (hready : s.ready .br)
    (hn : legalReadCount n)
    (hl : (s.unread (bytesTouched s.br.bit n.toNat)).length = bytesTouched s.br.bit n.toNat) :
    ∃ t, exec i s = .next t ∧ SameForReader s t ∧
      Completed s t .ok
        (BitVec.ofNat 64 (f (fieldBits (s.unread (bytesTouched s.br.bit n.toNat)) s.br.bit n.toNat))) [] ∧
      if moves then ReaderMoved s t ((s.br.bit.val + n.toNat) / 8) (Fin.ofNat 8 ((s.br.bit.val + n.toNat) % 8))
      else ReaderMoved s t 0 s.br.bit := by
  obtain ⟨hunit, hcls, g, hg, hbody⟩ := bodyOf_bitRead hi hn
  have hok' : BrOk (s.begin .ok) := hok.congr rfl rfl rfl rfl
  have hexec := exec_ready hcls (hunit ▸ hready)
  obtain ⟨hval, hcursor, -, herr⟩ := brPeekBits_some hok' (hok'.touched_le hn) hl
  have hres := hg _ (fieldBits_lt (s.unread (bytesTouched s.br.bit n.toNat)) s.br.bit n.toNat)
  rw [hbody] at hexec
  refine ⟨_, hexec, ?_⟩
  cases moves with
  | false =>
    rw [if_neg Bool.false_ne_true, if_neg Bool.false_ne_true]
    refine ⟨((brPeekBits_sameForReader _ _).finishRead _).cycle, ?_, ?_⟩
    · rw [finishRead_some hval]
      exact ⟨by simp, by simp, hres, by simp⟩
    · rw [finishRead_some hval]
      exact ⟨hcursor.cur, by simp, fun m => by simpa using hcursor.unread m, herr⟩
  | true =>
    obtain ⟨-, hadv, hbit, herr'⟩ := brReadBits_some (f := g) hok' (hok'.touched_le hn) hl
    rw [if_pos rfl, if_pos rfl]
    refine ⟨(brReadBits_sameForReader _ _ _).cycle, ?_, hadv.moved (Fin.ext (by simpa using hbit)) herr'⟩
    rw [brReadBits_of_some hval]
    exact ⟨by simp, by simp, hres, by simp⟩

/-- A bit command with too few bytes to come (rule R323 (a)). -/
theorem exec_bitRead_missing (hi : bitRead i = some (n, moves, f)) (hok : BrOk s) (hready : s.ready .br)
    (hn : legalReadCount n)
    (hl : (s.unread (bytesTouched s.br.bit n.toNat)).length ≠ bytesTouched s.br.bit n.toNat) :
    ∃ t, exec i s = .next t ∧ SameForReader s t ∧ Completed s t .ok 0 [] ∧
      ReaderFailed s t .arrayIndexOutOfBounds := by
  obtain ⟨hunit, hcls, g, -, hbody⟩ := bodyOf_bitRead hi hn
  have hok' : BrOk (s.begin .ok) := hok.congr rfl rfl rfl rfl
  obtain ⟨hval, hcursor, herr⟩ := brPeekBits_none hok' (hok'.touched_le hn) hl
  have hexec := exec_ready hcls (hunit ▸ hready)
  rw [hbody, brReadBits_of_none hval, finishRead_none hval, ite_self] at hexec
  exact ⟨_, hexec, (brPeekBits_sameForReader _ _).cycle, ⟨by simp, by simp, by simp, by simp⟩,
    ⟨hcursor.cur, by simp, hcursor.unread, herr.trans (latch_refillErr hready.2)⟩⟩

end BitRead

/-- Settles O28: the look ahead finds the bytes of the field or not. -/
theorem bitReadsAndScans : Obligations.BitReadsAndScans := by
  intro s i n moves f hi hinv hready hn
  by_cases hl : (s.unread (bytesTouched s.br.bit n.toNat)).length = bytesTouched s.br.bit n.toNat
  · obtain ⟨t, hexec, hframe, hfound⟩ := exec_bitRead_found hi hinv.brOk hready hn hl
    exact ⟨t, hexec, hframe, (if_pos hl).mpr hfound⟩
  · obtain ⟨t, hexec, hframe, hmissing⟩ := exec_bitRead_missing hi hinv.brOk hready hn hl
    exact ⟨t, hexec, hframe, (if_neg hl).mpr hmissing⟩

/-- Settles O39: a scan leaves the read the same bytes to come, or the error that short-circuits it. -/
theorem scanThenReadAgree : Obligations.ScanThenReadAgree := by
  intro s n hinv hready hn
  have hsame (t : State) (hbit : t.br.bit = s.br.bit) (hun : ∀ m, t.unread m = s.unread m) :
      t.unread (bytesTouched t.br.bit n.toNat) = s.unread (bytesTouched s.br.bit n.toNat) := by rw [hbit, hun]
  by_cases hl : (s.unread (bytesTouched s.br.bit n.toNat)).length = bytesTouched s.br.bit n.toNat
  · obtain ⟨t, hscan, hframe, hdone, hmoved⟩ :=
      exec_bitRead_found (i := .brScanUbits n) rfl hinv.brOk hready hn hl
    rw [if_neg Bool.false_ne_true] at hmoved
    have hun := hsame t hmoved.bit fun m => by simpa using hmoved.unread m
    obtain ⟨u, hread, -, hdone', -⟩ :=
      exec_bitRead_found (i := .brReadUbits n) rfl (exec_readInv rfl hinv.readInv hscan).brOk
        ⟨hframe.live.trans hready.1, hmoved.err.trans hready.2⟩ hn (by rw [hun, hmoved.bit]; exact hl)
    rw [hun, hmoved.bit] at hdone'
    exact ⟨t, u, hscan, hread, hdone'.result.trans hdone.result.symm, hdone'.status.trans hdone.status.symm⟩
  · obtain ⟨t, hscan, hframe, hdone, hfailed⟩ :=
      exec_bitRead_missing (i := .brScanUbits n) rfl hinv.brOk hready hn hl
    have herr : t.br.err ≠ .noError := by
      rw [hfailed.err]
      split <;> decide
    exact ⟨t, _, hscan, exec_shortCircuited (i := .brReadUbits n) rfl (hframe.live.trans hready.1) herr,
      hdone.result.symm, hdone.status.symm⟩

end Sys2Proof.Machine
end

section
/-! PROOFS. The repositions of `BR` (rule R165): SKIP, SKIP_BITS, ALIGN and RESET (rules R177 to R179, R182), and the law that
MARK and RESET return the reader to where it was (rule R188 (d)). -/

namespace Sys2Proof.Machine

/-- The error a refill leaves in a `BR` that had none (rules R161, R323 (a)). -/
theorem refillErr_of_noError {s : State} (h : s.br.err = .noError) :
    refillErr s = if s.sourceSeeks then .noError else .failedToRead := by
  rw [refillErr, h, latch_noError]

/-- A reposition to a legal position, inside the command cycle (rule R165). -/
theorem brReposition_readerAt {tb : Nat} {tbit : Fin 8} {s : State} (hok : BrOk s) (herr : s.br.err = .noError)
    (htb : tb ≤ Config.posMax) : ReaderAt s (brReposition tb tbit (s.begin .ok)).retire tb tbit := by
  have hok' : BrOk (s.begin .ok) := hok.congr rfl rfl rfl rfl
  obtain ⟨-, hcur, hbit, hin, hout⟩ := brReposition_spec (tbit := tbit) hok' htb
  by_cases hbuf : s.buffered tb
  · obtain ⟨herr', hun⟩ := hin hbuf.1 hbuf.2
    refine ⟨hcur, hbit, ?_, fun n => ?_, fun _ => ?_⟩
    · rw [if_pos (.inl hbuf)]
      exact herr'.trans herr
    · rw [if_pos hbuf]
      exact hun n
    · rw [brReposition_inside (s := s.begin .ok) htb hbuf.1 hbuf.2]
      exact ⟨onlyUnit_setBr s .ok _, rfl, rfl, rfl⟩
  · obtain ⟨herr', hun⟩ := hout hbuf
    refine ⟨hcur, hbit, ?_, fun n => ?_, fun h => absurd h hbuf⟩
    · simp only [hbuf, false_or]
      exact herr'.trans (refillErr_of_noError herr)
    · rw [if_neg hbuf]
      exact hun n

/-- A reposition anywhere, inside the command cycle (rule R165). -/
theorem brReposition_repositioned {tb : Nat} {tbit : Fin 8} {s : State} (hok : BrOk s) (herr : s.br.err = .noError) :
    Repositioned s (brReposition tb tbit (s.begin .ok)).retire tb tbit := by
  unfold Repositioned
  split
  · next hbeyond =>
    rw [brReposition_beyond hbeyond, raiseBr_of_noError herr]
    exact ⟨onlyUnit_setBr s .ok _, rfl⟩
  · next hle => exact brReposition_readerAt hok herr (Nat.le_of_not_lt hle)

/-- A reposition completes with no result (rules R131, R165). -/
theorem brReposition_completed (tb : Nat) (tbit : Fin 8) (s : State) :
    Completed s (brReposition tb tbit (s.begin .ok)).retire .ok 0 [] := ⟨by simp, by simp, by simp, by simp⟩

/-! ## SKIP, SKIP_BITS and ALIGN -/

theorem exec_brSkipBits {s : State} (h : s.ready .br) (cnt : BitVec 32) :
    exec (.brSkipBits cnt) s = .next (brReposition ((8 * s.br.cur + s.br.bit.val + cnt.toNat) / 8)
      (Fin.ofNat 8 ((8 * s.br.cur + s.br.bit.val + cnt.toNat) % 8)) (s.begin .ok)).retire := by
  rw [exec_ready (i := .brSkipBits cnt) rfl h, ← Nat.shiftRight_eq_div_pow _ 3]
  rfl

/-- Settles O31: both commands are repositions. -/
theorem skipsMoveTheReader : Obligations.SkipsMoveTheReader := fun _ cnt hinv hready =>
  ⟨⟨_, exec_ready (i := .brSkip cnt) rfl hready, brReposition_completed _ _ _, (brReposition_sameForReader _ _ _).cycle,
      brReposition_repositioned hinv.brOk hready.2⟩,
    ⟨_, exec_brSkipBits hready cnt, brReposition_completed _ _ _, (brReposition_sameForReader _ _ _).cycle,
      brReposition_repositioned hinv.brOk hready.2⟩⟩

/-- Settles O32: ALIGN is a reposition, but at a byte boundary. -/
theorem readerAlignMovesToTheNextByte : Obligations.ReaderAlignMovesToTheNextByte := by
  intro s hinv hready
  refine ⟨_, exec_ready (i := .brAlign) rfl hready, ?_⟩
  by_cases hbit : s.br.bit = 0
  · have hbody : bodyOf .brAlign (s.begin .ok) = s.begin .ok := if_pos hbit
    rw [hbody, if_pos hbit]
    exact ⟨⟨rfl, rfl, rfl, rfl⟩, (SameForReader.refl _).cycle, untouched_begin_retire s .ok⟩
  · have hbody : bodyOf .brAlign (s.begin .ok) = brReposition (s.br.cur + 1) 0 (s.begin .ok) := if_neg hbit
    rw [hbody, if_neg hbit]
    exact ⟨brReposition_completed _ _ _, (brReposition_sameForReader _ _ _).cycle,
      brReposition_repositioned hinv.brOk hready.2⟩

/-! ## RESET -/

theorem exec_brReset_empty {s : State} (h : s.ready .br) (hempty : s.br.marks = []) :
    exec .brReset s = .next (brReposition 0 0 (s.begin .ok)).retire := by
  rw [exec_ready (i := .brReset) rfl h]
  simp only [bodyOf, brReset, State.begin_br, hempty, topMark_nil]

theorem exec_brReset_top {s : State} (h : s.ready .br) {rest : List Mark} {e : Mark} (htop : s.br.marks = rest ++ [e]) :
    exec .brReset s = .next (brReposition e.mbyte e.mbit (s.begin .ok)).retire := by
  rw [exec_ready (i := .brReset) rfl h]
  simp only [bodyOf, brReset, State.begin_br, htop, topMark_concat]

/-- The cursor stands at a legal position (rules R26, R27). -/
theorem BrOk.cur_le {s : State} (h : BrOk s) : s.br.cur ≤ Config.posMax :=
  (Nat.add_le_add_left h.idx_le _).trans h.reach

/-- The cursor stands inside the buffer. -/
theorem BrOk.buffered_cur {s : State} (h : BrOk s) : s.buffered s.br.cur :=
  ⟨Nat.le_add_right _ _, Nat.add_le_add_left h.idx_le _⟩

/-- Settles O33: no mark lies beyond the cursor, so the target is a legal position. -/
theorem resetReturnsToTheTopMark : Obligations.ResetReturnsToTheTopMark := by
  intro s hinv hready
  rcases List.eq_nil_or_concat' s.br.marks with hempty | ⟨rest, e, htop⟩
  · exact ⟨_, exec_brReset_empty hready hempty, brReposition_completed _ _ _, (brReposition_sameForReader _ _ _).cycle,
      fun _ => brReposition_readerAt hinv.brOk hready.2 (Nat.zero_le _), fun rest e htop => by simp [hempty] at htop⟩
  · refine ⟨_, exec_brReset_top hready htop, brReposition_completed _ _ _, (brReposition_sameForReader _ _ _).cycle,
      fun hempty => by simp [hempty] at htop, fun rest' e' htop' => ?_⟩
    obtain rfl : e = e' := List.singleton_inj.1 (List.append_inj' (htop.symm.trans htop') rfl).2
    exact brReposition_readerAt hinv.brOk hready.2
      ((hinv.br.marks.le_cur e (by simp [htop])).trans hinv.brOk.cur_le)

/-- Settles O40: the mark is the cursor itself, which stands inside the buffer. -/
theorem markThenResetReturns : Obligations.MarkThenResetReturns := by
  intro s hinv hready hroom
  have hmark := exec_brMark_room hready (Nat.ne_of_lt hroom)
  generalize ht : ((s.begin .ok).setBr { s.br with marks := s.br.marks ++ [⟨s.br.cur, s.br.bit⟩] }).retire = t at hmark
  have htok : BrOk t := (exec_readInv rfl hinv.readInv hmark).brOk
  have htready : t.ready .br := by rw [← ht]; exact hready
  have htmarks : t.br.marks = s.br.marks ++ [⟨s.br.cur, s.br.bit⟩] := by rw [← ht]; rfl
  have htcur : t.br.cur = s.br.cur := by rw [← ht]; rfl
  have htun (n : Nat) : t.unread n = s.unread n := by
    rw [← ht]
    exact State.unread_congr rfl rfl rfl rfl (State.srcByte_congr rfl rfl rfl rfl rfl rfl rfl) n
  have hbuf : t.buffered s.br.cur := htcur ▸ htok.buffered_cur
  obtain ⟨hcur, hbit, herr, hun, -⟩ := brReposition_readerAt (tb := s.br.cur) (tbit := s.br.bit) htok htready.2
    hinv.brOk.cur_le
  refine ⟨t, _, hmark, exec_brReset_top htready htmarks, hcur, hbit, herr.trans (if_pos (.inl hbuf)), fun n => ?_⟩
  rw [hun, if_pos hbuf, ← htcur]
  exact htun n

end Sys2Proof.Machine
end

section
/-! PROOFS. The byte blocks and strings of `BR` (rules R166, R185 to R187). -/

namespace Sys2Proof.Machine

/-! ## READ_BYTES and READ_STR_FIXED -/

/-- The bytes and the error of `ReadBytesCore` for a `BR` that had no error (rules R166, R323 (a)). -/
theorem brReadBytesCore_err {want : Nat} {s : State} (h : BrOk s) (herr : s.br.err = .noError) :
    (brReadBytesCore want s).2.br.err = if (s.unread want).length = want then .noError
      else if s.sourceSeeks then .reachedEndOfFile else .failedToRead := by
  have hle := s.unread_length_le want
  rw [(brReadBytesCore_spec h).2.2]
  by_cases hl : (s.unread want).length = want
  · rw [if_pos hl, if_neg (by omega), herr]
  · rw [if_neg hl, if_pos (by omega), latch_refillErr herr]

/-- A delivery at the end of a body, inside the command cycle (rules R22, R131). -/
theorem deliver_completed {s x : State} (hpc : x.pc = s.pc) (hstatus : x.status = .ok) (data : List Byte) :
    Completed s (x.deliver data).retire .ok (BitVec.ofNat 64 data.length) data :=
  ⟨congrArg (· + 1) hpc, hstatus, rfl, rfl⟩

/-- Settles O36: `ReadBytesCore` takes the bytes to come, and READ_BYTES delivers them. -/
theorem readBytesDeliversTheStream : Obligations.ReadBytesDeliversTheStream := by
  intro s cnt hinv hready
  have hok := (hinv.begin .ok).brOk
  have hexec := exec_ready (i := .brReadBytes cnt) rfl hready
  obtain ⟨hdata, hadv, -⟩ := brReadBytesCore_spec (want := cnt.toNat) hok
  simp only [bodyOf, brReadBytes, hdata] at hexec
  exact ⟨_, hexec, ((brReadBytesCore_sameForReader _ _).deliver _).cycle, deliver_completed (by simp) (by simp) _, hadv.cur,
    by simp, hadv.unread, brReadBytesCore_err hok hready.2⟩

theorem dropFinalNul_concat (front : List Byte) : dropFinalNul (front ++ [0]) = front := by
  rw [dropFinalNul, if_pos List.getLast?_concat, List.dropLast_concat]

theorem dropFinalNul_of_ne {l : List Byte} (h : l.getLast? ≠ some 0) : dropFinalNul l = l := if_neg h

/-- Settles O37: READ_STR_FIXED reads as READ_BYTES does, and drops the NUL from what it delivers. -/
theorem fixedStringDropsFinalNul : Obligations.FixedStringDropsFinalNul := by
  intro s cnt hinv hready
  have hok := (hinv.begin .ok).brOk
  have hexec := exec_ready (i := .brReadStrFixed cnt) rfl hready
  obtain ⟨hdata, hadv, -⟩ := brReadBytesCore_spec (want := cnt.toNat) hok
  simp only [bodyOf, brReadStrFixed, hdata] at hexec
  exact ⟨_, dropFinalNul (s.unread cnt.toNat), hexec, ((brReadBytesCore_sameForReader _ _).deliver _).cycle,
    deliver_completed (by simp) (by simp) _, fun front hfront => hfront ▸ dropFinalNul_concat front, dropFinalNul_of_ne,
    hadv.cur, by simp, hadv.unread, brReadBytesCore_err hok hready.2⟩

/-! ## READ_STR_NUL -/

/-- Two counts that both exceed what is to come find the same bytes. -/
theorem State.unread_eq_of_lt {s : State} {m n : Nat} (hm : (s.unread m).length < m) (hn : (s.unread n).length < n) :
    s.unread m = s.unread n := by
  rcases Nat.le_total m n with hle | hle
  · exact (s.unread_stable hm hle).symm
  · exact s.unread_stable hn hle

/-- Settles O38: the rounds READ_STR_NUL allows itself exceed what is to come, as `N` does. -/
theorem nulStringStopsAtFirstNul : Obligations.NulStringStopsAtFirstNul := by
  intro s N hinv hready hN
  have hok := (hinv.begin .ok).brOk
  have hrounds := State.unread_strRounds hok
  have hun : (s.begin .ok).unread (s.begin .ok).strRounds = s.unread N := State.unread_eq_of_lt hrounds hN
  have hexec := exec_ready (i := .brReadStrNul) rfl hready
  obtain ⟨hdata, hadv, herr⟩ := brStrLoop_spec (s.begin .ok).strRounds hok
  rw [hun] at hdata hadv herr hrounds
  simp only [bodyOf, brReadStrNul, hdata] at hexec
  refine ⟨_, _, hexec, ((brStrLoop_sameForReader _ _).deliver _).cycle, rfl, deliver_completed (by simp) (by simp) _,
    hadv.cur, by simp, hadv.unread, herr.trans ?_⟩
  have hbr : (s.begin .ok).br.err = .noError := hready.2
  rw [refillErr_of_noError hbr, hbr]
  by_cases hnul : 0 ∈ s.unread N
  · rw [if_neg fun h => h.2 hnul, if_pos (.inl hnul)]
  · rw [if_pos ⟨hrounds, hnul⟩]
    simp only [hnul, false_or]
    rfl

end Sys2Proof.Machine
end

section
/-! PROOFS. The capacity and the buffer of `BR` over `RAW_IN` (rule R188 (b)): they show in a bit read of more than 32 bits,
whose bytes need not fit the buffer, and in no command that a legal record can carry (rule R106 (c)). -/

namespace Sys2Proof.Machine

/-! ## The counterexample -/

/-- A reader of capacity `cR` that stands 7 bits into the first of nine bytes of input, its buffer empty. -/
def readerAtBit7 (cR : Nat) : State :=
  let start := State.resetWith { resetConfig with cR := cR } (Memory.ofBytes (List.replicate 9 255)) []
  start.setBr { start.br with live := true, bit := 7 }

theorem inv_readerAtBit7 {cR : Nat} (hcap : 8 ≤ cR) : Inv (readerAtBit7 cR) := by
  have h := inv_resetWith { resetConfig with cR := cR } (Memory.ofBytes (List.replicate 9 255)) []
    ⟨hcap, Nat.le_refl 8, Nat.le_refl 8, Nat.mod_self 8, Nat.le_add_left 1 15⟩ (Memory.ofBytes_wf _) (by decide)
  exact .of_channels (h.readInv.setBr rfl rfl rfl (Nat.le_refl 0) (.nil _ _)) (h.writeInv.congr rfl rfl rfl rfl)
    (Nat.le_refl 0) h.errors

/-- Refutes O42: the statement takes every bit count that the field `n` can hold. A read of 63 bits from bit offset 7
touches 9 bytes, which a buffer of 16 bytes holds and one of 8 bytes does not, so that the reader with the latter fails.
`exec_alike` is the law for the commands that a legal record can carry. -/
theorem not_readerBufferIsInvisible : ¬ Obligations.ReaderBufferIsInvisible := by
  intro h
  have hr := (h (.brReadUbits 63) (readerAtBit7 16) _ (readerAtBit7 8) _ rfl (inv_readerAtBit7 (by decide))
    (inv_readerAtBit7 (by decide)) rfl rfl rfl rfl rfl rfl rfl rfl rfl rfl rfl).1
  exact absurd hr (by decide)

/-! ## The law for legal commands -/

/-- Two readers of the same `RAW_IN` at the same cursor, with the same marks and error, whatever their capacities and
buffers (rule R188 (b)). -/
structure AlikeReaders (s s' : State) : Prop where
  inv : Inv s
  inv' : Inv s'
  raw : s.cfg.brSrc = .raw
  raw' : s'.cfg.brSrc = .raw
  markDepth : s'.cfg.markDepth = s.cfg.markDepth
  rawIn : s'.rawIn = s.rawIn
  live : s'.br.live = s.br.live
  err : s'.br.err = s.br.err
  cur : s'.br.cur = s.br.cur
  bit : s'.br.bit = s.br.bit
  marks : s'.br.marks = s.br.marks

/-- What two readers show after a command is alike: the results, and, while they are live, error, cursor and marks. -/
structure ShownAlike (t t' : State) : Prop where
  result : t'.r = t.r
  status : t'.status = t.status
  dataOut : t'.dataOut = t.dataOut
  live : t'.br.live = t.br.live
  fields : t.br.live = true →
    t'.br.err = t.br.err ∧ t'.br.cur = t.br.cur ∧ t'.br.bit = t.br.bit ∧ t'.br.marks = t.br.marks

/-- The command completes on both readers and leaves them alike. -/
def RunsAlike (i : Instr) (s s' : State) : Prop :=
  ∃ t t', exec i s = .next t ∧ exec i s' = .next t' ∧ ShownAlike t t'

namespace AlikeReaders

variable {s s' t t' : State}

/-- Over `RAW_IN` the bytes to come are those of the stream (rule R362). -/
theorem unread (h : AlikeReaders s s') (n : Nat) : s'.unread n = s.unread n := by
  rw [h.inv.br.unread_of_raw h.raw, h.inv'.br.unread_of_raw h.raw', h.rawIn, h.cur]

/-- A raw stream never refuses a seek (rule R76). -/
theorem seeks (h : AlikeReaders s s') : s.sourceSeeks ∧ s'.sourceSeeks := ⟨.inl h.raw, .inl h.raw'⟩

theorem ready (h : AlikeReaders s s') (hr : s.ready .br) : s'.ready .br := ⟨h.live.trans hr.1, h.err.trans hr.2⟩

/-! ### What two alike outcomes show -/

theorem shown_untouched (h : AlikeReaders s s') {st : Status} {r : Word64} (hc : Completed s t st r [])
    (hc' : Completed s' t' st r []) (hu : Untouched s t) (hu' : Untouched s' t') : ShownAlike t t' where
  result := hc'.result.trans hc.result.symm
  status := hc'.status.trans hc.status.symm
  dataOut := hc'.dataOut.trans hc.dataOut.symm
  live := by rw [hu.readSide.br, hu'.readSide.br, h.live]
  fields _ := by
    rw [hu.readSide.br, hu'.readSide.br]
    exact ⟨h.err, h.cur, h.bit, h.marks⟩

/-- Two commands that do no more than write `BR`, and write it alike. -/
theorem shown_setBr {u u' : Br} (hlive : u'.live = u.live)
    (hfields : u.live = true → u'.err = u.err ∧ u'.cur = u.cur ∧ u'.bit = u.bit ∧ u'.marks = u.marks) :
    ShownAlike ((s.begin .ok).setBr u).retire ((s'.begin .ok).setBr u').retire := ⟨rfl, rfl, rfl, hlive, hfields⟩

theorem shown_raised (h : AlikeReaders s s') (code : Err) :
    ShownAlike ((s.begin .ok).setBr { s.br with err := code }).retire
      ((s'.begin .ok).setBr { s'.br with err := code }).retire :=
  shown_setBr h.live fun _ => ⟨rfl, h.cur, h.bit, h.marks⟩

/-- Two commands that keep the marks, and leave error and cursor alike. -/
theorem shown_moved (h : AlikeReaders s s') (hf : SameForReader s t) (hf' : SameForReader s' t') {st : Status}
    {r : Word64} {data : List Byte} (hc : Completed s t st r data) (hc' : Completed s' t' st r data)
    (herr : t'.br.err = t.br.err) (hcur : t'.br.cur = t.br.cur) (hbit : t'.br.bit = t.br.bit) : ShownAlike t t' where
  result := hc'.result.trans hc.result.symm
  status := hc'.status.trans hc.status.symm
  dataOut := hc'.dataOut.trans hc.dataOut.symm
  live := by rw [hf.live, hf'.live, h.live]
  fields _ := ⟨herr, hcur, hbit, by rw [hf.marks, hf'.marks, h.marks]⟩

theorem shown_readerMoved (h : AlikeReaders s s') (hf : SameForReader s t) (hf' : SameForReader s' t') {st : Status}
    {r : Word64} {data : List Byte} (hc : Completed s t st r data) (hc' : Completed s' t' st r data) {k : Nat}
    {bit : Fin 8} (hm : ReaderMoved s t k bit) (hm' : ReaderMoved s' t' k bit) : ShownAlike t t' :=
  h.shown_moved hf hf' hc hc' (by rw [hm.err, hm'.err, h.err]) (by rw [hm.cur, hm'.cur, h.cur])
    (by rw [hm.bit, hm'.bit])

/-- Both reads fail with the same error, since neither stream refuses the seek. -/
theorem shown_readerFailed (h : AlikeReaders s s') (hf : SameForReader s t) (hf' : SameForReader s' t') {st : Status}
    {r : Word64} {data : List Byte} (hc : Completed s t st r data) (hc' : Completed s' t' st r data) {code : Err}
    (hm : ReaderFailed s t code) (hm' : ReaderFailed s' t' code) : ShownAlike t t' :=
  h.shown_moved hf hf' hc hc' (by rw [hm.err, hm'.err, if_pos h.seeks.2, if_pos h.seeks.1])
    (by rw [hm.cur, hm'.cur, h.cur]) (by rw [hm.bit, hm'.bit, h.bit])

theorem shown_readerAt (h : AlikeReaders s s') (hf : SameForReader s t) (hf' : SameForReader s' t') {st : Status}
    {r : Word64} {data : List Byte} (hc : Completed s t st r data) (hc' : Completed s' t' st r data) {tb : Nat}
    {tbit : Fin 8} (hm : ReaderAt s t tb tbit) (hm' : ReaderAt s' t' tb tbit) : ShownAlike t t' :=
  h.shown_moved hf hf' hc hc' (by rw [hm.err, hm'.err, if_pos (.inr h.seeks.2), if_pos (.inr h.seeks.1)])
    (by rw [hm.cur, hm'.cur]) (by rw [hm.bit, hm'.bit])

theorem shown_repositioned (h : AlikeReaders s s') (hf : SameForReader s t) (hf' : SameForReader s' t') {st : Status}
    {r : Word64} {data : List Byte} (hc : Completed s t st r data) (hc' : Completed s' t' st r data) {tb : Nat}
    {tbit : Fin 8} (hm : Repositioned s t tb tbit) (hm' : Repositioned s' t' tb tbit) : ShownAlike t t' := by
  by_cases htb : Config.posMax < tb
  · rw [Repositioned, if_pos htb] at hm hm'
    refine h.shown_moved hf hf' hc hc' ?_ ?_ ?_ <;> rw [hm.2, hm'.2]
    · exact h.cur
    · exact h.bit
  · rw [Repositioned, if_neg htb] at hm hm'
    exact h.shown_readerAt hf hf' hc hc' hm hm'

/-! ### The commands of a reader that is ready -/

theorem bitRead (h : AlikeReaders s s') (hr : s.ready .br) {i : Instr} {n : BitVec 6} {moves : Bool} {f : Nat → Nat}
    (hi : bitRead i = some (n, moves, f)) (hn : legalReadCount n) : RunsAlike i s s' := by
  obtain ⟨t, hx, hf, ht⟩ := bitReadsAndScans s i n moves f hi h.inv hr hn
  obtain ⟨t', hx', hf', ht'⟩ := bitReadsAndScans s' i n moves f hi h.inv' (h.ready hr) hn
  refine ⟨t, t', hx, hx', ?_⟩
  simp only [h.bit, h.unread] at ht'
  split at ht
  · next hl =>
    rw [if_pos hl] at ht'
    cases moves with
    | false => exact h.shown_readerMoved hf hf' ht.1 ht'.1 ht.2 ht'.2
    | true => exact h.shown_readerMoved hf hf' ht.1 ht'.1 ht.2 ht'.2
  · next hl =>
    rw [if_neg hl] at ht'
    exact h.shown_readerFailed hf hf' ht.1 ht'.1 ht.2 ht'.2

theorem integerRead (h : AlikeReaders s s') (hr : s.ready .br) {i : Instr} {k : Nat} {f : Nat → Nat}
    (hi : integerRead i = some (k, f)) : RunsAlike i s s' := by
  obtain ⟨t, hx, hf, ht⟩ := integerReadsAreLittleEndian s i k f hi h.inv hr
  obtain ⟨t', hx', hf', ht'⟩ := integerReadsAreLittleEndian s' i k f hi h.inv' (h.ready hr)
  refine ⟨t, t', hx, hx', ?_⟩
  simp only [h.bit, h.unread] at ht'
  split at ht
  · next hl =>
    rw [if_pos hl] at ht'
    exact h.shown_readerMoved hf hf' ht.1 ht'.1 ht.2 ht'.2
  · next hl =>
    rw [if_neg hl] at ht'
    exact h.shown_readerFailed hf hf' ht.1 ht'.1 ht.2 ht'.2

theorem brAlign (h : AlikeReaders s s') (hr : s.ready .br) : RunsAlike .brAlign s s' := by
  obtain ⟨t, hx, hc, hf, ht⟩ := readerAlignMovesToTheNextByte s h.inv hr
  obtain ⟨t', hx', hc', hf', ht'⟩ := readerAlignMovesToTheNextByte s' h.inv' (h.ready hr)
  refine ⟨t, t', hx, hx', ?_⟩
  rw [h.bit, h.cur] at ht'
  split at ht
  · next hbit =>
    rw [if_pos hbit] at ht'
    exact h.shown_untouched hc hc' ht ht'
  · next hbit =>
    rw [if_neg hbit] at ht'
    exact h.shown_repositioned hf hf' hc hc' ht ht'

theorem brSkip (h : AlikeReaders s s') (hr : s.ready .br) (cnt : BitVec 32) : RunsAlike (.brSkip cnt) s s' := by
  obtain ⟨t, hx, hc, hf, ht⟩ := (skipsMoveTheReader s cnt h.inv hr).1
  obtain ⟨t', hx', hc', hf', ht'⟩ := (skipsMoveTheReader s' cnt h.inv' (h.ready hr)).1
  rw [h.bit, h.cur] at ht'
  exact ⟨t, t', hx, hx', h.shown_repositioned hf hf' hc hc' ht ht'⟩

theorem brSkipBits (h : AlikeReaders s s') (hr : s.ready .br) (cnt : BitVec 32) :
    RunsAlike (.brSkipBits cnt) s s' := by
  obtain ⟨t, hx, hc, hf, ht⟩ := (skipsMoveTheReader s cnt h.inv hr).2
  obtain ⟨t', hx', hc', hf', ht'⟩ := (skipsMoveTheReader s' cnt h.inv' (h.ready hr)).2
  rw [h.bit, h.cur] at ht'
  exact ⟨t, t', hx, hx', h.shown_repositioned hf hf' hc hc' ht ht'⟩

theorem brReset (h : AlikeReaders s s') (hr : s.ready .br) : RunsAlike .brReset s s' := by
  obtain ⟨t, hx, hc, hf, hempty, htop⟩ := resetReturnsToTheTopMark s h.inv hr
  obtain ⟨t', hx', hc', hf', hempty', htop'⟩ := resetReturnsToTheTopMark s' h.inv' (h.ready hr)
  refine ⟨t, t', hx, hx', ?_⟩
  rw [h.marks] at hempty' htop'
  rcases List.eq_nil_or_concat' s.br.marks with hm | ⟨rest, e, hm⟩
  · exact h.shown_readerAt hf hf' hc hc' (hempty hm) (hempty' hm)
  · exact h.shown_readerAt hf hf' hc hc' (htop rest e hm) (htop' rest e hm)

theorem brMark (h : AlikeReaders s s') (hr : s.ready .br) : RunsAlike .brMark s s' := by
  by_cases hfull : s.br.marks.length = s.cfg.markDepth
  · exact ⟨_, _, exec_brMark_full hr hfull,
      exec_brMark_full (h.ready hr) (by rw [h.marks, h.markDepth]; exact hfull), h.shown_raised _⟩
  · exact ⟨_, _, exec_brMark_room hr hfull, exec_brMark_room (h.ready hr) (by rw [h.marks, h.markDepth]; exact hfull),
      shown_setBr h.live fun _ => ⟨h.err, h.cur, h.bit, by simp only [h.marks, h.cur, h.bit]⟩⟩

theorem brUnmark (h : AlikeReaders s s') (hr : s.ready .br) : RunsAlike .brUnmark s s' := by
  rcases List.eq_nil_or_concat' s.br.marks with hm | ⟨rest, e, hm⟩
  · exact ⟨_, _, exec_brUnmark_empty hr hm, exec_brUnmark_empty (h.ready hr) (h.marks.trans hm), h.shown_raised _⟩
  · exact ⟨_, _, exec_brUnmark_top hr hm, exec_brUnmark_top (h.ready hr) (h.marks.trans hm),
      shown_setBr h.live fun _ => ⟨h.err, h.cur, h.bit, rfl⟩⟩

theorem brCheck (h : AlikeReaders s s') (hr : s.ready .br) (expected : Word64) :
    RunsAlike (.brCheck expected) s s' := by
  rcases List.eq_nil_or_concat' s.br.marks with hm | ⟨rest, e, hm⟩
  · exact ⟨_, _, exec_brCheck_empty hr hm expected, exec_brCheck_empty (h.ready hr) (h.marks.trans hm) expected,
      h.shown_raised _⟩
  · have hx' := exec_brCheck_top (h.ready hr) (h.marks.trans hm) expected
    rw [h.cur] at hx'
    exact ⟨_, _, exec_brCheck_top hr hm expected, hx', h.shown_untouched ⟨rfl, rfl, rfl, rfl⟩ ⟨rfl, rfl, rfl, rfl⟩
      (untouched_setR_retire s .ok _) (untouched_setR_retire s' .ok _)⟩

theorem brBytesRead (h : AlikeReaders s s') (hr : s.ready .br) : RunsAlike .brBytesRead s s' := by
  rcases List.eq_nil_or_concat' s.br.marks with hm | ⟨rest, e, hm⟩
  · exact ⟨_, _, exec_brBytesRead_empty hr hm, exec_brBytesRead_empty (h.ready hr) (h.marks.trans hm),
      h.shown_raised _⟩
  · have hx' := exec_brBytesRead_top (h.ready hr) (h.marks.trans hm)
    rw [h.cur] at hx'
    exact ⟨_, _, exec_brBytesRead_top hr hm, hx', h.shown_untouched ⟨rfl, rfl, rfl, rfl⟩ ⟨rfl, rfl, rfl, rfl⟩
      (untouched_setR_retire s .ok _) (untouched_setR_retire s' .ok _)⟩

theorem brReadBytes (h : AlikeReaders s s') (hr : s.ready .br) (cnt : BitVec 32) :
    RunsAlike (.brReadBytes cnt) s s' := by
  obtain ⟨t, hx, hf, hc, hcur, hbit, -, herr⟩ := readBytesDeliversTheStream s cnt h.inv hr
  obtain ⟨t', hx', hf', hc', hcur', hbit', -, herr'⟩ := readBytesDeliversTheStream s' cnt h.inv' (h.ready hr)
  simp only [h.unread] at hc' hcur' herr'
  rw [if_pos h.seeks.1] at herr
  rw [if_pos h.seeks.2] at herr'
  exact ⟨t, t', hx, hx', h.shown_moved hf hf' hc hc' (herr'.trans herr.symm) (by rw [hcur, hcur', h.cur])
    (by rw [hbit, hbit', h.bit])⟩

theorem brReadStrFixed (h : AlikeReaders s s') (hr : s.ready .br) (cnt : BitVec 32) :
    RunsAlike (.brReadStrFixed cnt) s s' := by
  obtain ⟨t, data, hx, hf, hc, hnul, hplain, hcur, hbit, -, herr⟩ := fixedStringDropsFinalNul s cnt h.inv hr
  obtain ⟨t', data', hx', hf', hc', hnul', hplain', hcur', hbit', -, herr'⟩ :=
    fixedStringDropsFinalNul s' cnt h.inv' (h.ready hr)
  simp only [h.unread] at hnul' hplain' hcur' herr'
  rw [if_pos h.seeks.1] at herr
  rw [if_pos h.seeks.2] at herr'
  have hdata : data' = data := by
    by_cases hlast : (s.unread cnt.toNat).getLast? = some 0
    · obtain ⟨front, hfront⟩ := List.getLast?_eq_some_iff.1 hlast
      rw [hnul front hfront, hnul' front hfront]
    · rw [hplain hlast, hplain' hlast]
  rw [hdata] at hc'
  exact ⟨t, t', hx, hx', h.shown_moved hf hf' hc hc' (herr'.trans herr.symm) (by rw [hcur, hcur', h.cur])
    (by rw [hbit, hbit', h.bit])⟩

theorem brReadStrNul (h : AlikeReaders s s') (hr : s.ready .br) : RunsAlike .brReadStrNul s s' := by
  have hend := State.unread_strRounds h.inv.brOk
  obtain ⟨t, data, hx, hf, hdata, hc, hcur, hbit, -, herr⟩ := nulStringStopsAtFirstNul s _ h.inv hr hend
  obtain ⟨t', data', hx', hf', hdata', hc', hcur', hbit', -, herr'⟩ :=
    nulStringStopsAtFirstNul s' s.strRounds h.inv' (h.ready hr) (by rw [h.unread]; exact hend)
  rw [h.unread] at hdata' hcur'
  rw [if_pos (.inr h.seeks.1)] at herr
  rw [if_pos (.inr h.seeks.2)] at herr'
  rw [hdata', ← hdata] at hc'
  exact ⟨t, t', hx, hx', h.shown_moved hf hf' hc hc' (herr'.trans herr.symm) (by rw [hcur, hcur', h.cur])
    (by rw [hbit, hbit', h.bit])⟩

/-! ### INIT, RELEASE and GET_ERROR -/

theorem brInit (h : AlikeReaders s s') (hdead : s.br.live = false) : RunsAlike .brInit s s' :=
  ⟨_, _, exec_init (i := .brInit) rfl hdead, exec_init (i := .brInit) rfl (h.live.trans hdead),
    shown_setBr rfl fun _ => ⟨rfl, rfl, rfl, rfl⟩⟩

theorem brRelease (h : AlikeReaders s s') (hlive : s.br.live = true) : RunsAlike .brRelease s s' :=
  ⟨_, _, exec_release (i := .brRelease) rfl hlive, exec_release (i := .brRelease) rfl (h.live.trans hlive),
    shown_setBr rfl fun _ => ⟨h.err, h.cur, h.bit, h.marks⟩⟩

theorem brGetError (h : AlikeReaders s s') (hlive : s.br.live = true) : RunsAlike .brGetError s s' := by
  have hx' := exec_getError (i := .brGetError) rfl (h.live.trans hlive)
  have herr : s'.errOf .br = s.errOf .br := h.err
  rw [show Instr.brGetError.unit = .br from rfl, herr] at hx'
  exact ⟨_, _, exec_getError (i := .brGetError) rfl hlive, hx', h.shown_untouched ⟨rfl, rfl, rfl, rfl⟩
    ⟨rfl, rfl, rfl, rfl⟩ (untouched_setR_retire s .ok _) (untouched_setR_retire s' .ok _)⟩

/-- Every command that the command cycle lets run, with legal operands. -/
theorem runs (h : AlikeReaders s s') {i : Instr} (hu : i.unit = .br) (hw : i.WellFormed)
    (hdead : i.cls = .init → s.br.live = false) (hlive : i.cls ≠ .init → s.br.live = true)
    (hready : i.cls = .ordinary → s.ready .br) : RunsAlike i s s' := by
  cases i with
  | brInit => exact h.brInit (hdead rfl)
  | brRelease => exact h.brRelease (hlive (by decide))
  | brGetError => exact h.brGetError (hlive (by decide))
  | brReadUbits n | brReadSbits n | brScanUbits n | brScanSbits n => exact h.bitRead (hready rfl) rfl hw
  | brReadU8 | brReadS8 | brReadU16 | brReadS16 | brReadU32 | brReadS32 => exact h.integerRead (hready rfl) rfl
  | brAlign => exact h.brAlign (hready rfl)
  | brSkip cnt => exact h.brSkip (hready rfl) cnt
  | brSkipBits cnt => exact h.brSkipBits (hready rfl) cnt
  | brMark => exact h.brMark (hready rfl)
  | brUnmark => exact h.brUnmark (hready rfl)
  | brReset => exact h.brReset (hready rfl)
  | brCheck expected => exact h.brCheck (hready rfl) expected
  | brBytesRead => exact h.brBytesRead (hready rfl)
  | brReadBytes cnt => exact h.brReadBytes (hready rfl) cnt
  | brReadStrFixed cnt => exact h.brReadStrFixed (hready rfl) cnt
  | brReadStrNul => exact h.brReadStrNul (hready rfl)
  | _ => cases hu

end AlikeReaders

/-- Rule R188 (b), for `BR_SRC = RAW` and every command of `BR` that a legal record can carry: whatever their capacities and
buffers, two readers that are alike show the same and stay alike. -/
theorem exec_alike {i : Instr} {s s' : State} (hu : i.unit = .br) (hw : i.WellFormed) (h : AlikeReaders s s') :
    RunsAlike i s s' := by
  have hl : s'.liveOf i.unit = s.liveOf i.unit := by rw [hu]; exact h.live
  have he : s'.errOf i.unit = s.errOf i.unit := by rw [hu]; exact h.err
  by_cases hrefused : i.cls = .init ↔ s.liveOf i.unit = true
  · obtain ⟨t, hx, hc, hun⟩ := lifecycleRefusalChangesNothing i s hrefused
    obtain ⟨t', hx', hc', hun'⟩ := lifecycleRefusalChangesNothing i s' (by rw [hl]; exact hrefused)
    exact ⟨t, t', hx, hx', h.shown_untouched hc hc' hun hun'⟩
  · have hdead : i.cls = .init → s.liveOf i.unit = false := fun hi => by simpa [hi] using hrefused
    have hlive : i.cls ≠ .init → s.liveOf i.unit = true := fun hi => by simpa [hi] using hrefused
    by_cases hshort : i.cls = .ordinary ∧ s.errOf i.unit ≠ .noError
    · obtain ⟨hcls, herr⟩ := hshort
      have hlive := hlive (by rw [hcls]; decide)
      obtain ⟨t, hx, hc, hun⟩ := erroredUnitShortCircuits i s hcls hlive herr
      obtain ⟨t', hx', hc', hun'⟩ := erroredUnitShortCircuits i s' hcls (hl.trans hlive) (by rw [he]; exact herr)
      exact ⟨t, t', hx, hx', h.shown_untouched hc hc' hun hun'⟩
    · rw [hu] at hdead hlive hshort
      exact h.runs hu hw hdead hlive fun hcls =>
        ⟨hlive (by rw [hcls]; decide), Decidable.byContradiction fun herr => hshort ⟨hcls, herr⟩⟩

/-- The two readers of the counterexample are alike, and a command that fits both buffers does not tell them apart. -/
theorem witness_exec_alike : RunsAlike .brReadU16 (readerAtBit7 8) (readerAtBit7 16) :=
  exec_alike rfl trivial ⟨inv_readerAtBit7 (by decide), inv_readerAtBit7 (by decide), rfl, rfl, rfl, rfl, rfl, rfl, rfl,
    rfl, rfl⟩

end Sys2Proof.Machine
end

section
/-! PROOFS. FLUSH and the byte-aligned writes of `BW` (rules R220, R225, R226, R229, R234): what they leave alone, what they
send, and the stream that a run of them gives, whatever the capacity. -/

namespace Sys2Proof.Machine

/-! ## What a byte-aligned command leaves alone -/

theorem bwWriteBytesCore_cwa_of_raw {l : List Byte} {s : State} (h : s.cfg.bwDst = .raw) :
    (bwWriteBytesCore l s).cwa = s.cwa := by
  have hfl := bwFlush_cwa_of_raw h
  have hwr : (dswWrite l (bwFlush s)).2.cwa = s.cwa := (dswWrite_cwa_of_raw (by simpa using h)).trans hfl
  unfold bwWriteBytesCore
  dsimp only
  split
  · rfl
  · split
    · exact hfl
    · split <;> exact hwr

/-- The commands that rule R234 speaks of are commands of `BW` that a latched error stops. -/
theorem unit_of_streamBytes {i : Instr} {l : List Byte} (hi : streamBytes i = some l) :
    i.unit = .bw ∧ i.cls = .ordinary := by
  cases i with
  | bwWriteByte _ | bwWriteShort _ | bwWriteInt _ => exact ⟨rfl, rfl⟩
  | bwWriteBytes _ | bwWriteString _ | bwAlign | bwFlush => exact ⟨rfl, rfl⟩
  | _ => cases hi

/-- They leave the results, the marks of `BW` and the flags of `CWA` alone. -/
theorem bodyOf_frame_of_streamBytes {i : Instr} {l : List Byte} (hi : streamBytes i = some l) (s : State) :
    (bodyOf i s).r = s.r ∧ (bodyOf i s).status = s.status ∧ (bodyOf i s).dataOut = s.dataOut ∧
    (bodyOf i s).bw.live = s.bw.live ∧ (bodyOf i s).bw.marks = s.bw.marks ∧ (bodyOf i s).cwa.live = s.cwa.live ∧
    (bodyOf i s).cwa.own = s.cwa.own ∧ (bodyOf i s).cwa.sched = s.cwa.sched ∧
    (bodyOf i s).cwa.sealed = s.cwa.sealed := by
  cases i with
  | bwWriteByte _ | bwWriteShort _ | bwWriteInt _ => simp [bodyOf, bwWriteByte, bwWriteShort, bwWriteInt]
  | bwWriteBytes _ | bwWriteString _ | bwFlush => simp [bodyOf, bwWriteBytes]
  | bwAlign => simp only [bodyOf, bwAlign]; split <;> simp
  | _ => cases hi

/-- With a raw downstream they do not touch `CWA` (rule R141). -/
theorem bodyOf_cwa_of_raw {i : Instr} {l : List Byte} (hi : streamBytes i = some l) {s : State}
    (h : s.cfg.bwDst = .raw) : (bodyOf i s).cwa = s.cwa := by
  cases i with
  | bwWriteByte _ | bwWriteShort _ | bwWriteInt _ => exact bwStore_cwa_of_raw h
  | bwWriteBytes _ => exact bwWriteBytesCore_cwa_of_raw h
  | bwWriteString p =>
    have hwr := bwWriteBytesCore_cwa_of_raw (l := p) h
    simp only [bodyOf, bwWriteString]
    split
    · exact hwr
    · exact (bwStore_cwa_of_raw (by simpa using h)).trans hwr
  | bwAlign => simp only [bodyOf, bwAlign]; split <;> rfl
  | bwFlush => exact bwFlush_cwa_of_raw h
  | _ => cases hi

/-- A byte-aligned command of a ready `BW` runs its rule, delivers nothing, and keeps the frame of a writer. -/
theorem exec_of_streamBytes {i : Instr} {l : List Byte} (hi : streamBytes i = some l) {s : State} (hr : s.ready .bw)
    (hwf : s.rawOut.wf) :
    exec i s = .next (bodyOf i (s.begin .ok)).retire ∧ Completed s (bodyOf i (s.begin .ok)).retire .ok 0 [] ∧
    SameForWriter s (bodyOf i (s.begin .ok)).retire := by
  obtain ⟨hunit, hcls⟩ := unit_of_streamBytes hi
  obtain ⟨hres, hstatus, hdata, hlive, hmarks, hcwaLive, hown, hsched, hsealed⟩ :=
    bodyOf_frame_of_streamBytes hi (s.begin .ok)
  have hx := exec_ready hcls (hunit ▸ hr)
  obtain ⟨hpc, hlaunch⟩ := exec_advances hx
  have hside := bodyOf_readSide (.inl hunit) (s.begin .ok)
  have hraw (hd : s.cfg.bwDst = .raw) := bodyOf_cwa_of_raw hi (s := s.begin .ok) hd
  exact ⟨hx, ⟨hpc, hstatus, hres, hdata⟩, hlaunch, ⟨hside.br, hside.cra, hside.rc⟩, hlive, hmarks, hcwaLive, hown,
    hsched, hsealed, hraw, (bodyOf_outGrows i (s.begin .ok)).output hwf, bodyOf_log i (s.begin .ok)⟩

/-! ## FLUSH (rule R220) -/

/-- A flush that leaves the latch of `CWA` as it was leaves the downstream as it was, accepting or not. -/
theorem bwFlush_sinkAccepts {s : State} (h : (bwFlush s).cwa.err = s.cwa.err) :
    (bwFlush s).sinkAccepts ↔ s.sinkAccepts :=
  State.sinkAccepts_congr (by simp) (by simp) h (by simp)

/-- A flush of some bytes into a downstream that accepts none (rules R220, R321). -/
theorem bwFlush_failed {s : State} (he : s.bw.err = .noError) (hn : ¬s.sinkAccepts)
    (h0 : s.bw.idx + partialByte s.bw.bit ≠ 0) : WriterFailed s (bwFlush s) := by
  obtain ⟨hbw, hout, -⟩ := bwFlush_refused hn h0
  rw [he, latch_noError] at hbw
  exact ⟨by rw [hbw], by rw [hbw]; rfl, by rw [hbw], by rw [hbw]; rfl, hout⟩

/-- A downstream that accepts no write sends nothing when it is flushed (rules R142, R292). -/
theorem dswFlush_refused {s : State} (hn : ¬s.sinkAccepts) : (dswFlush s).rawOut = s.rawOut := by
  rcases hd : s.cfg.bwDst with _ | _
  · exact absurd (.inl hd) hn
  · simp only [dswFlush, hd]
    split
    · rfl
    · rfl
    · next hg =>
      obtain ⟨hlive, herr⟩ := gate_accepts.1 hg
      have hsealed : s.cwa.sealed = true := by
        by_contra hopen
        exact hn (.inr ⟨hlive, herr, by simpa using hopen⟩)
      simp [cwaFlushBody, hsealed]

/-! ## WRITE_BYTES (rules R225, R226) -/

theorem bwWriteBytesCore_fits {l : List Byte} {s : State}
    (h : s.bw.idx + l.length + partialByte s.bw.bit ≤ s.cfg.cW) :
    bwWriteBytesCore l s = s.setBw (s.bw.putRun l) := if_pos h

/-- Bytes that do not fit go past the buffer once it is flushed (rule R225). -/
theorem bwWriteBytesCore_direct {l : List Byte} {s : State}
    (hfull : s.cfg.cW < s.bw.idx + l.length + partialByte s.bw.bit) (he : (bwFlush s).bw.err = .noError) :
    bwWriteBytesCore l s =
      if (dswWrite l (bwFlush s)).1 < l.length then raise .bw .failedToWrite (dswWrite l (bwFlush s)).2
      else (dswWrite l (bwFlush s)).2.setBw
        { (dswWrite l (bwFlush s)).2.bw with pos := (dswWrite l (bwFlush s)).2.bw.pos + l.length } := by
  simp only [bwWriteBytesCore, if_neg (Nat.not_le.2 hfull), he, ne_eq, not_true_eq_false, if_false]

theorem bwWriteBytesCore_flushFails {l : List Byte} {s : State}
    (hfull : s.cfg.cW < s.bw.idx + l.length + partialByte s.bw.bit) (he : (bwFlush s).bw.err ≠ .noError) :
    bwWriteBytesCore l s = bwFlush s := by
  simp only [bwWriteBytesCore, if_neg (Nat.not_le.2 hfull), if_pos he]

/-- Bytes that do not fit, before a downstream that accepts: it takes what was pending, then the bytes. -/
theorem bwWriteBytesCore_accepted {l : List Byte} {s : State} (h : WriteInv s) (he : s.bw.err = .noError)
    (hfull : s.cfg.cW < s.bw.idx + l.length + partialByte s.bw.bit) (ha : s.sinkAccepts) :
    (bwWriteBytesCore l s).bw = { s.bw.flushed s.cfg.cW with pos := s.bw.cur + l.length } ∧
    SinkTook s (bwWriteBytesCore l s) (s.bw.pending ++ l) ∧ (bwWriteBytesCore l s).sinkAccepts := by
  obtain ⟨hbw, htook, hok, hcwa, -⟩ := bwFlush_accepted h.sink.sinkOk h.bw.buf_length h.bw.idx_le_cap
    h.bw.partial_room (.inl ha)
  obtain ⟨hcount, htook', -, haccepts⟩ := dswWrite_accepted l hok ((bwFlush_sinkAccepts hcwa).2 ha)
  have hboth := htook.trans htook' (by simp) (by simp)
  rw [bwWriteBytesCore_direct hfull (by rw [hbw]; exact he), if_neg (by omega)]
  refine ⟨?_, ⟨hboth.raw, hboth.cwa⟩, haccepts⟩
  simp only [State.setBw_bw, dswWrite_frame, hbw]
  rfl

/-- Bytes that do not fit, before a downstream that refuses: the flush fails, or, where nothing was pending, the write. -/
theorem bwWriteBytesCore_refused {l : List Byte} {s : State} (h : WriteInv s) (he : s.bw.err = .noError)
    (hfull : s.cfg.cW < s.bw.idx + l.length + partialByte s.bw.bit) (hn : ¬s.sinkAccepts) :
    WriterFailed s (bwWriteBytesCore l s) := by
  by_cases h0 : s.bw.idx + partialByte s.bw.bit = 0
  · obtain ⟨hbw, -, -, hcwa, -⟩ := bwFlush_accepted h.sink.sinkOk h.bw.buf_length h.bw.idx_le_cap h.bw.partial_room
      (.inr h0)
    obtain ⟨hcount, hout, -⟩ := dswWrite_refused l (fun ha => hn ((bwFlush_sinkAccepts hcwa).1 ha))
    have hflush : (bwFlush s).rawOut = s.rawOut := by
      rw [bwFlush, if_pos h0]
      exact dswFlush_refused hn
    have hbits : (s.bw.flushed s.cfg.cW).bits = s.bw.bits := by
      rw [h.bw.bwBuf.bits_flushed h.capacity, Bw.carried, show s.bw.idx = 0 by omega]
      rfl
    rw [bwWriteBytesCore_direct hfull (by rw [hbw]; exact he), if_pos (by omega)]
    have hraised : (raise .bw .failedToWrite (dswWrite l (bwFlush s)).2).bw =
        { s.bw.flushed s.cfg.cW with err := .failedToWrite } := by
      have hferr : (s.bw.flushed s.cfg.cW).err = .noError := he
      simp [hbw, hferr]
    refine ⟨?_, ?_, ?_, ?_, hout.trans hflush⟩ <;> rw [hraised]
    · exact s.bw.flushed_cur s.cfg.cW
    · rfl
    · exact hbits
  · have hfail := bwFlush_failed he hn h0
    rw [bwWriteBytesCore_flushFails hfull (by rw [hfail.err]; decide)]
    exact hfail

/-! ## Byte-aligned commands in a row (rule R234) -/

/-- A `BW` that is ready, at a byte boundary, over a downstream that accepts. -/
structure AlignedWriter (s : State) : Prop where
  inv : WriteInv s
  ready : s.ready .bw
  aligned : s.bw.bit = 0
  accepts : s.sinkAccepts

/-- Between `s` and `t` the writer's stream got the bytes `l`: what the downstream took and what is still pending are what
was pending before and `l`. The capacity has no part in it. -/
structure Wrote (s t : State) (l : List Byte) : Prop where
  writer : AlignedWriter t
  cfg : t.cfg = s.cfg
  sched : t.cwa.sched = s.cwa.sched
  cur : t.bw.cur = s.bw.cur + l.length
  took : ∃ sent, SinkTook s t sent ∧ s.bw.pending ++ l = sent ++ t.bw.pending

theorem Wrote.refl {s : State} (h : AlignedWriter s) : Wrote s s [] :=
  ⟨h, rfl, rfl, rfl, [], .refl rfl rfl, List.append_nil _⟩

theorem Wrote.trans {s t u : State} {l k : List Byte} (h1 : Wrote s t l) (h2 : Wrote t u k) : Wrote s u (l ++ k) := by
  obtain ⟨sent, htook, hsent⟩ := h1.took
  obtain ⟨sent', htook', hsent'⟩ := h2.took
  refine ⟨h2.writer, h2.cfg.trans h1.cfg, h2.sched.trans h1.sched, ?_, sent ++ sent',
    htook.trans htook' h1.cfg h1.sched, ?_⟩
  · rw [h2.cur, h1.cur, List.length_append, Nat.add_assoc]
  · rw [← List.append_assoc, hsent, List.append_assoc, hsent', List.append_assoc]

/-- At a byte boundary the pending bytes are the completed ones. -/
theorem AlignedWriter.pending {s : State} (h : AlignedWriter s) : s.bw.pending = sliceBytes s.bw.buf 0 s.bw.idx := by
  simp [Bw.pending, h.aligned, partialByte]

/-- Bytes that fit stay pending (rules R225, R238). -/
theorem AlignedWriter.putRun {s : State} (h : AlignedWriter s) {l : List Byte}
    (hfit : s.bw.idx + l.length ≤ s.cfg.cW) : Wrote s (s.setBw (s.bw.putRun l)) l := by
  have hcur := s.bw.putRun_cur l
  obtain ⟨hbuf, hslice⟩ := Bw.putRun_spec h.inv.bw.bwBuf l (by simpa [h.aligned, partialByte] using hfit)
  have hwriter : AlignedWriter (s.setBw (s.bw.putRun l)) :=
    ⟨h.inv.advance hbuf rfl (by omega), h.ready, h.aligned, h.accepts⟩
  refine ⟨hwriter, rfl, rfl, hcur, [], .refl rfl rfl, ?_⟩
  rw [hwriter.pending, h.pending]
  exact hslice.symm

/-- A flush sends what is pending (rule R220). -/
theorem AlignedWriter.flush {s : State} (h : AlignedWriter s) : Wrote s (bwFlush s) [] ∧ (bwFlush s).bw.idx = 0 := by
  obtain ⟨hbw, htook, -, hcwa, -⟩ := bwFlush_accepted h.inv.sink.sinkOk h.inv.bw.buf_length h.inv.bw.idx_le_cap
    h.inv.bw.partial_room (.inl h.accepts)
  have hidx : (bwFlush s).bw.idx = 0 := by rw [hbw]; rfl
  have herr : (bwFlush s).bw.err = .noError := by rw [hbw]; exact h.ready.2
  have hwriter : AlignedWriter (bwFlush s) :=
    ⟨bwFlush_writeInv h.inv, ⟨by simpa using h.ready.1, herr⟩, by simpa using h.aligned,
      (bwFlush_sinkAccepts hcwa).2 h.accepts⟩
  refine ⟨⟨hwriter, by simp, by simp, ?_, s.bw.pending, htook, ?_⟩, hidx⟩
  · rw [hbw, Bw.flushed_cur]
    rfl
  · rw [hwriter.pending, hidx]
    rfl

/-- An integer write, buffered or after a flush (rule R238). -/
theorem AlignedWriter.integer {s : State} (h : AlignedWriter s) {i : Instr} {l : List Byte}
    (hi : integerWrite i = some l) : Wrote s (bodyOf i s) l := by
  obtain ⟨-, -, hlen, hbody⟩ := bodyOf_integerWrite hi
  have h8 := h.inv.capacity
  rw [hbody, h.aligned, show l.length + partialByte 0 = l.length from rfl]
  by_cases hfit : s.bw.idx + l.length ≤ s.cfg.cW
  · rw [bwStore_fits hfit h.ready.2]
    exact h.putRun hfit
  · obtain ⟨hflush, hidx⟩ := h.flush
    rw [bwStore_flushes (Nat.not_le.1 hfit) hflush.writer.ready.2]
    exact hflush.trans (hflush.writer.putRun (by rw [hidx, hflush.cfg]; omega))

/-- A byte block, buffered or straight to the downstream (rule R225). -/
theorem AlignedWriter.block {s : State} (h : AlignedWriter s) (l : List Byte) : Wrote s (bwWriteBytesCore l s) l := by
  by_cases hfit : s.bw.idx + l.length + partialByte s.bw.bit ≤ s.cfg.cW
  · rw [bwWriteBytesCore_fits hfit]
    exact h.putRun (Nat.le_of_add_right_le hfit)
  · obtain ⟨hbw, htook, haccepts⟩ := bwWriteBytesCore_accepted h.inv h.ready.2 (Nat.not_le.1 hfit) h.accepts
    have herr : (bwWriteBytesCore l s).bw.err = .noError := by rw [hbw]; exact h.ready.2
    have hwriter : AlignedWriter (bwWriteBytesCore l s) :=
      ⟨bwWriteBytesCore_writeInv l h.inv, ⟨by simpa using h.ready.1, herr⟩, by rw [hbw]; exact h.aligned, haccepts⟩
    refine ⟨hwriter, by simp, by simp, by rw [hbw]; rfl, s.bw.pending ++ l, htook, ?_⟩
    rw [hwriter.pending, hbw]
    exact (List.append_nil _).symm

/-- Every byte-aligned command adds its bytes to the stream (rule R234). -/
theorem bodyOf_wrote {i : Instr} {l : List Byte} (hi : streamBytes i = some l) {s : State} (h : AlignedWriter s) :
    Wrote s (bodyOf i s) l := by
  cases i with
  | bwWriteByte v => exact h.integer (i := .bwWriteByte v) hi
  | bwWriteShort v => exact h.integer (i := .bwWriteShort v) hi
  | bwWriteInt v => exact h.integer (i := .bwWriteInt v) hi
  | bwWriteBytes p =>
    cases hi
    exact h.block _
  | bwWriteString p =>
    cases hi
    have hblock := h.block p
    have hbody : bodyOf (.bwWriteString p) s = bodyOf (.bwWriteByte 0) (bwWriteBytesCore p s) :=
      if_neg (not_not_intro hblock.writer.ready.2)
    rw [hbody]
    exact hblock.trans (hblock.writer.integer (i := .bwWriteByte 0) rfl)
  | bwAlign =>
    cases hi
    rw [show bodyOf .bwAlign s = s from if_pos h.aligned]
    exact .refl h
  | bwFlush =>
    cases hi
    exact h.flush.1
  | _ => cases hi

/-- The command cycle adds nothing to what the body wrote (rule R131). -/
theorem exec_wrote {i : Instr} {l : List Byte} (hi : streamBytes i = some l) {s : State} (h : AlignedWriter s) :
    ∃ t, exec i s = .next t ∧ Wrote s t l := by
  obtain ⟨hunit, hcls⟩ := unit_of_streamBytes hi
  have hbegin : AlignedWriter (s.begin .ok) := ⟨h.inv.congr rfl rfl rfl rfl, h.ready, h.aligned, h.accepts⟩
  obtain ⟨hwriter, hcfg, hsched, hcur, sent, htook, hsent⟩ := bodyOf_wrote hi hbegin
  exact ⟨_, exec_ready hcls (hunit ▸ h.ready),
    ⟨hwriter.inv.congr rfl rfl rfl rfl, hwriter.ready, hwriter.aligned, hwriter.accepts⟩, hcfg, hsched, hcur, sent,
    ⟨htook.raw, htook.cwa⟩, hsent⟩

/-- A run of byte-aligned commands adds their bytes in order (rule R234). -/
theorem execAll_wrote {cmds : List Instr} {bytes : List (List Byte)} (hb : cmds.map streamBytes = bytes.map some)
    {s : State} (h : AlignedWriter s) : ∃ t, execAll cmds s = .next t ∧ Wrote s t bytes.flatten := by
  induction cmds generalizing s bytes with
  | nil =>
    rw [List.map_nil, eq_comm, List.map_eq_nil_iff] at hb
    subst hb
    exact ⟨s, rfl, .refl h⟩
  | cons i cmds ih =>
    cases bytes with
    | nil => cases hb
    | cons l bytes =>
      obtain ⟨hi, hrest⟩ := List.cons.inj hb
      obtain ⟨t, hexec, hwrote⟩ := exec_wrote hi h
      obtain ⟨u, hrun, hwrote'⟩ := ih hrest hwrote.writer
      exact ⟨u, (execAll_cons hexec cmds).trans hrun, hwrote.trans hwrote'⟩

/-- Settles O51: each command adds its bytes to the stream, and the run adds them one after another. -/
theorem alignedWritesIgnoreCapacity : Obligations.AlignedWritesIgnoreCapacity := by
  intro cmds s bytes hinv hready hbit haccepts hb
  obtain ⟨t, hrun, hwriter, -, -, hcur, sent, htook, hsent⟩ :=
    execAll_wrote hb ⟨hinv.writeInv, hready, hbit, haccepts⟩
  exact ⟨t, sent, hrun, htook, hsent, hcur, hwriter.aligned, hwriter.ready.2, hwriter.accepts⟩

end Sys2Proof.Machine
end

section
/-! PROOFS. WRITE_BYTES, WRITE_STRING and FLUSH of `BW` (rules R220, R225 to R227, R229), and the partial byte that a flush
sends and the next one sends again (rule R233). -/

namespace Sys2Proof.Machine

/-- Settles O45: the bytes fit, or go past the buffer into a downstream that accepts or refuses. -/
theorem writeBytesBufferedOrDirect : Obligations.WriteBytesBufferedOrDirect := by
  intro s p hinv hready
  obtain ⟨hexec, hcompleted, hsame⟩ :=
    exec_of_streamBytes (i := .bwWriteBytes p) rfl hready hinv.launch.rawOut_wf
  have hbegin := (hinv.begin .ok).writeInv
  have herr : s.bw.err = .noError := hready.2
  refine ⟨_, hexec, hcompleted, hsame, fun hfit => ?_, fun hfull ha => ?_, fun hfull hr => ?_⟩
  · have hbody : bodyOf (.bwWriteBytes p) (s.begin .ok) = (s.begin .ok).setBw (s.bw.putRun p) :=
      bwWriteBytesCore_fits (s := s.begin .ok) hfit
    rw [hbody]
    exact ⟨onlyUnit_setBw s .ok _, herr, rfl, rfl, rfl, (Bw.putRun_spec hinv.bwBuf p hfit).2⟩
  · obtain ⟨hbw, htook, -⟩ := bwWriteBytesCore_accepted hbegin herr hfull ha
    have hbw' : (bodyOf (.bwWriteBytes p) (s.begin .ok)).retire.bw =
        { s.bw.flushed s.cfg.cW with pos := s.bw.cur + p.length } := hbw
    rw [hbw']
    exact ⟨⟨htook.raw, htook.cwa⟩, herr, rfl, rfl, rfl, hinv.bwBuf.bits_flushed hinv.writeInv.capacity⟩
  · obtain ⟨hferr, hcur, hbit, hbits, hout⟩ := bwWriteBytesCore_refused hbegin herr hfull hr
    exact ⟨hferr, hcur, hbit, hbits, hout⟩

/-! ## The write channel does not see the host's index (rule R131) -/

theorem rawOutWrite_retire (l : List Byte) (s : State) :
    rawOutWrite l s.retire = ((rawOutWrite l s).1, (rawOutWrite l s).2.retire) := rfl

theorem cwaFlushCore_retire (final : Bool) (s : State) :
    cwaFlushCore final s.retire = (cwaFlushCore final s).retire := by
  unfold cwaFlushCore
  dsimp only [State.retire_cwa, rawOutWrite_retire]
  split
  · rfl
  · split <;> rfl

theorem cwaPutBytes_retire (l : List Byte) (s : State) :
    cwaPutBytes l s.retire = ((cwaPutBytes l s).1, (cwaPutBytes l s).2.retire) := by
  induction l generalizing s with
  | nil => rfl
  | cons c rest ih =>
    have hset (u : Cwa) : s.retire.setCwa u = (s.setCwa u).retire := rfl
    simp only [cwaPutBytes, State.retire_cwa, hset, State.retire_cfg, cwaFlushCore_retire, ih]
    split
    · split <;> rfl
    · rfl

theorem cwaWriteCore_retire (l : List Byte) (s : State) :
    cwaWriteCore l s.retire = ((cwaWriteCore l s).1, (cwaWriteCore l s).2.retire) := by
  simp only [cwaWriteCore, State.retire_cwa, cwaPutBytes_retire]
  split <;> rfl

theorem cwaFlushBody_retire (s : State) : cwaFlushBody s.retire = (cwaFlushBody s).retire := by
  simp only [cwaFlushBody, State.retire_cwa, cwaFlushCore_retire]
  split <;> rfl

theorem dswWrite_retire (l : List Byte) (s : State) :
    dswWrite l s.retire = ((dswWrite l s).1, (dswWrite l s).2.retire) := by
  simp only [dswWrite, State.retire_cfg, State.retire_cwa, cwaWriteCore_retire]
  split
  · rfl
  · split <;> rfl

theorem dswFlush_retire (s : State) : dswFlush s.retire = (dswFlush s).retire := by
  simp only [dswFlush, State.retire_cfg, State.retire_cwa, cwaFlushBody_retire]
  split
  · rfl
  · split <;> rfl

theorem bwFlushEnd_retire (s : State) : bwFlushEnd s.retire = (bwFlushEnd s).retire := by
  simp only [bwFlushEnd, dswFlush_retire]
  rfl

theorem bwFlush_retire (s : State) : bwFlush s.retire = (bwFlush s).retire := by
  simp only [bwFlush, State.retire_bw, dswWrite_retire, bwFlushEnd_retire]
  split
  · rfl
  · split <;> rfl

theorem bwMakeRoom_retire (need : Nat) (s : State) : bwMakeRoom need s.retire = (bwMakeRoom need s).retire := by
  simp only [bwMakeRoom, State.retire_cfg, State.retire_bw, bwFlush_retire]
  split <;> rfl

theorem bwStore_retire (need : Nat) (put : Bw → Bw) (s : State) :
    bwStore need put s.retire = (bwStore need put s).retire := by
  simp only [bwStore, bwMakeRoom_retire, State.retire_bw]
  split <;> rfl

theorem bwWriteByte_retire (v : Byte) (s : State) : bwWriteByte v s.retire = (bwWriteByte v s).retire :=
  bwStore_retire (1 + partialByte s.bw.bit) (fun u => u.putRun (leBytes 1 v)) s

/-! ## WRITE_STRING (rule R227) -/

/-- One end of the command cycle, where there were two. -/
theorem State.retire_retire_with_pc {s : State} {n : Nat} (h : s.pc = n) :
    { s.retire.retire with pc := n + 1 } = s.retire := by
  subst h
  rfl

/-- The command cycle starts from a state with cleared results as it is. -/
theorem State.begin_eq_self {s : State} (hr : s.r = 0) (hdata : s.dataOut = []) (hstatus : s.status = .ok) :
    s.begin .ok = s := by
  cases s
  subst hr hdata hstatus
  rfl

theorem bwWriteString_of_failed {p : List Byte} {s : State} (he : (bwWriteBytesCore p s).bw.err ≠ .noError) :
    bwWriteString p s = bwWriteBytesCore p s := if_pos he

theorem bwWriteString_of_written {p : List Byte} {s : State} (he : (bwWriteBytesCore p s).bw.err = .noError) :
    bwWriteString p s = bwWriteByte 0 (bwWriteBytesCore p s) := if_neg (not_not_intro he)

/-- A string and its NUL that both fit are one run of bytes in the buffer. -/
theorem bwWriteString_fits {p : List Byte} {s : State} (he : s.bw.err = .noError)
    (hfit : s.bw.idx + p.length + 1 + partialByte s.bw.bit ≤ s.cfg.cW) :
    bwWriteString p s = s.setBw ((s.bw.putRun p).putRun [0]) := by
  have hbytes : bwWriteBytesCore p s = s.setBw (s.bw.putRun p) := bwWriteBytesCore_fits (by omega)
  obtain ⟨-, -, -, hnul⟩ := bodyOf_integerWrite (i := .bwWriteByte 0) rfl
  rw [bwWriteString_of_written (by rw [hbytes]; exact he), hbytes]
  refine (hnul _).trans (bwStore_fits ?_ he)
  simp
  omega

/-- Settles O46: WRITE_STRING is the body of WRITE_BYTES and, unless it failed, the body of WRITE_BYTE in one cycle. -/
theorem writeStringAppendsNul : Obligations.WriteStringAppendsNul := by
  intro s p hinv hready
  have hwf := hinv.launch.rawOut_wf
  obtain ⟨hexec, hcompleted, hsame⟩ := exec_of_streamBytes (i := .bwWriteString p) rfl hready hwf
  obtain ⟨hbytes, hbytesDone, hbytesSame⟩ := exec_of_streamBytes (i := .bwWriteBytes p) rfl hready hwf
  refine ⟨_, _, hexec, hcompleted, hsame, hbytes, fun he => ?_, fun he => ?_, fun hfit => ?_⟩
  · exact congrArg State.retire (bwWriteString_of_failed he)
  · have hu : (bodyOf (.bwWriteBytes p) (s.begin .ok)).retire.ready .bw := ⟨hbytesSame.live.trans hready.1, he⟩
    refine ⟨_, exec_ready (i := .bwWriteByte 0) rfl hu, ?_⟩
    rw [State.begin_eq_self hbytesDone.result hbytesDone.dataOut hbytesDone.status]
    have hbody : bodyOf (.bwWriteByte 0) (bodyOf (.bwWriteBytes p) (s.begin .ok)).retire =
        (bwWriteString p (s.begin .ok)).retire := by
      rw [bwWriteString_of_written he]
      exact bwWriteByte_retire 0 _
    rw [hbody]
    exact (State.retire_retire_with_pc (by simp)).symm
  · have hbody : bodyOf (.bwWriteString p) (s.begin .ok) = (s.begin .ok).setBw ((s.bw.putRun p).putRun [0]) :=
      bwWriteString_fits (s := s.begin .ok) hready.2 hfit
    have hrun := Bw.putRun_spec hinv.bwBuf p (by omega)
    have hnul := Bw.putRun_spec hrun.1 [0] (by simp; omega)
    rw [hbody]
    refine ⟨onlyUnit_setBw s .ok _, hready.2, rfl, rfl, rfl, ?_⟩
    exact hnul.2.trans (congrArg (· ++ [0]) hrun.2)

/-! ## FLUSH (rules R220, R229) -/

theorem bwFlushEnd_log_of_raw {s : State} (hd : s.cfg.bwDst = .raw) :
    (bwFlushEnd s).log = s.log ++ [.flush .rawOut] := by
  simp [bwFlushEnd, dswFlush, hd, rawOutFlush]

/-- The events of a flush over `RAW_OUT` (rule R80): one write, unless there is nothing to send, and the flush. -/
theorem bwFlush_log_of_raw {s : State} (hd : s.cfg.bwDst = .raw) (hbuf : BwBuf s.bw s.cfg.cW) :
    (bwFlush s).log =
      s.log ++ (if s.bw.pending = [] then [] else [.write .rawOut s.bw.pending]) ++ [.flush .rawOut] := by
  have hlen := Bw.pending_length hbuf.length hbuf.idx_le hbuf.room
  have hwr : dswWrite s.bw.pending s = rawOutWrite s.bw.pending s := by simp only [dswWrite, hd]
  by_cases hnil : s.bw.pending = []
  · rw [hnil, List.length_nil] at hlen
    rw [if_pos hnil, List.append_nil, bwFlush, if_pos hlen.symm]
    exact bwFlushEnd_log_of_raw hd
  · have h0 : s.bw.idx + partialByte s.bw.bit ≠ 0 := fun h => hnil (List.length_eq_zero_iff.1 (hlen.trans h))
    have hsent : bwFlush s = bwFlushEnd (rawOutWrite s.bw.pending s).2 := by
      simp only [bwFlush, if_neg h0, hwr]
      exact if_neg (Nat.not_lt.2 hlen.symm.le)
    rw [if_neg hnil, hsent, bwFlushEnd_log_of_raw (s := (rawOutWrite s.bw.pending s).2) hd]
    rfl

/-- Settles O48: the flush goes through, or the downstream refuses it. -/
theorem writerFlushSendsPendingBytes : Obligations.WriterFlushSendsPendingBytes := by
  intro s hinv hready
  obtain ⟨hexec, hcompleted, hsame⟩ := exec_of_streamBytes (i := .bwFlush) rfl hready hinv.launch.rawOut_wf
  have hbegin := hinv.begin .ok
  refine ⟨_, hexec, hcompleted, hsame, fun ha => ?_, fun hd => ?_, fun hn h0 => ?_⟩
  · obtain ⟨hbw, htook, -, hcwa, hunsent⟩ := bwFlush_accepted hbegin.sinkOk hbegin.bw.buf_length hbegin.bw.idx_le_cap
      hbegin.bw.partial_room ha
    have hbw' : (bodyOf .bwFlush (s.begin .ok)).retire.bw = s.bw.flushed s.cfg.cW := hbw
    rw [hbw']
    exact ⟨⟨htook.raw, htook.cwa⟩, hready.2, rfl, rfl, rfl, hinv.bwBuf.bits_flushed hinv.writeInv.capacity, hcwa,
      hunsent⟩
  · exact bwFlush_log_of_raw (s := s.begin .ok) hd hinv.bwBuf
  · obtain ⟨hferr, hcur, hbit, hbits, hout⟩ := bwFlush_failed (s := s.begin .ok) hready.2 hn h0
    obtain ⟨hbw, -, hcwa⟩ := bwFlush_refused (s := s.begin .ok) hn h0
    refine ⟨⟨hferr, hcur, hbit, hbits, hout⟩, (congrArg Bw.pos hbw).trans rfl, (congrArg Cwa.err hcwa).trans ?_⟩
    exact apply_ite Cwa.err _ _ _

/-! ## The partial byte (rule R233) -/

/-- A field that the buffer has room for is stored, the empty one too (rule R221). -/
theorem bwWriteBits_fits {n : BitVec 6} {v : Word32} {s : State} (he : s.bw.err = .noError)
    (hfit : s.bw.idx + bytesTouched s.bw.bit n.toNat ≤ s.cfg.cW) :
    bwWriteBits n v s = s.setBw (s.bw.putBits v n.toNat) := by
  by_cases h0 : n = 0
  · subst h0
    rfl
  · exact (bodyOf_bwWriteBits h0 v s).trans (bwStore_fits hfit he)

theorem drop_eq_byteAt_cons {l : List Byte} {k : Nat} (h : k < l.length) :
    l.drop k = byteAt l k :: l.drop (k + 1) := by
  rw [List.drop_eq_getElem_cons h]
  simp [byteAt, h]

/-- The bytes a flush sends are those that hold the bits written (rule R220). -/
theorem Bw.idx_add_partialByte (u : Bw) : u.idx + partialByte u.bit = (8 * u.idx + u.bit.val + 7) / 8 := by
  have hbit := u.bit.isLt
  unfold partialByte
  split
  · next h0 =>
    rw [h0]
    simp
    omega
  · next hne =>
    have hpos : u.bit.val ≠ 0 := fun h0 => hne (Fin.ext h0)
    omega

/-- The last of the bytes pending. -/
theorem Bw.pending_eq_concat {u : Bw} {k : Nat} (hk : u.idx + partialByte u.bit = k + 1) (hlen : k < u.buf.length) :
    u.pending = sliceBytes u.buf 0 k ++ [byteAt u.buf k] := by
  rw [Bw.pending, hk, sliceBytes_add, sliceBytes.eq_1 _ (0 + k), Nat.zero_add, drop_eq_byteAt_cons hlen]
  rfl

/-- The bits held from byte `k` on, where they end within that byte, are its first ones. -/
theorem Bw.bits_drop_of_byte {u : Bw} {k m : Nat} (hm : 8 * u.idx + u.bit.val = 8 * k + m) (hm8 : m ≤ 8)
    (hlen : k < u.buf.length) : u.bits.drop (8 * k) = (bitsOfByte (byteAt u.buf k)).take m := by
  rw [Bw.bits, hm, List.drop_take, Nat.add_sub_cancel_left, bitsOf_drop, drop_eq_byteAt_cons hlen, bitsOf_cons,
    List.take_append_of_le_length (by rw [bitsOfByte_length]; exact hm8)]

/-- FLUSH over `RAW_OUT` (rules R220, R229). -/
theorem exec_bwFlush_of_raw {s : State} (hr : s.ready .bw) (hd : s.cfg.bwDst = .raw) (hok : SinkOk s)
    (hbuf : BwBuf s.bw s.cfg.cW) :
    ∃ t, exec .bwFlush s = .next t ∧ t.rawOut = s.rawOut.append s.bw.pending ∧ t.bw = s.bw.flushed s.cfg.cW ∧
      t.cfg = s.cfg ∧ t.cwa = s.cwa := by
  obtain ⟨hbw, htook, -⟩ := bwFlush_accepted (s := s.begin .ok) (hok.congr rfl rfl) hbuf.length hbuf.idx_le hbuf.room
    (.inl (.inl hd))
  exact ⟨_, exec_ready (i := .bwFlush) rfl hr, htook.raw hd, hbw, (bodyOf_launch .bwFlush (s.begin .ok)).1,
    bwFlush_cwa_of_raw (s := s.begin .ok) hd⟩

/-- WRITE_BITS of a field that the buffer has room for (rule R221). -/
theorem exec_bwWriteBits_fits {n : BitVec 6} {v : Word32} {s : State} (hr : s.ready .bw)
    (hfit : s.bw.idx + bytesTouched s.bw.bit n.toNat ≤ s.cfg.cW) :
    exec (.bwWriteBits n v) s = .next ((s.begin .ok).setBw (s.bw.putBits v n.toNat)).retire := by
  have hbody : bodyOf (.bwWriteBits n v) (s.begin .ok) = (s.begin .ok).setBw (s.bw.putBits v n.toNat) :=
    bwWriteBits_fits (s := s.begin .ok) hr.2 hfit
  rw [exec_ready (i := .bwWriteBits n v) rfl hr, hbody]

/-- A field that ends within the first byte of the buffer, and a flush: that byte is sent, with the bits it held and the
field (rules R71, R220, R221). -/
theorem exec_bwWriteBits_bwFlush_of_raw {t : State} {n : BitVec 6} {v : Word32} (hr : t.ready .bw)
    (hd : t.cfg.bwDst = .raw) (hok : SinkOk t) (hbuf : BwBuf t.bw t.cfg.cW) (h8 : 8 ≤ t.cfg.cW) (hidx : t.bw.idx = 0)
    (hsome : t.bw.bit.val + n.toNat ≠ 0) (hn : t.bw.bit.val + n.toNat ≤ 8) :
    ∃ u w y, exec (.bwWriteBits n v) t = .next u ∧ exec .bwFlush u = .next w ∧ w.rawOut = t.rawOut.append [y] ∧
      (bitsOfByte y).take (t.bw.bit.val + n.toNat) = t.bw.bits ++ fieldOf n.toNat v := by
  have hwrite := exec_bwWriteBits_fits (n := n) (v := v) hr (by rw [bytesTouched_eq]; omega)
  obtain ⟨hubuf, hubits, hucur⟩ := Bw.putBits_spec hbuf v n.toNat (by omega)
  have huready : ((t.begin .ok).setBw (t.bw.putBits v n.toNat)).retire.ready .bw :=
    ⟨by simpa using hr.1, by simpa using hr.2⟩
  obtain ⟨w, hflush, hwout, -⟩ := exec_bwFlush_of_raw huready hd (hok.congr rfl rfl) hubuf
  have hulen := hubuf.length
  have hpending := (t.bw.putBits v n.toNat).pending_eq_concat (k := 0) (by rw [Bw.idx_add_partialByte]; omega) (by omega)
  refine ⟨_, w, byteAt (t.bw.putBits v n.toNat).buf 0, hwrite, hflush, hwout.trans ?_, ?_⟩
  · exact congrArg t.rawOut.append hpending
  · rw [← Bw.bits_drop_of_byte (k := 0) (by omega) hn (by omega), Nat.mul_zero, List.drop_zero, hubits]

/-- Settles O50: the first flush carries the partial byte to the front of the buffer, where the field follows it, and the
second sends it from there. -/
theorem partialByteIsSentAgain : Obligations.PartialByteIsSentAgain := by
  intro s n v hinv hready hd hbit hn
  have hbuf := hinv.bwBuf
  have h8 := hinv.writeInv.capacity
  have hlen := hbuf.length
  have hroom := hbuf.room hbit
  have hbitPos : s.bw.bit.val ≠ 0 := fun h0 => hbit (Fin.ext h0)
  obtain ⟨t, hflush, htout, htbw, htcfg, htcwa⟩ := exec_bwFlush_of_raw hready hd hinv.sinkOk hbuf
  have htbit : t.bw.bit = s.bw.bit := by rw [htbw]; rfl
  obtain ⟨u, w, y, hwrite, hflush', hwout, hy⟩ := exec_bwWriteBits_bwFlush_of_raw (t := t) (n := n) (v := v)
    (by rw [State.ready, State.liveOf_bw, State.errOf_bw, htbw]; exact hready) (htcfg ▸ hd)
    (hinv.sinkOk.congr htcfg htcwa) (by rw [htbw, htcfg]; exact hbuf.flushed h8) (htcfg ▸ h8) (by rw [htbw]; rfl)
    (by omega) (htbit ▸ hn)
  refine ⟨t, u, w, byteAt s.bw.buf s.bw.idx, y, hflush, hwrite, hflush', ?_, ?_, ?_⟩
  · rw [hwout, htout, Memory.append_append,
      Bw.pending_eq_concat (k := s.bw.idx) (by rw [Bw.idx_add_partialByte]; omega) (by omega)]
  · exact (Bw.bits_drop_of_byte rfl (by omega) (by omega)).symm
  · rw [htbit, htbw, hbuf.bits_flushed h8] at hy
    exact hy

end Sys2Proof.Machine
end

section
/-! PROOFS. MARK, UNMARK and CHECK of `BW` (rules R230 to R232), and the position of `BW`, which no command but INIT moves
back (rule R237). -/

namespace Sys2Proof.Machine

/-! ## MARK, UNMARK and CHECK -/

/-- A command of `BW` that ends in an error it raises itself. -/
theorem raiseBw_of_noError {s : State} (h : s.bw.err = .noError) (code : Err) :
    raise .bw code (s.begin .ok) = (s.begin .ok).setBw { s.bw with err := code } := by
  rw [raise_bw, State.begin_bw, h, latch_noError]

theorem exec_bwMark {s : State} (h : s.ready .bw) :
    exec .bwMark s =
      .next ((s.begin .ok).setBw (if s.bw.marks.length = s.cfg.markDepth then { s.bw with err := .badArguments }
        else { s.bw with marks := s.bw.marks ++ [⟨s.bw.cur, s.bw.bit⟩] })).retire := by
  rw [exec_ready (i := .bwMark) rfl h]
  simp only [bodyOf, bwMark, State.begin_bw, State.begin_cfg, raiseBw_of_noError h.2]
  split <;> rfl

theorem exec_bwUnmark_empty {s : State} (h : s.ready .bw) (hempty : s.bw.marks = []) :
    exec .bwUnmark s = .next ((s.begin .ok).setBw { s.bw with err := .badArguments }).retire := by
  have hbody : bodyOf .bwUnmark (s.begin .ok) = raise .bw .badArguments (s.begin .ok) :=
    if_pos (congrArg List.length hempty)
  rw [exec_ready (i := .bwUnmark) rfl h, hbody, raiseBw_of_noError h.2]

theorem exec_bwUnmark_top {s : State} (h : s.ready .bw) {rest : List Mark} {e : Mark} (htop : s.bw.marks = rest ++ [e]) :
    exec .bwUnmark s = .next ((s.begin .ok).setBw { s.bw with marks := rest }).retire := by
  have hbody : bodyOf .bwUnmark (s.begin .ok) = (s.begin .ok).setBw { s.bw with marks := s.bw.marks.dropLast } :=
    if_neg (by simp [htop])
  rw [exec_ready (i := .bwUnmark) rfl h, hbody, htop, List.dropLast_concat]

theorem exec_bwCheck_empty {s : State} (h : s.ready .bw) (hempty : s.bw.marks = []) (expected : Word64) :
    exec (.bwCheck expected) s = .next ((s.begin .ok).setBw { s.bw with err := .badArguments }).retire := by
  have hbody : bodyOf (.bwCheck expected) (s.begin .ok) = raise .bw .badArguments (s.begin .ok) := by
    simp only [bodyOf, bwCheck, State.begin_bw, hempty, topMark_nil]
  rw [exec_ready (i := .bwCheck expected) rfl h, hbody, raiseBw_of_noError h.2]

theorem exec_bwCheck_top {s : State} (h : s.ready .bw) {rest : List Mark} {e : Mark} (htop : s.bw.marks = rest ++ [e])
    (expected : Word64) :
    exec (.bwCheck expected) s =
      .next ((s.begin .ok).setR (BitVec.ofInt 64 (((s.bw.cur : Int) - e.mbyte) - expected.toInt))).retire := by
  rw [exec_ready (i := .bwCheck expected) rfl h]
  simp only [bodyOf, bwCheck, State.begin_bw, htop, topMark_concat]
  rfl

/-- Settles O49: a full and an empty stack raise; any other is pushed to, popped, or looked at. -/
theorem writerMarkUnmarkAndCheck : Obligations.WriterMarkUnmarkAndCheck := by
  intro s expected hready
  refine ⟨by decide, by decide, rfl, rfl, ?_, ?_, fun hempty => ?_, fun rest e htop => ?_⟩
  · exact ⟨_, exec_bwMark hready, ⟨rfl, rfl, rfl, rfl⟩, onlyUnit_setBw s .ok _, rfl⟩
  · rcases List.eq_nil_or_concat' s.bw.marks with hempty | ⟨rest, e, htop⟩
    · exact ⟨_, exec_bwUnmark_empty hready hempty, ⟨rfl, rfl, rfl, rfl⟩, onlyUnit_setBw s .ok _, fun _ => rfl,
        fun rest e htop => by simp [hempty] at htop⟩
    · refine ⟨_, exec_bwUnmark_top hready htop, ⟨rfl, rfl, rfl, rfl⟩, onlyUnit_setBw s .ok _,
        fun hempty => by simp [hempty] at htop, fun rest' e' htop' => ?_⟩
      rw [(List.append_inj' (htop.symm.trans htop') rfl).1]
      rfl
  · exact ⟨_, exec_bwCheck_empty hready hempty expected, ⟨rfl, rfl, rfl, rfl⟩, onlyUnit_setBw s .ok _, rfl⟩
  · exact ⟨_, exec_bwCheck_top hready htop expected, ⟨rfl, rfl, rfl, rfl⟩, untouched_setR_retire s .ok _⟩

/-! ## The position of `BW` (rule R237) -/

theorem Bw.cur_le_putBit (u : Bw) (b : Bool) : u.cur ≤ (u.putBit b).cur := by
  unfold Bw.putBit
  dsimp only
  split
  · exact Nat.le_succ (u.pos + u.idx)
  · exact Nat.le_refl _

theorem Bw.cur_le_putBits (u : Bw) (v : Word32) (n : Nat) : u.cur ≤ (u.putBits v n).cur := by
  induction n generalizing u with
  | zero => exact Nat.le_refl _
  | succ n ih => exact (u.cur_le_putBit _).trans (ih _)

/-- A flush empties the buffer or raises: the logical position stays (rule R220). -/
theorem bwFlush_cur (s : State) : (bwFlush s).bw.cur = s.bw.cur := by
  have hend {t : State} (ht : t.bw = s.bw) : (bwFlushEnd t).bw.cur = s.bw.cur := by
    simp [bwFlushEnd, ht]
  unfold bwFlush
  dsimp only
  split
  · exact hend rfl
  · split
    · simp [Bw.cur]
    · exact hend (by simp)

theorem bwStore_cur_le {need : Nat} {put : Bw → Bw} (hput : ∀ u, u.cur ≤ (put u).cur) (s : State) :
    s.bw.cur ≤ (bwStore need put s).bw.cur := by
  have hroom : (bwMakeRoom need s).bw.cur = s.bw.cur := by
    unfold bwMakeRoom
    split
    · exact bwFlush_cur s
    · rfl
  unfold bwStore
  dsimp only
  split
  · exact hroom.ge
  · exact hroom.symm.trans_le (hput _)

theorem bwWriteLE_cur_le {w : Nat} (k : Nat) (v : BitVec w) (s : State) : s.bw.cur ≤ (bwWriteLE k v s).bw.cur :=
  bwStore_cur_le (fun u => (Nat.le_add_right _ _).trans_eq (u.putRun_cur _).symm) s

theorem bwWriteBytesCore_cur_le (l : List Byte) (s : State) : s.bw.cur ≤ (bwWriteBytesCore l s).bw.cur := by
  have hfl := bwFlush_cur s
  have hwr : (dswWrite l (bwFlush s)).2.bw.cur = s.bw.cur := by simpa using hfl
  unfold bwWriteBytesCore
  dsimp only
  split
  · exact (Nat.le_add_right _ _).trans_eq (s.bw.putRun_cur l).symm
  · split
    · exact hfl.ge
    · split
      · exact hwr.ge
      · refine hwr.ge.trans ?_
        simp only [State.setBw_bw, Bw.cur]
        omega

/-- No body but INIT moves the writer back. -/
theorem bodyOf_bw_cur_le {i : Instr} (hi : i ≠ .bwInit) (s : State) : s.bw.cur ≤ (bodyOf i s).bw.cur := by
  cases i with
  | bwInit => exact absurd rfl hi
  | bwRelease | bwGetError => exact Nat.le_refl _
  | bwWriteBits n v =>
    simp only [bodyOf, bwWriteBits]
    split
    · exact Nat.le_refl _
    · exact bwStore_cur_le (fun u => u.cur_le_putBits v _) s
  | bwWriteByte v | bwWriteShort v | bwWriteInt v => exact bwWriteLE_cur_le _ v s
  | bwWriteBytes p => exact bwWriteBytesCore_cur_le p s
  | bwWriteString p =>
    have hwr := bwWriteBytesCore_cur_le p s
    simp only [bodyOf, bwWriteString]
    split
    · exact hwr
    · exact hwr.trans (bwWriteLE_cur_le 1 _ _)
  | bwAlign =>
    simp only [bodyOf, bwAlign]
    split
    · exact Nat.le_refl _
    · exact Nat.le_succ (s.bw.pos + s.bw.idx)
  | bwFlush => exact (bwFlush_cur s).ge
  | bwMark => simp only [bodyOf, bwMark]; split <;> exact Nat.le_refl _
  | bwUnmark => simp only [bodyOf, bwUnmark]; split <;> exact Nat.le_refl _
  | bwCheck _ => simp only [bodyOf, bwCheck]; split <;> exact Nat.le_refl _
  | cwaInit _ _ | cwaRelease | cwaGetError | cwaWrite _ | cwaFlush | cwaSeal =>
    exact (congrArg Bw.cur (bodyOf_bw_of_cwa rfl s)).ge
  | craInit _ _ _ _ | craRelease | craGetError | craRead _ | craSeek _ _ | craTell | craEof =>
    exact (congrArg Bw.cur (bodyOf_writeSide (.inr rfl) s).bw).ge
  | _ => exact (congrArg Bw.cur (bodyOf_writeSide (.inl rfl) s).bw).ge

/-- Settles O21: a command runs its body, or is turned away and leaves `BW` as it was. -/
theorem writerPositionIsMonotone : Obligations.WriterPositionIsMonotone := by
  intro i s t hi hx
  rcases exec_cases hx with ⟨-, rfl⟩ | ⟨-, -, rfl⟩ | ⟨-, -, rfl⟩
  · exact Nat.le_refl _
  · exact Nat.le_refl _
  · exact bodyOf_bw_cur_le hi (s.begin .ok)

end Sys2Proof.Machine
end

section
/-! PROOFS. RELEASE, TELL and EOF of `CRA` (rules R264 to R266). -/

namespace Sys2Proof.Machine

/-! ## RELEASE of `CRA` -/

/-- RELEASE writes `live` and the event log alone, with the one event that its ownership calls for (rule R266). -/
theorem craRelease_eq (s : State) :
    craRelease s = { s with
      cra := { s.cra with live := false }
      log := s.log ++ if s.cra.own = true then [.release .rawIn] else [] } := by
  by_cases hown : s.cra.own = true
  · simp only [craRelease, if_pos hown]
    rfl
  · simp only [craRelease, if_neg hown, List.append_nil]
    rfl

/-- Settles O26: RELEASE runs whatever the error of the unit, and writes `live` and the event log alone. -/
theorem craReleaseRecordsOwnership : Obligations.CraReleaseRecordsOwnership := by
  refine ⟨by decide, fun s hlive => ⟨_, exec_release (i := .craRelease) rfl hlive, ?_⟩⟩
  have hbody : bodyOf .craRelease (s.begin .ok) = _ := craRelease_eq (s.begin .ok)
  rw [hbody]
  exact ⟨⟨rfl, rfl, rfl, rfl⟩, ⟨rfl, rfl, rfl⟩, ⟨rfl, rfl, rfl⟩, .of_eq rfl rfl, rfl, rfl, rfl, rfl⟩

/-! ## TELL and EOF of `CRA` -/

/-- The end of the stream is every position at or past its length (rule R265). -/
theorem Cra.atEnd_iff {c : Cra} : c.atEnd = true ↔ c.length ≤ c.pos := decide_eq_true_iff

theorem exec_craTell {s : State} (h : s.ready .cra) :
    exec .craTell s = .next ((s.begin .ok).setR (BitVec.ofNat 64 s.cra.pos)).retire :=
  exec_ready (i := .craTell) rfl h

theorem exec_craEof {s : State} (h : s.ready .cra) :
    exec .craEof s = .next ((s.begin .ok).setR (if s.cra.length ≤ s.cra.pos then 1 else 0)).retire := by
  rw [exec_ready (i := .craEof) rfl h]
  simp only [bodyOf, craEof, State.begin_cra, Cra.atEnd_iff]

/-- Settles O54: TELL and EOF write `R` alone. -/
theorem craTellAndEof : Obligations.CraTellAndEof := fun s hready =>
  ⟨⟨_, exec_craTell hready, ⟨rfl, rfl, rfl, rfl⟩, untouched_setR_retire s .ok _⟩,
    ⟨_, exec_craEof hready, ⟨rfl, rfl, rfl, rfl⟩, untouched_setR_retire s .ok _⟩⟩

end Sys2Proof.Machine
end

section
/-! PROOFS. WRITE, FLUSH, SEAL and RELEASE of `CWA`: what each sends, keeps and records (rules R290 to R293, R295). -/

namespace Sys2Proof.Machine

/-! ## What every command of `CWA` keeps -/

/-- INIT alone sets the ownership and the schedule of `CWA` (rule R294). -/
theorem bodyOf_cwa_own_sched {i : Instr} (hu : i.unit = .cwa) (hi : i.cls ≠ .init) (s : State) :
    (bodyOf i s).cwa.own = s.cwa.own ∧ (bodyOf i s).cwa.sched = s.cwa.sched := by
  cases i with
  | cwaInit _ _ => exact absurd rfl hi
  | cwaGetError => exact ⟨rfl, rfl⟩
  | cwaRelease =>
    simp only [bodyOf, cwaRelease]
    split
    · split <;> simp
    · split <;> exact ⟨rfl, rfl⟩
  | cwaWrite _ | cwaFlush | cwaSeal => simp [bodyOf, cwaWrite]
  | _ => cases hu

/-- The frame of the commands of `CWA` (rule R48). -/
theorem exec_sameForCwa {i : Instr} (hu : i.unit = .cwa) (hi : i.cls ≠ .init) {s t : State} (h : exec i s = .next t) :
    SameForCwa s t := by
  obtain ⟨hbw, hown, hsched⟩ : t.bw = s.bw ∧ t.cwa.own = s.cwa.own ∧ t.cwa.sched = s.cwa.sched := by
    rcases exec_cases h with ⟨-, rfl⟩ | ⟨-, -, rfl⟩ | ⟨-, -, rfl⟩
    · exact ⟨rfl, rfl, rfl⟩
    · exact ⟨rfl, rfl, rfl⟩
    · exact ⟨bodyOf_bw_of_cwa hu (s.begin .ok), bodyOf_cwa_own_sched hu hi (s.begin .ok)⟩
  exact ⟨(exec_advances h).2, exec_readSide (.inr hu) h, hbw, hown, hsched, (exec_outGrows h).2⟩

/-! ## FLUSH and SEAL (rules R290, R292, R293) -/

/-- The events of a flush that sends `l` (rule R80): one write, unless there is nothing to send, and the flush. -/
def flushEvents (l : List Byte) : List Event := (if l = [] then [] else [.write .rawOut l]) ++ [.flush .rawOut]

/-- `FlushCore` as one update of the state (rule R290): it sends, keeps the rest, and records the events. -/
theorem cwaFlushCore_eq (final : Bool) {s : State} (h : s.cwa.nbuf ≤ s.cwa.wbuf.length) :
    cwaFlushCore final s = { s with
      rawOut := s.rawOut.append (s.cwa.sent final)
      cwa := s.cwa.flushed final
      log := s.log ++ flushEvents (s.cwa.sent final) } := by
  unfold cwaFlushCore flushEvents
  rw [Cwa.cipherText_eq h]
  by_cases h0 : s.cwa.sent final = []
  · simp [h0, cwaFlushEnd, rawOutFlush, State.addEvent, State.setCwa]
  · simp [h0, cwaFlushEnd, rawOutFlush, rawOutWrite, State.addEvent, State.setCwa, State.appendOut]

/-- The body of FLUSH before SEAL (rule R292). -/
theorem cwaFlushBody_of_open {s : State} (hopen : s.cwa.sealed = false) : cwaFlushBody s = cwaFlushCore false s :=
  if_neg (by simp [hopen])

/-- The body of the first SEAL (rule R293): all of the unsent plaintext is sent, zero-padded, and the stream is closed. -/
theorem cwaSealBody_of_open {s : State} (hopen : s.cwa.sealed = false) (h : s.cwa.nbuf ≤ s.cwa.wbuf.length) :
    cwaSealBody s = { s with
      rawOut := s.rawOut.append (ecb s.cwa.sched s.cwa.unsent)
      cwa := { s.cwa.flushed true with sealed := true }
      log := s.log ++ flushEvents (ecb s.cwa.sched s.cwa.unsent) } := by
  rw [cwaSealBody, if_neg (by simp [hopen]), cwaFlushCore_eq true h]
  rfl

theorem Inv.nbuf_le {s : State} (h : Inv s) : s.cwa.nbuf ≤ s.cwa.wbuf.length := by
  rw [h.cwa.wbuf_length]
  exact h.cwa.nbuf_le

/-- Settles O57: after SEAL neither command runs `FlushCore`; before it, each is one `FlushCore`. -/
theorem cwaFlushAndSeal : Obligations.CwaFlushAndSeal := by
  intro s hinv hready
  have hflush := exec_ready (i := .cwaFlush) rfl hready
  have hseal := exec_ready (i := .cwaSeal) rfl hready
  have hbuf := hinv.nbuf_le
  refine ⟨fun hsealed => ?_, fun hopen => ⟨?_, ?_⟩⟩
  · have hidle : bodyOf .cwaFlush (s.begin .ok) = s.begin .ok := if_pos hsealed
    have hidle' : bodyOf .cwaSeal (s.begin .ok) = s.begin .ok := if_pos hsealed
    rw [hflush, hseal, hidle, hidle']
    exact ⟨⟨_, rfl, ⟨rfl, rfl, rfl, rfl⟩, untouched_begin_retire s .ok⟩,
      ⟨_, rfl, ⟨rfl, rfl, rfl, rfl⟩, untouched_begin_retire s .ok⟩⟩
  · have hbody := (cwaFlushBody_of_open (s := s.begin .ok) hopen).trans (cwaFlushCore_eq false hbuf)
    have hframe := exec_sameForCwa rfl (by decide) hflush
    obtain ⟨hunsent, -⟩ := Cwa.flushed_unsent hbuf false
    simp only [bodyOf, hbody] at hflush hframe
    rw [Cwa.unsent_length hbuf]
    exact ⟨_, _, hflush, ⟨rfl, rfl, rfl, rfl⟩, hframe, rfl, rfl, .of_append hinv.launch.rawOut_wf rfl rfl, hunsent,
      hready.1, hready.2, hopen, (List.append_assoc _ _ _).symm⟩
  · have hbody := cwaSealBody_of_open (s := s.begin .ok) hopen hbuf
    have hframe := exec_sameForCwa rfl (by decide) hseal
    simp only [bodyOf, hbody] at hseal hframe
    exact ⟨_, _, hseal, ⟨rfl, rfl, rfl, rfl⟩, hframe, rfl, rfl, .of_append hinv.launch.rawOut_wf rfl rfl, rfl,
      hready.1, hready.2, rfl, (List.append_assoc _ _ _).symm⟩

/-! ## RELEASE (rule R295) -/

/-- RELEASE after its automatic seal writes `live` and the event that the ownership calls for. -/
theorem cwaRelease_eq_autoSeal (s : State) :
    cwaRelease s = { autoSeal s with
      cwa := { (autoSeal s).cwa with live := false }
      log := (autoSeal s).log ++ if (autoSeal s).cwa.own = true then [.release .rawOut] else [] } := by
  rw [cwaRelease_eq]
  by_cases hown : (autoSeal s).cwa.own = true
  · simp only [if_pos hown]
    rfl
  · simp only [if_neg hown, List.append_nil]
    rfl

/-- Settles O27: RELEASE seals an open unit without error, and then only ends the unit. -/
theorem cwaReleaseSealsFirst : Obligations.CwaReleaseSealsFirst := by
  intro s hinv hlive
  have hexec := exec_release (i := .cwaRelease) rfl hlive
  have hframe := exec_sameForCwa rfl (by decide) hexec
  simp only [bodyOf, cwaRelease_eq_autoSeal] at hexec hframe
  by_cases hopen : s.cwa.err = .noError ∧ s.cwa.sealed = false
  · have hseal : autoSeal (s.begin .ok) = _ :=
      (if_pos hopen).trans (cwaSealBody_of_open (s := s.begin .ok) hopen.2 hinv.nbuf_le)
    simp only [hseal] at hexec hframe
    simp only [if_pos hopen]
    exact ⟨_, hexec, ⟨rfl, rfl, rfl, rfl⟩, hframe, rfl, rfl, .of_append hinv.launch.rawOut_wf rfl rfl, rfl⟩
  · have hidle : autoSeal (s.begin .ok) = s.begin .ok := if_neg hopen
    simp only [hidle] at hexec hframe
    have hout : s.rawOut = s.rawOut.append [] := (Memory.append_nil _).symm
    simp only [if_neg hopen, List.append_nil]
    exact ⟨_, hexec, ⟨rfl, rfl, rfl, rfl⟩, hframe, rfl, hout, .of_append hinv.launch.rawOut_wf rfl hout, rfl⟩

/-! ## WRITE (rule R291) -/

/-- WRITE after SEAL raises, and writes its unit alone. -/
theorem exec_cwaWrite_sealed {s : State} (h : s.ready .cwa) (hsealed : s.cwa.sealed = true) (p : List Byte) :
    exec (.cwaWrite p) s = .next ((s.begin .ok).setCwa { s.cwa with err := .streamIsClosed }).retire := by
  have hcore : cwaWriteCore p (s.begin .ok) = (0, raise .cwa .streamIsClosed (s.begin .ok)) := if_pos hsealed
  have hnone : s.cwa.err = .noError := h.2
  rw [exec_ready (i := .cwaWrite p) rfl h]
  simp only [bodyOf, cwaWrite, hcore, raise_cwa, State.begin_cwa, hnone, latch_noError]
  rfl

/-- WRITE before SEAL is its loop. -/
theorem exec_cwaWrite_open {s : State} (h : s.ready .cwa) (hopen : s.cwa.sealed = false) (p : List Byte) :
    exec (.cwaWrite p) s =
      .next ((cwaPutBytes p (s.begin .ok)).2.setR (resultNat (cwaPutBytes p (s.begin .ok)).1)).retire := by
  have hcore : cwaWriteCore p (s.begin .ok) = cwaPutBytes p (s.begin .ok) := if_neg (by simp [hopen])
  rw [exec_ready (i := .cwaWrite p) rfl h]
  simp only [bodyOf, cwaWrite, hcore]

/-- Settles O56: WRITE raises on a sealed stream; on an open one its loop accepts every byte. -/
theorem cwaWriteEncryptsFullBuffers : Obligations.CwaWriteEncryptsFullBuffers := by
  intro s p hinv hready
  have hexec := exec_ready (i := .cwaWrite p) rfl hready
  have hframe := exec_sameForCwa rfl (by simp [Instr.cls]) hexec
  refine ⟨_, hexec, hframe, ?_, ?_, fun hsealed => ?_, fun hopen => ?_⟩
  · simpa [bodyOf, cwaWrite] using hready.1
  · simp [bodyOf, cwaWrite]
  · have hx := hexec.symm.trans (exec_cwaWrite_sealed hready hsealed p)
    injection hx with ht
    rw [ht]
    exact ⟨⟨rfl, rfl, rfl, rfl⟩, onlyUnit_setCwa s .ok _, rfl⟩
  · have hx := hexec.symm.trans (exec_cwaWrite_open hready hopen p)
    injection hx with ht
    have hsink := hinv.sinkOk
    obtain ⟨hcount, herr, -, -, hunsent, hout⟩ := cwaPutBytes_spec p (s := s.begin .ok) hsink.wbuf_length hsink.multiple
      (hsink.nbuf_lt hready.2) hready.2
    rw [ht]
    simp only [List.length_append, Cwa.unsent_length hinv.nbuf_le]
    exact ⟨⟨by simp, by simp, congrArg resultNat hcount, by simp⟩, herr, hout,
      .of_append hinv.launch.rawOut_wf (by simp) hout, hunsent⟩

end Sys2Proof.Machine
end

section
/-! PROOFS. A latch only ever holds a code of its unit, whatever command runs (rule R321). -/

namespace Sys2Proof.Machine

/-- Settles O15: a command that the cycle turns away writes no latch, and every body keeps the latches to their codes. -/
theorem onlyListedErrorsAreRaised : Obligations.OnlyListedErrorsAreRaised := by
  intro i s t hexec hs
  rcases exec_cases hexec with ⟨-, rfl⟩ | ⟨-, -, rfl⟩ | ⟨-, -, rfl⟩
  · exact hs
  · exact hs
  · exact bodyOf_errorsInv i (s := s.begin .ok) hs

end Sys2Proof.Machine
end
